-- ==== Sys2Proof/Word.lean ====
section
/-! DEFINITION. The byte, the 16-bit revision, and `Tab`: a fixed number of like things (order slots,
traveller slots, platens, lines ...) held as plain data. -/

namespace Sys2Proof

/-- One byte of a frame (R140). -/
abbrev Byte := BitVec 8

/-- A 16-bit revision: it advances by one and wraps from 65,535 to 0 (R3, R22, R45). -/
abbrev Rev := BitVec 16

/-- A table of exactly `n` entries: the part's slots, platens, lines and ports, each reached by its number. -/
structure Tab (α : Type) (n : Nat) where
  items : List α
  len : items.length = n
  deriving DecidableEq, Repr

/-- Entry number `i`. -/
def Tab.get {α : Type} {n : Nat} (t : Tab α n) (i : Fin n) : α :=
  t.items.get (i.cast t.len.symm)

/-- The table with entry number `i` replaced. -/
def Tab.set {α : Type} {n : Nat} (t : Tab α n) (i : Fin n) (v : α) : Tab α n :=
  ⟨t.items.set i v, by simp [t.len]⟩

/-- The table whose entry number `i` is `f i`. -/
def Tab.ofFn {α : Type} {n : Nat} (f : Fin n → α) : Tab α n :=
  ⟨List.ofFn f, List.length_ofFn⟩

/-- The table with the same value in every entry. -/
def Tab.fill {α : Type} {n : Nat} (v : α) : Tab α n :=
  ⟨List.replicate n v, List.length_replicate⟩

/-- The entry number that a natural number names, if the table has it. -/
def fin? (n k : Nat) : Option (Fin n) :=
  if h : k < n then some ⟨k, h⟩ else none

end Sys2Proof
end

