-- ==== Sys2Proof/Syntax.lean ====
section
/-! DEFINITION. The commands of the part: one constructor per row of spec/opcode_table.json, with the operands
the row's rules give it. A command frame carries its port and its payload bytes just as they arrive (R140). -/

namespace Sys2Proof

/-- The five station ports, one role each (R139, Table 1-1). -/
inductive Port where
  | gateway | prep | engineA | engineB | tunnel
  deriving DecidableEq, Repr

/-- The two print engines (R95): A at position 6, B at position 8. -/
inductive Engine where
  | a | b
  deriving DecidableEq, Repr

/-- A side of the garment: the placement of a line item and the electrode it selects (R23, R80). -/
inductive Side where
  | front | back
  deriving DecidableEq, Repr

/-- The steps of the part (spec/95_what_each_step_holds.md), in the order of the table. -/
inductive Instr where
  /-- POWER_ON (R155). -/
  | powerOn
  /-- RESET_PIN (R155). -/
  | resetPin
  /-- READ (R142): `rest` is what the station clocks in after the first byte 0x00. -/
  | read (p : Port) (rest : List Byte)
  /-- LINK_RESET (R143): `rest` is what follows the four 0xFF bytes. -/
  | linkReset (p : Port) (rest : List Byte)
  /-- EMPTY_FRAME (R141). -/
  | emptyFrame (p : Port)
  /-- FRAME_MALFORMED (R141): the whole bytes received, and whether the frame ended in the middle of a byte. -/
  | frameMalformed (p : Port) (frame : List Byte) (midByte : Bool)
  /-- UNKNOWN_COMMAND (R144): a command byte that Table 12-2 does not list. -/
  | unknownCommand (p : Port) (code : Byte) (payload : List Byte)
  /-- IDENT (R144). -/
  | ident (p : Port) (payload : List Byte)
  /-- CAPTURE (R145). -/
  | capture (p : Port) (payload : List Byte)
  /-- READ_STAGE (R146). -/
  | readStage (p : Port) (payload : List Byte)
  /-- EDIT_STAGE (R147). -/
  | editStage (p : Port) (payload : List Byte)
  /-- UPDATE (R148). -/
  | update (p : Port) (payload : List Byte)
  /-- SERVICE (R152). -/
  | service (p : Port) (payload : List Byte)
  /-- REARM (R153). -/
  | rearm (p : Port) (payload : List Byte)
  /-- CLEAR_NOTICES (R154). -/
  | clearNotices (p : Port) (payload : List Byte)
  /-- SET_ENABLES (R154). -/
  | setEnables (p : Port) (payload : List Byte)
  /-- PLACE_ORDER (R25 to R27). -/
  | placeOrder (p : Port) (payload : List Byte)
  /-- CANCEL_ORDER (R38, R39). -/
  | cancelOrder (p : Port) (payload : List Byte)
  /-- RELEASE_ORDER (R37). -/
  | releaseOrder (p : Port) (payload : List Byte)
  /-- START (R156). -/
  | start (p : Port) (payload : List Byte)
  /-- STOP (R157). -/
  | stop (p : Port) (payload : List Byte)
  /-- HOLD (R158). -/
  | hold (p : Port) (payload : List Byte)
  /-- RESUME (R159, R60). -/
  | resume (p : Port) (payload : List Byte)
  /-- LINE_RESET (R160). -/
  | lineReset (p : Port) (payload : List Byte)
  /-- LINE_ASSIGN (R132). -/
  | lineAssign (p : Port) (payload : List Byte)
  /-- LINE_CONFIG (R133). -/
  | lineConfig (p : Port) (payload : List Byte)
  /-- LINE_SET (R134). -/
  | lineSet (p : Port) (payload : List Byte)
  /-- LINE_TOGGLE (R134). -/
  | lineToggle (p : Port) (payload : List Byte)
  /-- LINE_READ (R136). -/
  | lineRead (p : Port) (payload : List Byte)
  /-- LINE_FILTERED_EDGE (R135): the pin of line `l` has held its new level for the filter time. -/
  | lineFilteredEdge (l : Fin 24)
  /-- CLAIM (R48, R49). -/
  | claim (p : Port) (payload : List Byte)
  /-- RELEASE (R50). -/
  | release (p : Port) (payload : List Byte)
  /-- LOAD_GARMENT (R28 to R31). -/
  | loadGarment (p : Port) (payload : List Byte)
  /-- INDEX (R53): a filtered active edge of INDEX_PULSE. -/
  | index
  /-- CLAIM_WINDOW_EXPIRY (R51, R103): the claim-window timer at the print position of engine `e`. -/
  | claimWindowExpiry (e : Engine)
  /-- SPRAY (R66). -/
  | spray (p : Port) (payload : List Byte)
  /-- STROKE_ACTIVE_PHASE (R68): the first half of the stroke period is over. -/
  | strokeActivePhase
  /-- STROKE_DELIVERED (R68): the active phase of the stroke is over. -/
  | strokeDelivered
  /-- SPRAY_PASS_END (R69, R70): the stroke that brings the counter to the pass count is over. -/
  | sprayPassEnd
  /-- PUMP_FAULT (R72): a filtered active edge of PUMP_FAULT. -/
  | pumpFault
  /-- PUMP_FAULT_CLEAR (R71): a filtered inactive edge of PUMP_FAULT. -/
  | pumpFaultClear
  /-- GAUGE_DRY (R82, R83). -/
  | gaugeDry (p : Port) (payload : List Byte)
  /-- GAUGE_WET (R86). -/
  | gaugeWet (p : Port) (payload : List Byte)
  /-- GAUGE_OSC_EDGE (R80): a filtered active edge of the oscillator of electrode `e`. -/
  | gaugeOscEdge (e : Side)
  /-- DRY_PASS_END (R84): the edge that brings the gauge counter to N. -/
  | dryPassEnd
  /-- GAUGE_DRY_TIMEOUT (R85): the tick that would take the timebase beyond 1,048,575. -/
  | gaugeDryTimeout
  /-- WET_PASS_END (R87): the tick that brings the timebase to 0. -/
  | wetPassEnd
  /-- GAUGE_WET_OVERFLOW (R88): the edge that would take the gauge counter beyond 1,048,575. -/
  | gaugeWetOverflow
  /-- GAUGE_ABORT (R89). -/
  | gaugeAbort (p : Port) (payload : List Byte)
  /-- PRESS_DONE (R76, R77). -/
  | pressDone (p : Port) (payload : List Byte)
  /-- ENGINE_ONLINE (R108). -/
  | engineOnline (p : Port) (payload : List Byte)
  /-- ENGINE_OFFLINE (R109). -/
  | engineOffline (p : Port) (payload : List Byte)
  /-- ENGINE_FAULT (R106). -/
  | engineFault (p : Port) (payload : List Byte)
  /-- INK_REPORT (R111). -/
  | inkReport (p : Port) (payload : List Byte)
  /-- PRINT_DONE (R104, R105). -/
  | printDone (p : Port) (payload : List Byte)
  /-- CLEAN_START (R110). -/
  | cleanStart (p : Port) (payload : List Byte)
  /-- CLEAN_DONE (R110). -/
  | cleanDone (p : Port) (payload : List Byte)
  /-- TUNNEL_ENTRY (R118 to R120). -/
  | tunnelEntry (p : Port) (payload : List Byte)
  /-- UNLOAD_DONE (R61). -/
  | unloadDone (p : Port) (payload : List Byte)
  /-- ZONE_TEMPS (R122). -/
  | zoneTemps (p : Port) (payload : List Byte)
  /-- STALE_TIMER_EXPIRY (R123). -/
  | staleTimerExpiry
  /-- SAMPLE_TIMER_EXPIRY (R124, R125). -/
  | sampleTimerExpiry
  /-- ENCODER_PULSE (R116): a filtered active edge of BELT_ENC. -/
  | encoderPulse
  /-- TUNNEL_EXIT (R126): the encoder pulse that brings the head garment to the belt length. -/
  | tunnelExit
  /-- EXIT_POP (R19). -/
  | exitPop (p : Port) (payload : List Byte)
  /-- TIMEBASE_TICK (R79). -/
  | timebaseTick
  /-- PIN_CHANGE (R135): the level put on the pin of line `l` from outside changes to `level`. -/
  | pinChange (l : Fin 24) (level : Bool)
  deriving DecidableEq, Repr

end Sys2Proof
end

