-- ==== Sys2Proof/Decode.lean ====
section
/-! DEFINITION. Frames: what a port makes of the bytes it received (R141, R144, Table 12-2), and the frame that
carries a command. The opcode table gives its rows no bits. -/

namespace Sys2Proof

/-- Table 12-2: the command that a command byte names, or `none`. -/
def commandOf (p : Port) (code : Byte) (l : List Byte) : Option Instr :=
  match code.toNat with
  | 0x01 => some (.ident p l)
  | 0x02 => some (.capture p l)
  | 0x03 => some (.readStage p l)
  | 0x04 => some (.editStage p l)
  | 0x05 => some (.update p l)
  | 0x06 => some (.service p l)
  | 0x07 => some (.rearm p l)
  | 0x08 => some (.clearNotices p l)
  | 0x09 => some (.setEnables p l)
  | 0x10 => some (.placeOrder p l)
  | 0x11 => some (.cancelOrder p l)
  | 0x12 => some (.start p l)
  | 0x13 => some (.stop p l)
  | 0x14 => some (.hold p l)
  | 0x15 => some (.resume p l)
  | 0x16 => some (.lineReset p l)
  | 0x18 => some (.lineAssign p l)
  | 0x19 => some (.lineConfig p l)
  | 0x1A => some (.lineSet p l)
  | 0x1B => some (.lineToggle p l)
  | 0x1C => some (.lineRead p l)
  | 0x20 => some (.claim p l)
  | 0x21 => some (.release p l)
  | 0x28 => some (.loadGarment p l)
  | 0x29 => some (.gaugeDry p l)
  | 0x2A => some (.spray p l)
  | 0x2B => some (.gaugeWet p l)
  | 0x2C => some (.gaugeAbort p l)
  | 0x2D => some (.pressDone p l)
  | 0x30 => some (.engineOnline p l)
  | 0x31 => some (.engineOffline p l)
  | 0x32 => some (.engineFault p l)
  | 0x33 => some (.inkReport p l)
  | 0x34 => some (.printDone p l)
  | 0x35 => some (.cleanStart p l)
  | 0x36 => some (.cleanDone p l)
  | 0x38 => some (.tunnelEntry p l)
  | 0x39 => some (.unloadDone p l)
  | 0x3A => some (.zoneTemps p l)
  | 0x3B => some (.exitPop p l)
  | 0x3C => some (.releaseOrder p l)
  | _ => none

/-- Four bytes 0xFF (R141). -/
def linkResetMark : List Byte := [0xFF, 0xFF, 0xFF, 0xFF]

/-- R141, case 4: the frame ends in the middle of a byte, or holds fewer than two bytes, or its length byte is above 200,
or the number of whole bytes differs from two plus the length byte. -/
def lengthWrong (frame : List Byte) (midByte : Bool) : Bool :=
  midByte ||
    match frame with
    | _ :: n :: payload => decide (200 < n.toNat) || decide (payload.length ≠ n.toNat)
    | _ => true

/-- R141: what the release of chip select makes of a frame of these whole bytes, its cases taken in order. -/
def decodeFrame (p : Port) (frame : List Byte) (midByte : Bool) : Instr :=
  match frame with
  | [] => .emptyFrame p
  | code :: rest =>
    if (code :: rest).take 4 = linkResetMark then .linkReset p ((code :: rest).drop 4)
    else if code = 0 then .read p rest
    else if lengthWrong (code :: rest) midByte then .frameMalformed p (code :: rest) midByte
    else (commandOf p code (rest.drop 1)).getD (.unknownCommand p code (rest.drop 1))

/-- Port, command byte and payload of a command frame (Table 12-2); `none` for what is not one. -/
def commandParts : Instr → Option (Port × Byte × List Byte)
  | .ident p l => some (p, 0x01, l)
  | .capture p l => some (p, 0x02, l)
  | .readStage p l => some (p, 0x03, l)
  | .editStage p l => some (p, 0x04, l)
  | .update p l => some (p, 0x05, l)
  | .service p l => some (p, 0x06, l)
  | .rearm p l => some (p, 0x07, l)
  | .clearNotices p l => some (p, 0x08, l)
  | .setEnables p l => some (p, 0x09, l)
  | .placeOrder p l => some (p, 0x10, l)
  | .cancelOrder p l => some (p, 0x11, l)
  | .start p l => some (p, 0x12, l)
  | .stop p l => some (p, 0x13, l)
  | .hold p l => some (p, 0x14, l)
  | .resume p l => some (p, 0x15, l)
  | .lineReset p l => some (p, 0x16, l)
  | .lineAssign p l => some (p, 0x18, l)
  | .lineConfig p l => some (p, 0x19, l)
  | .lineSet p l => some (p, 0x1A, l)
  | .lineToggle p l => some (p, 0x1B, l)
  | .lineRead p l => some (p, 0x1C, l)
  | .claim p l => some (p, 0x20, l)
  | .release p l => some (p, 0x21, l)
  | .loadGarment p l => some (p, 0x28, l)
  | .gaugeDry p l => some (p, 0x29, l)
  | .spray p l => some (p, 0x2A, l)
  | .gaugeWet p l => some (p, 0x2B, l)
  | .gaugeAbort p l => some (p, 0x2C, l)
  | .pressDone p l => some (p, 0x2D, l)
  | .engineOnline p l => some (p, 0x30, l)
  | .engineOffline p l => some (p, 0x31, l)
  | .engineFault p l => some (p, 0x32, l)
  | .inkReport p l => some (p, 0x33, l)
  | .printDone p l => some (p, 0x34, l)
  | .cleanStart p l => some (p, 0x35, l)
  | .cleanDone p l => some (p, 0x36, l)
  | .tunnelEntry p l => some (p, 0x38, l)
  | .unloadDone p l => some (p, 0x39, l)
  | .zoneTemps p l => some (p, 0x3A, l)
  | .exitPop p l => some (p, 0x3B, l)
  | .releaseOrder p l => some (p, 0x3C, l)
  | .unknownCommand p code l => some (p, code, l)
  | .read _ _ | .linkReset _ _ | .emptyFrame _ | .frameMalformed _ _ _ | .powerOn | .resetPin
  | .lineFilteredEdge _ | .index | .claimWindowExpiry _ | .strokeActivePhase | .strokeDelivered
  | .sprayPassEnd | .pumpFault | .pumpFaultClear | .gaugeOscEdge _ | .dryPassEnd | .gaugeDryTimeout
  | .wetPassEnd | .gaugeWetOverflow | .staleTimerExpiry | .sampleTimerExpiry | .encoderPulse | .tunnelExit
  | .timebaseTick | .pinChange _ _ => none

/-- The whole bytes of the frame that carries a command, and whether it ends in the middle of a byte; `none` for an event
of the machinery. -/
def encodeFrame (i : Instr) : Option (Port × List Byte × Bool) :=
  match i with
  | .emptyFrame p => some (p, [], false)
  | .linkReset p rest => some (p, linkResetMark ++ rest, false)
  | .read p rest => some (p, 0 :: rest, false)
  | .frameMalformed p frame midByte => some (p, frame, midByte)
  | _ => (commandParts i).map fun x => (x.1, x.2.1 :: BitVec.ofNat 8 x.2.2.length :: x.2.2, false)

/-- The opcode table gives no row any bits, so no word spells a command (DEDUCED, log entry 3). -/
def decodeTableWord (_nbits _w : Nat) : Option Instr := none

end Sys2Proof
end

