-- ==== Sys2Proof/Config.lean ====
section
/-! DEFINITION. What the part fixes once (its identity and the limits of its tables), and the one free value of
the model: what an order line reads as when a traveller names a line that is not there. -/

namespace Sys2Proof.Config

/-- The Haduwen vendor code that IDENT answers (R144, Table 12-2). -/
def vendorCode : Nat := 0x4844

/-- The part code that IDENT answers (R144). -/
def partCode : Nat := 0x0C12

/-- The silicon revision that IDENT answers (R144). -/
def siliconRevision : Nat := 1

/-- The largest value of the 20-bit gauge and timebase counters (R78). -/
def maxCount : Nat := 1048575

/-- The most entries the exit list holds (R18). -/
def exitListLength : Nat := 8

/-- The most entries the tunnel queue holds (R115). -/
def tunnelQueueLength : Nat := 16

/-- The most fault codes a traveller's fault list holds (R14). -/
def faultListLength : Nat := 4

/-- The bytes a frame receiver stores (R139). -/
def receiverBytes : Nat := 202

/-- The largest stored measured deposit, in 0.1 g (R70, R91). -/
def maxDeposit : Nat := 4095

/-- The largest ink amount a report may carry, in µL (R104, R111). -/
def maxInk : Nat := 2000000

/-- The largest zone temperature stored (R122). -/
def maxZoneTemp : Nat := 300

/-- FREE VALUE (DESIGN CHOICE, log entry 13). Field number `k` of the line item of a traveller whose binding names no
line of a live order. The rules of the order book keep every open traveller bound to a live line (R13, R23), so no run
from reset reads it, and nothing constrains it. -/
opaque unboundField : Nat → Nat

end Sys2Proof.Config
end

