-- ==== Sys2Proof/Machine/State.lean ====
section
/-! DEFINITION. The state of the GL-12, block by block (Table 1-2), the reasons a step could stop, and the state
after power-on. Every record is plain data. -/

namespace Sys2Proof.Machine

/-- The block raises no fault: every command and every event of the part has an effect, or none, in every state
(DEDUCED, log entry 1). -/
inductive Fault where
  deriving DecidableEq, Repr

/-- Why a command has no meaning. -/
inductive Refusal where
  /-- Raised by `exec` alone, for a row of the opcode table that has no meaning yet (safe: nothing is claimed of
  it). No arm raises it. -/
  | notModelled (mnemonic : String)
  deriving DecidableEq, Repr

/-! ### Amounts -/

/-- One amount for each ink channel W, C, M, Y and K (Table 1-3). -/
structure Inks where
  w : Nat
  c : Nat
  m : Nat
  y : Nat
  k : Nat
  deriving DecidableEq, Repr

/-! ### The order book (chapter 2) -/

/-- Priority of an order (R22). -/
inductive Priority where
  | rush | standard
  deriving DecidableEq, Repr

/-- State of a live order (R24). A slot without an order is FREE. -/
inductive OrderState where
  | open | inWork | complete | cancelling
  deriving DecidableEq, Repr

/-- A line item (Table 2-3). -/
structure LineItem where
  blank : BitVec 24
  design : BitVec 16
  quantity : Nat
  fabric : Fin 8
  placement : Side
  width : Nat
  height : Nat
  coverage : Inks
  produced : Nat
  inWork : Nat
  reprints : Nat
  deriving DecidableEq, Repr

/-- An order record (Table 2-2). -/
structure Order where
  number : BitVec 32
  seq : BitVec 32
  priority : Priority
  due : BitVec 32
  hold : Bool
  state : OrderState
  lines : List LineItem
  deriving DecidableEq, Repr

/-- An order slot: its revision runs on from one order to the next; FREE when it holds no order (R21). -/
structure OrderSlot where
  rev : Rev
  order : Option Order
  deriving DecidableEq, Repr

/-- The order book (R21). -/
structure OrderBook where
  slots : Tab OrderSlot 64
  seq : BitVec 32
  deriving DecidableEq, Repr

/-! ### Travellers and the exit list (chapter 1) -/

/-- Traveller stages (Table 1-9). -/
inductive Stage where
  | loaded | pretreat | readyToPrint | assigned | printing | printed | inTunnel | rejectPending | returnPending
  deriving DecidableEq, Repr

/-- Pretreat sub-states (Table 1-11). -/
inductive SubState where
  | needDry | dryDone | sprayed | verified | light | heavy | ungauged | reject
  deriving DecidableEq, Repr

/-- Fault codes of a traveller (Table 1-12). -/
inductive FaultCode where
  | forcedIndex | lapLimit | pumpFault | pressShort | gaugeDryTimeout | gaugeWetOverflow | gaugeAborted
  | printDefect | engineFault | assignLapsed | staleTemp
  deriving DecidableEq, Repr

/-- Pretreat record (R8, Table 1-11). -/
structure Pretreat where
  target : Nat
  commanded : Nat
  delivered : Nat
  window : Option Nat
  wetCount : Option Nat
  measured : Option Nat
  topUps : Nat
  sub : SubState
  deriving DecidableEq, Repr

/-- Press verdicts (R9). -/
inductive PressVerdict where
  | pressed | short
  deriving DecidableEq, Repr

/-- Press record (R9). -/
structure Press where
  temperature : Nat
  seconds : Nat
  verdict : PressVerdict
  deriving DecidableEq, Repr

/-- Print results (R10). -/
inductive PrintResult where
  | pending | good | defect | fault
  deriving DecidableEq, Repr

/-- Print record (R10). -/
structure Print where
  engine : Engine
  estimate : Inks
  actual : Option Inks
  result : PrintResult
  deriving DecidableEq, Repr

/-- Cure verdicts (R127). -/
inductive CureVerdict where
  | cured | scorched | underCured
  deriving DecidableEq, Repr

/-- Cure record (R11). -/
structure Cure where
  entryCount : BitVec 32
  required : Nat
  scorch : Nat
  dose : Nat
  peak : Nat
  stale : Bool
  verdict : Option CureVerdict
  deriving DecidableEq, Repr

/-- A traveller record (Table 1-8), less the revision, which belongs to its slot. -/
structure Traveller where
  serial : BitVec 16
  blank : BitVec 24
  slot : Fin 64
  line : Fin 8
  orphan : Bool
  platen : Option (Fin 12)
  stage : Stage
  laps : Nat
  pretreat : Option Pretreat
  press : Option Press
  print : Option Print
  cure : Option Cure
  faults : List FaultCode
  overflow : Bool
  deriving DecidableEq, Repr

/-- A traveller slot: FREE when it holds no traveller; the revision runs on (R1). -/
structure TravSlot where
  rev : Rev
  trav : Option Traveller
  deriving DecidableEq, Repr

/-- The traveller table (R1). -/
structure TravTable where
  slots : Tab TravSlot 32
  serial : BitVec 16
  deriving DecidableEq, Repr

/-- Dispositions (R15). -/
inductive Disposition where
  | pack | surplus | scrap | return | lost
  deriving DecidableEq, Repr

/-- An exit entry (R17): order number and line index are present together. -/
structure ExitEntry where
  serial : BitVec 16
  disposition : Disposition
  binding : Option (BitVec 32 × Fin 8)
  verdict : Option CureVerdict
  fault : Option FaultCode
  deriving DecidableEq, Repr

/-! ### The platen ring tracker (chapter 3) -/

/-- The six stations (Table 3-1). -/
inductive Station where
  | load | spray | press | printA | printB | unload
  deriving DecidableEq, Repr

/-- A claim: the holding port and the platen it was taken on (R47). -/
structure Claim where
  port : Port
  platen : Fin 12
  deriving DecidableEq, Repr

/-- An awaiting-assignment entry (R51): traveller, platen, and the claim-window timer with the window in ms that it
was started for (DESIGN CHOICE, log entry 26). -/
structure Awaiting where
  trav : Fin 32
  platen : Fin 12
  window : Nat
  deriving DecidableEq, Repr

/-- The ring tracker (R44, R45, R47, R51). `claims` is indexed by station, `awaiting` and `lapse` by engine,
`revs` by position. -/
structure Ring where
  load : Fin 12
  carried : Tab (Option (Fin 32)) 12
  synced : Bool
  claims : Tab (Option Claim) 6
  awaiting : Tab (Option Awaiting) 2
  lapse : Tab (Option (Fin 12)) 2
  revs : Tab Rev 12
  deriving DecidableEq, Repr

/-! ### The pretreatment unit (chapter 4) and the deposit gauge (chapter 5) -/

/-- The two halves of a pump stroke (R68). -/
inductive StrokePhase where
  | inactive | active
  deriving DecidableEq, Repr

/-- A spray pass in flight (R65), with the stroke being made: its half and its period in µs (R68; DESIGN CHOICE, log
entry 26). -/
structure SprayPass where
  trav : Fin 32
  count : Nat
  ungauged : Bool
  phase : StrokePhase
  period : Nat
  deriving DecidableEq, Repr

/-- The pretreatment unit (R65). No pass: IDLE. -/
structure PretreatUnit where
  pass : Option SprayPass
  strokes : Nat
  pumpFault : Bool
  deriving DecidableEq, Repr

/-- Kinds of gauge pass (R78). -/
inductive PassKind where
  | dry | wet
  deriving DecidableEq, Repr

/-- A gauge pass in flight (R78). -/
structure GaugePass where
  kind : PassKind
  trav : Fin 32
  deriving DecidableEq, Repr

/-- How the most recent gauge pass stands (R81). -/
inductive GaugeEnd where
  | inFlight | normal | dryTimeout | wetOverflow | aborted
  deriving DecidableEq, Repr

/-- Verdicts of verification (R92). -/
inductive GaugeVerdict where
  | verified | light | heavy | reject
  deriving DecidableEq, Repr

/-- What the GAUGE record says of the most recent pass (R81): these are absent together. -/
structure LastPass where
  kind : PassKind
  trav : Fin 32
  serial : BitVec 16
  ending : GaugeEnd
  deriving DecidableEq, Repr

/-- The deposit gauge (R78) and the GAUGE record (R81): `edges` and `timebase` are the running counters,
`recEdges` and `recTimebase` the counts as the record holds them. No pass: IDLE. -/
structure Gauge where
  pass : Option GaugePass
  electrode : Side
  edges : Nat
  timebase : Nat
  last : Option LastPass
  recEdges : Nat
  recTimebase : Nat
  verdict : Option GaugeVerdict
  rev : Rev
  deriving DecidableEq, Repr

/-! ### Print dispatch (chapter 6) -/

/-- Engine states (Table 6-3). -/
inductive EngineState where
  | offline | ready | assigned | printing | cleanDue | cleaning | fault
  deriving DecidableEq, Repr

/-- An engine record (Table 6-1). -/
structure EngineRec where
  state : EngineState
  current : Option (Fin 32)
  prints : Nat
  level : Inks
  reserved : Inks
  rev : Rev
  deriving DecidableEq, Repr

/-! ### The curing tunnel (chapter 7) -/

/-- An entry of the tunnel queue (R115). -/
structure QueueEntry where
  trav : Fin 32
  tmax : Nat
  deriving DecidableEq, Repr

/-- The curing tunnel (R114) and the TUNNEL record (R121). A zone without a value is unknown; a timer without a
value is stopped, and one with a value runs for that many ms (DESIGN CHOICE, log entry 10: its expiry arrives as a
command). `sampled` is the sampled encoder count. -/
structure Tunnel where
  queue : List QueueEntry
  encoder : BitVec 32
  zones : Tab (Option Nat) 3
  staleTimer : Option Nat
  sampleTimer : Option Nat
  sampled : BitVec 32
  rev : Rev
  deriving DecidableEq, Repr

/-! ### Station ports and the record window (chapter 9) -/

/-- Status codes (R164). -/
inductive Status where
  | ok | length | role | mode | state | arg | full | dup | noMatch | busy | stale | lapsed | noLine
  deriving DecidableEq, Repr

/-- Record kinds of the window (Table 9-3). -/
inductive Kind where
  | order | line | traveller | engine | ring | gauge | tunnel | fabric | constants
  deriving DecidableEq, Repr

/-- One element of one field of a stage: its identifier and element number, its value unless absent, and its edit
mark (R145, R146). -/
structure StagedField where
  id : Nat
  element : Nat
  value : Option Nat
  edited : Bool
  deriving DecidableEq, Repr

/-- A captured record (R145): its kind, the two index bytes, its revision and its fields. -/
structure Staged where
  kind : Kind
  index : Nat
  subIndex : Nat
  rev : Rev
  fields : List StagedField
  deriving DecidableEq, Repr

/-- A frame receiver (R139): the bytes stored and the count of whole bytes; idle when it holds none. -/
structure Receiver where
  bytes : List Byte
  count : Nat
  deriving DecidableEq, Repr

/-- A frame that a station clocks into its port: the whole bytes still to come, and whether chip select is released in
the middle of the byte after them (R140, R141). -/
structure Transfer where
  bytes : List Byte
  midByte : Bool
  deriving DecidableEq, Repr

/-- A response holder (R139). -/
structure Holder where
  command : Byte
  status : Status
  payload : List Byte
  deriving DecidableEq, Repr

/-- A station port (R139). `shifted` is the model's own: the bytes the part shifted out during the most recent
frame on the port (R140; DESIGN CHOICE, log entry 11). -/
structure PortState where
  receiver : Receiver
  holder : Holder
  stage : Option Staged
  shifted : List Byte
  deriving DecidableEq, Repr

/-! ### The notice unit (chapter 10) -/

/-- The notice state of one port (R150): bit k of `pending` and `enabled` is source number k, bit g of `groups`
group number g (R166). -/
structure NoticeState where
  pending : BitVec 16
  enabled : BitVec 16
  groups : BitVec 3
  armed : Bool
  deriving DecidableEq, Repr

/-! ### The line unit (chapter 8) -/

/-- Line functions (Table 8-1), and NONE. -/
inductive LineFunction where
  | none | indexPermit | indexPulse | home | pumpStroke | pumpFault | beltEnc | gaugeExcite
  | gaugeOscFront | gaugeOscBack | faultOut
  deriving DecidableEq, Repr

/-- General direction of a line (R131). -/
inductive Direction where
  | inward | outward
  deriving DecidableEq, Repr

/-- Drive of a line (R131). -/
inductive Drive where
  | standard | strong
  deriving DecidableEq, Repr

/-- Input filter of a line (R131). -/
inductive Filter where
  | us0 | us1 | us4 | us16
  deriving DecidableEq, Repr

/-- A discrete line (R131). `filtered` is the level last taken through a filter other than 0, and `outside` the level
the machinery puts on the pin while the part does not drive it. -/
structure Line where
  function : LineFunction
  direction : Direction
  level : Bool
  drive : Drive
  filter : Filter
  filtered : Bool
  outside : Bool
  deriving DecidableEq, Repr

/-! ### Mode and configuration (chapter 11) -/

/-- Device modes (R155). -/
inductive Mode where
  | config | run | hold
  deriving DecidableEq, Repr

/-- The constants record (Table 11-2). -/
structure Constants where
  lapLimit : Nat
  reprintLimit : Nat
  claimWindow : Nat
  gaugeWindow : Nat
  tickDivider : Nat
  tolerance : Nat
  topUpLimit : Nat
  strokeMass : Nat
  strokeRate : Nat
  kink : Inks
  onset : Nat
  samplePeriod : Nat
  staleLimit : Nat
  beltLength : Nat
  zoneEnd1 : Nat
  zoneEnd2 : Nat
  spacing : Nat
  kw : Nat
  kc : Nat
  kd : Nat
  cleanInterval : Nat
  deriving DecidableEq, Repr

/-- Pretreat modes of a fabric class (R162). -/
inductive PretreatMode where
  | ifWhite | never
  deriving DecidableEq, Repr

/-- A fabric class record (Table 11-3). -/
structure FabricClass where
  valid : Bool
  mode : PretreatMode
  density : Nat
  kg : Nat
  pressTemp : Nat
  pressTime : Nat
  cureBase : Nat
  tmax : Nat
  scorchFactor : Nat
  deriving DecidableEq, Repr

/-- A fabric class record with its revision (R145). -/
structure FabricSlot where
  cls : FabricClass
  rev : Rev
  deriving DecidableEq, Repr

/-- The mode and configuration block (R155). -/
structure Setup where
  mode : Mode
  constants : Constants
  constantsRev : Rev
  fabrics : Tab FabricSlot 8
  deriving DecidableEq, Repr

/-! ### The whole part -/

/-- The state of the GL-12: its twelve blocks (Table 1-2; the notice unit and the ports one entry per port, print
dispatch one per engine, the line unit one per line); for each port the frames that its station is clocking in or will
clock in next, the one in progress first (DESIGN CHOICE, log entry 28); and the queue of commands that wait, first in,
first out. -/
structure State where
  book : OrderBook
  table : TravTable
  exits : List ExitEntry
  ring : Ring
  pre : PretreatUnit
  gauge : Gauge
  engines : Tab EngineRec 2
  tunnel : Tunnel
  ports : Tab PortState 5
  notices : Tab NoticeState 5
  lines : Tab Line 24
  setup : Setup
  bus : Tab (List Transfer) 5
  pending : List Instr
  deriving DecidableEq, Repr

/-! ### One named update per block -/

def State.setBook (s : State) (x : OrderBook) : State := { s with book := x }
def State.setTable (s : State) (x : TravTable) : State := { s with table := x }
def State.setExits (s : State) (x : List ExitEntry) : State := { s with exits := x }
def State.setRing (s : State) (x : Ring) : State := { s with ring := x }
def State.setPre (s : State) (x : PretreatUnit) : State := { s with pre := x }
def State.setGauge (s : State) (x : Gauge) : State := { s with gauge := x }
def State.setEngines (s : State) (x : Tab EngineRec 2) : State := { s with engines := x }
def State.setTunnel (s : State) (x : Tunnel) : State := { s with tunnel := x }
def State.setPorts (s : State) (x : Tab PortState 5) : State := { s with ports := x }
def State.setNotices (s : State) (x : Tab NoticeState 5) : State := { s with notices := x }
def State.setLines (s : State) (x : Tab Line 24) : State := { s with lines := x }
def State.setSetup (s : State) (x : Setup) : State := { s with setup := x }
def State.setBus (s : State) (x : Tab (List Transfer) 5) : State := { s with bus := x }
def State.setPending (s : State) (x : List Instr) : State := { s with pending := x }

/-! ### The state after power-on -/

/-- No ink in any channel. -/
def Inks.zero : Inks := ⟨0, 0, 0, 0, 0⟩

/-- The defaults of the constants record (Table 11-2). -/
def Constants.default : Constants where
  lapLimit := 2
  reprintLimit := 3
  claimWindow := 500
  gaugeWindow := 20000
  tickDivider := 8
  tolerance := 20
  topUpLimit := 1
  strokeMass := 100
  strokeRate := 20
  kink := ⟨30, 12, 12, 12, 12⟩
  onset := 130
  samplePeriod := 250
  staleLimit := 2000
  beltLength := 3000
  zoneEnd1 := 1000
  zoneEnd2 := 2000
  spacing := 300
  kw := 40
  kc := 10
  kd := 20
  cleanInterval := 60

/-- The reset value of a fabric class record (R162). -/
def FabricClass.reset : FabricClass := ⟨false, .never, 0, 0, 0, 0, 0, 0, 0⟩

/-- An engine record after power-on (Table 6-2). -/
def EngineRec.reset : EngineRec := ⟨.offline, none, 0, .zero, .zero, 0⟩

/-- The deposit gauge after power-on (Table 5-1, R81; the counts of its record are DEDUCED, log entry 27). -/
def Gauge.reset : Gauge := ⟨none, .front, 0, 0, none, 0, 0, none, 0⟩

/-- The curing tunnel after power-on (Table 7-1, R121). -/
def Tunnel.reset : Tunnel := ⟨[], 0, .fill none, none, none, 0, 0⟩

/-- The ring tracker after power-on (Table 3-2, R45). -/
def Ring.reset : Ring := ⟨0, .fill none, false, .fill none, .fill none, .fill none, .fill 0⟩

/-- A receiver between frames (R139). -/
def Receiver.idle : Receiver := ⟨[], 0⟩

/-- A port after power-on (Table 9-1). -/
def PortState.reset : PortState := ⟨.idle, ⟨0x00, .ok, []⟩, none, []⟩

/-- The notice state of a port after power-on (Table 10-2). -/
def NoticeState.reset : NoticeState := ⟨0, 0, 0, false⟩

/-- A line after power-on (Table 8-2) whose pin stands at `outside`. The filtered level is taken from the pin. -/
def Line.reset (outside : Bool) : Line := ⟨.none, .inward, false, .standard, .us1, outside, outside⟩

/-- The part right after power-on, with every pin low (DESIGN CHOICE, log entry 9: the machinery's levels are the
model's choice), no station sending and nothing waiting. -/
def State.reset : State where
  book := ⟨.fill ⟨0, none⟩, 0⟩
  table := ⟨.fill ⟨0, none⟩, 0⟩
  exits := []
  ring := .reset
  pre := ⟨none, 0, false⟩
  gauge := .reset
  engines := .fill .reset
  tunnel := .reset
  ports := .fill .reset
  notices := .fill .reset
  lines := .fill (.reset false)
  setup := ⟨.config, .default, 0, .fill ⟨.reset, 0⟩⟩
  bus := .fill []
  pending := []

end Sys2Proof.Machine
end

