-- ==== Sys2Proof/Machine/Operands.lean ====
section
/-! DEFINITION. The operand forms: byte order, payload fields, the code of every enumerated value (R163, R164,
Tables 12-2 to 12-4), and the numbers of ports, engines, stations and lines. -/

namespace Sys2Proof.Machine

open Sys2Proof

/-! ### Bytes (R163: most significant byte first) -/

/-- Byte `k` of a payload (0 beyond its end; every reader checks the length first, R164). -/
def byteAt (l : List Byte) (k : Nat) : Nat := (l.getD k 0).toNat

/-- The 2-byte value at offset `k`. -/
def u16At (l : List Byte) (k : Nat) : Nat := byteAt l k * 256 + byteAt l (k + 1)

/-- The 3-byte value at offset `k`. -/
def u24At (l : List Byte) (k : Nat) : Nat := u16At l k * 256 + byteAt l (k + 2)

/-- The 4-byte value at offset `k`. -/
def u32At (l : List Byte) (k : Nat) : Nat := u24At l k * 256 + byteAt l (k + 3)

/-- A 1-byte value. -/
def bytes8 (n : Nat) : List Byte := [BitVec.ofNat 8 n]

/-- A 2-byte value. -/
def bytes16 (n : Nat) : List Byte := [BitVec.ofNat 8 (n / 256), BitVec.ofNat 8 n]

/-- A 3-byte value. -/
def bytes24 (n : Nat) : List Byte := BitVec.ofNat 8 (n / 65536) :: bytes16 n

/-- A 4-byte value. -/
def bytes32 (n : Nat) : List Byte := BitVec.ofNat 8 (n / 16777216) :: bytes24 n

/-- The five ink amounts carried at offset `k`, 4 bytes each, in the order W, C, M, Y, K (Table 12-2). -/
def inksAt (l : List Byte) (k : Nat) : Inks :=
  ⟨u32At l k, u32At l (k + 4), u32At l (k + 8), u32At l (k + 12), u32At l (k + 16)⟩

/-- A flag is 1 when set and 0 when clear (R163). -/
def flagCode (b : Bool) : Nat := if b then 1 else 0

/-! ### Inks -/

def Inks.toList (a : Inks) : List Nat := [a.w, a.c, a.m, a.y, a.k]

/-- Channel by channel. -/
def Inks.zip (f : Nat → Nat → Nat) (a b : Inks) : Inks :=
  ⟨f a.w b.w, f a.c b.c, f a.m b.m, f a.y b.y, f a.k b.k⟩

/-- `p` holds in every channel. -/
def Inks.all (p : Nat → Nat → Bool) (a b : Inks) : Bool :=
  p a.w b.w && p a.c b.c && p a.m b.m && p a.y b.y && p a.k b.k

/-! ### Numbers of ports, engines, stations, zones -/

/-- Port number, which is also the code of its role (Table 1-1, Table 12-4). -/
def portNo : Port → Fin 5
  | .gateway => 0 | .prep => 1 | .engineA => 2 | .engineB => 3 | .tunnel => 4

/-- Every port. -/
def allPorts : List Port := [.gateway, .prep, .engineA, .engineB, .tunnel]

/-- The four station ports that hear of a forced index (R58). -/
def stationPorts : List Port := [.prep, .engineA, .engineB, .tunnel]

/-- Engine record number (R95). -/
def engineNo : Engine → Fin 2
  | .a => 0 | .b => 1

/-- The port of an engine (Table 1-1). -/
def enginePort : Engine → Port
  | .a => .engineA | .b => .engineB

/-- The engine a port belongs to (R96). -/
def portEngine : Port → Option Engine
  | .engineA => some .a
  | .engineB => some .b
  | .gateway | .prep | .tunnel => none

/-- Entry of a station in the claim table. -/
def stationNo : Station → Fin 6
  | .load => 0 | .spray => 1 | .press => 2 | .printA => 3 | .printB => 4 | .unload => 5

/-- Ring position of a station (Table 3-1). -/
def stationPos : Station → Fin 12
  | .load => 0 | .spray => 2 | .press => 4 | .printA => 6 | .printB => 8 | .unload => 10

/-- The six stations in position order. -/
def allStations : List Station := [.load, .spray, .press, .printA, .printB, .unload]

/-- The station at a ring position, if any. -/
def stationAt (k : Nat) : Option Station := allStations.find? fun st => (stationPos st).val = k

/-- The port whose role serves a station (Table 3-1). -/
def stationPort : Station → Port
  | .load | .spray | .press => .prep
  | .printA => .engineA
  | .printB => .engineB
  | .unload => .tunnel

/-- The print station of an engine. -/
def engineStation : Engine → Station
  | .a => .printA | .b => .printB

/-- The engine that works at a station. -/
def stationEngine : Station → Option Engine
  | .printA => some .a
  | .printB => some .b
  | .load | .spray | .press | .unload => none

/-! ### Codes (R163, R164) -/

/-- Status codes (R164). -/
def statusCode : Status → Nat
  | .ok => 0x00 | .length => 0x01 | .role => 0x02 | .mode => 0x03 | .state => 0x04 | .arg => 0x05 | .full => 0x06
  | .dup => 0x07 | .noMatch => 0x08 | .busy => 0x09 | .stale => 0x0A | .lapsed => 0x0B | .noLine => 0x0D

/-- Stages in the order of Table 1-9. -/
def stageCode : Stage → Nat
  | .loaded => 0 | .pretreat => 1 | .readyToPrint => 2 | .assigned => 3 | .printing => 4 | .printed => 5
  | .inTunnel => 6 | .rejectPending => 7 | .returnPending => 8

/-- Pretreat sub-states in the order of Table 1-11 (DEDUCED, log entry 21). -/
def subStateCode : SubState → Nat
  | .needDry => 0 | .dryDone => 1 | .sprayed => 2 | .verified => 3 | .light => 4 | .heavy => 5 | .ungauged => 6
  | .reject => 7

/-- Fault codes in the order of Table 1-12. -/
def faultCode : FaultCode → Nat
  | .forcedIndex => 0 | .lapLimit => 1 | .pumpFault => 2 | .pressShort => 3 | .gaugeDryTimeout => 4
  | .gaugeWetOverflow => 5 | .gaugeAborted => 6 | .printDefect => 7 | .engineFault => 8 | .assignLapsed => 9
  | .staleTemp => 10

/-- Engine states in the order of Table 6-3. -/
def engineStateCode : EngineState → Nat
  | .offline => 0 | .ready => 1 | .assigned => 2 | .printing => 3 | .cleanDue => 4 | .cleaning => 5 | .fault => 6

/-- Line functions: NONE is 0, then the order of Table 8-1. -/
def functionCode : LineFunction → Nat
  | .none => 0 | .indexPermit => 1 | .indexPulse => 2 | .home => 3 | .pumpStroke => 4 | .pumpFault => 5
  | .beltEnc => 6 | .gaugeExcite => 7 | .gaugeOscFront => 8 | .gaugeOscBack => 9 | .faultOut => 10

/-- The function that a code names (R132). -/
def functionOf : Nat → Option LineFunction
  | 0 => some .none
  | 1 => some .indexPermit
  | 2 => some .indexPulse
  | 3 => some .home
  | 4 => some .pumpStroke
  | 5 => some .pumpFault
  | 6 => some .beltEnc
  | 7 => some .gaugeExcite
  | 8 => some .gaugeOscFront
  | 9 => some .gaugeOscBack
  | 10 => some .faultOut
  | _ => none

def priorityCode : Priority → Nat
  | .rush => 0 | .standard => 1

def priorityOf : Nat → Option Priority
  | 0 => some .rush
  | 1 => some .standard
  | _ => none

/-- Placement and electrode (Table 12-4). -/
def sideCode : Side → Nat
  | .front => 0 | .back => 1

def sideOf : Nat → Option Side
  | 0 => some .front
  | 1 => some .back
  | _ => none

/-- Order states, FREE being 0 (Table 12-4). -/
def orderStateCode : OrderState → Nat
  | .open => 1 | .inWork => 2 | .complete => 3 | .cancelling => 4

def dispositionCode : Disposition → Nat
  | .pack => 0 | .surplus => 1 | .scrap => 2 | .return => 3 | .lost => 4

def cureVerdictCode : CureVerdict → Nat
  | .cured => 0 | .scorched => 1 | .underCured => 2

def printResultCode : PrintResult → Nat
  | .pending => 0 | .good => 1 | .defect => 2 | .fault => 3

def pressVerdictCode : PressVerdict → Nat
  | .pressed => 0 | .short => 1

def kindCode : Kind → Nat
  | .order => 0 | .line => 1 | .traveller => 2 | .engine => 3 | .ring => 4 | .gauge => 5 | .tunnel => 6 | .fabric => 7
  | .constants => 8

def kindOf : Nat → Option Kind
  | 0 => some .order
  | 1 => some .line
  | 2 => some .traveller
  | 3 => some .engine
  | 4 => some .ring
  | 5 => some .gauge
  | 6 => some .tunnel
  | 7 => some .fabric
  | 8 => some .constants
  | _ => none

/-- Stations, none being 0 (Table 12-4). -/
def stationCode : Option Station → Nat
  | none => 0
  | some .load => 1
  | some .spray => 2
  | some .press => 3
  | some .printA => 4
  | some .printB => 5
  | some .unload => 6

/-- Gauge pass kinds as the pass state codes them, IDLE being 0 (Table 12-4). -/
def passKindCode : PassKind → Nat
  | .dry => 1 | .wet => 2

def gaugeEndCode : GaugeEnd → Nat
  | .inFlight => 0 | .normal => 1 | .dryTimeout => 2 | .wetOverflow => 3 | .aborted => 4

def gaugeVerdictCode : GaugeVerdict → Nat
  | .verified => 0 | .light => 1 | .heavy => 2 | .reject => 3

def engineCode : Engine → Nat
  | .a => 0 | .b => 1

def pretreatModeCode : PretreatMode → Nat
  | .ifWhite => 0 | .never => 1

/-- Input filter from its value in µs (R133). -/
def filterOf : Nat → Option Filter
  | 0 => some .us0
  | 1 => some .us1
  | 4 => some .us4
  | 16 => some .us16
  | _ => none

def directionOf : Nat → Option Direction
  | 0 => some .inward
  | 1 => some .outward
  | _ => none

def driveOf : Nat → Option Drive
  | 0 => some .standard
  | 1 => some .strong
  | _ => none

/-! ### Selections (R163): bit k of a selection stands for number k -/

/-- Bit `k` of a number. -/
def bitOf (n k : Nat) : Bool := n / 2 ^ k % 2 = 1

/-- The 3-byte selection whose bit k is `f k` for each of the 24 lines. -/
def selection24 (f : Fin 24 → Bool) : Nat :=
  (List.finRange 24).foldl (fun n l => n + if f l then 2 ^ l.val else 0) 0

end Sys2Proof.Machine
end

