-- ==== Sys2Proof/Machine/Flags.lean ====
section
/-! DEFINITION. The notice flags (chapter 10): the sources and groups of each port, and every change of a port's
flags: raising, servicing, arming, clearing, enabling. -/

namespace Sys2Proof.Machine

open Sys2Proof

/-- The notice sources by name (Table 10-1). -/
inductive Source where
  | orderComplete | orderHeld | orderReleased | orderCancelDone | ringSlip | holdEntered | inkShortA | inkShortB
  | loadReady | atSpray | atPress | dryDone | sprayDone | wetDone | passFault | forcedIndex
  | assigned | assignLapsed | cleanDue | inkShort
  | atUnload | exitReady | exitOverrun | tempStale | tempRange
  deriving DecidableEq, Repr

/-- The groups of a port, each with its sources, in the order that numbers them (Table 12-6). -/
def portGroups : Port → List (List Source)
  | .gateway =>
    [[.orderComplete, .orderHeld, .orderReleased, .orderCancelDone], [.ringSlip, .holdEntered, .inkShortA, .inkShortB]]
  | .prep =>
    [[.loadReady, .atSpray, .atPress], [.dryDone, .sprayDone, .wetDone, .passFault], [.forcedIndex, .ringSlip, .holdEntered]]
  | .engineA | .engineB =>
    [[.assigned, .assignLapsed], [.cleanDue, .inkShort], [.forcedIndex, .ringSlip, .holdEntered]]
  | .tunnel =>
    [[.atUnload], [.exitReady, .exitOverrun, .tempStale, .tempRange, .orderComplete], [.forcedIndex, .ringSlip, .holdEntered]]

/-- The number of sources of a port (R150). -/
def sourceCount (p : Port) : Nat := (portGroups p).flatten.length

/-- The number of a source on a port, if the port has it. -/
def sourceNo (p : Port) (x : Source) : Option Nat := (portGroups p).flatten.findIdx? (· = x)

/-- The group numbers of a port's sources, source by source. -/
def sourceGroups (p : Port) : List Nat :=
  (portGroups p).zipIdx.flatMap fun g => g.1.map fun _ => g.2

/-- The group that source number `k` of a port belongs to (R150). -/
def groupOf (p : Port) (k : Nat) : Nat := (sourceGroups p).getD k 0

/-- The selection of all sources of group `g` of a port. -/
def groupMask (p : Port) (g : Nat) : BitVec 16 :=
  (List.range (sourceCount p)).foldl (fun m k => if groupOf p k = g then m ||| (1#16 <<< k) else m) 0

/-- Sets the group flag of source number `k`. -/
def setGroup (p : Port) (k : Nat) (n : NoticeState) : NoticeState :=
  { n with groups := n.groups ||| (1#3 <<< groupOf p k) }

/-- R151: the pending flag is set; with the source's enable on, its group flag too. -/
def raiseNo (p : Port) (k : Nat) (n : NoticeState) : NoticeState :=
  let n' : NoticeState := { n with pending := n.pending ||| (1#16 <<< k) }
  if n.enabled.getLsbD k then setGroup p k n' else n'

/-- R151 by source name; a source the port does not have is not raised there. -/
def raiseSource (p : Port) (x : Source) (n : NoticeState) : NoticeState :=
  match sourceNo p x with
  | some k => raiseNo p k n
  | none => n

/-- R150: the attention line is asserted exactly when the port is armed and a group flag is pending. -/
def attention (n : NoticeState) : Bool := n.armed && n.groups ≠ 0

/-- R152: what SERVICE reports, group by group in increasing number, each with its pending sources. -/
def serviceReport (p : Port) (n : NoticeState) : List Byte :=
  (List.range (portGroups p).length).flatMap fun g =>
    if n.groups.getLsbD g then bytes8 g ++ bytes16 (n.pending &&& groupMask p g).toNat else []

/-- R152: the reported group flags are cleared and the port is disarmed. -/
def serviced (p : Port) (n : NoticeState) : NoticeState :=
  { n with groups := n.groups &&& ~~~ BitVec.ofNat 3 (2 ^ (portGroups p).length - 1), armed := false }

/-- R153. -/
def rearmed (n : NoticeState) : NoticeState := { n with armed := true }

/-- R154, R163: the selection names only sources the port has. -/
def selectionInPort (p : Port) (sel : Nat) : Bool := sel < 2 ^ sourceCount p

/-- R154: the pending flag of every selected source is cleared. -/
def clearedSources (sel : Nat) (n : NoticeState) : NoticeState :=
  { n with pending := n.pending &&& ~~~ BitVec.ofNat 16 sel }

/-- R154: the enable of source `k` on; a source already pending sets its group flag. -/
def enableSource (p : Port) (k : Nat) (n : NoticeState) : NoticeState :=
  let n' : NoticeState := { n with enabled := n.enabled ||| (1#16 <<< k) }
  if n.pending.getLsbD k then setGroup p k n' else n'

/-- R154: the enable of source `k` off; the flags stay. -/
def disableSource (k : Nat) (n : NoticeState) : NoticeState :=
  { n with enabled := n.enabled &&& ~~~ (1#16 <<< k) }

end Sys2Proof.Machine
end

