-- ==== Sys2Proof/Machine/Ops.lean ====
section
/-! DEFINITION. The shared operations: reading and writing travellers, orders, platens, claims, engines, ports and
lines; the index permit and the pin levels; the revisions; the execution of a command frame. -/

namespace Sys2Proof.Machine

open Sys2Proof

/-! ### Mode and records -/

def State.mode (s : State) : Mode := s.setup.mode

def State.constants (s : State) : Constants := s.setup.constants

/-- The device mode becomes `m`. -/
def setMode (m : Mode) (s : State) : State := s.setSetup { s.setup with mode := m }

/-- The traveller in slot `i`, if the slot is OPEN (R1). -/
def State.trav? (s : State) (i : Fin 32) : Option Traveller := (s.table.slots.get i).trav

/-- Slot `i` holds `t` from now on; `none` frees it. The revision is advanced by `commit`. -/
def putTrav (i : Fin 32) (t : Option Traveller) (s : State) : State :=
  s.setTable { s.table with slots := s.table.slots.set i { s.table.slots.get i with trav := t } }

/-- Changes the traveller in slot `i`; a FREE slot stays FREE. -/
def modTrav (i : Fin 32) (f : Traveller → Traveller) (s : State) : State :=
  match s.trav? i with
  | some t => putTrav i (some (f t)) s
  | none => s

/-- Changes the pretreat record of the traveller in slot `i`, if it has one. -/
def modPretreat (i : Fin 32) (f : Pretreat → Pretreat) (s : State) : State :=
  modTrav i (fun t => { t with pretreat := t.pretreat.map f }) s

/-- The slots of the open travellers, in increasing order. -/
def openSlots (s : State) : List (Fin 32) := (List.finRange 32).filter fun i => (s.trav? i).isSome

/-- R14: a code joins the tail of a list of fewer than 4; with 4 the overflow mark is set. -/
def addFault (c : FaultCode) (t : Traveller) : Traveller :=
  if t.faults.length < Config.faultListLength then { t with faults := t.faults ++ [c] } else { t with overflow := true }

/-- The order in slot `k`, if the slot is live (R21). -/
def State.order? (s : State) (k : Fin 64) : Option Order := (s.book.slots.get k).order

/-- What stands for the line item of a binding that names none (DESIGN CHOICE, log entry 13). -/
def unboundLine : LineItem where
  blank := BitVec.ofNat 24 (Config.unboundField 0)
  design := BitVec.ofNat 16 (Config.unboundField 1)
  quantity := Config.unboundField 2
  fabric := Fin.ofNat 8 (Config.unboundField 3)
  placement := if Config.unboundField 4 = 0 then .front else .back
  width := Config.unboundField 5
  height := Config.unboundField 6
  coverage := ⟨Config.unboundField 7, Config.unboundField 8, Config.unboundField 9, Config.unboundField 10,
    Config.unboundField 11⟩
  produced := Config.unboundField 12
  inWork := Config.unboundField 13
  reprints := Config.unboundField 14

/-- The line item that a binding names, if it is there. -/
def State.line? (s : State) (k : Fin 64) (j : Fin 8) : Option LineItem :=
  (s.order? k).bind fun o => o.lines[j.val]?

/-- The line item that a traveller is bound to (R13). -/
def State.boundLine (s : State) (t : Traveller) : LineItem := (s.line? t.slot t.line).getD unboundLine

/-- The fabric class record that a line item names. -/
def State.fabricOf (s : State) (l : LineItem) : FabricClass := (s.setup.fabrics.get l.fabric).cls

/-- Print area in cm² (R64). -/
def printArea (l : LineItem) : Nat := l.width * l.height / 100

/-- Division rounding up (R64, R74). -/
def ceilDiv (a b : Nat) : Nat := (a + b - 1) / b

/-! ### Notices -/

/-- R151: raises a source for a port. -/
def raise (p : Port) (x : Source) (s : State) : State :=
  s.setNotices (s.notices.set (portNo p) (raiseSource p x (s.notices.get (portNo p))))

/-- Raises a source for each of several ports. -/
def raiseOn (ps : List Port) (x : Source) (s : State) : State := ps.foldl (fun s p => raise p x s) s

/-- Changes the notice state of one port. -/
def modNotice (p : Port) (f : NoticeState → NoticeState) (s : State) : State :=
  s.setNotices (s.notices.set (portNo p) (f (s.notices.get (portNo p))))

/-! ### The ring -/

/-- R44: with load platen p, position k holds platen (p − k) mod 12. -/
def platenAt (r : Ring) (k : Fin 12) : Fin 12 := r.load - k

/-- The position of a platen (R44, solved for k). -/
def positionOf (r : Ring) (p : Fin 12) : Fin 12 := r.load - p

/-- The slot of the traveller on the platen at position `k` (R44). -/
def State.slotAt (s : State) (k : Fin 12) : Option (Fin 32) := s.ring.carried.get (platenAt s.ring k)

/-- The traveller at position `k`, with its slot. -/
def State.travAt (s : State) (k : Fin 12) : Option (Fin 32 × Traveller) :=
  (s.slotAt k).bind fun i => (s.trav? i).map fun t => (i, t)

/-- What platen `p` carries from now on. -/
def setCarried (p : Fin 12) (c : Option (Fin 32)) (s : State) : State :=
  s.setRing { s.ring with carried := s.ring.carried.set p c }

/-- The claim held at a station (R47). -/
def State.claimAt (s : State) (st : Station) : Option Claim := s.ring.claims.get (stationNo st)

def setClaim (st : Station) (c : Option Claim) (s : State) : State :=
  s.setRing { s.ring with claims := s.ring.claims.set (stationNo st) c }

/-- The claim that `p` holds at station `st`, if it does. -/
def State.holdsClaim (s : State) (p : Port) (st : Station) : Bool :=
  match s.claimAt st with
  | some c => c.port = p
  | none => false

/-- The awaiting-assignment entry at the print position of an engine (R51). -/
def State.awaitingAt (s : State) (e : Engine) : Option Awaiting := s.ring.awaiting.get (engineNo e)

def setAwaiting (e : Engine) (a : Option Awaiting) (s : State) : State :=
  s.setRing { s.ring with awaiting := s.ring.awaiting.set (engineNo e) a }

/-- The lapse mark at the print position of an engine (R51). -/
def State.lapseAt (s : State) (e : Engine) : Option (Fin 12) := s.ring.lapse.get (engineNo e)

def setLapse (e : Engine) (p : Option (Fin 12)) (s : State) : State :=
  s.setRing { s.ring with lapse := s.ring.lapse.set (engineNo e) p }

/-- Every claim and awaiting-assignment entry becomes absent (R58, R60, R62). -/
def dropClaims (s : State) : State := s.setRing { s.ring with claims := .fill none, awaiting := .fill none }

/-- Both lapse marks are cleared (R54, R60, R62). -/
def clearLapses (s : State) : State := s.setRing { s.ring with lapse := .fill none }

/-! ### Engines -/

/-- The engine record of an engine (R95). -/
def State.engine (s : State) (e : Engine) : EngineRec := s.engines.get (engineNo e)

def modEngine (e : Engine) (f : EngineRec → EngineRec) (s : State) : State :=
  s.setEngines (s.engines.set (engineNo e) (f (s.engine e)))

/-! ### Passes and the index permit -/

/-- A spray or gauge pass is in flight in the device (R78). -/
def State.passInFlight (s : State) : Bool := s.pre.pass.isSome || s.gauge.pass.isSome

/-- R52: the conditions under which INDEX_PERMIT is on (DEDUCED, log entry 25: a function of the state). -/
def State.permit (s : State) : Bool :=
  s.mode = .run && s.ring.claims = .fill none && s.ring.awaiting = .fill none && !s.passInFlight

/-! ### Discrete lines -/

/-- The line that holds a function, if any does (R131). -/
def State.lineOf (s : State) (f : LineFunction) : Option (Fin 24) :=
  (List.finRange 24).find? fun l => (s.lines.get l).function = f

/-- A function is assigned to a line. -/
def State.assigned (s : State) (f : LineFunction) : Bool := (s.lineOf f).isSome

/-- A pump stroke is in its active half (R68). -/
def State.strokeActive (s : State) : Bool :=
  match s.pre.pass with
  | some p => p.phase = .active
  | none => false

/-- R137: the level an output function shows; in HOLD the safe levels. An input function, and NONE, shows none. -/
def State.outputLevel (s : State) : LineFunction → Option Bool
  | .indexPermit => some (s.mode ≠ .hold && s.permit)
  | .pumpStroke => some (s.mode ≠ .hold && s.strokeActive)
  | .gaugeExcite => some (s.mode ≠ .hold && s.gauge.pass.isSome)
  | .faultOut => some (s.mode = .hold)
  | .none | .indexPulse | .home | .pumpFault | .beltEnc | .gaugeOscFront | .gaugeOscBack => none

/-- The function is an input (Table 8-1). -/
def isInput : LineFunction → Bool
  | .indexPulse | .home | .pumpFault | .beltEnc | .gaugeOscFront | .gaugeOscBack => true
  | .none | .indexPermit | .pumpStroke | .gaugeExcite | .faultOut => false

/-- R131: the level a line drives, or `none` when it is undriven. -/
def State.driven (s : State) (l : Fin 24) : Option Bool :=
  let x := s.lines.get l
  if x.function = .none then (if x.direction = .outward then some x.level else none) else s.outputLevel x.function

/-- R135: a driven line's pin carries its own driven level, an undriven one the level put on it from outside. -/
def State.pinLevel (s : State) (l : Fin 24) : Bool := (s.driven l).getD (s.lines.get l).outside

/-- R135: the filtered level. With a filter of 0 it follows the pin at once. -/
def State.filteredLevel (s : State) (l : Fin 24) : Bool :=
  if (s.lines.get l).filter = .us0 then s.pinLevel l else (s.lines.get l).filtered

def modLine (l : Fin 24) (f : Line → Line) (s : State) : State := s.setLines (s.lines.set l (f (s.lines.get l)))

/-! ### Revisions -/

/-- R3: a slot's revision advances once at an event that changed its record, created it or freed it. -/
def advanceTravellers (old new : State) : Tab TravSlot 32 :=
  .ofFn fun i =>
    let n := new.table.slots.get i
    if n.trav = old.trav? i then n else { n with rev := n.rev + 1 }

/-- R95, R97: an engine record's revision advances once at an event that changed one or more of its fields. -/
def advanceEngines (old new : State) : Tab EngineRec 2 :=
  .ofFn fun e =>
    let n := new.engines.get e
    if { n with rev := 0 } = { old.engines.get e with rev := 0 } then n else { n with rev := n.rev + 1 }

/-- The fields of a RING record (R45) that can change. -/
structure RingView where
  platen : Fin 12
  carried : Option (Fin 32)
  claim : Option Claim
  awaiting : Option (Fin 32)
  lapse : Option (Fin 12)
  synced : Bool
  deriving DecidableEq, Repr

/-- The RING record of position `k` as it stands (R45). -/
def ringView (s : State) (k : Fin 12) : RingView :=
  let st := stationAt k.val
  let e := st.bind stationEngine
  { platen := platenAt s.ring k
    carried := s.slotAt k
    claim := st.bind s.claimAt
    awaiting := (e.bind s.awaitingAt).map (·.trav)
    lapse := e.bind s.lapseAt
    synced := s.ring.synced }

/-- R45: a RING record's revision advances once at an event that changed one or more of its fields. -/
def advanceRing (old new : State) : Tab Rev 12 :=
  .ofFn fun k => if ringView new k = ringView old k then new.ring.revs.get k else new.ring.revs.get k + 1

/-- The entries of the TUNNEL record (R121): slot, serial and Tmax, head first. -/
def queueView (s : State) : List (Fin 32 × Option (BitVec 16) × Nat) :=
  s.tunnel.queue.map fun q => (q.trav, (s.trav? q.trav).map (·.serial), q.tmax)

/-- R121: the event changed one or more fields of the TUNNEL record. -/
def tunnelChanged (old new : State) : Bool :=
  ¬(new.tunnel.zones = old.tunnel.zones ∧ new.tunnel.staleTimer.isSome = old.tunnel.staleTimer.isSome ∧
    new.tunnel.sampled = old.tunnel.sampled ∧ queueView new = queueView old)

/-- R121: the TUNNEL record's revision. -/
def advanceTunnel (old new : State) : Rev :=
  if tunnelChanged old new then new.tunnel.rev + 1 else new.tunnel.rev

/-- The revisions of the traveller slots, the engine records, the RING records and the TUNNEL record at the end of an
event that took the part from `old` to `new` (DEDUCED, log entry 14). The other revisions are advanced where their
rules say. -/
def commit (old new : State) : State :=
  (((new.setTable { new.table with slots := advanceTravellers old new }).setEngines (advanceEngines old new)).setRing
    { new.ring with revs := advanceRing old new }).setTunnel { new.tunnel with rev := advanceTunnel old new }

/-! ### Ports and the execution of a command (R139 to R144) -/

def State.port (s : State) (p : Port) : PortState := s.ports.get (portNo p)

def modPort (p : Port) (f : PortState → PortState) (s : State) : State :=
  s.setPorts (s.ports.set (portNo p) (f (s.port p)))

/-- The bytes of a response holder: echoed command, status, payload (R139). -/
def holderBytes (h : Holder) : List Byte := h.command :: BitVec.ofNat 8 (statusCode h.status) :: h.payload

/-- R140: what a frame of `n` whole bytes shifts out: the number of bytes in the holder; then, in a READ, the holder's
bytes; then 0x00. The bits of an unfinished byte are left out (DESIGN CHOICE, log entry 12). -/
def shiftedOut (h : Holder) (isRead : Bool) (n : Nat) : List Byte :=
  (BitVec.ofNat 8 (holderBytes h).length :: ((if isRead then holderBytes h else []) ++ List.replicate n 0)).take n

/-- R141: a frame of `n` whole bytes on port `p` has ended; the receiver is idle again. -/
def endFrame (p : Port) (n : Nat) (isRead : Bool) (s : State) : State :=
  modPort p (fun q => { q with receiver := .idle, shifted := shiftedOut q.holder isRead n }) s

/-- R144: the holder of port `p` is replaced. -/
def respond (p : Port) (code : Byte) (st : Status) (data : List Byte) (s : State) : State :=
  modPort p (fun q => { q with holder := ⟨code, st, data⟩ }) s

/-- What a command's checks and effects come to: a refusal with its status and payload, which changes nothing else, or
the state after its effects with the payload that goes with OK. -/
inductive Answer where
  | refuse (st : Status) (data : List Byte)
  | accept (s : State) (data : List Byte)
  deriving DecidableEq, Repr

/-- One check of a command: `st` when `c` holds, else go on. -/
def refuseIf (c : Prop) [Decidable c] (st : Status) (k : Answer) : Answer := if c then .refuse st [] else k

/-- R144: role, mode and length before the command's own checks. -/
def checked (p : Port) (roles : List Port) (modes : List Mode) (lengthOk : Bool) (body : State → Answer) (s : State) :
    Answer :=
  refuseIf (p ∉ roles) .role <| refuseIf (s.mode ∉ modes) .mode <| refuseIf (lengthOk = false) .arg <| body s

/-- R144: the response and the effects of an answer, with the revisions that the effects advance. -/
def conclude (p : Port) (code : Byte) (s : State) : Answer → State
  | .refuse st data => respond p code st data s
  | .accept s' data => respond p code .ok data (commit s s')

/-- R144: a well-formed command frame is executed as one event. -/
def command (p : Port) (code : Byte) (payload : List Byte) (roles : List Port) (modes : List Mode) (lengthOk : Bool)
    (body : State → Answer) (s : State) : State :=
  let s' := endFrame p (payload.length + 2) false s
  conclude p code s' (checked p roles modes lengthOk body s')

/-- An event of the machinery: its effects, with the revisions they advance. -/
def event (f : State → State) (s : State) : State := commit s (f s)

/-- Every device mode. -/
def anyMode : List Mode := [.config, .run, .hold]

/-- RUN and HOLD. -/
def runHold : List Mode := [.run, .hold]

end Sys2Proof.Machine
end

