-- ==== Sys2Proof/Machine/Orders.lean ====
section
/-! DEFINITION. The order book (chapter 2): placing, matching, counting closures, cancelling and releasing. -/

namespace Sys2Proof.Machine

open Sys2Proof

/-! ### Lines and slots -/

/-- R23: quantity minus produced minus in work. -/
def need (l : LineItem) : Nat := l.quantity - l.produced - l.inWork

/-- Writes an order slot and advances its revision once (R22). `none` frees the slot. -/
def putOrder (k : Fin 64) (o : Option Order) (s : State) : State :=
  s.setBook { s.book with slots := s.book.slots.set k ⟨(s.book.slots.get k).rev + 1, o⟩ }

/-- Changes line `j` of an order. -/
def modLineItem (j : Fin 8) (f : LineItem → LineItem) (o : Order) : Order := { o with lines := o.lines.modify j.val f }

/-- Every line has in work 0 (R24). -/
def noneInWork (o : Order) : Bool := o.lines.all fun l => l.inWork = 0

/-- Every line has produced equal to quantity (R24). -/
def allProduced (o : Order) : Bool := o.lines.all fun l => l.produced = l.quantity

/-- The slot of the live order with this number, if there is one (R26, R37, R38). -/
def orderSlotOf (s : State) (number : BitVec 32) : Option (Fin 64) :=
  (List.finRange 64).find? fun k =>
    match s.order? k with
    | some o => o.number = number
    | none => false

/-- The lowest-numbered FREE order slot (R27). -/
def freeOrderSlot (s : State) : Option (Fin 64) := (List.finRange 64).find? fun k => (s.order? k).isNone

/-! ### Placing an order (R25 to R27) -/

/-- Line `i` of a PLACE_ORDER payload (Table 12-3), with the checks of R25 that concern one line. -/
def lineItemAt (s : State) (l : List Byte) (i : Nat) : Option LineItem :=
  let b := 10 + 22 * i
  let quantity := byteAt l (b + 5)
  let width := u16At l (b + 8)
  let height := u16At l (b + 10)
  let coverage : Inks := ⟨u16At l (b + 12), u16At l (b + 14), u16At l (b + 16), u16At l (b + 18), u16At l (b + 20)⟩
  match fin? 8 (byteAt l (b + 6)), sideOf (byteAt l (b + 7)) with
  | some fabric, some placement =>
    if 1 ≤ quantity ∧ quantity ≤ 24 ∧ (s.setup.fabrics.get fabric).cls.valid = true ∧ 20 ≤ width ∧ width ≤ 406 ∧
        20 ≤ height ∧ height ≤ 508 ∧ coverage.toList.all (· ≤ 1000) = true then
      some { blank := BitVec.ofNat 24 (u24At l b), design := BitVec.ofNat 16 (u16At l (b + 3)), quantity, fabric,
             placement, width, height, coverage, produced := 0, inWork := 0, reprints := 0 }
    else none
  | _, _ => none

/-- Every one of `n` lines, or `none` when one fails its checks. -/
def lineItemsAt (s : State) (l : List Byte) (n : Nat) : Option (List LineItem) :=
  (List.range n).mapM (lineItemAt s l)

/-- R164: the length of a PLACE_ORDER payload, by the line count in byte 9. -/
def placeOrderLength (l : List Byte) : Bool :=
  10 ≤ l.length && 1 ≤ byteAt l 9 && byteAt l 9 ≤ 8 && l.length = 10 + 22 * byteAt l 9

/-- The order that a PLACE_ORDER payload carries, when its fields pass R25. -/
def orderIn (s : State) (l : List Byte) : Option Order :=
  match priorityOf (byteAt l 4), lineItemsAt s l (byteAt l 9) with
  | some priority, some lines =>
    if u32At l 0 = 0 then none
    else some { number := BitVec.ofNat 32 (u32At l 0), seq := s.book.seq, priority, due := BitVec.ofNat 32 (u32At l 5),
                hold := false, state := .open, lines }
  | _, _ => none

/-- R27: the order goes into slot `k` and the placement sequence counter advances. -/
def placeIn (k : Fin 64) (o : Order) (s : State) : State :=
  let s' := putOrder k (some o) s
  s'.setBook { s'.book with seq := s'.book.seq + 1 }

def placeOrderBody (l : List Byte) (s : State) : Answer :=
  match orderIn s l with
  | none => .refuse .arg []
  | some o =>
    refuseIf ((orderSlotOf s o.number).isSome = true) .dup <|
      match freeOrderSlot s with
      | none => .refuse .full []
      | some k => .accept (placeIn k o s) (bytes8 k.val)

/-- PLACE_ORDER (R25 to R27). -/
def execPlaceOrder (p : Port) (l : List Byte) (s : State) : Host.Outcome State Fault Refusal :=
  .next (command p 0x10 l [.gateway] runHold (placeOrderLength l) (placeOrderBody l) s)

/-! ### Matching (R29, R30, R41) -/

/-- The keys of Table 2-5, first key first. -/
def matchKey (o : Order) (c : Fin 64 × Fin 8) : List Nat :=
  [priorityCode o.priority, o.due.toNat, o.seq.toNat, c.2.val, c.1.val]

/-- One list of keys comes before another: a later key decides only between equals on every earlier one (R30). -/
def keysBefore : List Nat → List Nat → Bool
  | a :: as, b :: bs => a < b || (a = b && keysBefore as bs)
  | _, _ => false

/-- A line that matching or salvage may use: its order OPEN or IN_WORK and not held, and its need above zero
(R29, R41). -/
def lineLive (o : Order) (l : LineItem) : Bool :=
  (o.state = .open || o.state = .inWork) && !o.hold && 0 < need l

/-- The lines that satisfy `ok`, each with its keys. -/
def candidates (s : State) (ok : Order → LineItem → Bool) : List ((Fin 64 × Fin 8) × List Nat) :=
  (List.finRange 64).flatMap fun k =>
    match s.order? k with
    | none => []
    | some o => (List.finRange 8).filterMap fun j =>
        match o.lines[j.val]? with
        | some l => if ok o l then some ((k, j), matchKey o (k, j)) else none
        | none => none

/-- The first of the candidates under the ordering of Table 2-5. -/
def firstOf : List ((Fin 64 × Fin 8) × List Nat) → Option ((Fin 64 × Fin 8) × List Nat)
  | [] => none
  | c :: cs =>
    match firstOf cs with
    | none => some c
    | some d => if keysBefore d.2 c.2 then some d else some c

/-- R29, R30: the line item chosen for a scanned blank. -/
def matchBlank (s : State) (blank : BitVec 24) : Option (Fin 64 × Fin 8) :=
  (firstOf (candidates s fun o l => lineLive o l && l.blank = blank && (s.fabricOf l).valid)).map (·.1)

/-- R41: the line item that takes a cured orphan of line `own`. -/
def salvageFor (s : State) (own : LineItem) : Option (Fin 64 × Fin 8) :=
  (firstOf (candidates s fun o l =>
    lineLive o l && l.blank = own.blank && l.design = own.design && l.placement = own.placement)).map (·.1)

/-- R31: the chosen line's in work rises by one, an OPEN order becomes IN_WORK, the revision advances once. -/
def bindLine (k : Fin 64) (j : Fin 8) (s : State) : State :=
  match s.order? k with
  | none => s
  | some o =>
    putOrder k (some { modLineItem j (fun l => { l with inWork := l.inWork + 1 }) o with state := .inWork }) s

/-! ### Counting closures (R32 to R34, R40, R42) -/

/-- R40: a CANCELLING order whose lines all have in work 0 is freed, with one more revision advance and
ORDER_CANCEL_DONE for the gateway. -/
def freeIfCancelled (k : Fin 64) (s : State) : State :=
  match s.order? k with
  | none => s
  | some o =>
    if o.state = .cancelling ∧ noneInWork o = true then raise .gateway .orderCancelDone (putOrder k none s) else s

/-- R33: an IN_WORK order whose lines all have in work 0 becomes OPEN. -/
def openIfIdle (o : Order) : Order := if o.state = .inWork ∧ noneInWork o = true then { o with state := .open } else o

/-- ORDER_COMPLETE goes to the GATEWAY and the TUNNEL port (R32, R42). -/
def raiseComplete (s : State) : State := raise .tunnel .orderComplete (raise .gateway .orderComplete s)

/-- R32: a PACK closure against line `j` of order slot `k`. -/
def countPack (k : Fin 64) (j : Fin 8) (s : State) : State :=
  match s.order? k with
  | none => s
  | some o =>
    let o' := modLineItem j (fun l => { l with inWork := l.inWork - 1, produced := l.produced + 1 }) o
    if allProduced o' then raiseComplete (putOrder k (some { o' with state := .complete }) s)
    else putOrder k (some (openIfIdle o')) s

/-- R33: a closure that only returns the unit: in work falls by one (RETURN, LOST, SURPLUS, and the original line of a
salvage). -/
def countBack (k : Fin 64) (j : Fin 8) (s : State) : State :=
  match s.order? k with
  | none => s
  | some o =>
    freeIfCancelled k (putOrder k (some (openIfIdle (modLineItem j (fun l => { l with inWork := l.inWork - 1 }) o))) s)

/-- R34: the line's reprints exceed the reprint limit in an order that is OPEN or IN_WORK. -/
def scrapHolds (limit : Nat) (j : Fin 8) (o : Order) : Bool :=
  (o.state = .open || o.state = .inWork) &&
    match o.lines[j.val]? with
    | some l => limit < l.reprints
    | none => false

/-- R34: a SCRAP closure against line `j` of order slot `k`. -/
def countScrap (k : Fin 64) (j : Fin 8) (s : State) : State :=
  match s.order? k with
  | none => s
  | some o =>
    let o' := modLineItem j (fun l => { l with inWork := l.inWork - 1, reprints := min 65535 (l.reprints + 1) }) o
    if scrapHolds s.constants.reprintLimit j o' then
      freeIfCancelled k (raise .gateway .orderHeld (putOrder k (some (openIfIdle { o' with hold := true })) s))
    else freeIfCancelled k (putOrder k (some (openIfIdle o')) s)

/-- R42: the accepting line of a salvage: produced rises by one; the order becomes COMPLETE when every line is
produced, and otherwise keeps its state. -/
def countSalvaged (k : Fin 64) (j : Fin 8) (s : State) : State :=
  match s.order? k with
  | none => s
  | some o =>
    let o' := modLineItem j (fun l => { l with produced := l.produced + 1 }) o
    if allProduced o' then raiseComplete (putOrder k (some { o' with state := .complete }) s)
    else putOrder k (some o') s

/-! ### Cancelling and releasing (R37 to R39) -/

/-- The open travellers bound to order slot `k` (R39). -/
def boundTo (s : State) (k : Fin 64) : List (Fin 32) :=
  (openSlots s).filter fun i =>
    match s.trav? i with
    | some t => t.slot = k
    | none => false

/-- R39: the orphan mark of every open traveller bound to order slot `k` is set. -/
def markOrphans (k : Fin 64) (s : State) : State :=
  (boundTo s k).foldl (fun s i => modTrav i (fun t => { t with orphan := true }) s) s

def cancelOrderBody (l : List Byte) (s : State) : Answer :=
  match orderSlotOf s (BitVec.ofNat 32 (u32At l 0)) with
  | none => .refuse .noMatch []
  | some k =>
    match s.order? k with
    | none => .refuse .noMatch []
    | some o =>
      match o.state with
      | .cancelling => .refuse .state []
      | .open | .complete => .accept (putOrder k none s) (bytes8 0 ++ bytes8 0)
      | .inWork =>
        .accept (markOrphans k (putOrder k (some { o with state := .cancelling }) s))
          (bytes8 1 ++ bytes8 (boundTo s k).length)

/-- CANCEL_ORDER (R38, R39). -/
def execCancelOrder (p : Port) (l : List Byte) (s : State) : Host.Outcome State Fault Refusal :=
  .next (command p 0x11 l [.gateway] runHold (l.length = 4) (cancelOrderBody l) s)

def releaseOrderBody (l : List Byte) (s : State) : Answer :=
  match orderSlotOf s (BitVec.ofNat 32 (u32At l 0)) with
  | none => .refuse .noMatch []
  | some k =>
    match s.order? k with
    | none => .refuse .noMatch []
    | some o =>
      refuseIf (o.state ≠ .complete) .state <|
        .accept (raise .gateway .orderReleased (putOrder k none s)) []

/-- RELEASE_ORDER (R37). -/
def execReleaseOrder (p : Port) (l : List Byte) (s : State) : Host.Outcome State Fault Refusal :=
  .next (command p 0x3C l [.tunnel] runHold (l.length = 4) (releaseOrderBody l) s)

end Sys2Proof.Machine
end

