-- ==== Sys2Proof/Machine/Closure.lean ====
section
/-! DEFINITION. Closures and the exit list (sections 1.14 to 1.16), and EXIT_POP. -/

namespace Sys2Proof.Machine

open Sys2Proof

/-- R18: an entry joins the tail of the exit list; a full list loses its oldest entry first. EXIT_READY, and
EXIT_OVERRUN at a full list, go to the TUNNEL port. -/
def joinExit (x : ExitEntry) (s : State) : State :=
  if s.exits.length < Config.exitListLength then raise .tunnel .exitReady (s.setExits (s.exits ++ [x]))
  else raise .tunnel .exitOverrun (raise .tunnel .exitReady (s.setExits (s.exits.drop 1 ++ [x])))

/-- R17: the exit entry of traveller `t`; `reported` says whether Table 1-13 reports its binding, and the cure verdict
is there when the closing event is a tunnel exit. -/
def exitEntryOf (s : State) (t : Traveller) (d : Disposition) (reported : Bool) (v : Option CureVerdict) : ExitEntry where
  serial := t.serial
  disposition := d
  binding := if reported then (s.order? t.slot).map fun o => (o.number, t.line) else none
  verdict := v
  fault := t.faults.head?

/-- R16: the platen, if the traveller still has one, becomes empty. -/
def emptyPlaten (t : Traveller) (s : State) : State :=
  match t.platen with
  | some p => setCarried p none s
  | none => s

/-- R16: the closure of the traveller `t` in slot `i` with disposition `d`, `count` being what the order book does
with it. The exit entry is composed before the counts move, so an order freed by the closure is still named (R40). -/
def close (i : Fin 32) (t : Traveller) (d : Disposition) (reported : Bool) (v : Option CureVerdict)
    (count : State → State) (s : State) : State :=
  putTrav i none (emptyPlaten t (joinExit (exitEntryOf s t d reported v) (count s)))

/-- UNLOAD_DONE of a REJECT_PENDING traveller (R15). -/
def closeScrap (i : Fin 32) (t : Traveller) (v : Option CureVerdict) : State → State :=
  close i t .scrap true v (countScrap t.slot t.line)

/-- UNLOAD_DONE of a RETURN_PENDING traveller (R15). -/
def closeReturn (i : Fin 32) (t : Traveller) : State → State := close i t .return true none (countBack t.slot t.line)

/-- LINE_RESET: LOST, an orphan reported without an order (R15). -/
def closeLost (i : Fin 32) (t : Traveller) : State → State :=
  close i t .lost (!t.orphan) none (countBack t.slot t.line)

/-- R20: LINE_RESET closes every open traveller LOST, in increasing order of slot. -/
def closeAllLost (s : State) : State :=
  (openSlots s).foldl
    (fun s i =>
      match s.trav? i with
      | some t => closeLost i t s
      | none => s) s

/-- R41, R42: a CURED orphan is offered for salvage; PACK under the accepting line, else SURPLUS. -/
def closeCuredOrphan (i : Fin 32) (t : Traveller) (s : State) : State :=
  match salvageFor s (s.boundLine t) with
  | some (k, j) =>
    close i { t with slot := k, line := j, orphan := false } .pack true (some .cured)
      (fun s => countSalvaged k j (countBack t.slot t.line s)) s
  | none => close i t .surplus false (some .cured) (countBack t.slot t.line) s

/-- R15: the closure at the tunnel exit, by verdict and orphan mark. -/
def closeAtExit (i : Fin 32) (t : Traveller) (v : CureVerdict) (s : State) : State :=
  match v with
  | .cured =>
    if t.orphan then closeCuredOrphan i t s else close i t .pack true (some .cured) (countPack t.slot t.line) s
  | .scorched => closeScrap i t (some .scorched) s
  | .underCured => closeScrap i t (some .underCured) s

/-- R163: the presence byte of an exit entry. -/
def presence (x : ExitEntry) : Nat :=
  flagCode x.binding.isSome + 2 * flagCode x.verdict.isSome + 4 * flagCode x.fault.isSome

/-- The EXIT_POP payload of an entry (Table 12-2); an absent field is sent as 0 (R163). -/
def exitBytes (x : ExitEntry) : List Byte :=
  bytes16 x.serial.toNat ++ bytes8 (dispositionCode x.disposition) ++ bytes8 (presence x) ++
    bytes32 ((x.binding.map fun b => b.1.toNat).getD 0) ++ bytes8 ((x.binding.map fun b => b.2.val).getD 0) ++
    bytes8 ((x.verdict.map cureVerdictCode).getD 0) ++ bytes8 ((x.fault.map faultCode).getD 0)

def exitPopBody (s : State) : Answer :=
  match s.exits with
  | [] => .accept s []
  | x :: rest => .accept (s.setExits rest) (exitBytes x)

/-- EXIT_POP (R19). -/
def execExitPop (p : Port) (l : List Byte) (s : State) : Host.Outcome State Fault Refusal :=
  .next (command p 0x3B l [.tunnel] runHold (l.length = 0) exitPopBody s)

end Sys2Proof.Machine
end

