-- ==== Sys2Proof/Machine/CuringTunnel.lean ====
section
/-! DEFINITION. The curing tunnel (chapter 7): entry, zone temperatures, samples, encoder pulses and exits. -/

namespace Sys2Proof.Machine

open Sys2Proof

/-! ### Distance and zone (R117) -/

/-- R117: the distance in mm travelled at encoder count `count` since entry. -/
def distance (count entry : BitVec 32) : Nat := (count - entry).toNat / 2

/-- R117: the zone at distance `d`; zones 1 to 3 are numbered 0 to 2. -/
def zoneOf (c : Constants) (d : Nat) : Fin 3 := if d < c.zoneEnd1 then 0 else if d < c.zoneEnd2 then 1 else 2

/-- The entry encoder count of the traveller in slot `i`; the present count where it has none (DESIGN CHOICE, log
entry 13). -/
def entryCountOf (s : State) (i : Fin 32) : BitVec 32 :=
  match s.trav? i with
  | some t => (t.cure.map (·.entryCount)).getD s.tunnel.encoder
  | none => s.tunnel.encoder

/-! ### Entry (R118 to R120) -/

/-- R119: the ink term. -/
def inkTerm (c : Constants) (l : LineItem) : Nat :=
  printArea l * (l.coverage.w * c.kw + (l.coverage.c + l.coverage.m + l.coverage.y + l.coverage.k) * c.kc) / 10000

/-- R119: the deposit term. -/
def depositTerm (c : Constants) (t : Traveller) : Nat :=
  ((t.pretreat.bind (·.measured)).getD 0) * c.kd / 10

/-- R119: the required dose R. -/
def requiredDose (c : Constants) (f : FabricClass) (l : LineItem) (t : Traveller) : Nat :=
  min 60000 (max 1 (f.cureBase + inkTerm c l + depositTerm c t))

/-- R119: the scorch limit L. -/
def scorchLimit (f : FabricClass) (r : Nat) : Nat := min 65535 (r * f.scorchFactor / 100)

/-- R118, check 4: the most recent entry has travelled less than the entry spacing. -/
def tailTooNear (s : State) : Bool :=
  match s.tunnel.queue.getLast? with
  | some q => distance s.tunnel.encoder (entryCountOf s q.trav) < s.constants.spacing
  | none => false

/-- R120: traveller `t` in slot `i` enters the tunnel with required dose `r`. -/
def enterTunnel (i : Fin 32) (t : Traveller) (f : FabricClass) (r : Nat) (s : State) : State :=
  let t' : Traveller := { t with
    platen := none
    stage := .inTunnel
    cure := some ⟨s.tunnel.encoder, r, scorchLimit f r, 0, 0, false, none⟩ }
  let s := setCarried (platenAt s.ring 10) none (putTrav i (some t') s)
  s.setTunnel { s.tunnel with queue := s.tunnel.queue ++ [⟨i, f.tmax⟩], sampled := s.tunnel.encoder }

/-- R120: the response of a TUNNEL_ENTRY that is taken. -/
def entryResponse (s : State) (i : Fin 32) (t : Traveller) (f : FabricClass) (r : Nat) : List Byte :=
  bytes8 i.val ++ bytes16 t.serial.toNat ++ bytes16 r ++ bytes16 (scorchLimit f r) ++
    bytes8 (s.tunnel.queue.length + 1)

def tunnelEntryBody (s : State) : Answer :=
  refuseIf (s.holdsClaim .tunnel .unload = false) .state <|
    match s.travAt 10 with
    | none => .refuse .state []
    | some (i, t) =>
      refuseIf (t.stage ≠ .printed) .state <|
      refuseIf (Config.tunnelQueueLength ≤ s.tunnel.queue.length) .full <|
      refuseIf (tailTooNear s = true) .busy <|
        let l := s.boundLine t
        let f := s.fabricOf l
        let r := requiredDose s.constants f l t
        .accept (enterTunnel i t f r s) (entryResponse s i t f r)

/-- TUNNEL_ENTRY (R118 to R120). -/
def execTunnelEntry (p : Port) (l : List Byte) (s : State) : Host.Outcome State Fault Refusal :=
  .next (command p 0x38 l [.tunnel] runHold (l.length = 0) tunnelEntryBody s)

/-! ### Zone temperatures (R122, R123) -/

/-- The three zone entries, unknown (R123, R130). -/
def zonesUnknown : Tab (Option Nat) 3 := .fill none

/-- R122: the three temperatures of a payload, as stored. -/
def clampedTemps (l : List Byte) : Nat × Nat × Nat :=
  (min Config.maxZoneTemp (u16At l 0), min Config.maxZoneTemp (u16At l 2), min Config.maxZoneTemp (u16At l 4))

/-- R122: at least one value was clamped. -/
def anyClamped (l : List Byte) : Bool :=
  Config.maxZoneTemp < u16At l 0 || Config.maxZoneTemp < u16At l 2 || Config.maxZoneTemp < u16At l 4

/-- R122: the zones become known and the stale timer starts afresh. -/
def storeZones (z : Nat × Nat × Nat) (s : State) : State :=
  s.setTunnel { s.tunnel with
    zones := ((s.tunnel.zones.set 0 (some z.1)).set 1 (some z.2.1)).set 2 (some z.2.2)
    staleTimer := some s.constants.staleLimit }

def zoneTempsBody (l : List Byte) (s : State) : Answer :=
  let z := clampedTemps l
  let s := storeZones z s
  .accept (if anyClamped l then raise .tunnel .tempRange s else s) (bytes16 z.1 ++ bytes16 z.2.1 ++ bytes16 z.2.2)

/-- ZONE_TEMPS (R122). -/
def execZoneTemps (p : Port) (l : List Byte) (s : State) : Host.Outcome State Fault Refusal :=
  .next (command p 0x3A l [.tunnel] runHold (l.length = 6) (zoneTempsBody l) s)

/-- R123: the stale timer expires; a stopped timer does not. -/
def staleExpiry (s : State) : State :=
  if s.tunnel.staleTimer.isSome then
    raise .tunnel .tempStale (s.setTunnel { s.tunnel with zones := zonesUnknown, staleTimer := none })
  else s

/-- STALE_TIMER_EXPIRY (R123). -/
def execStaleTimerExpiry (s : State) : Host.Outcome State Fault Refusal := .next (event staleExpiry s)

/-! ### Sampling (R124, R125) -/

/-- R125: the increment at zone temperature `tz` and cure onset `t0`. -/
def doseIncrement (tz t0 : Nat) : Nat := min 100 (tz - t0)

/-- R125: a sample of traveller `t`, with cure record `r`, whose zone reads `z`. -/
def sampled (c : Constants) (z : Option Nat) (r : Cure) (t : Traveller) : Traveller :=
  match z with
  | some tz => { t with cure := some { r with dose := min 65535 (r.dose + doseIncrement tz c.onset), peak := max r.peak tz } }
  | none => if r.stale then t else addFault .staleTemp { t with cure := some { r with stale := true } }

/-- R125: a sample of the traveller in slot `i`. -/
def sampleOne (i : Fin 32) (s : State) : State :=
  modTrav i
    (fun t =>
      match t.cure with
      | some r =>
        sampled s.constants (s.tunnel.zones.get (zoneOf s.constants (distance s.tunnel.encoder r.entryCount))) r t
      | none => t) s

/-- R121, R124, R125: a sample-timer expiry; a stopped timer does not expire. -/
def sampleExpiry (s : State) : State :=
  if s.tunnel.sampleTimer.isSome then
    let s := s.tunnel.queue.foldl (fun s q => sampleOne q.trav s) s
    s.setTunnel { s.tunnel with sampled := s.tunnel.encoder }
  else s

/-- SAMPLE_TIMER_EXPIRY (R124, R125). -/
def execSampleTimerExpiry (s : State) : Host.Outcome State Fault Refusal := .next (event sampleExpiry s)

/-! ### Encoder pulses and exits (R116, R126, R127) -/

/-- R127: the verdict, its tests taken in order. -/
def cureVerdict (tmax : Nat) (r : Cure) : CureVerdict :=
  if tmax < r.peak then .scorched
  else if r.scorch < r.dose then .scorched
  else if r.required ≤ r.dose then .cured
  else .underCured

/-- R126: the head garment, whose distance is taken at encoder count `count`, has reached the belt length. -/
def headAtEnd (s : State) (count : BitVec 32) : Bool :=
  match s.tunnel.queue with
  | q :: _ => s.constants.beltLength ≤ distance count (entryCountOf s q.trav)
  | [] => false

/-- R126: the head leaves the queue, takes its verdict and closes. -/
def exitHead (s : State) : State :=
  match s.tunnel.queue with
  | [] => s
  | q :: rest =>
    let s' := s.setTunnel { s.tunnel with queue := rest, sampled := s.tunnel.encoder }
    match s.trav? q.trav with
    | none => s'
    | some t =>
      match t.cure with
      | none => s'
      | some r => closeAtExit q.trav t (cureVerdict q.tmax r) s'

/-- R116, R126: an encoder pulse, with the exit that belongs to it. -/
def pulse (s : State) : State :=
  let s := s.setTunnel { s.tunnel with encoder := s.tunnel.encoder + 1 }
  if headAtEnd s s.tunnel.encoder then exitHead s else s

end Sys2Proof.Machine
end

