-- ==== Sys2Proof/Machine/Pretreat.lean ====
section
/-! DEFINITION. The pretreatment unit (chapter 4): decision, target dose, spray pass, pump fault, top-up, and the press.
Verification (R92, R93) stands here too, because a SPRAY with nothing owed runs it (R75). -/

namespace Sys2Proof.Machine

open Sys2Proof

/-! ### Decision and target (R63, R64) -/

/-- Target dose Q in 0.1 g (R64). -/
def targetDose (l : LineItem) (f : FabricClass) : Nat := printArea l * f.density / 1000

/-- Initial stroke count (R64). -/
def initialStrokes (q ks : Nat) : Nat := ceilDiv (q * 100) ks

/-- R63, R8: the pretreat record of a garment of line `l`, or none. -/
def pretreatAtLoad (c : Constants) (l : LineItem) (f : FabricClass) : Option Pretreat :=
  if 0 < l.coverage.w ∧ f.mode = .ifWhite then
    some { target := targetDose l f, commanded := initialStrokes (targetDose l f) c.strokeMass, delivered := 0,
           window := none, wetCount := none, measured := none, topUps := 0, sub := .needDry }
  else none

/-- R70: the garment is metered in the ungauged manner. -/
def ungauged (s : State) (t : Traveller) : Bool := (s.boundLine t).placement = .back && !s.assigned .gaugeOscBack

/-! ### Verification and top-up (R74, R92, R93) -/

/-- Lower and upper edge of the band (R92). -/
def bandLow (q t : Nat) : Nat := q * (100 - t) / 100

def bandHigh (q t : Nat) : Nat := q * (100 + t) / 100

/-- Table 5-4, its rows tested in order. -/
def verdictOf (q t qm : Nat) : GaugeVerdict :=
  if bandLow q t ≤ qm ∧ qm ≤ bandHigh q t then .verified
  else if qm < bandLow q t then .light
  else if qm ≤ 2 * q then .heavy
  else .reject

/-- R74: the strokes of a top-up. -/
def topUpStrokes (q qm ks : Nat) : Nat := ceilDiv ((q - qm) * 100) ks

/-- R74, R92, R93: traveller `t`, with pretreat record `r`, after its deposit measured `qm`. -/
def verified (c : Constants) (qm : Nat) (r : Pretreat) (t : Traveller) : Traveller :=
  let r := { r with measured := some qm }
  match verdictOf r.target c.tolerance qm with
  | .verified => { t with pretreat := some { r with sub := .verified } }
  | .heavy => { t with pretreat := some { r with sub := .heavy } }
  | .reject => { t with pretreat := some { r with sub := .reject }, stage := .rejectPending }
  | .light =>
    if r.topUps < c.topUpLimit then
      { t with pretreat := some { r with commanded := r.commanded + topUpStrokes r.target qm c.strokeMass,
                                         topUps := r.topUps + 1, sub := .dryDone } }
    else { t with pretreat := some { r with sub := .reject }, stage := .rejectPending }

/-! ### Starting a spray pass (R66, R67, R75) -/

/-- R68: the stroke period in µs at a stroke rate. -/
def strokePeriod (rate : Nat) : Nat := 1000000 / rate

/-- R66, check 4: the sub-state that a SPRAY needs. -/
def sprayNeeds (ung : Bool) : SubState := if ung then .needDry else .dryDone

/-- R70: the deposit of an ungauged garment by stroke count. -/
def strokeDeposit (strokes ks : Nat) : Nat := min Config.maxDeposit (strokes * ks / 100)

/-- R75: a SPRAY with pass count 0 completes the metering of the garment in slot `i` at once; the GAUGE record stands
(DEDUCED, log entry 17). -/
def zeroSpray (i : Fin 32) (t : Traveller) (r : Pretreat) (s : State) : State :=
  raise .prep .sprayDone <|
    putTrav i
      (some <|
        if ungauged s t then
          { t with pretreat := some { r with measured := some (strokeDeposit 0 s.constants.strokeMass), sub := .ungauged } }
        else verified s.constants 0 r t) s

/-- R67: the spray pass over slot `i` begins with the inactive half of its first stroke. -/
def startSpray (i : Fin 32) (count : Nat) (ung : Bool) (s : State) : State :=
  s.setPre { s.pre with
    pass := some { trav := i, count, ungauged := ung, phase := .inactive, period := strokePeriod s.constants.strokeRate }
    strokes := 0 }

/-- The traveller at the booth (position 2) with its pretreat record, when it is in stage PRETREAT. -/
def atBooth (s : State) : Option (Fin 32 × Traveller × Pretreat) :=
  match s.travAt 2 with
  | some (i, t) => if t.stage = .pretreat then t.pretreat.map fun r => (i, t, r) else none
  | none => none

def sprayBody (s : State) : Answer :=
  refuseIf (s.holdsClaim .prep .spray = false) .state <|
    match atBooth s with
    | none => .refuse .state []
    | some (i, t, r) =>
      refuseIf (s.passInFlight = true) .busy <|
      refuseIf (r.sub ≠ sprayNeeds (ungauged s t)) .state <|
      refuseIf (s.pre.pumpFault = true) .state <|
      if r.commanded - r.delivered = 0 then .accept (zeroSpray i t r s) (bytes16 0)
      else .accept (startSpray i (r.commanded - r.delivered) (ungauged s t) s) (bytes16 (r.commanded - r.delivered))

/-- SPRAY (R66, R67, R75). -/
def execSpray (p : Port) (l : List Byte) (s : State) : Host.Outcome State Fault Refusal :=
  .next (command p 0x2A l [.prep] [.run] (l.length = 0) sprayBody s)

/-! ### Strokes and the ends of a spray pass (R68 to R73) -/

/-- The spray pass state becomes IDLE; the stroke counter keeps `n` (R65). -/
def sprayIdle (n : Nat) (s : State) : State := s.setPre { s.pre with pass := none, strokes := n }

/-- R69, R70: the pass ends normally with `n` strokes counted. -/
def sprayEnd (p : SprayPass) (n : Nat) (s : State) : State :=
  raise .prep .sprayDone <| sprayIdle n <|
    modPretreat p.trav
      (fun r =>
        if p.ungauged then
          { r with delivered := r.delivered + n,
                   measured := some (strokeDeposit (r.delivered + n) s.constants.strokeMass), sub := .ungauged }
        else { r with delivered := r.delivered + n, sub := .sprayed }) s

/-- R72, R73: the pass ends early; the strokes counted are kept and `c` joins the fault list. -/
def sprayCut (c : FaultCode) (p : SprayPass) (s : State) : State :=
  raise .prep .passFault <| sprayIdle s.pre.strokes <|
    modTrav p.trav (addFault c) <|
    modPretreat p.trav (fun r => { r with delivered := r.delivered + s.pre.strokes }) s

/-- R68: the active phase of the current stroke begins. -/
def strokeActivePhase (s : State) : State :=
  match s.pre.pass with
  | some p => if p.phase = .inactive then s.setPre { s.pre with pass := some { p with phase := .active } } else s
  | none => s

/-- R68: the next stroke of pass `p` begins after `n` are counted, at the stroke rate then in force. -/
def nextStroke (p : SprayPass) (n : Nat) (s : State) : State :=
  s.setPre { s.pre with
    pass := some { p with phase := .inactive, period := strokePeriod s.constants.strokeRate }, strokes := n }

/-- R68, R69: the active phase of the current stroke ends: the stroke is counted, and the pass ends or the next stroke
begins in the same event (DEDUCED, log entry 5). -/
def strokeDelivered (s : State) : State :=
  match s.pre.pass with
  | some p =>
    if p.phase = .active then
      if s.pre.strokes + 1 < p.count then nextStroke p (s.pre.strokes + 1) s else sprayEnd p (s.pre.strokes + 1) s
    else s
  | none => s

/-- The end of the current active phase would bring the stroke counter to the pass count. -/
def lastStroke (s : State) : Bool :=
  match s.pre.pass with
  | some p => p.phase = .active && p.count ≤ s.pre.strokes + 1
  | none => false

/-- STROKE_ACTIVE_PHASE (R68). -/
def execStrokeActivePhase (s : State) : Host.Outcome State Fault Refusal := .next (event strokeActivePhase s)

/-- STROKE_DELIVERED (R68). -/
def execStrokeDelivered (s : State) : Host.Outcome State Fault Refusal := .next (event strokeDelivered s)

/-- SPRAY_PASS_END (R69, R70): the stroke end that reaches the pass count (DESIGN CHOICE, log entry 4). -/
def execSprayPassEnd (s : State) : Host.Outcome State Fault Refusal :=
  .next (if lastStroke s then event strokeDelivered s else s)

/-! ### Pump fault (R71, R72) -/

/-- The pump fault latch. -/
def setPumpFault (b : Bool) (s : State) : State := s.setPre { s.pre with pumpFault := b }

/-- R71, R72: an active edge sets the latch and ends a spray pass in flight. -/
def pumpFaultEdge (s : State) : State :=
  match s.pre.pass with
  | some p => setPumpFault true (sprayCut .pumpFault p s)
  | none => setPumpFault true s

/-! ### The press (R76, R77) -/

/-- R8: the sub-states in which a PRETREAT traveller is ready for the press. -/
def readyForPress : SubState → Bool
  | .verified | .heavy | .ungauged => true
  | .needDry | .dryDone | .sprayed | .light | .reject => false

/-- R77: PRESSED when both minimums are met. -/
def pressVerdict (f : FabricClass) (temp secs : Nat) : PressVerdict :=
  if f.pressTemp ≤ temp ∧ f.pressTime ≤ secs then .pressed else .short

/-- R77: the traveller after the report. -/
def pressed (temp secs : Nat) (v : PressVerdict) (t : Traveller) : Traveller :=
  let t := { t with press := some ⟨temp, secs, v⟩ }
  match v with
  | .pressed => { t with stage := .readyToPrint }
  | .short => addFault .pressShort t

def pressDoneBody (l : List Byte) (s : State) : Answer :=
  let temp := u16At l 0
  let secs := u16At l 2
  refuseIf (300 < temp ∨ 600 < secs) .arg <|
  refuseIf (s.holdsClaim .prep .press = false) .state <|
    match s.travAt 4 with
    | none => .refuse .state []
    | some (i, t) =>
      refuseIf (t.stage ≠ .pretreat) .state <|
      refuseIf ((t.pretreat.any fun r => readyForPress r.sub) = false) .state <|
        let v := pressVerdict (s.fabricOf (s.boundLine t)) temp secs
        .accept (putTrav i (some (pressed temp secs v t)) s) (bytes8 (pressVerdictCode v))

/-- PRESS_DONE (R76, R77). -/
def execPressDone (p : Port) (l : List Byte) (s : State) : Host.Outcome State Fault Refusal :=
  .next (command p 0x2D l [.prep] runHold (l.length = 4) (pressDoneBody l) s)

end Sys2Proof.Machine
end

