-- ==== Sys2Proof/Machine/DepositGauge.lean ====
section
/-! DEFINITION. The deposit gauge (chapter 5): the dry and wet passes, their counting, their ends and their stop, and
the stop of whichever pass is in flight. -/

namespace Sys2Proof.Machine

open Sys2Proof

/-! ### Starting a pass (R80, R83, R86) -/

/-- R81, R83, R86: a pass of kind `k` over slot `i` starts with the timebase at `ticks`. -/
def startGauge (k : PassKind) (i : Fin 32) (t : Traveller) (ticks : Nat) (s : State) : State :=
  s.setGauge { s.gauge with
    pass := some ⟨k, i⟩
    electrode := (s.boundLine t).placement
    edges := 0
    timebase := ticks
    last := some ⟨k, i, t.serial, .inFlight⟩
    recEdges := 0
    recTimebase := ticks
    rev := s.gauge.rev + 1 }

/-- The first four checks that GAUGE_DRY and GAUGE_WET share (R82, R86), then `k` on the traveller at the booth. -/
def gaugeChecks (s : State) (k : Fin 32 → Traveller → Pretreat → Answer) : Answer :=
  refuseIf (s.holdsClaim .prep .spray = false) .state <|
    match atBooth s with
    | none => .refuse .state []
    | some (i, t, r) =>
      refuseIf (s.passInFlight = true) .busy <|
      refuseIf (ungauged s t = true) .noLine <| k i t r

def gaugeDryBody (s : State) : Answer :=
  gaugeChecks s fun i t r =>
    refuseIf (r.sub ≠ .needDry ∧ r.sub ≠ .dryDone) .state <| .accept (startGauge .dry i t 0 s) []

/-- GAUGE_DRY (R82, R83). -/
def execGaugeDry (p : Port) (l : List Byte) (s : State) : Host.Outcome State Fault Refusal :=
  .next (command p 0x29 l [.prep] [.run] (l.length = 0) gaugeDryBody s)

def gaugeWetBody (s : State) : Answer :=
  gaugeChecks s fun i t r =>
    refuseIf (r.sub ≠ .sprayed) .state <|
      match r.window with
      | none => .refuse .state []
      | some w => .accept (startGauge .wet i t w s) []

/-- GAUGE_WET (R86). -/
def execGaugeWet (p : Port) (l : List Byte) (s : State) : Host.Outcome State Fault Refusal :=
  .next (command p 0x2B l [.prep] [.run] (l.length = 0) gaugeWetBody s)

/-! ### Ending a pass (R81, R84, R85, R87, R88, R90) -/

/-- R78, R81: the pass ends as `e`; the counters stop at `edges` and `ticks`, and the GAUGE record takes them. -/
def gaugeIdle (e : GaugeEnd) (edges ticks : Nat) (s : State) : State :=
  s.setGauge { s.gauge with
    pass := none
    edges
    timebase := ticks
    last := s.gauge.last.map fun x => { x with ending := e }
    recEdges := edges
    recTimebase := ticks
    rev := s.gauge.rev + 1 }

/-- R85, R88, R90: the pass over slot `i` ends without a result; `c` joins the fault list. -/
def gaugeFail (e : GaugeEnd) (c : FaultCode) (i : Fin 32) (edges ticks : Nat) (s : State) : State :=
  raise .prep .passFault (gaugeIdle e edges ticks (modTrav i (addFault c) s))

/-- R84: the dry pass over slot `i` ends normally with `n` edges; the window is at least 1, and the
timebase stops at it (DEDUCED, log entry 19). -/
def dryEnd (i : Fin 32) (n : Nat) (s : State) : State :=
  let w := max 1 s.gauge.timebase
  raise .prep .dryDone <| gaugeIdle .normal n w <|
    modPretreat i (fun r => { r with window := some w, sub := .dryDone }) s

/-- R91: the measured deposit from the wet count `m`. -/
def measuredDeposit (n kg area m : Nat) : Nat := min Config.maxDeposit ((n - m) * kg * area / (n * 100))

/-- R87, R91 to R93: the wet pass over slot `i` ends normally with wet count `m`. -/
def wetEnd (i : Fin 32) (m : Nat) (s : State) : State :=
  match s.trav? i with
  | none => raise .prep .wetDone (gaugeIdle .normal m 0 s)
  | some t =>
    match t.pretreat with
    | none => raise .prep .wetDone (gaugeIdle .normal m 0 s)
    | some r =>
      let l := s.boundLine t
      let qm := measuredDeposit s.constants.gaugeWindow (s.fabricOf l).kg (printArea l) m
      let s := gaugeIdle .normal m 0 (putTrav i (some (verified s.constants qm { r with wetCount := some m } t)) s)
      raise .prep .wetDone
        (s.setGauge { s.gauge with verdict := some (verdictOf r.target s.constants.tolerance qm) })

/-! ### Counting (R79, R80) -/

/-- R80, R84, R88: an active edge of electrode `e`. -/
def oscEdge (e : Side) (s : State) : State :=
  match s.gauge.pass with
  | none => s
  | some p =>
    if e ≠ s.gauge.electrode then s
    else
      match p.kind with
      | .dry =>
        if s.gauge.edges + 1 < s.constants.gaugeWindow then s.setGauge { s.gauge with edges := s.gauge.edges + 1 }
        else dryEnd p.trav s.constants.gaugeWindow s
      | .wet =>
        if s.gauge.edges < Config.maxCount then s.setGauge { s.gauge with edges := s.gauge.edges + 1 }
        else gaugeFail .wetOverflow .gaugeWetOverflow p.trav Config.maxCount s.gauge.timebase s

/-- R79, R85, R87: a tick of the divided reference. -/
def tick (s : State) : State :=
  match s.gauge.pass with
  | none => s
  | some p =>
    match p.kind with
    | .dry =>
      if s.gauge.timebase < Config.maxCount then s.setGauge { s.gauge with timebase := s.gauge.timebase + 1 }
      else gaugeFail .dryTimeout .gaugeDryTimeout p.trav s.gauge.edges Config.maxCount s
    | .wet =>
      if 1 < s.gauge.timebase then s.setGauge { s.gauge with timebase := s.gauge.timebase - 1 }
      else wetEnd p.trav s.gauge.edges s

/-- A gauge pass of kind `k` is in flight. -/
def State.gauging (s : State) (k : PassKind) : Bool :=
  match s.gauge.pass with
  | some p => p.kind = k
  | none => false

/-- TIMEBASE_TICK (R79). -/
def execTimebaseTick (s : State) : Host.Outcome State Fault Refusal := .next (event tick s)

/-- GAUGE_DRY_TIMEOUT (R85): the tick of a dry pass that finds the timebase at its maximum (DESIGN CHOICE, log entry 4). -/
def execGaugeDryTimeout (s : State) : Host.Outcome State Fault Refusal :=
  .next (if s.gauging .dry ∧ Config.maxCount ≤ s.gauge.timebase then event tick s else s)

/-- WET_PASS_END (R87): the tick of a wet pass that brings the timebase to 0 (DESIGN CHOICE, log entry 4). -/
def execWetPassEnd (s : State) : Host.Outcome State Fault Refusal :=
  .next (if s.gauging .wet ∧ s.gauge.timebase ≤ 1 then event tick s else s)

/-! ### Stopping the pass in flight (R73, R89, R90) -/

/-- R73, R90: the spray or gauge pass in flight is stopped. -/
def stopPass (s : State) : State :=
  match s.pre.pass with
  | some p => sprayCut .gaugeAborted p s
  | none =>
    match s.gauge.pass with
    | some p => gaugeFail .aborted .gaugeAborted p.trav s.gauge.edges s.gauge.timebase s
    | none => s

/-- The traveller that the pass in flight serves. -/
def passTraveller (s : State) : Option (Fin 32) :=
  match s.pre.pass with
  | some p => some p.trav
  | none => s.gauge.pass.map (·.trav)

def gaugeAbortBody (s : State) : Answer :=
  match s.pre.pass with
  | some _ => .accept (stopPass s) (bytes8 0)
  | none =>
    match s.gauge.pass with
    | some p => .accept (stopPass s) (bytes8 (passKindCode p.kind))
    | none => .refuse .state []

/-- GAUGE_ABORT (R89). -/
def execGaugeAbort (p : Port) (l : List Byte) (s : State) : Host.Outcome State Fault Refusal :=
  .next (command p 0x2C l [.prep] runHold (l.length = 0) gaugeAbortBody s)

end Sys2Proof.Machine
end

