-- ==== Sys2Proof/Machine/PrintDispatch.lean ====
section
/-! DEFINITION. Print dispatch (chapter 6): estimates, assignment, withdrawal, the end of a print, and the engine
commands. -/

namespace Sys2Proof.Machine

open Sys2Proof

/-! ### Estimates and assignability (R98, R99) -/

/-- R98: the ink estimate of one channel. -/
def inkEstimate (area coverage kink : Nat) : Nat := area * coverage * kink / 1000

/-- R98: the estimates of a garment of line `l`. -/
def estimates (c : Constants) (l : LineItem) : Inks := Inks.zip (inkEstimate (printArea l)) l.coverage c.kink

/-- R99: in every channel the level less the reserved ink covers the estimate. -/
def inkCovers (x : EngineRec) (est : Inks) : Bool := Inks.all (fun need level => need ≤ level) (Inks.zip (· + ·) x.reserved est) x.level

/-! ### Returning to service (R96) -/

/-- R96: READY below the clean interval, else CLEAN_DUE. -/
def serviceState (c : Constants) (prints : Nat) : EngineState := if prints < c.cleanInterval then .ready else .cleanDue

/-- R96: CLEAN_DUE is raised each time the engine enters it. -/
def raiseCleanDue (e : Engine) (s : State) : State :=
  if (s.engine e).state = .cleanDue then raise (enginePort e) .cleanDue s else s

/-- R96: engine `e`, idle with `prints` counted, returns to service. -/
def returnToService (e : Engine) (f : EngineRec → EngineRec) (s : State) : State :=
  raiseCleanDue e (modEngine e (fun x => { f x with state := serviceState s.constants (f x).prints }) s)

/-- The engine lets go of its traveller: its reservation falls by `est` and it has no current traveller. -/
def freeEngine (est : Inks) (x : EngineRec) : EngineRec :=
  { x with current := none, reserved := Inks.zip (· - ·) x.reserved est }

/-- The estimates of the print record of the traveller in slot `i`. -/
def estimateOf (s : State) (i : Fin 32) : Inks :=
  match s.trav? i with
  | some t => (t.print.map (·.estimate)).getD .zero
  | none => .zero

/-! ### Assignment (R100, R101) -/

/-- R100: INK_SHORT for the engine's port, INK_SHORT_A or INK_SHORT_B for the gateway. -/
def raiseInkShort (e : Engine) (s : State) : State :=
  raise .gateway (match e with | .a => .inkShortA | .b => .inkShortB) (raise (enginePort e) .inkShort s)

/-- R101: the traveller `t` in slot `i` is assigned to engine `e`. -/
def assign (e : Engine) (i : Fin 32) (t : Traveller) (est : Inks) (s : State) : State :=
  raise (enginePort e) .assigned <|
  setAwaiting e (some ⟨i, platenAt s.ring (stationPos (engineStation e)), s.constants.claimWindow⟩) <|
  modEngine e (fun x => { x with state := .assigned, current := some i, reserved := Inks.zip (· + ·) x.reserved est }) <|
  putTrav i (some { t with stage := .assigned, print := some ⟨e, est, none, .pending⟩ }) s

/-- R100: the conditions of an assignment attempt at the position of engine `e`, and the traveller they concern. -/
def assignable (e : Engine) (s : State) : Option (Fin 32 × Traveller) :=
  match s.travAt (stationPos (engineStation e)) with
  | some (i, t) =>
    if s.mode = .run ∧ t.stage = .readyToPrint ∧ s.awaitingAt e = none ∧ s.lapseAt e = none ∧
        (s.engine e).state = .ready then some (i, t) else none
  | none => none

/-- R100: an assignment attempt: the assignment, INK_SHORT, or nothing. -/
def attempt (e : Engine) (s : State) : State :=
  match assignable e s with
  | none => s
  | some (i, t) =>
    let est := estimates s.constants (s.boundLine t)
    if inkCovers (s.engine e) est then assign e i t est s else raiseInkShort e s

/-! ### Withdrawal and failure (R103, R106, R107) -/

/-- R103, R106, R107: the assignment of the traveller in slot `i` is withdrawn on the traveller's side. -/
def withdrawTraveller (i : Fin 32) : State → State :=
  modTrav i fun t => { t with stage := .readyToPrint, print := none }

/-- R106, R107: the print of the traveller in slot `i` fails on the traveller's side. -/
def failTraveller (i : Fin 32) : State → State :=
  modTrav i fun t =>
    { t with stage := .rejectPending, print := t.print.map fun r => { r with result := .fault, actual := none } }

/-- R107: engine `e` loses its assignment of slot `i` and returns to service. -/
def withdrawForced (e : Engine) (i : Fin 32) (s : State) : State :=
  withdrawTraveller i (returnToService e (freeEngine (estimateOf s i)) s)

/-- R107: the print of slot `i` on engine `e` fails; the heads fired; the engine returns to service. -/
def failForced (e : Engine) (i : Fin 32) (s : State) : State :=
  failTraveller i
    (returnToService e (fun x => { freeEngine (estimateOf s i) x with prints := x.prints + 1 }) s)

/-- R51, R103: the claim window of the awaiting assignment at engine `e` expires. -/
def claimWindowExpiry (e : Engine) (s : State) : State :=
  match s.awaitingAt e with
  | none => s
  | some a =>
    raise (enginePort e) .assignLapsed <|
    modTrav a.trav (addFault .assignLapsed) <|
    withdrawTraveller a.trav <|
    returnToService e (freeEngine (estimateOf s a.trav)) <|
    setLapse e (some a.platen) <|
    setAwaiting e none s

/-- CLAIM_WINDOW_EXPIRY (R51, R103). -/
def execClaimWindowExpiry (e : Engine) (s : State) : Host.Outcome State Fault Refusal :=
  .next (event (claimWindowExpiry e) s)

/-! ### Engine commands (R96, R104 to R111) -/

/-- The two engine ports (R96). -/
def enginePorts : List Port := [.engineA, .engineB]

/-- An engine command acts on the record of the issuing port's engine (R96). -/
def onEngine (p : Port) (k : Engine → State → Answer) (s : State) : Answer :=
  match portEngine p with
  | some e => k e s
  | none => .refuse .role []

def engineOnlineBody (e : Engine) (s : State) : Answer :=
  refuseIf ((s.engine e).state ≠ .offline ∧ (s.engine e).state ≠ .fault) .state <|
    .accept (attempt e (returnToService e id s)) []

/-- ENGINE_ONLINE (R108). -/
def execEngineOnline (p : Port) (l : List Byte) (s : State) : Host.Outcome State Fault Refusal :=
  .next (command p 0x30 l enginePorts runHold (l.length = 0) (onEngine p engineOnlineBody) s)

def engineOfflineBody (e : Engine) (s : State) : Answer :=
  refuseIf ((s.engine e).state = .assigned ∨ (s.engine e).state = .printing) .busy <|
    .accept (modEngine e (fun x => { x with state := .offline }) s) []

/-- ENGINE_OFFLINE (R109). -/
def execEngineOffline (p : Port) (l : List Byte) (s : State) : Host.Outcome State Fault Refusal :=
  .next (command p 0x31 l enginePorts runHold (l.length = 0) (onEngine p engineOfflineBody) s)

/-- R106: the engine becomes FAULT, without a current traveller. -/
def toFault (est : Inks) (prints : Nat) (x : EngineRec) : EngineRec :=
  { freeEngine est x with state := .fault, prints := x.prints + prints }

/-- R106: ENGINE_FAULT taken while PRINTING slot `i`. -/
def faultPrinting (e : Engine) (i : Fin 32) (s : State) : State :=
  modTrav i (addFault .engineFault) <|
  failTraveller i <|
  setClaim (engineStation e) none <|
  modEngine e (toFault (estimateOf s i) 1) s

/-- R106: ENGINE_FAULT taken while ASSIGNED slot `i`. -/
def faultAssigned (e : Engine) (i : Fin 32) (s : State) : State :=
  withdrawTraveller i <| setAwaiting e none <| modEngine e (toFault (estimateOf s i) 0) s

def engineFaultBody (e : Engine) (s : State) : Answer :=
  match (s.engine e).state, (s.engine e).current with
  | .offline, _ => .refuse .state []
  | .fault, _ => .accept s []
  | .printing, some i => .accept (faultPrinting e i s) []
  | .assigned, some i => .accept (faultAssigned e i s) []
  | .printing, none | .assigned, none | .ready, _ | .cleanDue, _ | .cleaning, _ =>
    .accept (modEngine e (fun x => { x with state := .fault, current := none }) s) []

/-- ENGINE_FAULT (R106). -/
def execEngineFault (p : Port) (l : List Byte) (s : State) : Host.Outcome State Fault Refusal :=
  .next (command p 0x32 l enginePorts runHold (l.length = 0) (onEngine p engineFaultBody) s)

/-- R111: a level below the reserved ink of its channel. -/
def belowReserved (x : EngineRec) : Bool := !Inks.all (fun r level => r ≤ level) x.reserved x.level

/-- R111: the levels are replaced, and INK_SHORT is raised for a level below its reservation. -/
def inkReported (e : Engine) (levels : Inks) (s : State) : State :=
  let s' := modEngine e (fun x => { x with level := levels }) s
  if belowReserved (s'.engine e) then raiseInkShort e s' else s'

def inkReportBody (l : List Byte) (e : Engine) (s : State) : Answer :=
  refuseIf ((inksAt l 0).toList.any (Config.maxInk < ·) = true) .arg <|
    .accept (attempt e (inkReported e (inksAt l 0) s)) []

/-- INK_REPORT (R111). -/
def execInkReport (p : Port) (l : List Byte) (s : State) : Host.Outcome State Fault Refusal :=
  .next (command p 0x33 l enginePorts runHold (l.length = 20) (onEngine p (inkReportBody l)) s)

/-- R104: the result code of a PRINT_DONE: true for GOOD, false for DEFECT. -/
def resultOf : Nat → Option Bool
  | 1 => some true
  | 2 => some false
  | _ => none

/-- R105: the traveller after its print ended with the actuals reported. -/
def printSettled (good : Bool) (act : Inks) (t : Traveller) : Traveller :=
  let record (r : Print) : Print := { r with actual := some act, result := if good then .good else .defect }
  let t : Traveller := { t with print := t.print.map record }
  if good then { t with stage := .printed } else addFault .printDefect { t with stage := .rejectPending }

/-- R105: the settlement of the print of slot `i` on engine `e`. -/
def settle (e : Engine) (i : Fin 32) (good : Bool) (act : Inks) (s : State) : State :=
  modTrav i (printSettled good act) <|
  setClaim (engineStation e) none <|
  returnToService e
    (fun x => { freeEngine (estimateOf s i) x with level := Inks.zip (· - ·) x.level act, prints := x.prints + 1 }) s

def printDoneBody (l : List Byte) (e : Engine) (s : State) : Answer :=
  let act := inksAt l 1
  match resultOf (byteAt l 0) with
  | none => .refuse .arg []
  | some good =>
    refuseIf (act.toList.any (Config.maxInk < ·) = true) .arg <|
    refuseIf ((s.engine e).state ≠ .printing) .state <|
      match (s.engine e).current with
      | none => .refuse .state []
      | some i => .accept (settle e i good act s) []

/-- PRINT_DONE (R104, R105). -/
def execPrintDone (p : Port) (l : List Byte) (s : State) : Host.Outcome State Fault Refusal :=
  .next (command p 0x34 l enginePorts runHold (l.length = 21) (onEngine p (printDoneBody l)) s)

def cleanStartBody (e : Engine) (s : State) : Answer :=
  refuseIf ((s.engine e).state ≠ .ready ∧ (s.engine e).state ≠ .cleanDue) .state <|
    .accept (modEngine e (fun x => { x with state := .cleaning }) s) []

/-- CLEAN_START (R110). -/
def execCleanStart (p : Port) (l : List Byte) (s : State) : Host.Outcome State Fault Refusal :=
  .next (command p 0x35 l enginePorts runHold (l.length = 0) (onEngine p cleanStartBody) s)

def cleanDoneBody (e : Engine) (s : State) : Answer :=
  refuseIf ((s.engine e).state ≠ .cleaning) .state <|
    .accept (attempt e (modEngine e (fun x => { x with state := .ready, prints := 0 }) s)) []

/-- CLEAN_DONE (R110). -/
def execCleanDone (p : Port) (l : List Byte) (s : State) : Host.Outcome State Fault Refusal :=
  .next (command p 0x36 l enginePorts runHold (l.length = 0) (onEngine p cleanDoneBody) s)

end Sys2Proof.Machine
end

