-- ==== Sys2Proof/Machine/RingTracker.lean ====
section
/-! DEFINITION. The platen ring tracker (chapter 3): claims, the index, the forced index, the home check, arrivals,
laps, entering HOLD, and the unload point. -/

namespace Sys2Proof.Machine

open Sys2Proof

/-! ### Claims (R47 to R50) -/

/-- The ports that may claim (R48). -/
def claimPorts : List Port := [.prep, .engineA, .engineB, .tunnel]

/-- The station at the ring position that a byte names, when the role of `p` serves it (R48, R50). -/
def ownStation (p : Port) (k : Nat) : Option Station := (stationAt k).filter fun st => stationPort st = p

/-- R102: engine `e` claims the traveller that awaits it: both go to PRINTING. -/
def printStart (e : Engine) (a : Awaiting) (s : State) : State :=
  modTrav a.trav (fun t => { t with stage := .printing }) <|
  modEngine e (fun x => { x with state := .printing }) <|
  setAwaiting e none s

/-- R49: the further checks of an engine's CLAIM, and its effects. An awaiting entry that names another platen refuses
it with STATE (DEDUCED, log entry 16). -/
def engineClaim (e : Engine) (st : Station) (c : Claim) (s : State) : Answer :=
  match s.awaitingAt e with
  | some a => if a.platen = c.platen then .accept (setClaim st (some c) (printStart e a s)) [] else .refuse .state []
  | none => if s.lapseAt e = some c.platen then .refuse .lapsed [] else .refuse .state []

def claimBody (p : Port) (l : List Byte) (s : State) : Answer :=
  match ownStation p (byteAt l 0), fin? 12 (byteAt l 1) with
  | some st, some platen =>
    refuseIf ((s.claimAt st).isSome = true) .state <|
    refuseIf (platenAt s.ring (stationPos st) ≠ platen) .state <|
      match stationEngine st with
      | some e => engineClaim e st ⟨p, platen⟩ s
      | none => .accept (setClaim st (some ⟨p, platen⟩) s) []
  | _, _ => .refuse .arg []

/-- CLAIM (R48, R49). -/
def execClaim (p : Port) (l : List Byte) (s : State) : Host.Outcome State Fault Refusal :=
  .next (command p 0x20 l claimPorts runHold (l.length = 2) (claimBody p l) s)

def releaseBody (p : Port) (l : List Byte) (s : State) : Answer :=
  match ownStation p (byteAt l 0) with
  | none => .refuse .arg []
  | some st =>
    refuseIf (s.claimAt st = none) .state <|
    refuseIf (st = .spray ∧ s.passInFlight = true) .busy <|
      .accept (setClaim st none s) []

/-- RELEASE (R50). -/
def execRelease (p : Port) (l : List Byte) (s : State) : Host.Outcome State Fault Refusal :=
  .next (command p 0x21 l [.prep, .tunnel] runHold (l.length = 1) (releaseBody p l) s)

/-! ### Entering HOLD (R158) -/

/-- R158: a pass in flight is stopped, the mode becomes HOLD, HOLD_ENTERED is raised on all five ports. -/
def enterHold (s : State) : State := raiseOn allPorts .holdEntered (setMode .hold (stopPass s))

/-! ### Forced handling (R58, R59, R60) -/

/-- R58: a claim names platen `p`, an awaiting-assignment entry names it, or a pass is in flight over its traveller. -/
def affected (s : State) (p : Fin 12) : Bool :=
  allStations.any (fun st => (s.claimAt st).map (·.platen) = some p) ||
  (s.awaitingAt .a).map (·.platen) = some p || (s.awaitingAt .b).map (·.platen) = some p ||
  ((passTraveller s).isSome && passTraveller s = s.ring.carried.get p)

/-- The slots of the affected travellers, platen by platen. -/
def affectedSlots (s : State) : List (Fin 32) :=
  (List.finRange 12).filterMap fun p => if affected s p then s.ring.carried.get p else none

/-- R59, R107: what happens to the work of an affected traveller that was ASSIGNED or PRINTING. -/
def undoPrint (i : Fin 32) (s : State) : State :=
  match s.trav? i with
  | none => s
  | some t =>
    match t.stage, t.print with
    | .assigned, some r => withdrawForced r.engine i s
    | .printing, some r => failForced r.engine i s
    | _, _ => s

/-- R58, R59: every affected traveller takes FORCED_INDEX; a pass is stopped; assignments are withdrawn and prints
fail; every claim and awaiting-assignment entry goes; FORCED_INDEX is raised for the four station ports. -/
def forcedHandling (s : State) : State :=
  let is := affectedSlots s
  let s := is.foldl (fun s i => modTrav i (addFault .forcedIndex) s) s
  let s := is.foldl (fun s i => undoPrint i s) (stopPass s)
  raiseOn stationPorts .forcedIndex (dropClaims s)

/-! ### The steps of an index (R54 to R57) -/

/-- R7: where a LOADED traveller goes when its platen leaves position 0. -/
def leaveLoaded (t : Traveller) : Traveller :=
  if t.stage = .loaded then { t with stage := if t.pretreat.isSome then .pretreat else .readyToPrint } else t

/-- R54: the map rotates, the lapse marks are cleared, the traveller now at position 1 leaves LOADED. -/
def rotate (s : State) : State :=
  let s := clearLapses (s.setRing { s.ring with load := s.ring.load + 1 })
  match s.slotAt 1 with
  | some i => modTrav i leaveLoaded s
  | none => s

/-- The filtered level of the HOME line; low without one (DESIGN CHOICE, log entry 23). -/
def homeLevel (s : State) : Bool :=
  match s.lineOf .home with
  | some l => s.filteredLevel l
  | none => false

/-- R55: the home line is active exactly when the map shows platen 0 at position 0. -/
def homeAgrees (s : State) : Bool := homeLevel s = decide (s.ring.load = 0)

/-- R55: the ring has slipped against the map. -/
def ringSlip (s : State) : State :=
  let s := raiseOn allPorts .ringSlip (s.setRing { s.ring with synced := false })
  if s.mode = .run then enterHold s else s

/-- R55. -/
def homeCheck (s : State) : State := if homeAgrees s then s else ringSlip s

/-- R56: LOAD_READY for an empty platen at position 0. -/
def reportLoad (s : State) : State := if s.slotAt 0 = none then raise .prep .loadReady s else s

/-- R56: AT_SPRAY for a PRETREAT traveller at position 2. -/
def reportSpray (s : State) : State :=
  if (s.travAt 2).any (fun x => x.2.stage = .pretreat) then raise .prep .atSpray s else s

/-- R56: AT_PRESS for a PRETREAT traveller at position 4 that is ready for the press. -/
def reportPress (s : State) : State :=
  if (s.travAt 4).any (fun x => x.2.stage = .pretreat && x.2.pretreat.any fun r => readyForPress r.sub) then
    raise .prep .atPress s
  else s

/-- R56: AT_UNLOAD for a traveller of any stage at position 10. -/
def reportUnload (s : State) : State := if (s.slotAt 10).isSome then raise .tunnel .atUnload s else s

/-- R56: the arrivals at the six stations, from the map as it stands. -/
def arrivals (s : State) : State :=
  reportUnload (attempt .b (attempt .a (reportPress (reportSpray (reportLoad s)))))

/-- R57: the stages in which a lap counts. -/
def lapCounts : Stage → Bool
  | .loaded | .pretreat | .readyToPrint | .assigned => true
  | .printing | .printed | .inTunnel | .rejectPending | .returnPending => false

/-- R57: a traveller that has moved from position 10 to position 11. -/
def lapped (limit : Nat) (t : Traveller) : Traveller :=
  if lapCounts t.stage then
    let t := { t with laps := t.laps + 1 }
    if t.laps = limit then addFault .lapLimit { t with stage := .returnPending } else t
  else t

/-- R57. -/
def countLap (s : State) : State :=
  match s.slotAt 11 with
  | some i => modTrav i (lapped s.constants.lapLimit) s
  | none => s

/-- R53: an index pulse reaches the ring tracker. -/
def takeIndex (s : State) : State :=
  if s.mode = .config then s
  else countLap (arrivals (homeCheck (rotate (if s.permit then s else forcedHandling s))))

/-! ### The unload point (R61) -/

def unloadDoneBody (s : State) : Answer :=
  refuseIf (s.holdsClaim .tunnel .unload = false) .state <|
    match s.travAt 10 with
    | none => .refuse .state []
    | some (i, t) =>
      match t.stage with
      | .rejectPending => .accept (closeScrap i t none s) []
      | .returnPending => .accept (closeReturn i t s) []
      | .loaded | .pretreat | .readyToPrint | .assigned | .printing | .printed | .inTunnel => .refuse .state []

/-- UNLOAD_DONE (R61). -/
def execUnloadDone (p : Port) (l : List Byte) (s : State) : Host.Outcome State Fault Refusal :=
  .next (command p 0x39 l [.tunnel] runHold (l.length = 0) unloadDoneBody s)

end Sys2Proof.Machine
end

