-- ==== Sys2Proof/Machine/LineUnit.lean ====
section
/-! DEFINITION. The line unit (chapter 8): its commands, the pins and filters, the delivery of filtered edges, and the
edge events of the blocks that own input functions. -/

namespace Sys2Proof.Machine

open Sys2Proof

/-! ### Delivery of filtered edges (R135) -/

/-- R135: a filtered edge to `level` of a line that holds function `f` reaches the block that owns it. -/
def deliver (f : LineFunction) (level : Bool) (s : State) : State :=
  match f, level with
  | .indexPulse, true => takeIndex s
  | .pumpFault, true => pumpFaultEdge s
  | .pumpFault, false => setPumpFault false s
  | .beltEnc, true => pulse s
  | .gaugeOscFront, true => oscEdge .front s
  | .gaugeOscBack, true => oscEdge .back s
  | .indexPulse, false | .beltEnc, false | .gaugeOscFront, false | .gaugeOscBack, false | .home, _ | .none, _
  | .indexPermit, _ | .pumpStroke, _ | .gaugeExcite, _ | .faultOut, _ => s

/-- The function of a line. -/
def State.functionAt (s : State) (l : Fin 24) : LineFunction := (s.lines.get l).function

/-- R135: the filtered level of line `l` has become `level`; the edge goes to the owning block. -/
def filteredEdge (l : Fin 24) (level : Bool) (s : State) : State :=
  deliver (s.functionAt l) level (modLine l (fun x => { x with filtered := level }) s)

/-- R135: the pin level of line `l` has held for the filter time. There is no such moment while the pin stands at the
filtered level (DEDUCED, log entry 7). -/
def filterElapsed (l : Fin 24) (s : State) : State :=
  if s.pinLevel l = s.filteredLevel l then s else filteredEdge l (s.pinLevel l) s

/-- LINE_FILTERED_EDGE (R135). -/
def execLineFilteredEdge (l : Fin 24) (s : State) : Host.Outcome State Fault Refusal := .next (event (filterElapsed l) s)

/-- R135: with a filter of 0 a change of the filtered level from `was` is itself a filtered edge (DESIGN CHOICE, log
entry 8). -/
def followPin (l : Fin 24) (was : Bool) (s : State) : State :=
  if (s.lines.get l).filter = .us0 ∧ s.pinLevel l ≠ was then filteredEdge l (s.pinLevel l) s else s

/-- R135: the level outside the pin of line `l` becomes `level` (DESIGN CHOICE, log entry 8). -/
def pinChange (l : Fin 24) (level : Bool) (s : State) : State :=
  followPin l (s.filteredLevel l) (modLine l (fun x => { x with outside := level }) s)

/-- PIN_CHANGE (R135). -/
def execPinChange (l : Fin 24) (level : Bool) (s : State) : Host.Outcome State Fault Refusal :=
  .next (event (pinChange l level) s)

/-! ### Edge events of the blocks (DESIGN CHOICE, log entry 6) -/

/-- The filtered edge to `level` of the line that holds input function `f`, the pin having taken that level; nothing
when no line holds `f`. -/
def functionEdge (f : LineFunction) (level : Bool) (s : State) : State :=
  match s.lineOf f with
  | some l => deliver f level (modLine l (fun x => { x with outside := level, filtered := level }) s)
  | none => s

/-- The oscillator input of an electrode (R80). -/
def oscFunction : Side → LineFunction
  | .front => .gaugeOscFront
  | .back => .gaugeOscBack

/-- INDEX (R53). -/
def execIndex (s : State) : Host.Outcome State Fault Refusal := .next (event (functionEdge .indexPulse true) s)

/-- PUMP_FAULT (R71, R72). -/
def execPumpFault (s : State) : Host.Outcome State Fault Refusal := .next (event (functionEdge .pumpFault true) s)

/-- PUMP_FAULT_CLEAR (R71). -/
def execPumpFaultClear (s : State) : Host.Outcome State Fault Refusal :=
  .next (event (functionEdge .pumpFault false) s)

/-- GAUGE_OSC_EDGE (R80). -/
def execGaugeOscEdge (e : Side) (s : State) : Host.Outcome State Fault Refusal :=
  .next (event (functionEdge (oscFunction e) true) s)

/-- DRY_PASS_END (R84): the edge of the selected electrode that brings the gauge counter of a dry pass to N (DESIGN
CHOICE, log entry 4). -/
def execDryPassEnd (s : State) : Host.Outcome State Fault Refusal :=
  .next (if s.gauging .dry ∧ s.constants.gaugeWindow ≤ s.gauge.edges + 1 then
    event (functionEdge (oscFunction s.gauge.electrode) true) s else s)

/-- GAUGE_WET_OVERFLOW (R88): the edge of the selected electrode that would take the gauge counter of a wet pass
beyond its maximum (DESIGN CHOICE, log entry 4). -/
def execGaugeWetOverflow (s : State) : Host.Outcome State Fault Refusal :=
  .next (if s.gauging .wet ∧ Config.maxCount ≤ s.gauge.edges then
    event (functionEdge (oscFunction s.gauge.electrode) true) s else s)

/-- ENCODER_PULSE (R116). -/
def execEncoderPulse (s : State) : Host.Outcome State Fault Refusal := .next (event (functionEdge .beltEnc true) s)

/-- TUNNEL_EXIT (R126): the encoder pulse that brings the head garment to the belt length (DESIGN CHOICE, log
entry 4). -/
def execTunnelExit (s : State) : Host.Outcome State Fault Refusal :=
  .next (if headAtEnd s (s.tunnel.encoder + 1) then event (functionEdge .beltEnc true) s else s)

/-! ### Commands (R132 to R136) -/

/-- R132: line `l` takes function `f`; another line that held it becomes a general line. -/
def assignFunction (l : Fin 24) (f : LineFunction) (s : State) : State :=
  s.setLines (.ofFn fun k =>
    let x := s.lines.get k
    if k = l then { x with function := f }
    else if f ≠ .none ∧ x.function = f then { x with function := .none }
    else x)

/-- R71, R132: the pump fault latch after an assignment: a line that gains PUMP_FAULT gives it its filtered level (DESIGN
CHOICE, log entry 24: the level after the assignment), and without a line the latch is clear. -/
def latchAfterAssign (l : Fin 24) (was : LineFunction) (s : State) : State :=
  if s.functionAt l = .pumpFault then
    if was = .pumpFault then s else setPumpFault (s.filteredLevel l) s
  else if s.assigned .pumpFault then s
  else setPumpFault false s

def lineAssignBody (l : List Byte) (s : State) : Answer :=
  match fin? 24 (byteAt l 0), functionOf (byteAt l 1) with
  | some n, some f => .accept (latchAfterAssign n (s.functionAt n) (assignFunction n f s)) []
  | _, _ => .refuse .arg []

/-- LINE_ASSIGN (R132). -/
def execLineAssign (p : Port) (l : List Byte) (s : State) : Host.Outcome State Fault Refusal :=
  .next (command p 0x18 l [.gateway] [.config] (l.length = 2) (lineAssignBody l) s)

/-- R133, R135: direction, drive and filter of line `n`; the filtered level stands as it is, and a new filter of 0 lets
it follow the pin at once. -/
def configureLine (n : Fin 24) (d : Direction) (v : Drive) (f : Filter) (s : State) : State :=
  followPin n (s.filteredLevel n)
    (modLine n (fun x => { x with direction := d, drive := v, filter := f, filtered := s.filteredLevel n }) s)

def lineConfigBody (l : List Byte) (s : State) : Answer :=
  match fin? 24 (byteAt l 0), directionOf (byteAt l 1), driveOf (byteAt l 2), filterOf (byteAt l 3) with
  | some n, some d, some v, some f =>
    refuseIf (s.functionAt n ≠ .none ∧ s.mode ≠ .config) .mode <| .accept (configureLine n d v f s) []
  | _, _, _, _ => .refuse .arg []

/-- LINE_CONFIG (R133). -/
def execLineConfig (p : Port) (l : List Byte) (s : State) : Host.Outcome State Fault Refusal :=
  .next (command p 0x19 l [.gateway] anyMode (l.length = 4) (lineConfigBody l) s)

/-- R134: the general output level of every selected line is written. -/
def setLevels (sel levels : Nat) (s : State) : State :=
  s.setLines (.ofFn fun k =>
    let x := s.lines.get k
    if bitOf sel k.val then { x with level := bitOf levels k.val } else x)

/-- LINE_SET (R134). -/
def execLineSet (p : Port) (l : List Byte) (s : State) : Host.Outcome State Fault Refusal :=
  .next (command p 0x1A l [.gateway] anyMode (l.length = 6) (fun s => .accept (setLevels (u24At l 0) (u24At l 3) s) []) s)

/-- R134: the general output level of every selected general output is inverted. -/
def toggleLevels (sel : Nat) (s : State) : State :=
  s.setLines (.ofFn fun k =>
    let x := s.lines.get k
    if bitOf sel k.val ∧ x.function = .none ∧ x.direction = .outward then { x with level := !x.level } else x)

/-- LINE_TOGGLE (R134). -/
def execLineToggle (p : Port) (l : List Byte) (s : State) : Host.Outcome State Fault Refusal :=
  .next (command p 0x1B l [.gateway] anyMode (l.length = 3) (fun s => .accept (toggleLevels (u24At l 0) s) []) s)

/-- R136: the filtered levels, then the function of L0 to L23. -/
def lineReport (s : State) : List Byte :=
  bytes24 (selection24 s.filteredLevel) ++
    (List.finRange 24).flatMap fun k => bytes8 (functionCode (s.functionAt k))

/-- LINE_READ (R136). -/
def execLineRead (p : Port) (l : List Byte) (s : State) : Host.Outcome State Fault Refusal :=
  .next (command p 0x1C l [.gateway] anyMode (l.length = 0) (fun s => .accept s (lineReport s)) s)

end Sys2Proof.Machine
end

