-- ==== Sys2Proof/Machine/Load.lean ====
section
/-! DEFINITION. LOAD_GARMENT (R28 to R31): the match, and the creation of a traveller (R4, R6). -/

namespace Sys2Proof.Machine

open Sys2Proof

/-- R4: the serials held by open travellers and exit entries. -/
def serialsInUse (s : State) : List (BitVec 16) :=
  ((List.finRange 32).filterMap fun i => (s.trav? i).map (·.serial)) ++ s.exits.map (·.serial)

/-- R4: the first value, counting upward from `c` and wrapping, that is not in use. Among one more value than there
are in use, one is free. -/
def nextSerial (c : BitVec 16) (used : List (BitVec 16)) : BitVec 16 :=
  (((List.range (used.length + 1)).map fun n => c + BitVec.ofNat 16 n).find? fun v => v ∉ used).getD c

/-- The lowest-numbered FREE traveller slot (R6). -/
def freeTravSlot (s : State) : Option (Fin 32) := (List.finRange 32).find? fun i => (s.trav? i).isNone

/-- R6: the record of the traveller created for blank `blank` on line `j` of order slot `k`. -/
def newTraveller (s : State) (blank : BitVec 24) (k : Fin 64) (j : Fin 8) (l : LineItem) : Traveller where
  serial := nextSerial s.table.serial (serialsInUse s)
  blank := blank
  slot := k
  line := j
  orphan := false
  platen := some (platenAt s.ring 0)
  stage := .loaded
  laps := 0
  pretreat := pretreatAtLoad s.constants l (s.fabricOf l)
  press := none
  print := none
  cure := none
  faults := []
  overflow := false

/-- R6: traveller `t` is created in slot `i`; the serial counter goes to the value after its serial; the platen at
position 0 carries it. -/
def createTraveller (i : Fin 32) (t : Traveller) (s : State) : State :=
  let s := setCarried (platenAt s.ring 0) (some i) (putTrav i (some t) s)
  s.setTable { s.table with serial := t.serial + 1 }

/-- R31: the response of a LOAD_GARMENT that is taken. -/
def loadResponse (s : State) (i : Fin 32) (k : Fin 64) (j : Fin 8) : List Byte :=
  bytes8 i.val ++ bytes32 (((s.order? k).map fun o => o.number.toNat).getD 0) ++ bytes8 j.val

def loadGarmentBody (l : List Byte) (s : State) : Answer :=
  let blank := BitVec.ofNat 24 (u24At l 0)
  refuseIf (s.holdsClaim .prep .load = false) .state <|
  refuseIf ((s.slotAt 0).isSome = true) .state <|
    match matchBlank s blank with
    | none => .refuse .noMatch []
    | some (k, j) =>
      match freeTravSlot s with
      | none => .refuse .full []
      | some i =>
        let t := newTraveller s blank k j ((s.line? k j).getD unboundLine)
        .accept (bindLine k j (createTraveller i t s)) (loadResponse s i k j)

/-- LOAD_GARMENT (R28 to R31). -/
def execLoadGarment (p : Port) (l : List Byte) (s : State) : Host.Outcome State Fault Refusal :=
  .next (command p 0x28 l [.prep] [.run] (l.length = 3) (loadGarmentBody l) s)

end Sys2Proof.Machine
end

