-- ==== Sys2Proof/Machine/Modes.lean ====
section
/-! DEFINITION. Modes, line reset, power-on and the RESET pin (chapter 11). -/

namespace Sys2Proof.Machine

open Sys2Proof

/-! ### Power-on and the RESET pin (R155) -/

/-- R155: every block at its power-on values; the levels outside the pins, what the stations send and the waiting
commands are not the part's and stay (DESIGN CHOICE, log entry 20). The filtered levels are taken from the pins, which are all undriven (Table 8-2;
DESIGN CHOICE, log entry 9). -/
def powerOnState (s : State) : State :=
  ((State.reset.setLines (.ofFn fun l => .reset (s.lines.get l).outside)).setBus s.bus).setPending s.pending

/-- POWER_ON (R155). -/
def execPowerOn (s : State) : Host.Outcome State Fault Refusal := .next (powerOnState s)

/-- RESET_PIN (R155). -/
def execResetPin (s : State) : Host.Outcome State Fault Refusal := .next (powerOnState s)

/-! ### START (R46, R112, R130, R156) -/

/-- R156: the functions START requires, in the order in which a missing one is named. -/
def requiredFunctions : List LineFunction :=
  [.indexPermit, .indexPulse, .home, .pumpStroke, .pumpFault, .beltEnc, .gaugeExcite, .gaugeOscFront]

/-- R156: the first required function that is assigned to no line. -/
def missingFunction (s : State) : Option LineFunction := requiredFunctions.find? fun f => !s.assigned f

/-- R156: some fabric class record is valid. -/
def anyFabricValid (s : State) : Bool := (List.finRange 8).any fun k => (s.setup.fabrics.get k).cls.valid

/-- R46: the map is aligned with platen `p` at the load position and emptied. -/
def alignRing (p : Fin 12) (s : State) : State :=
  s.setRing { s.ring with load := p, carried := .fill none, synced := true }

/-- R130: zones unknown, stale timer stopped, sample timer running for the sample period. -/
def startTunnel (s : State) : State :=
  s.setTunnel { s.tunnel with zones := zonesUnknown, staleTimer := none, sampleTimer := some s.constants.samplePeriod }

/-- R112: a READY engine that has reached the clean interval becomes CLEAN_DUE. -/
def startEngine (e : Engine) (s : State) : State :=
  if (s.engine e).state = .ready ∧ s.constants.cleanInterval ≤ (s.engine e).prints then
    raise (enginePort e) .cleanDue (modEngine e (fun x => { x with state := .cleanDue }) s)
  else s

/-- R156: the effects of a START that passes its checks. -/
def started (p : Fin 12) (s : State) : State :=
  startEngine .b (startEngine .a (startTunnel (raise .prep .loadReady (alignRing p (setMode .run s)))))

def startBody (l : List Byte) (s : State) : Answer :=
  match fin? 12 (byteAt l 0) with
  | none => .refuse .arg []
  | some p =>
    match missingFunction s with
    | some f => .refuse .arg (bytes8 (functionCode f))
    | none => refuseIf (anyFabricValid s = false) .arg <| .accept (started p s) []

/-- START (R156). -/
def execStart (p : Port) (l : List Byte) (s : State) : Host.Outcome State Fault Refusal :=
  .next (command p 0x12 l [.gateway] [.config] (l.length = 1) (startBody l) s)

/-! ### STOP (R62, R130, R157) -/

/-- R130: both timers stopped, zones unknown. -/
def stopTunnel (s : State) : State :=
  s.setTunnel { s.tunnel with zones := zonesUnknown, staleTimer := none, sampleTimer := none }

/-- Tables 4-1 and 5-1: the spray and gauge pass states are IDLE after STOP (DEDUCED, log entry 18). -/
def idlePasses (s : State) : State :=
  (s.setPre { s.pre with pass := none }).setGauge { s.gauge with pass := none }

/-- R157: the effects of a STOP that is taken. -/
def stopped (s : State) : State := stopTunnel (clearLapses (dropClaims (idlePasses (setMode .config s))))

def stopBody (s : State) : Answer := refuseIf (openSlots s ≠ []) .busy <| .accept (stopped s) []

/-- STOP (R157). -/
def execStop (p : Port) (l : List Byte) (s : State) : Host.Outcome State Fault Refusal :=
  .next (command p 0x13 l [.gateway] runHold (l.length = 0) stopBody s)

/-! ### HOLD and RESUME (R60, R158, R159) -/

def holdBody (s : State) : Answer := .accept (if s.mode = .run then enterHold s else s) []

/-- HOLD (R158). -/
def execHold (p : Port) (l : List Byte) (s : State) : Host.Outcome State Fault Refusal :=
  .next (command p 0x14 l [.gateway] runHold (l.length = 0) holdBody s)

/-- R60: a LOADED traveller whose platen no longer stands at position 0 leaves LOADED. -/
def leaveLoadedAway (s : State) : State :=
  (List.finRange 12).foldl
    (fun s p =>
      if p = s.ring.load then s
      else
        match s.ring.carried.get p with
        | some i => modTrav i leaveLoaded s
        | none => s) s

/-- R60: the map is re-aligned with platen `p` at the load position. -/
def realign (p : Fin 12) (s : State) : State :=
  let s := if p = s.ring.load then s else forcedHandling s
  leaveLoadedAway (clearLapses (s.setRing { s.ring with load := p, synced := true }))

/-- R60: every RING record's revision advances at RESUME; those of the records that changed are advanced with the
others of the event. -/
def advanceUnchangedRing (old new : State) : State :=
  new.setRing { new.ring with
    revs := .ofFn fun k => if ringView new k = ringView old k then new.ring.revs.get k + 1 else new.ring.revs.get k }

/-- R159, R60: the effects of a RESUME that is taken. -/
def resumed (p : Fin 12) (s : State) : State := advanceUnchangedRing s (arrivals (realign p (setMode .run s)))

def resumeBody (l : List Byte) (s : State) : Answer :=
  match fin? 12 (byteAt l 0) with
  | none => .refuse .arg []
  | some p => .accept (resumed p s) []

/-- RESUME (R159, R60). -/
def execResume (p : Port) (l : List Byte) (s : State) : Host.Outcome State Fault Refusal :=
  .next (command p 0x15 l [.gateway] [.hold] (l.length = 1) (resumeBody l) s)

/-! ### LINE_RESET (R20, R62, R113, R129, R160) -/

/-- R113: reservations are released, and an ASSIGNED or PRINTING engine becomes READY. -/
def resetEngine (x : EngineRec) : EngineRec :=
  { x with
    state := if x.state = .assigned ∨ x.state = .printing then .ready else x.state
    current := none
    reserved := .zero }

/-- R160: the effects, in the order given there. -/
def lineResetState (s : State) : State :=
  let s := closeAllLost (stopPass s)
  let s := clearLapses (dropClaims (s.setRing { s.ring with carried := .fill none }))
  let s := modEngine .b resetEngine (modEngine .a resetEngine s)
  s.setTunnel { s.tunnel with queue := [] }

def lineResetBody (s : State) : Answer := .accept (lineResetState s) (bytes8 (openSlots s).length)

/-- LINE_RESET (R160). -/
def execLineReset (p : Port) (l : List Byte) (s : State) : Host.Outcome State Fault Refusal :=
  .next (command p 0x16 l [.gateway] anyMode (l.length = 0) lineResetBody s)

end Sys2Proof.Machine
end

