-- ==== Sys2Proof/Machine/NoticeUnit.lean ====
section
/-! DEFINITION. The commands of the notice unit (chapter 10): SERVICE, REARM, CLEAR_NOTICES, SET_ENABLES. -/

namespace Sys2Proof.Machine

open Sys2Proof

/-- The notice state of a port (R150). -/
def State.notice (s : State) (p : Port) : NoticeState := s.notices.get (portNo p)

def serviceBody (p : Port) (s : State) : Answer := .accept (modNotice p (serviced p) s) (serviceReport p (s.notice p))

/-- SERVICE (R152). -/
def execService (p : Port) (l : List Byte) (s : State) : Host.Outcome State Fault Refusal :=
  .next (command p 0x06 l allPorts anyMode (l.length = 0) (serviceBody p) s)

def rearmBody (p : Port) (s : State) : Answer := .accept (modNotice p rearmed s) []

/-- REARM (R153). -/
def execRearm (p : Port) (l : List Byte) (s : State) : Host.Outcome State Fault Refusal :=
  .next (command p 0x07 l allPorts anyMode (l.length = 0) (rearmBody p) s)

def clearNoticesBody (p : Port) (l : List Byte) (s : State) : Answer :=
  refuseIf (selectionInPort p (u16At l 0) = false) .arg <|
    .accept (modNotice p (clearedSources (u16At l 0)) s) []

/-- CLEAR_NOTICES (R154). -/
def execClearNotices (p : Port) (l : List Byte) (s : State) : Host.Outcome State Fault Refusal :=
  .next (command p 0x08 l allPorts anyMode (l.length = 2) (clearNoticesBody p l) s)

def setEnablesBody (p : Port) (l : List Byte) (s : State) : Answer :=
  refuseIf (sourceCount p ≤ byteAt l 0) .arg <|
    match byteAt l 1 with
    | 0 => .accept (modNotice p (disableSource (byteAt l 0)) s) []
    | 1 => .accept (modNotice p (enableSource p (byteAt l 0)) s) []
    | _ => .refuse .arg []

/-- SET_ENABLES (R154). -/
def execSetEnables (p : Port) (l : List Byte) (s : State) : Host.Outcome State Fault Refusal :=
  .next (command p 0x09 l allPorts anyMode (l.length = 2) (setEnablesBody p l) s)

end Sys2Proof.Machine
end

