-- ==== Sys2Proof/Machine/StationPorts.lean ====
section
/-! DEFINITION. The frames that execute no command of a block (R140 to R144): READ, LINK_RESET, the empty and the
malformed frame, an unknown command; and IDENT. -/

namespace Sys2Proof.Machine

open Sys2Proof

/-- READ (R142): the holder is shifted out and nothing else happens. -/
def execRead (p : Port) (rest : List Byte) (s : State) : Host.Outcome State Fault Refusal :=
  .next (endFrame p (rest.length + 1) true s)

/-- R143: the receiver is idle, the holder takes echoed command 0xFF with OK, the stage is empty. -/
def linkResetPort (p : Port) (s : State) : State :=
  modPort p (fun q => { q with receiver := .idle, holder := ⟨0xFF, .ok, []⟩, stage := none }) s

/-- LINK_RESET (R143). -/
def execLinkReset (p : Port) (rest : List Byte) (s : State) : Host.Outcome State Fault Refusal :=
  .next (linkResetPort p (endFrame p (rest.length + 4) false s))

/-- EMPTY_FRAME (R141): discarded. -/
def execEmptyFrame (p : Port) (s : State) : Host.Outcome State Fault Refusal := .next (endFrame p 0 false s)

/-- FRAME_MALFORMED (R141): not executed; the holder takes the first byte as echoed command, status LENGTH and an empty
payload. -/
def execFrameMalformed (p : Port) (frame : List Byte) (s : State) : Host.Outcome State Fault Refusal :=
  .next (respond p (frame.headD 0) .length [] (endFrame p frame.length false s))

/-- UNKNOWN_COMMAND (R144, check 1). -/
def execUnknownCommand (p : Port) (code : Byte) (payload : List Byte) (s : State) : Host.Outcome State Fault Refusal :=
  .next (respond p code .arg [] (endFrame p (payload.length + 2) false s))

/-- The payload of an IDENT response (R144, Table 12-2). -/
def identity (p : Port) : List Byte :=
  bytes16 Config.vendorCode ++ bytes16 Config.partCode ++ bytes8 Config.siliconRevision ++ bytes8 (portNo p).val ++
    bytes8 (portNo p).val

/-- IDENT (R144). -/
def execIdent (p : Port) (l : List Byte) (s : State) : Host.Outcome State Fault Refusal :=
  .next (command p 0x01 l allPorts anyMode (l.length = 0) (fun s => .accept s (identity p)) s)

end Sys2Proof.Machine
end

