-- ==== Sys2Proof/Machine/Window.lean ====
section
/-! DEFINITION. The record window (sections 9.4 and 9.5, R164, R165): the fields of every record kind, CAPTURE,
READ_STAGE, EDIT_STAGE and UPDATE. -/

namespace Sys2Proof.Machine

open Sys2Proof

/-! ### The fields of each kind (Table 12-5) -/

/-- How many elements a field has (R164): one, a fixed count, or as many as its list holds. -/
inductive Elements where
  | single
  | fixed (n : Nat)
  | varying
  deriving DecidableEq, Repr

/-- A run of single-element fields with consecutive identifiers. -/
def singles (first count : Nat) : List (Nat × Elements) := (List.range count).map fun k => (first + k, .single)

/-- Table 12-5, with field 0x00, the revision, in every kind (R165). -/
def fieldTable (k : Kind) : List (Nat × Elements) :=
  (0x00, .single) ::
  match k with
  | .order => singles 0x01 7
  | .line => (0x01, .single) :: (singles 0x10 7 ++ [(0x17, .fixed 5)] ++ singles 0x18 3)
  | .traveller =>
    (0x01, .single) :: (singles 0x20 8 ++ [(0x28, .varying), (0x29, .single)] ++ singles 0x30 8 ++ singles 0x38 3 ++
      [(0x40, .single), (0x41, .fixed 5), (0x42, .fixed 5), (0x43, .single)] ++ singles 0x48 7)
  | .engine => singles 0x50 3 ++ [(0x53, .fixed 5), (0x54, .fixed 5)]
  | .ring => singles 0x58 8
  | .gauge => singles 0x60 9
  | .tunnel =>
    [(0x70, .fixed 3), (0x71, .fixed 3)] ++ singles 0x72 3 ++
      [(0x75, .varying), (0x76, .varying), (0x77, .varying), (0x78, .varying), (0x79, .varying)]
  | .fabric => singles 0x80 9
  | .constants => singles 0x90 9 ++ [(0x99, .fixed 5)] ++ singles 0x9A 11

/-- The elements of a field of a kind, if the kind has it. -/
def elementsOf (k : Kind) (id : Nat) : Option Elements := ((fieldTable k).find? fun f => f.1 = id).map (·.2)

/-- R146, R164: the identifier is a field of the kind, and the element number is one it may have. -/
def fieldExists (k : Kind) (id element : Nat) : Bool :=
  match elementsOf k id with
  | some .single => element = 0
  | some (.fixed n) => element < n
  | some .varying => true
  | none => false

/-! ### The values of a live record (R145) -/

/-- One single-element field. -/
def one (id : Nat) (v : Option Nat) : List StagedField := [⟨id, 0, v, false⟩]

/-- The elements of a field, in order. -/
def many (id : Nat) (vs : List (Option Nat)) : List StagedField := vs.zipIdx.map fun v => ⟨id, v.2, v.1, false⟩

/-- Five channels, each present. -/
def inks (id : Nat) (a : Inks) : List StagedField := many id (a.toList.map some)

/-- Five channels of an amount that may be absent. -/
def inks? (id : Nat) (a : Option Inks) : List StagedField :=
  match a with
  | some a => inks id a
  | none => many id (List.replicate 5 none)

/-- ORDER fields. -/
def orderFields (o : Option Order) : List StagedField :=
  one 0x01 (some ((o.map fun o => orderStateCode o.state).getD 0)) ++
  one 0x02 (o.map fun o => o.number.toNat) ++
  one 0x03 (o.map fun o => o.seq.toNat) ++
  one 0x04 (o.map fun o => priorityCode o.priority) ++
  one 0x05 (o.map fun o => o.due.toNat) ++
  one 0x06 (o.map fun o => flagCode o.hold) ++
  one 0x07 (o.map fun o => o.lines.length)

/-- LINE fields: the order's state, and the line's fields, absent when the line is. -/
def lineFields (o : Option Order) (j : Nat) : List StagedField :=
  let l := o.bind fun o => o.lines[j]?
  one 0x01 (some ((o.map fun o => orderStateCode o.state).getD 0)) ++
  one 0x10 (l.map fun l => l.blank.toNat) ++
  one 0x11 (l.map fun l => l.design.toNat) ++
  one 0x12 (l.map (·.quantity)) ++
  one 0x13 (l.map fun l => l.fabric.val) ++
  one 0x14 (l.map fun l => sideCode l.placement) ++
  one 0x15 (l.map (·.width)) ++
  one 0x16 (l.map (·.height)) ++
  inks? 0x17 (l.map (·.coverage)) ++
  one 0x18 (l.map (·.produced)) ++
  one 0x19 (l.map (·.inWork)) ++
  one 0x1A (l.map (·.reprints))

def pretreatFields (r : Option Pretreat) : List StagedField :=
  one 0x30 (r.map (·.target)) ++
  one 0x31 (r.map (·.commanded)) ++
  one 0x32 (r.map (·.delivered)) ++
  one 0x33 (r.bind (·.window)) ++
  one 0x34 (r.bind (·.wetCount)) ++
  one 0x35 (r.bind (·.measured)) ++
  one 0x36 (r.map (·.topUps)) ++
  one 0x37 (r.map fun r => subStateCode r.sub)

def pressFields (r : Option Press) : List StagedField :=
  one 0x38 (r.map (·.temperature)) ++
  one 0x39 (r.map (·.seconds)) ++
  one 0x3A (r.map fun r => pressVerdictCode r.verdict)

def printFields (r : Option Print) : List StagedField :=
  one 0x40 (r.map fun r => engineCode r.engine) ++
  inks? 0x41 (r.map (·.estimate)) ++
  inks? 0x42 (r.bind (·.actual)) ++
  one 0x43 (r.map fun r => printResultCode r.result)

def cureFields (r : Option Cure) : List StagedField :=
  one 0x48 (r.map fun r => r.entryCount.toNat) ++
  one 0x49 (r.map (·.required)) ++
  one 0x4A (r.map (·.scorch)) ++
  one 0x4B (r.map (·.dose)) ++
  one 0x4C (r.map (·.peak)) ++
  one 0x4D (r.map fun r => flagCode r.stale) ++
  one 0x4E (r.bind fun r => r.verdict.map cureVerdictCode)

/-- TRAVELLER fields; the fault list holds only the elements it has. -/
def travellerFields (t : Option Traveller) : List StagedField :=
  one 0x01 (some (flagCode t.isSome)) ++
  one 0x20 (t.map fun t => t.serial.toNat) ++
  one 0x21 (t.map fun t => t.blank.toNat) ++
  one 0x22 (t.map fun t => t.slot.val) ++
  one 0x23 (t.map fun t => t.line.val) ++
  one 0x24 (t.map fun t => flagCode t.orphan) ++
  one 0x25 (t.bind fun t => t.platen.map (·.val)) ++
  one 0x26 (t.map fun t => stageCode t.stage) ++
  one 0x27 (t.map (·.laps)) ++
  many 0x28 (((t.map (·.faults)).getD []).map fun c => some (faultCode c)) ++
  one 0x29 (t.map fun t => flagCode t.overflow) ++
  pretreatFields (t.bind (·.pretreat)) ++
  pressFields (t.bind (·.press)) ++
  printFields (t.bind (·.print)) ++
  cureFields (t.bind (·.cure))

def engineFields (x : EngineRec) : List StagedField :=
  one 0x50 (some (engineStateCode x.state)) ++
  one 0x51 (x.current.map (·.val)) ++
  one 0x52 (some x.prints) ++
  inks 0x53 x.level ++
  inks 0x54 x.reserved

/-- RING fields of position `k` (R45). -/
def ringFields (s : State) (k : Fin 12) : List StagedField :=
  let v := ringView s k
  one 0x58 (some (stationCode (stationAt k.val))) ++
  one 0x59 (some v.platen.val) ++
  one 0x5A (v.carried.map (·.val)) ++
  one 0x5B (v.claim.map fun c => (portNo c.port).val) ++
  one 0x5C (v.claim.map fun c => c.platen.val) ++
  one 0x5D (v.awaiting.map (·.val)) ++
  one 0x5E (v.lapse.map (·.val)) ++
  one 0x5F (some (flagCode v.synced))

/-- GAUGE fields (R81). -/
def gaugeFields (g : Gauge) : List StagedField :=
  one 0x60 (some ((g.pass.map fun p => passKindCode p.kind).getD 0)) ++
  one 0x61 (g.last.map fun x => passKindCode x.kind) ++
  one 0x62 (g.last.map fun x => x.trav.val) ++
  one 0x63 (g.last.map fun x => x.serial.toNat) ++
  one 0x64 (some (sideCode g.electrode)) ++
  one 0x65 (some g.recEdges) ++
  one 0x66 (some g.recTimebase) ++
  one 0x67 (g.last.map fun x => gaugeEndCode x.ending) ++
  one 0x68 (g.verdict.map gaugeVerdictCode)

/-- TUNNEL fields (R121): distances and zones are computed from the sampled encoder count. -/
def tunnelFields (s : State) : List StagedField :=
  let zones := (List.finRange 3).map s.tunnel.zones.get
  let d (q : QueueEntry) : Nat := distance s.tunnel.sampled (entryCountOf s q.trav)
  let each (f : QueueEntry → Option Nat) : List (Option Nat) := s.tunnel.queue.map f
  many 0x70 (zones.map fun z => some (flagCode z.isSome)) ++
  many 0x71 zones ++
  one 0x72 (some (flagCode s.tunnel.staleTimer.isSome)) ++
  one 0x73 (some s.tunnel.sampled.toNat) ++
  one 0x74 (some s.tunnel.queue.length) ++
  many 0x75 (each fun q => some q.trav.val) ++
  many 0x76 (each fun q => (s.trav? q.trav).map fun t => t.serial.toNat) ++
  many 0x77 (each fun q => some q.tmax) ++
  many 0x78 (each fun q => some (d q)) ++
  many 0x79 (each fun q => some ((zoneOf s.constants (d q)).val + 1))

def fabricFields (f : FabricClass) : List StagedField :=
  one 0x80 (some (flagCode f.valid)) ++
  one 0x81 (some (pretreatModeCode f.mode)) ++
  one 0x82 (some f.density) ++
  one 0x83 (some f.kg) ++
  one 0x84 (some f.pressTemp) ++
  one 0x85 (some f.pressTime) ++
  one 0x86 (some f.cureBase) ++
  one 0x87 (some f.tmax) ++
  one 0x88 (some f.scorchFactor)

def constantsFields (c : Constants) : List StagedField :=
  one 0x90 (some c.lapLimit) ++
  one 0x91 (some c.reprintLimit) ++
  one 0x92 (some c.claimWindow) ++
  one 0x93 (some c.gaugeWindow) ++
  one 0x94 (some c.tickDivider) ++
  one 0x95 (some c.tolerance) ++
  one 0x96 (some c.topUpLimit) ++
  one 0x97 (some c.strokeMass) ++
  one 0x98 (some c.strokeRate) ++
  inks 0x99 c.kink ++
  one 0x9A (some c.onset) ++
  one 0x9B (some c.samplePeriod) ++
  one 0x9C (some c.staleLimit) ++
  one 0x9D (some c.beltLength) ++
  one 0x9E (some c.zoneEnd1) ++
  one 0x9F (some c.zoneEnd2) ++
  one 0xA0 (some c.spacing) ++
  one 0xA1 (some c.kw) ++
  one 0xA2 (some c.kc) ++
  one 0xA3 (some c.kd) ++
  one 0xA4 (some c.cleanInterval)

/-! ### Live records (R145, Table 9-3) -/

/-- A live record as the window sees it: its revision, its occupancy mark and its fields. -/
structure LiveRecord where
  rev : Rev
  occupied : Bool
  fields : List StagedField
  deriving DecidableEq, Repr

/-- The live record of a kind and index; `none` when the index lies outside the range of Table 9-3, or a second index
byte other than 0 comes with a kind other than LINE (R164). -/
def liveRecord (s : State) (k : Kind) (i j : Nat) : Option LiveRecord :=
  match k with
  | .line =>
    if j < 8 then
      (fin? 64 i).map fun n =>
        let x := s.book.slots.get n
        ⟨x.rev, (x.order.bind fun o => o.lines[j]?).isSome, lineFields x.order j⟩
    else none
  | _ =>
    if j ≠ 0 then none
    else
      match k with
      | .order => (fin? 64 i).map fun n => let x := s.book.slots.get n; ⟨x.rev, x.order.isSome, orderFields x.order⟩
      | .traveller =>
        (fin? 32 i).map fun n => let x := s.table.slots.get n; ⟨x.rev, x.trav.isSome, travellerFields x.trav⟩
      | .engine => (fin? 2 i).map fun n => let x := s.engines.get n; ⟨x.rev, true, engineFields x⟩
      | .ring => (fin? 12 i).map fun n => ⟨s.ring.revs.get n, true, ringFields s n⟩
      | .gauge => if i = 0 then some ⟨s.gauge.rev, true, gaugeFields s.gauge⟩ else none
      | .tunnel => if i = 0 then some ⟨s.tunnel.rev, true, tunnelFields s⟩ else none
      | .fabric => (fin? 8 i).map fun n => let x := s.setup.fabrics.get n; ⟨x.rev, true, fabricFields x.cls⟩
      | .constants => if i = 0 then some ⟨s.setup.constantsRev, true, constantsFields s.constants⟩ else none
      | .line => none

/-- R145: the stage that a capture of `r` makes; field 0x00 is the revision (R165). -/
def stageOf (k : Kind) (i j : Nat) (r : LiveRecord) : Staged :=
  ⟨k, i, j, r.rev, one 0x00 (some r.rev.toNat) ++ r.fields⟩

/-- The stage of port `p` from now on. -/
def setStage (p : Port) (g : Option Staged) (s : State) : State := modPort p (fun q => { q with stage := g }) s

def captureBody (p : Port) (l : List Byte) (s : State) : Answer :=
  match kindOf (byteAt l 0) with
  | none => .refuse .arg []
  | some k =>
    match liveRecord s k (byteAt l 1) (byteAt l 2) with
    | none => .refuse .arg []
    | some r =>
      .accept (setStage p (some (stageOf k (byteAt l 1) (byteAt l 2) r)) s)
        (bytes8 (kindCode k) ++ bytes8 (byteAt l 1) ++ bytes8 (byteAt l 2) ++ bytes16 r.rev.toNat ++
          bytes8 (flagCode r.occupied))

/-- CAPTURE (R145). -/
def execCapture (p : Port) (l : List Byte) (s : State) : Host.Outcome State Fault Refusal :=
  .next (command p 0x02 l allPorts anyMode (l.length = 3) (captureBody p l) s)

/-! ### Reading and editing a stage (R146, R147) -/

/-- The element that a stage holds; one it does not hold reads as absent (DEDUCED, log entry 15). -/
def stagedField (g : Staged) (id element : Nat) : StagedField :=
  (g.fields.find? fun f => f.id = id && f.element = element).getD ⟨id, element, none, false⟩

/-- R163: the marks byte of READ_STAGE. -/
def marksOf (f : StagedField) : Nat := flagCode f.value.isNone + 2 * flagCode f.edited

def readStageBody (p : Port) (l : List Byte) (s : State) : Answer :=
  match (s.port p).stage with
  | none => .refuse .state []
  | some g =>
    refuseIf (fieldExists g.kind (byteAt l 0) (byteAt l 1) = false) .arg <|
      let f := stagedField g (byteAt l 0) (byteAt l 1)
      .accept s (bytes8 (marksOf f) ++ bytes32 (f.value.getD 0))

/-- READ_STAGE (R146). -/
def execReadStage (p : Port) (l : List Byte) (s : State) : Host.Outcome State Fault Refusal :=
  .next (command p 0x03 l allPorts anyMode (l.length = 2) (readStageBody p l) s)

/-- A value lies in a range, both ends included. -/
def inRange (lo hi v : Nat) : Bool := lo ≤ v && v ≤ hi

/-- R147: the field is editable (Table 9-3) and the value lies in its range (Tables 2-2, 11-2, 11-3). -/
def editAllowed : Kind → Nat → Nat → Bool
  | .order, 0x04, v => inRange 0 1 v
  | .order, 0x05, _ => true
  | .order, 0x06, v => inRange 0 1 v
  | .fabric, 0x80, v => inRange 0 1 v
  | .fabric, 0x81, v => inRange 0 1 v
  | .fabric, 0x82, v => inRange 0 500 v
  | .fabric, 0x83, v => inRange 1 1000 v
  | .fabric, 0x84, v => inRange 100 220 v
  | .fabric, 0x85, v => inRange 1 60 v
  | .fabric, 0x86, v => inRange 0 40000 v
  | .fabric, 0x87, v => inRange 120 250 v
  | .fabric, 0x88, v => inRange 110 400 v
  | .constants, 0x90, v => inRange 1 3 v
  | .constants, 0x91, v => inRange 0 9 v
  | .constants, 0x92, v => inRange 100 5000 v
  | .constants, 0x93, v => inRange 1000 65535 v
  | .constants, 0x94, v => v = 1 || v = 2 || v = 4 || v = 8
  | .constants, 0x95, v => inRange 5 50 v
  | .constants, 0x96, v => inRange 0 2 v
  | .constants, 0x97, v => inRange 20 500 v
  | .constants, 0x98, v => inRange 1 50 v
  | .constants, 0x99, v => inRange 1 100 v
  | .constants, 0x9A, v => inRange 80 180 v
  | .constants, 0x9B, v => v = 125 || v = 250 || v = 500
  | .constants, 0x9C, v => inRange 500 10000 v
  | .constants, 0x9D, v => inRange 1500 6000 v
  | .constants, 0x9E, v => inRange 1 5999 v
  | .constants, 0x9F, v => inRange 1 5999 v
  | .constants, 0xA0, v => inRange 100 1000 v
  | .constants, 0xA1, v => inRange 0 255 v
  | .constants, 0xA2, v => inRange 0 255 v
  | .constants, 0xA3, v => inRange 0 255 v
  | .constants, 0xA4, v => inRange 10 200 v
  | _, _, _ => false

/-- R147: the value goes into the stage and the edit mark is set. -/
def editField (id element v : Nat) (g : Staged) : Staged :=
  { g with fields := g.fields.map fun f =>
      if f.id = id ∧ f.element = element then { f with value := some v, edited := true } else f }

def editStageBody (p : Port) (l : List Byte) (s : State) : Answer :=
  match (s.port p).stage with
  | none => .refuse .state []
  | some g =>
    refuseIf (fieldExists g.kind (byteAt l 0) (byteAt l 1) = false) .arg <|
    refuseIf (editAllowed g.kind (byteAt l 0) (u32At l 2) = false) .arg <|
      .accept (setStage p (some (editField (byteAt l 0) (byteAt l 1) (u32At l 2) g)) s) []

/-- EDIT_STAGE (R147). -/
def execEditStage (p : Port) (l : List Byte) (s : State) : Host.Outcome State Fault Refusal :=
  .next (command p 0x04 l allPorts anyMode (l.length = 6) (editStageBody p l) s)

/-! ### Writing back (R148, R149) -/

/-- The edited elements of a stage: identifier, element, value. -/
def edits (g : Staged) : List (Nat × Nat × Nat) :=
  g.fields.filterMap fun f => if f.edited then f.value.map fun v => (f.id, f.element, v) else none

/-- An edit applied to an order record. -/
def editOrder (o : Order) : Nat × Nat × Nat → Order
  | (0x04, _, v) => { o with priority := if v = 0 then .rush else .standard }
  | (0x05, _, v) => { o with due := BitVec.ofNat 32 v }
  | (0x06, _, v) => { o with hold := v = 1 }
  | _ => o

/-- An edit applied to a fabric class record. -/
def editFabric (f : FabricClass) : Nat × Nat × Nat → FabricClass
  | (0x80, _, v) => { f with valid := v = 1 }
  | (0x81, _, v) => { f with mode := if v = 0 then .ifWhite else .never }
  | (0x82, _, v) => { f with density := v }
  | (0x83, _, v) => { f with kg := v }
  | (0x84, _, v) => { f with pressTemp := v }
  | (0x85, _, v) => { f with pressTime := v }
  | (0x86, _, v) => { f with cureBase := v }
  | (0x87, _, v) => { f with tmax := v }
  | (0x88, _, v) => { f with scorchFactor := v }
  | _ => f

/-- Channel `k` of five set to `v`; channels W, C, M, Y, K are numbered 0 to 4 (R165). -/
def setInk (a : Inks) (k v : Nat) : Inks :=
  match k with
  | 0 => { a with w := v }
  | 1 => { a with c := v }
  | 2 => { a with m := v }
  | 3 => { a with y := v }
  | 4 => { a with k := v }
  | _ => a

/-- An edit applied to the constants record. -/
def editConstants (c : Constants) : Nat × Nat × Nat → Constants
  | (0x90, _, v) => { c with lapLimit := v }
  | (0x91, _, v) => { c with reprintLimit := v }
  | (0x92, _, v) => { c with claimWindow := v }
  | (0x93, _, v) => { c with gaugeWindow := v }
  | (0x94, _, v) => { c with tickDivider := v }
  | (0x95, _, v) => { c with tolerance := v }
  | (0x96, _, v) => { c with topUpLimit := v }
  | (0x97, _, v) => { c with strokeMass := v }
  | (0x98, _, v) => { c with strokeRate := v }
  | (0x99, k, v) => { c with kink := setInk c.kink k v }
  | (0x9A, _, v) => { c with onset := v }
  | (0x9B, _, v) => { c with samplePeriod := v }
  | (0x9C, _, v) => { c with staleLimit := v }
  | (0x9D, _, v) => { c with beltLength := v }
  | (0x9E, _, v) => { c with zoneEnd1 := v }
  | (0x9F, _, v) => { c with zoneEnd2 := v }
  | (0xA0, _, v) => { c with spacing := v }
  | (0xA1, _, v) => { c with kw := v }
  | (0xA2, _, v) => { c with kc := v }
  | (0xA3, _, v) => { c with kd := v }
  | (0xA4, _, v) => { c with cleanInterval := v }
  | _ => c

/-- R148: every field of a fabric class lies within its range (Table 11-3). -/
def fabricInRange (f : FabricClass) : Bool :=
  inRange 0 500 f.density && inRange 1 1000 f.kg && inRange 100 220 f.pressTemp && inRange 1 60 f.pressTime &&
    inRange 0 40000 f.cureBase && inRange 120 250 f.tmax && inRange 110 400 f.scorchFactor

/-- R148: the zone ends and belt length of the constants satisfy 0 < Z1 < Z2 < E. -/
def zonesInOrder (c : Constants) : Bool := 0 < c.zoneEnd1 && c.zoneEnd1 < c.zoneEnd2 && c.zoneEnd2 < c.beltLength

/-- R148: the modes in which Table 9-3 takes an UPDATE of a kind. -/
def updateModes : Kind → List Mode
  | .order => runHold
  | .fabric => anyMode
  | .constants => [.config]
  | .line | .traveller | .engine | .ring | .gauge | .tunnel => []

/-- R148: the ports that Table 9-3 allows to update a kind. -/
def updatePorts : Kind → List Port
  | .order | .fabric | .constants => [.gateway]
  | .line | .traveller | .engine | .ring | .gauge | .tunnel => []

/-- R148, checks 5 and 6, and R149: the live record with the edits of stage `g` written into it. -/
def writeBack (g : Staged) (s : State) : Answer :=
  match g.kind with
  | .order =>
    match fin? 64 g.index with
    | none => .refuse .state []
    | some n =>
      let x := s.book.slots.get n
      match x.order with
      | none => .refuse .state []
      | some o =>
        .accept (s.setBook { s.book with slots := s.book.slots.set n ⟨x.rev + 1, some ((edits g).foldl editOrder o)⟩ }) []
  | .fabric =>
    match fin? 8 g.index with
    | none => .refuse .state []
    | some n =>
      let x := s.setup.fabrics.get n
      let f := (edits g).foldl editFabric x.cls
      refuseIf (f.valid = true ∧ fabricInRange f = false) .arg <|
        .accept (s.setSetup { s.setup with fabrics := s.setup.fabrics.set n ⟨f, x.rev + 1⟩ }) []
  | .constants =>
    let c := (edits g).foldl editConstants s.constants
    refuseIf (zonesInOrder c = false) .arg <|
      .accept (s.setSetup { s.setup with constants := c, constantsRev := s.setup.constantsRev + 1 }) []
  | .line | .traveller | .engine | .ring | .gauge | .tunnel => .refuse .role []

/-- R149: the stage takes the new revision and the fields as they now stand. -/
def refreshStage (p : Port) (g : Staged) (s : State) : Answer :=
  match liveRecord s g.kind g.index g.subIndex with
  | some r => .accept (setStage p (some (stageOf g.kind g.index g.subIndex r)) s) (bytes16 r.rev.toNat)
  | none => .refuse .state []

/-- The live revision that check 4 of R148 compares with the stage's. -/
def liveRevision (s : State) (g : Staged) : Option Rev := (liveRecord s g.kind g.index g.subIndex).map (·.rev)

def updateBody (p : Port) (s : State) : Answer :=
  match (s.port p).stage with
  | none => .refuse .state []
  | some g =>
    refuseIf (g.fields.all (fun f => !f.edited) = true) .state <|
    refuseIf (p ∉ updatePorts g.kind) .role <|
    refuseIf (s.mode ∉ updateModes g.kind) .mode <|
    refuseIf (liveRevision s g ≠ some g.rev) .stale <|
      match writeBack g s with
      | .refuse st data => .refuse st data
      | .accept s' _ => refreshStage p g s'

/-- UPDATE (R148, R149). -/
def execUpdate (p : Port) (l : List Byte) (s : State) : Host.Outcome State Fault Refusal :=
  .next (command p 0x05 l allPorts anyMode (l.length = 0) (updateBody p) s)

end Sys2Proof.Machine
end

