-- ==== Sys2Proof/Machine/Dispatch.lean ====
section
/-! DEFINITION. What each command does to everything but the queue of waiting commands: one arm per row of the opcode
table. -/

namespace Sys2Proof.Machine

open Sys2Proof

def exec (i : Instr) (s : State) : Host.Outcome State Fault Refusal :=
  match i with
  | .powerOn => Sys2Proof.Machine.execPowerOn s
  | .resetPin => Sys2Proof.Machine.execResetPin s
  | .read p rest => Sys2Proof.Machine.execRead p rest s
  | .linkReset p rest => Sys2Proof.Machine.execLinkReset p rest s
  | .emptyFrame p => Sys2Proof.Machine.execEmptyFrame p s
  | .frameMalformed p frame _ => Sys2Proof.Machine.execFrameMalformed p frame s
  | .unknownCommand p code payload => Sys2Proof.Machine.execUnknownCommand p code payload s
  | .ident p payload => Sys2Proof.Machine.execIdent p payload s
  | .capture p payload => Sys2Proof.Machine.execCapture p payload s
  | .readStage p payload => Sys2Proof.Machine.execReadStage p payload s
  | .editStage p payload => Sys2Proof.Machine.execEditStage p payload s
  | .update p payload => Sys2Proof.Machine.execUpdate p payload s
  | .service p payload => Sys2Proof.Machine.execService p payload s
  | .rearm p payload => Sys2Proof.Machine.execRearm p payload s
  | .clearNotices p payload => Sys2Proof.Machine.execClearNotices p payload s
  | .setEnables p payload => Sys2Proof.Machine.execSetEnables p payload s
  | .placeOrder p payload => Sys2Proof.Machine.execPlaceOrder p payload s
  | .cancelOrder p payload => Sys2Proof.Machine.execCancelOrder p payload s
  | .releaseOrder p payload => Sys2Proof.Machine.execReleaseOrder p payload s
  | .start p payload => Sys2Proof.Machine.execStart p payload s
  | .stop p payload => Sys2Proof.Machine.execStop p payload s
  | .hold p payload => Sys2Proof.Machine.execHold p payload s
  | .resume p payload => Sys2Proof.Machine.execResume p payload s
  | .lineReset p payload => Sys2Proof.Machine.execLineReset p payload s
  | .lineAssign p payload => Sys2Proof.Machine.execLineAssign p payload s
  | .lineConfig p payload => Sys2Proof.Machine.execLineConfig p payload s
  | .lineSet p payload => Sys2Proof.Machine.execLineSet p payload s
  | .lineToggle p payload => Sys2Proof.Machine.execLineToggle p payload s
  | .lineRead p payload => Sys2Proof.Machine.execLineRead p payload s
  | .lineFilteredEdge l => Sys2Proof.Machine.execLineFilteredEdge l s
  | .claim p payload => Sys2Proof.Machine.execClaim p payload s
  | .release p payload => Sys2Proof.Machine.execRelease p payload s
  | .loadGarment p payload => Sys2Proof.Machine.execLoadGarment p payload s
  | .index => Sys2Proof.Machine.execIndex s
  | .claimWindowExpiry e => Sys2Proof.Machine.execClaimWindowExpiry e s
  | .spray p payload => Sys2Proof.Machine.execSpray p payload s
  | .strokeActivePhase => Sys2Proof.Machine.execStrokeActivePhase s
  | .strokeDelivered => Sys2Proof.Machine.execStrokeDelivered s
  | .sprayPassEnd => Sys2Proof.Machine.execSprayPassEnd s
  | .pumpFault => Sys2Proof.Machine.execPumpFault s
  | .pumpFaultClear => Sys2Proof.Machine.execPumpFaultClear s
  | .gaugeDry p payload => Sys2Proof.Machine.execGaugeDry p payload s
  | .gaugeWet p payload => Sys2Proof.Machine.execGaugeWet p payload s
  | .gaugeOscEdge e => Sys2Proof.Machine.execGaugeOscEdge e s
  | .dryPassEnd => Sys2Proof.Machine.execDryPassEnd s
  | .gaugeDryTimeout => Sys2Proof.Machine.execGaugeDryTimeout s
  | .wetPassEnd => Sys2Proof.Machine.execWetPassEnd s
  | .gaugeWetOverflow => Sys2Proof.Machine.execGaugeWetOverflow s
  | .gaugeAbort p payload => Sys2Proof.Machine.execGaugeAbort p payload s
  | .pressDone p payload => Sys2Proof.Machine.execPressDone p payload s
  | .engineOnline p payload => Sys2Proof.Machine.execEngineOnline p payload s
  | .engineOffline p payload => Sys2Proof.Machine.execEngineOffline p payload s
  | .engineFault p payload => Sys2Proof.Machine.execEngineFault p payload s
  | .inkReport p payload => Sys2Proof.Machine.execInkReport p payload s
  | .printDone p payload => Sys2Proof.Machine.execPrintDone p payload s
  | .cleanStart p payload => Sys2Proof.Machine.execCleanStart p payload s
  | .cleanDone p payload => Sys2Proof.Machine.execCleanDone p payload s
  | .tunnelEntry p payload => Sys2Proof.Machine.execTunnelEntry p payload s
  | .unloadDone p payload => Sys2Proof.Machine.execUnloadDone p payload s
  | .zoneTemps p payload => Sys2Proof.Machine.execZoneTemps p payload s
  | .staleTimerExpiry => Sys2Proof.Machine.execStaleTimerExpiry s
  | .sampleTimerExpiry => Sys2Proof.Machine.execSampleTimerExpiry s
  | .encoderPulse => Sys2Proof.Machine.execEncoderPulse s
  | .tunnelExit => Sys2Proof.Machine.execTunnelExit s
  | .exitPop p payload => Sys2Proof.Machine.execExitPop p payload s
  | .timebaseTick => Sys2Proof.Machine.execTimebaseTick s
  | .pinChange l level => Sys2Proof.Machine.execPinChange l level s

end Sys2Proof.Machine
end

