-- ==== Sys2Proof/Machine/FrameReceiver.lean ====
section
/-! DEFINITION. The frame receivers (R139 to R141): bytes clocked into the ports, all ports at once, and the release of
chip select, which makes the frame a command. This is what the part does while no command waits (DESIGN CHOICE, log
entry 28). -/

namespace Sys2Proof.Machine

open Sys2Proof

/-- What the station of port `p` is clocking in, the frame in progress first. -/
def State.busOf (s : State) (p : Port) : List Transfer := s.bus.get (portNo p)

/-- R139: a whole byte is received: it is stored while fewer than 202 are, and counted in any case. -/
def storeByte (b : Byte) (r : Receiver) : Receiver where
  bytes := if r.bytes.length < Config.receiverBytes then r.bytes ++ [b] else r.bytes
  count := r.count + 1

/-- R140: the byte shifted out while a receiver that stands at `r` takes its next byte: first the size of the holder;
then, in a frame whose first byte is 0x00, the holder's bytes, and 0x00 beyond them; in any other frame 0x00. -/
def shiftByte (h : Holder) (r : Receiver) : Byte :=
  match r.count with
  | 0 => BitVec.ofNat 8 (holderBytes h).length
  | k + 1 => if r.bytes.head? = some 0 then (holderBytes h).getD k 0 else 0

/-- R139, R140: one byte is clocked into a port. A byte that finds the receiver idle begins a frame. -/
def clockByte (b : Byte) (q : PortState) : PortState :=
  { q with
    receiver := storeByte b q.receiver
    shifted := (if q.receiver.count = 0 then [] else q.shifted) ++ [shiftByte q.holder q.receiver] }

/-- The whole bytes of the frame received. Those beyond the 202nd were counted and not stored (R139); no rule reads
them, and they stand as 0x00. -/
def receivedFrame (r : Receiver) : List Byte := r.bytes ++ List.replicate (r.count - r.bytes.length) 0

/-- The next moment of a port whose station sends `l`: a byte of the frame in progress, or, when none is to come, the
release of chip select, with which the receiver becomes idle (R141). -/
def movedPort (l : List Transfer) (q : PortState) : PortState :=
  match l with
  | [] => q
  | ⟨b :: _, _⟩ :: _ => clockByte b q
  | ⟨[], _⟩ :: _ => { q with receiver := .idle }

/-- What the station has still to send after that moment. -/
def movedBus (l : List Transfer) : List Transfer :=
  match l with
  | [] => []
  | ⟨_ :: bytes, midByte⟩ :: later => ⟨bytes, midByte⟩ :: later
  | ⟨[], _⟩ :: later => later

/-- R141: at the release of chip select the frame received is examined, and becomes a command. -/
def released (p : Port) (l : List Transfer) (q : PortState) : List Instr :=
  match l with
  | ⟨[], midByte⟩ :: _ => [decodeFrame p (receivedFrame q.receiver) midByte]
  | [] | ⟨_ :: _, _⟩ :: _ => []

/-- R139: every port whose station sends moves on, whatever the other ports do; the commands of the frames released wait
in the order of the ports. -/
def busTick (s : State) : State :=
  ((s.setPorts (.ofFn fun k => movedPort (s.bus.get k) (s.ports.get k))).setBus
    (.ofFn fun k => movedBus (s.bus.get k))).setPending
    (s.pending ++ allPorts.flatMap fun p => released p (s.busOf p) (s.port p))

end Sys2Proof.Machine
end

