-- ==== Sys2Proof/Machine/Step.lean ====
section
/-! DEFINITION. One step of the block: it takes the command at the front of its queue, and clocks its ports on when none
waits. -/

namespace Sys2Proof.Machine

open Sys2Proof

/-- The command at the front of the queue is executed with the queue's rest; with nothing waiting every port whose station
is sending takes its next byte or the release of chip select, and the block idles when no station sends (DESIGN CHOICE, log
entries 2 and 28). Events come one after another, in the order of the queue (DESIGN CHOICE, log entry 22). -/
def step (s : State) : Host.Outcome State Fault Refusal :=
  match s.pending with
  | [] => .next (busTick s)
  | c :: rest => exec c (s.setPending rest)

/-- The state with the command that a word spells put at the front of the queue; no word spells one (DEDUCED, log
entry 3). -/
def State.withFetchWord (s : State) (nbits w : Nat) : State :=
  match decodeTableWord nbits w with
  | some c => s.setPending (c :: s.pending)
  | none => s

end Sys2Proof.Machine
end

