-- ==== Sys2Proof/Safety.lean ====
section
/-! DEFINITION. The terms in which the part's claims are stated: what a command answers and what it leaves alone, how a
revision moves, which ports, modes and lengths each command takes, and the conditions that hold along every run. -/

namespace Sys2Proof.Machine

open Sys2Proof

/-! ### What an event leaves alone -/

/-- The twelve blocks (Table 1-2); the travellers and the exit list are named apart. -/
inductive Block where
  | book | table | exits | ring | pre | gauge | engines | tunnel | ports | notices | lines | setup
  deriving DecidableEq, Repr

/-- The block stands in `t` as it stood in `s`. -/
def Block.same (s t : State) : Block → Prop
  | .book => t.book = s.book
  | .table => t.table = s.table
  | .exits => t.exits = s.exits
  | .ring => t.ring = s.ring
  | .pre => t.pre = s.pre
  | .gauge => t.gauge = s.gauge
  | .engines => t.engines = s.engines
  | .tunnel => t.tunnel = s.tunnel
  | .ports => t.ports = s.ports
  | .notices => t.notices = s.notices
  | .lines => t.lines = s.lines
  | .setup => t.setup = s.setup

/-- Every block but those listed is unchanged, and so are the queue of waiting commands and what the stations send. -/
def Keeps (changed : List Block) (s t : State) : Prop :=
  t.pending = s.pending ∧ t.bus = s.bus ∧ ∀ b : Block, b ∉ changed → b.same s t

/-- `n` steps lead from `s` to `t`. -/
def stepsTo : Nat → State → State → Prop
  | 0, s, t => t = s
  | n + 1, s, t => ∃ u : State, step s = .next u ∧ stepsTo n u t

/-! ### Answers -/

/-- The ports after a command frame with payload `l` on port `p`: its receiver is idle, its holder carries the response,
its stage is `g`, and the frame shifted out what R140 says (DESIGN CHOICE, log entry 11). -/
def answeredWith (p : Port) (code : Byte) (l : List Byte) (st : Status) (data : List Byte) (g : Option Staged)
    (s : State) : Tab PortState 5 :=
  s.ports.set (portNo p) ⟨.idle, ⟨code, st, data⟩, g, shiftedOut (s.port p).holder false (l.length + 2)⟩

/-- The same with the stage kept. -/
def answered (p : Port) (code : Byte) (l : List Byte) (st : Status) (data : List Byte) (s : State) : Tab PortState 5 :=
  answeredWith p code l st data (s.port p).stage s

/-- R144: a refused command leaves everything but its own port as it was. -/
def refused (p : Port) (code : Byte) (l : List Byte) (st : Status) (data : List Byte) (s : State) : State :=
  s.setPorts (answered p code l st data s)

/-- The notice flags after the sources `xs` were raised, in that order (R151). -/
def raisedIn (xs : List (Port × Source)) (n : Tab NoticeState 5) : Tab NoticeState 5 :=
  xs.foldl (fun n x => n.set (portNo x.1) (raiseSource x.1 x.2 (n.get (portNo x.1)))) n

/-- R151: source `x` is pending on port `p`. -/
def isPending (s : State) (p : Port) (x : Source) : Prop :=
  ∃ k : Nat, sourceNo p x = some k ∧ (s.notice p).pending.getLsbD k = true

/-- R18: the exit list after entry `x` joined it. -/
def exitsAfter (x : ExitEntry) (s : State) : List ExitEntry :=
  if s.exits.length < 8 then s.exits ++ [x] else s.exits.tail ++ [x]

/-- R18: what is raised when an entry joins the exit list. -/
def exitNotices (s : State) : List (Port × Source) :=
  if s.exits.length < 8 then [(.tunnel, .exitReady)] else [(.tunnel, .exitReady), (.tunnel, .exitOverrun)]

/-- The lines after the filtered edge of line `l` to `level` (R135). -/
def edged (l : Fin 24) (level : Bool) (s : State) : Tab Line 24 :=
  s.lines.set l { s.lines.get l with outside := level, filtered := level }

/-! ### Revisions -/

/-- R3: a traveller slot that ends an event with content `v`; its revision moves by one when the content changed. -/
def slotAfter (x : TravSlot) (v : Option Traveller) : TravSlot := if v = x.trav then x else ⟨x.rev + 1, v⟩

/-- The traveller table after an event that left every slot but `i` alone. -/
def tableAfter (i : Fin 32) (v : Option Traveller) (s : State) : TravTable :=
  { s.table with slots := s.table.slots.set i (slotAfter (s.table.slots.get i) v) }

/-- R97: an engine record that ends an event as `y`, revision apart. -/
def engineAfter (x y : EngineRec) : EngineRec :=
  if { y with rev := x.rev } = x then x else { y with rev := x.rev + 1 }

/-- The engine records after an event that left the other engine alone. -/
def enginesAfter (e : Engine) (y : EngineRec) (s : State) : Tab EngineRec 2 :=
  s.engines.set (engineNo e) (engineAfter (s.engine e) y)

/-! ### The ports, modes and payload lengths of the commands (Tables 9-2 and 12-2, R164) -/

/-- What R144 checks of a command before its own checks: ports, modes, and the payload length of R164. -/
structure CommandRule where
  roles : List Port
  modes : List Mode
  length : List Byte → Bool

/-- A command of the given ports and modes whose payload holds exactly `n` bytes. -/
def fixedRule (roles : List Port) (modes : List Mode) (n : Nat) : CommandRule := ⟨roles, modes, fun l => l.length = n⟩

/-- The rule of each command byte; `none` for a byte that names no command. -/
def ruleOf : Nat → Option CommandRule
  | 0x01 => some (fixedRule allPorts anyMode 0)
  | 0x02 => some (fixedRule allPorts anyMode 3)
  | 0x03 => some (fixedRule allPorts anyMode 2)
  | 0x04 => some (fixedRule allPorts anyMode 6)
  | 0x05 => some (fixedRule allPorts anyMode 0)
  | 0x06 => some (fixedRule allPorts anyMode 0)
  | 0x07 => some (fixedRule allPorts anyMode 0)
  | 0x08 => some (fixedRule allPorts anyMode 2)
  | 0x09 => some (fixedRule allPorts anyMode 2)
  | 0x10 => some ⟨[.gateway], [.run, .hold], fun l =>
      10 ≤ l.length && 1 ≤ byteAt l 9 && byteAt l 9 ≤ 8 && l.length = 10 + 22 * byteAt l 9⟩
  | 0x11 => some (fixedRule [.gateway] [.run, .hold] 4)
  | 0x12 => some (fixedRule [.gateway] [.config] 1)
  | 0x13 => some (fixedRule [.gateway] [.run, .hold] 0)
  | 0x14 => some (fixedRule [.gateway] [.run, .hold] 0)
  | 0x15 => some (fixedRule [.gateway] [.hold] 1)
  | 0x16 => some (fixedRule [.gateway] anyMode 0)
  | 0x18 => some (fixedRule [.gateway] [.config] 2)
  | 0x19 => some (fixedRule [.gateway] anyMode 4)
  | 0x1A => some (fixedRule [.gateway] anyMode 6)
  | 0x1B => some (fixedRule [.gateway] anyMode 3)
  | 0x1C => some (fixedRule [.gateway] anyMode 0)
  | 0x20 => some (fixedRule [.prep, .engineA, .engineB, .tunnel] [.run, .hold] 2)
  | 0x21 => some (fixedRule [.prep, .tunnel] [.run, .hold] 1)
  | 0x28 => some (fixedRule [.prep] [.run] 3)
  | 0x29 => some (fixedRule [.prep] [.run] 0)
  | 0x2A => some (fixedRule [.prep] [.run] 0)
  | 0x2B => some (fixedRule [.prep] [.run] 0)
  | 0x2C => some (fixedRule [.prep] [.run, .hold] 0)
  | 0x2D => some (fixedRule [.prep] [.run, .hold] 4)
  | 0x30 => some (fixedRule [.engineA, .engineB] [.run, .hold] 0)
  | 0x31 => some (fixedRule [.engineA, .engineB] [.run, .hold] 0)
  | 0x32 => some (fixedRule [.engineA, .engineB] [.run, .hold] 0)
  | 0x33 => some (fixedRule [.engineA, .engineB] [.run, .hold] 20)
  | 0x34 => some (fixedRule [.engineA, .engineB] [.run, .hold] 21)
  | 0x35 => some (fixedRule [.engineA, .engineB] [.run, .hold] 0)
  | 0x36 => some (fixedRule [.engineA, .engineB] [.run, .hold] 0)
  | 0x38 => some (fixedRule [.tunnel] [.run, .hold] 0)
  | 0x39 => some (fixedRule [.tunnel] [.run, .hold] 0)
  | 0x3A => some (fixedRule [.tunnel] [.run, .hold] 6)
  | 0x3B => some (fixedRule [.tunnel] [.run, .hold] 0)
  | 0x3C => some (fixedRule [.tunnel] [.run, .hold] 4)
  | _ => none

/-! ### The payload of a placement (Table 12-3), written from the order it asks for -/

/-- The 22 bytes of one line item. -/
def lineBytes (l : LineItem) : List Byte :=
  bytes24 l.blank.toNat ++ bytes16 l.design.toNat ++ bytes8 l.quantity ++ bytes8 l.fabric.val ++
    bytes8 (sideCode l.placement) ++ bytes16 l.width ++ bytes16 l.height ++ l.coverage.toList.flatMap bytes16

/-- The payload that asks for an order of this number, priority, due key and lines. -/
def orderBytes (number : BitVec 32) (priority : Priority) (due : BitVec 32) (lines : List LineItem) : List Byte :=
  bytes32 number.toNat ++ bytes8 (priorityCode priority) ++ bytes32 due.toNat ++ bytes8 lines.length ++
    lines.flatMap lineBytes

/-- R25: a line item that a placement may ask for. -/
def lineAllowed (s : State) (l : LineItem) : Prop :=
  1 ≤ l.quantity ∧ l.quantity ≤ 24 ∧ (s.fabricOf l).valid = true ∧ 20 ≤ l.width ∧ l.width ≤ 406 ∧ 20 ≤ l.height ∧
    l.height ≤ 508 ∧ (∀ c ∈ l.coverage.toList, c ≤ 1000) ∧ l.produced = 0 ∧ l.inWork = 0 ∧ l.reprints = 0

/-! ### Matching (R29, R30) -/

/-- R29: line `j` of order slot `k` is a candidate for blank `b`. -/
def Candidate (s : State) (b : BitVec 24) (k : Fin 64) (j : Fin 8) : Prop :=
  ∃ (o : Order) (l : LineItem), s.order? k = some o ∧ o.lines[j.val]? = some l ∧
    (o.state = .open ∨ o.state = .inWork) ∧ o.hold = false ∧ l.produced + l.inWork < l.quantity ∧ l.blank = b ∧
    (s.fabricOf l).valid = true

/-- R41: line `j` of order slot `k` may take a cured orphan of line `own`. -/
def SalvageCandidate (s : State) (own : LineItem) (k : Fin 64) (j : Fin 8) : Prop :=
  ∃ (o : Order) (l : LineItem), s.order? k = some o ∧ o.lines[j.val]? = some l ∧
    (o.state = .open ∨ o.state = .inWork) ∧ o.hold = false ∧ l.produced + l.inWork < l.quantity ∧
    l.blank = own.blank ∧ l.design = own.design ∧ l.placement = own.placement

/-- Table 2-5: line `c` comes before line `d`, a later key deciding only between equals on every earlier one. -/
def Precedes (s : State) (c d : Fin 64 × Fin 8) : Prop :=
  ∃ o p : Order, s.order? c.1 = some o ∧ s.order? d.1 = some p ∧
    (priorityCode o.priority < priorityCode p.priority ∨ priorityCode o.priority = priorityCode p.priority ∧
      (o.due.toNat < p.due.toNat ∨ o.due = p.due ∧
        (o.seq.toNat < p.seq.toNat ∨ o.seq = p.seq ∧ (c.2 < d.2 ∨ c.2 = d.2 ∧ c.1 < d.1))))

/-- R58: the traveller in slot `i` rides a platen that is claimed or awaits its claim, or a pass is over it. -/
def Touched (s : State) (i : Fin 32) : Prop :=
  ∃ q : Fin 12, s.ring.carried.get q = some i ∧
    ((∃ (st : Station) (c : Claim), s.claimAt st = some c ∧ c.platen = q) ∨
      (∃ (e : Engine) (a : Awaiting), s.awaitingAt e = some a ∧ a.platen = q) ∨
      s.pre.pass.map (·.trav) = some i ∨ s.gauge.pass.map (·.trav) = some i)

/-! ### Assignment (R98 to R101) and forced handling (R59, R60, R107) -/

/-- R98: the estimates of a garment of line `l`, channel by channel. -/
def estimateOfLine (c : Constants) (l : LineItem) : Inks :=
  ⟨l.width * l.height / 100 * l.coverage.w * c.kink.w / 1000, l.width * l.height / 100 * l.coverage.c * c.kink.c / 1000,
    l.width * l.height / 100 * l.coverage.m * c.kink.m / 1000, l.width * l.height / 100 * l.coverage.y * c.kink.y / 1000,
    l.width * l.height / 100 * l.coverage.k * c.kink.k / 1000⟩

/-- R99: in every channel the level covers what is reserved and the estimate. -/
def inkSuffices (x : EngineRec) (est : Inks) : Prop :=
  x.reserved.w + est.w ≤ x.level.w ∧ x.reserved.c + est.c ≤ x.level.c ∧ x.reserved.m + est.m ≤ x.level.m ∧
    x.reserved.y + est.y ≤ x.level.y ∧ x.reserved.k + est.k ≤ x.level.k

/-- The gateway's INK_SHORT source of an engine (Table 10-1). -/
def gatewayInkShort : Engine → Source
  | .a => .inkShortA
  | .b => .inkShortB

/-- R100, R101: the event from `s` to `t` ended in an assignment attempt of engine `e`, whose record stood as `x` before
it, for the READY_TO_PRINT traveller `v` in slot `i` on platen `q`, bound to line `l`. -/
def Attempted (s t : State) (e : Engine) (x : EngineRec) (i : Fin 32) (v : Traveller) (q : Fin 12) (l : LineItem) : Prop :=
  (inkSuffices x (estimateOfLine s.constants l) →
    t.trav? i = some { v with stage := .assigned, print := some ⟨e, estimateOfLine s.constants l, none, .pending⟩ } ∧
    t.engine e = engineAfter (s.engine e) { x with
      state := .assigned, current := some i, reserved := Inks.zip (· + ·) x.reserved (estimateOfLine s.constants l) } ∧
    t.awaitingAt e = some ⟨i, q, s.constants.claimWindow⟩ ∧ t.permit = false ∧ isPending t (enginePort e) .assigned) ∧
  (¬ inkSuffices x (estimateOfLine s.constants l) →
    t.trav? i = some v ∧ t.engine e = engineAfter (s.engine e) x ∧ t.awaitingAt e = none ∧
    isPending t (enginePort e) .inkShort ∧ isPending t .gateway (gatewayInkShort e))

/-- R59, R107: the engine record of an engine whose assignment or print a forced index or a re-alignment undid. -/
def settledRec (c : Constants) (x : EngineRec) : EngineRec :=
  match x.state with
  | .assigned => { x with
      state := if x.prints < c.cleanInterval then .ready else .cleanDue, current := none, reserved := ⟨0, 0, 0, 0, 0⟩ }
  | .printing => { x with
      state := if x.prints + 1 < c.cleanInterval then .ready else .cleanDue, current := none, prints := x.prints + 1,
      reserved := ⟨0, 0, 0, 0, 0⟩ }
  | .offline | .ready | .cleanDue | .cleaning | .fault => x

/-- Table 3-3, R60: traveller `v`, its fault already added, after a re-alignment that puts platen `p` at the load
position. -/
def realigned (p : Fin 12) (v : Traveller) : Traveller :=
  match v.stage with
  | .printing =>
    { v with stage := .rejectPending, print := v.print.map fun r => { r with result := .fault, actual := none } }
  | .assigned => { v with stage := .readyToPrint, print := none }
  | .loaded =>
    if v.platen = none ∨ v.platen = some p then v
    else { v with stage := if v.pretreat.isSome then .pretreat else .readyToPrint }
  | .pretreat | .readyToPrint | .printed | .inTunnel | .rejectPending | .returnPending => v

/-- A READY_TO_PRINT traveller on the platen that stands at a print position when platen `p` is at the load position. -/
def atPrint (p : Fin 12) (v : Traveller) : Prop :=
  v.stage = .readyToPrint ∧ (v.platen = some (p - 6) ∨ v.platen = some (p - 8))

/-- Table 3-3, R73, R90: traveller `v` of slot `i`, its FORCED_INDEX already added, after the handling of a forced index. -/
def interrupted (s : State) (i : Fin 32) (v : Traveller) : Traveller :=
  if s.pre.pass.map (·.trav) = some i then
    addFault .gaugeAborted
      { v with pretreat := v.pretreat.map fun r => { r with delivered := r.delivered + s.pre.strokes } }
  else if s.gauge.pass.map (·.trav) = some i then addFault .gaugeAborted v
  else
    match v.stage with
    | .printing =>
      { v with stage := .rejectPending, print := v.print.map fun r => { r with result := .fault, actual := none } }
    | .assigned => { v with stage := .readyToPrint, print := none }
    | .loaded | .pretreat | .readyToPrint | .printed | .inTunnel | .rejectPending | .returnPending => v

/-- R54, R57: traveller `v` of slot `i` after an index: it leaves LOADED as it leaves position 0, and a lap is counted as
it leaves position 10. -/
def movedOn (s : State) (i : Fin 32) (v : Traveller) : Traveller :=
  if s.slotAt 0 = some i ∧ v.stage = .loaded then
    { v with stage := if v.pretreat.isSome then .pretreat else .readyToPrint }
  else if s.slotAt 10 = some i ∧
      (v.stage = .loaded ∨ v.stage = .pretreat ∨ v.stage = .readyToPrint ∨ v.stage = .assigned) then
    if v.laps + 1 = s.constants.lapLimit then addFault .lapLimit { v with laps := v.laps + 1, stage := .returnPending }
    else { v with laps := v.laps + 1 }
  else v

/-- A READY_TO_PRINT traveller that the next index brings to a print position. -/
def arriving (s : State) (v : Traveller) : Prop :=
  v.stage = .readyToPrint ∧ (v.platen = some (platenAt s.ring 5) ∨ v.platen = some (platenAt s.ring 7))

/-! ### Conditions that hold along every run -/

/-- R65, R78, R157, R158: at most one pass is in flight, and only in RUN under the prep claim at the booth. -/
def PassGuarded (s : State) : Prop :=
  (s.pre.pass = none ∨ s.gauge.pass = none) ∧
    (s.passInFlight = true → s.mode = .run ∧ s.holdsClaim .prep .spray = true)

/-- R14: a fault list within its length, its overflow mark set only when it is full. -/
def faultsBounded (t : Traveller) : Prop :=
  t.faults.length ≤ 4 ∧ (t.overflow = true → t.faults.length = 4)

/-- R14, R18, R115, R139: every list of the part keeps within its length; a receiver stores the bytes it counts up
to the 202nd. -/
def ListsBounded (s : State) : Prop :=
  s.exits.length ≤ 8 ∧ s.tunnel.queue.length ≤ 16 ∧
    (∀ p : Port, (holderBytes (s.port p).holder).length ≤ 64 ∧
      (s.port p).receiver.bytes.length = min 202 (s.port p).receiver.count) ∧
    ∀ (i : Fin 32) (t : Traveller), s.trav? i = some t → faultsBounded t

/-- The open travellers bound to line `j` of order slot `k`. -/
def boundCount (s : State) (k : Fin 64) (j : Fin 8) : Nat :=
  ((List.finRange 32).filter fun i =>
    match s.trav? i with
    | some t => t.slot = k ∧ t.line = j
    | none => false).length

/-- R23: in work counts the open travellers bound to each line, and produced plus in work stays within the quantity. -/
def LinesCounted (s : State) : Prop :=
  ∀ (k : Fin 64) (j : Fin 8) (l : LineItem), s.line? k j = some l →
    l.inWork = boundCount s k j ∧ l.produced + l.inWork ≤ l.quantity

/-- R13, R39: every open traveller is bound to a line of a live order, and carries the orphan mark exactly when that
order is CANCELLING. -/
def TravellersBound (s : State) : Prop :=
  ∀ (i : Fin 32) (t : Traveller), s.trav? i = some t →
    ∃ o : Order, s.order? t.slot = some o ∧ t.line.val < o.lines.length ∧ (t.orphan = true ↔ o.state = .cancelling)

/-- R24: the state of a live order says how its lines stand. -/
def stateFits (o : Order) : Prop :=
  1 ≤ o.lines.length ∧ o.lines.length ≤ 8 ∧
    match o.state with
    | .open => noneInWork o = true ∧ allProduced o = false
    | .inWork => noneInWork o = false
    | .complete => allProduced o = true
    | .cancelling => noneInWork o = false

/-- R13, R22 to R24, R39: the order book agrees with the travellers. -/
def BookConsistent (s : State) : Prop :=
  LinesCounted s ∧ TravellersBound s ∧ ∀ (k : Fin 64) (o : Order), s.order? k = some o → stateFits o

/-- R4, R18: at most 8 exit entries, and no serial shared among them and the open travellers. -/
def SerialsDistinct (s : State) : Prop :=
  s.exits.length ≤ 8 ∧ (((List.finRange 32).filterMap fun i => (s.trav? i).map (·.serial)) ++ s.exits.map (·.serial)).Nodup

/-- Table 11-2: every field of the constants record lies in its range, and the zone ends are in order. -/
def constantsInRange (c : Constants) : Bool :=
  inRange 1 3 c.lapLimit && inRange 0 9 c.reprintLimit && inRange 100 5000 c.claimWindow &&
    inRange 1000 65535 c.gaugeWindow && (c.tickDivider = 1 || c.tickDivider = 2 || c.tickDivider = 4 || c.tickDivider = 8) &&
    inRange 5 50 c.tolerance && inRange 0 2 c.topUpLimit && inRange 20 500 c.strokeMass && inRange 1 50 c.strokeRate &&
    c.kink.toList.all (inRange 1 100) && inRange 80 180 c.onset &&
    (c.samplePeriod = 125 || c.samplePeriod = 250 || c.samplePeriod = 500) && inRange 500 10000 c.staleLimit &&
    inRange 1500 6000 c.beltLength && inRange 1 5999 c.zoneEnd1 && inRange 1 5999 c.zoneEnd2 &&
    decide (c.zoneEnd1 < c.zoneEnd2) && decide (c.zoneEnd2 < c.beltLength) && inRange 100 1000 c.spacing &&
    inRange 0 255 c.kw && inRange 0 255 c.kc && inRange 0 255 c.kd && inRange 10 200 c.cleanInterval

/-- R147: every edited field of a stage holds a value that its kind's editing allows. -/
def stageInRange (g : Staged) : Prop :=
  ∀ f ∈ g.fields, f.edited = true → ∃ v : Nat, f.value = some v ∧ editAllowed g.kind f.id v = true

/-- R147, R148, R161, R162: the configuration lies in its ranges, and so does whatever a stage may yet write into it. -/
def ConfigurationInRange (s : State) : Prop :=
  constantsInRange s.constants = true ∧
    (∀ k : Fin 8, (s.setup.fabrics.get k).cls.valid = true → fabricInRange (s.setup.fabrics.get k).cls = true) ∧
    ∀ (p : Port) (g : Staged), (s.port p).stage = some g → stageInRange g

/-- R12: the platen field of an open traveller and the ring map name each other. -/
def CarriedConsistent (s : State) : Prop :=
  ∀ (p : Fin 12) (i : Fin 32),
    s.ring.carried.get p = some i ↔ ∃ t : Traveller, s.trav? i = some t ∧ t.platen = some p

/-- R47: a claim is held by the port that serves its station, on the platen that stands there. -/
def ClaimsConsistent (s : State) : Prop :=
  ∀ (st : Station) (c : Claim), s.claimAt st = some c →
    c.port = stationPort st ∧ c.platen = platenAt s.ring (stationPos st)

/-- The traveller of a pass in flight stands at the booth, in PRETREAT, with its pretreat record (R66, R82, R86). -/
def BoothConsistent (s : State) : Prop :=
  ∀ i : Fin 32, (s.pre.pass.map (·.trav) = some i ∨ s.gauge.pass.map (·.trav) = some i) →
    s.slotAt 2 = some i ∧ ∃ t : Traveller, s.trav? i = some t ∧ t.stage = .pretreat ∧ t.pretreat.isSome = true

/-- R95, R101, R102: engine `e` holds the traveller in slot `i`, which stands at its position in stage `stage`, and
reserves the ink of its print record. -/
def engineHolds (s : State) (e : Engine) (stage : Stage) : Prop :=
  ∃ (i : Fin 32) (t : Traveller) (r : Print),
    (s.engine e).current = some i ∧ s.slotAt (stationPos (engineStation e)) = some i ∧ s.trav? i = some t ∧
    t.stage = stage ∧ t.print = some r ∧ r.engine = e ∧ (s.engine e).reserved = r.estimate

/-- R47, R51, R95: what an engine's state says of its current traveller, its reservation, its awaiting entry and its
claim. -/
def EngineConsistent (s : State) (e : Engine) : Prop :=
  match (s.engine e).state with
  | .assigned =>
    engineHolds s e .assigned ∧ s.claimAt (engineStation e) = none ∧
      ∃ a : Awaiting, s.awaitingAt e = some a ∧ (s.engine e).current = some a.trav ∧
        a.platen = platenAt s.ring (stationPos (engineStation e))
  | .printing =>
    engineHolds s e .printing ∧ (s.claimAt (engineStation e)).isSome = true ∧ s.awaitingAt e = none
  | .offline | .ready | .cleanDue | .cleaning | .fault =>
    (s.engine e).current = none ∧ (s.engine e).reserved = .zero ∧ s.claimAt (engineStation e) = none ∧
      s.awaitingAt e = none

/-- R5, R11, R115: the tunnel queue holds the IN_TUNNEL travellers, each once; they alone have no platen, and they alone
have a cure record. -/
def TunnelConsistent (s : State) : Prop :=
  (s.tunnel.queue.map (·.trav)).Nodup ∧
    (∀ i : Fin 32, i ∈ s.tunnel.queue.map (·.trav) ↔ ∃ t : Traveller, s.trav? i = some t ∧ t.stage = .inTunnel) ∧
    ∀ (i : Fin 32) (t : Traveller), s.trav? i = some t →
      (t.stage = .inTunnel ↔ t.platen = none) ∧ (t.stage = .inTunnel ↔ t.cure.isSome = true)

/-- R46, R157: in CONFIG no traveller is open and nothing holds the ring. -/
def ConfigQuiet (s : State) : Prop :=
  s.mode = .config →
    (∀ i : Fin 32, s.trav? i = none) ∧ s.ring.claims = .fill none ∧ s.ring.awaiting = .fill none

/-- The travellers, the ring, the booth, the engines and the tunnel agree about where every garment is and what holds
it. -/
structure FloorConsistent (s : State) : Prop where
  guarded : PassGuarded s
  carried : CarriedConsistent s
  claims : ClaimsConsistent s
  booth : BoothConsistent s
  engines : ∀ e : Engine, EngineConsistent s e
  held : ∀ (i : Fin 32) (t : Traveller), s.trav? i = some t → (t.stage = .assigned ∨ t.stage = .printing) →
    ∃ e : Engine, (s.engine e).current = some i
  tunnel : TunnelConsistent s
  quiet : ConfigQuiet s

end Sys2Proof.Machine
end

