-- ==== Sys2Proof/WellFormed.lean ====
section
/-! DEFINITION. Which commands can reach the part: the operands that a frame on a port can carry (R140, R141). -/

namespace Sys2Proof

/-- R140: a command frame carries at most 200 payload bytes. -/
def payloadFits (l : List Byte) : Bool := decide (l.length ≤ 200)

/-- R141: the frame is neither empty, nor a link reset, nor a READ, and its length is wrong. -/
def isMalformed (frame : List Byte) (midByte : Bool) : Bool :=
  decide (frame ≠ []) && decide (frame.take 4 ≠ linkResetMark) && decide (frame.head? ≠ some 0) && lengthWrong frame midByte

/-- R144: the byte begins a command frame and names no command. -/
def isUnknown (p : Port) (code : Byte) : Bool := decide (code ≠ 0) && (commandOf p code []).isNone

/-- The command is one that can reach the part. Every event of the machinery is. -/
def wellFormed (i : Instr) : Bool :=
  match i with
  | .frameMalformed _ frame midByte => isMalformed frame midByte
  | .unknownCommand p code l => isUnknown p code && payloadFits l
  | _ =>
    match commandParts i with
    | some x => payloadFits x.2.2
    | none => true

end Sys2Proof
end

