-- ==== Sys2Proof/Certificates/Slice0/Obligations.lean ====
section
/-! DEFINITION. What is claimed of the part: statements drawn from the numbered rules, for every state. A statement whose
effect would read differently in a state that no run reaches names the condition it needs, and that condition is claimed
to hold along every run. What a command's frame shifts out, a part of every `answered`, is held in a field of the model's
own (log entry 11). -/

open Sys2Proof Sys2Proof.Machine

/-! ### Power-on, the queue, and frames (chapters 9 and 11) -/

/-- R155 with Tables 1-7, 2-1, 3-2, 4-1, 5-1, 6-2, 7-1, 8-2, 9-1, 10-2, 11-1 and 11-2: what power-on and the RESET pin
leave. That the waiting commands, the levels outside the pins and what the stations send stay is the model's choice (log
entries 20 and 28), and so are a filtered level taken from the pin at once (log entry 9) and the empty `shifted` (log entry
11); that the counts of the GAUGE record are 0 is inferred (log entry 27). -/
def Obligations.PowerOnClearsEveryBlock : Prop :=
  ∀ s : State, ∃ t : State, exec .powerOn s = .next t ∧ exec .resetPin s = .next t ∧
    t.setup.mode = .config ∧
    t.setup.constants =
      { lapLimit := 2, reprintLimit := 3, claimWindow := 500, gaugeWindow := 20000, tickDivider := 8, tolerance := 20,
        topUpLimit := 1, strokeMass := 100, strokeRate := 20, kink := ⟨30, 12, 12, 12, 12⟩, onset := 130,
        samplePeriod := 250, staleLimit := 2000, beltLength := 3000, zoneEnd1 := 1000, zoneEnd2 := 2000, spacing := 300,
        kw := 40, kc := 10, kd := 20, cleanInterval := 60 } ∧
    (∀ k : Fin 8, (t.setup.fabrics.get k).cls = ⟨false, .never, 0, 0, 0, 0, 0, 0, 0⟩) ∧
    (∀ k : Fin 64, t.book.slots.get k = ⟨0, none⟩) ∧ t.book.seq = 0 ∧
    (∀ i : Fin 32, t.table.slots.get i = ⟨0, none⟩) ∧ t.table.serial = 0 ∧ t.exits = [] ∧
    t.ring.load = 0 ∧ t.ring.synced = false ∧ (∀ p : Fin 12, t.ring.carried.get p = none) ∧
    (∀ st : Station, t.claimAt st = none) ∧ (∀ e : Engine, t.awaitingAt e = none ∧ t.lapseAt e = none) ∧
    (∀ k : Fin 12, t.ring.revs.get k = 0) ∧
    t.pre = ⟨none, 0, false⟩ ∧ t.gauge = ⟨none, .front, 0, 0, none, 0, 0, none, 0⟩ ∧
    (∀ e : Engine, t.engine e = ⟨.offline, none, 0, ⟨0, 0, 0, 0, 0⟩, ⟨0, 0, 0, 0, 0⟩, 0⟩) ∧
    t.tunnel.queue = [] ∧ t.tunnel.encoder = 0 ∧ (∀ z : Fin 3, t.tunnel.zones.get z = none) ∧
    t.tunnel.staleTimer = none ∧ t.tunnel.sampleTimer = none ∧ t.tunnel.sampled = 0 ∧ t.tunnel.rev = 0 ∧
    t.setup.constantsRev = 0 ∧ (∀ k : Fin 8, (t.setup.fabrics.get k).rev = 0) ∧
    (∀ p : Port, t.port p = ⟨⟨[], 0⟩, ⟨0x00, .ok, []⟩, none, []⟩ ∧ t.notice p = ⟨0, 0, 0, false⟩) ∧
    (∀ l : Fin 24, t.lines.get l = ⟨.none, .inward, false, .standard, .us1, (s.lines.get l).outside, (s.lines.get l).outside⟩) ∧
    t.bus = s.bus ∧ t.pending = s.pending

/-- The model's queue: the command at its front is executed with the rest behind it, and with an empty queue and no station
sending the part stays as it is (log entry 2). R139 to R141: with an empty queue every port whose station sends takes its
next byte, stored up to the 202nd and counted beyond, shifting out a byte for it; or chip select is released, the receiver
becomes idle and the frame received becomes a command. No port touches another, and nothing else changes (log entries 11
and 28). -/
def Obligations.StepRunsFrontCommand : Prop :=
  (∀ (c : Instr) (q : List Instr) (s : State), step (s.setPending (c :: q)) = exec c (s.setPending q)) ∧
  (∀ s : State, s.pending = [] → (∀ p : Port, s.busOf p = []) → step s = .next s) ∧
  ∀ s : State, s.pending = [] → ∃ t : State, step s = .next t ∧ (∀ b : Block, b ≠ .ports → b.same s t) ∧
    t.pending = ([Port.gateway, .prep, .engineA, .engineB, .tunnel].flatMap fun p =>
      match s.busOf p with
      | ⟨[], midByte⟩ :: _ => [decodeFrame p ((s.port p).receiver.bytes ++
          List.replicate ((s.port p).receiver.count - (s.port p).receiver.bytes.length) 0) midByte]
      | _ => []) ∧
    ∀ p : Port, (t.port p).holder = (s.port p).holder ∧ (t.port p).stage = (s.port p).stage ∧
      match s.busOf p with
      | [] => t.port p = s.port p ∧ t.busOf p = []
      | ⟨b :: bytes, midByte⟩ :: later =>
        t.busOf p = ⟨bytes, midByte⟩ :: later ∧ (t.port p).receiver.count = (s.port p).receiver.count + 1 ∧
        (t.port p).receiver.bytes = (if (s.port p).receiver.bytes.length < 202 then (s.port p).receiver.bytes ++ [b]
          else (s.port p).receiver.bytes) ∧
        ((s.port p).receiver.count = 0 →
          (t.port p).shifted = [BitVec.ofNat 8 (holderBytes (s.port p).holder).length]) ∧
        ∀ k : Nat, (s.port p).receiver.count = k + 1 →
          (t.port p).shifted = (s.port p).shifted ++ [if (s.port p).receiver.bytes.head? = some 0 then
            (holderBytes (s.port p).holder).getD k 0 else 0]
      | ⟨[], _⟩ :: later =>
        t.busOf p = later ∧ (t.port p).receiver = ⟨[], 0⟩ ∧ (t.port p).shifted = (s.port p).shifted

/-- R140, R141 and Table 12-2: the frame written for a well-formed command is read back as that command, with every
operand. -/
def Obligations.FrameReadsBack : Prop :=
  ∀ (i : Instr) (p : Port) (frame : List Byte) (midByte : Bool),
    wellFormed i = true → encodeFrame i = some (p, frame, midByte) → decodeFrame p frame midByte = i

/-- R142, R143: a READ changes nothing: not the holder, not the stage, and no state of any other block or port; a link
reset puts its own port in the state of Table 9-1 and touches nothing else. -/
def Obligations.ReadAndLinkReset : Prop :=
  (∀ (p : Port) (rest : List Byte) (s : State), ∃ t : State, exec (.read p rest) s = .next t ∧ Keeps [.ports] s t ∧
      (∀ q : Port, q ≠ p → t.port q = s.port q) ∧
      (t.port p).holder = (s.port p).holder ∧ (t.port p).stage = (s.port p).stage) ∧
  (∀ (p : Port) (rest : List Byte) (s : State), ∃ t : State, exec (.linkReset p rest) s = .next t ∧
      Keeps [.ports] s t ∧ (∀ q : Port, q ≠ p → t.port q = s.port q) ∧
      (t.port p).receiver = ⟨[], 0⟩ ∧ (t.port p).holder = ⟨0xFF, .ok, []⟩ ∧ (t.port p).stage = none)

/-- R140, R141, cases 1 and 4, R144, check 1, and IDENT (Table 12-2): a READ shifts out the size of the holder, then the
holder's bytes, then 0x00 (`shifted`, log entry 11); an empty frame is discarded; a malformed frame is not executed and
leaves its first byte and status LENGTH; a byte that names no command is refused with ARG; IDENT is taken on every port in
every mode and answers the identity with the port and its role. A frame of at most 202 bytes that a station clocks into an
idle port comes, byte by byte and with its release, to wait as the command it spells, and shifted out what R140 says (log
entry 28). -/
def Obligations.FramesWithoutCommand : Prop :=
  (∀ (p : Port) (rest : List Byte) (s : State), ∃ t : State, exec (.read p rest) s = .next t ∧
      (t.port p).receiver = ⟨[], 0⟩ ∧ (t.port p).shifted.length = rest.length + 1 ∧
      (t.port p).shifted[0]? = some (BitVec.ofNat 8 (holderBytes (s.port p).holder).length) ∧
      ∀ k : Nat, k < rest.length → (t.port p).shifted[k + 1]? = some ((holderBytes (s.port p).holder).getD k 0)) ∧
  (∀ (p : Port) (s : State),
      (∃ t : State, exec (.emptyFrame p) s = .next t ∧ Keeps [.ports] s t ∧ (∀ q : Port, q ≠ p → t.port q = s.port q) ∧
        (t.port p).holder = (s.port p).holder ∧ (t.port p).stage = (s.port p).stage) ∧
      ∀ (b : Byte) (rest : List Byte) (midByte : Bool), ∃ t : State,
        exec (.frameMalformed p (b :: rest) midByte) s = .next t ∧ Keeps [.ports] s t ∧
        (∀ q : Port, q ≠ p → t.port q = s.port q) ∧
        (t.port p).holder = ⟨b, .length, []⟩ ∧ (t.port p).stage = (s.port p).stage) ∧
  (∀ (p : Port) (s : State),
      (∀ (code : Byte) (l : List Byte), exec (.unknownCommand p code l) s = .next (refused p code l .arg [] s)) ∧
      ∃ t : State, exec (.ident p []) s = .next t ∧ Keeps [.ports] s t ∧
        t.ports = answered p 0x01 [] .ok
          [0x48, 0x44, 0x0C, 0x12, 0x01, BitVec.ofNat 8 (portNo p).val, BitVec.ofNat 8 (portNo p).val] s) ∧
  (∀ (p : Port) (frame : List Byte) (midByte : Bool) (s : State), s.pending = [] → frame.length ≤ 202 →
      (s.port p).receiver = ⟨[], 0⟩ → s.busOf p = [⟨frame, midByte⟩] → (∀ q : Port, q ≠ p → s.busOf q = []) →
      ∃ t : State, stepsTo (frame.length + 1) s t ∧ t.pending = [decodeFrame p frame midByte] ∧
        (∀ b : Block, b ≠ .ports → b.same s t) ∧ (∀ q : Port, q ≠ p → t.port q = s.port q) ∧
        (∀ q : Port, t.busOf q = []) ∧ (t.port p).receiver = ⟨[], 0⟩ ∧ (t.port p).holder = (s.port p).holder ∧
        (t.port p).stage = (s.port p).stage ∧
        (frame ≠ [] → (t.port p).shifted = shiftedOut (s.port p).holder (frame.head? = some 0) frame.length))

/-- R144, R164, Tables 9-2 and 12-2: a command from a wrong port is refused with ROLE, in a wrong mode with MODE, with a wrong
payload length with ARG, in that order; and whatever status refuses a command, it changes its own port's response and
nothing else. -/
def Obligations.CommandChecksAndRefusals : Prop :=
  (∀ (i : Instr) (p : Port) (code : Byte) (l : List Byte) (r : CommandRule) (s : State),
      wellFormed i = true → commandParts i = some (p, code, l) → ruleOf code.toNat = some r →
      (p ∉ r.roles → exec i s = .next (refused p code l .role [] s)) ∧
      (p ∈ r.roles → s.mode ∉ r.modes → exec i s = .next (refused p code l .mode [] s)) ∧
      (p ∈ r.roles → s.mode ∈ r.modes → r.length l = false → exec i s = .next (refused p code l .arg [] s))) ∧
  (∀ (i : Instr) (p : Port) (code : Byte) (l : List Byte) (s t : State),
      commandParts i = some (p, code, l) → exec i s = .next t → (t.port p).holder.status ≠ .ok →
      ∃ (st : Status) (data : List Byte), t = refused p code l st data s)

/-! ### The record window (chapter 9) -/

/-- R145: CAPTURE of a record within its range puts kind, index, revision and every field in the stage, unedited, and
answers kind, index, revision and the occupancy mark; outside the range it is refused with ARG. -/
def Obligations.CaptureFillsStage : Prop :=
  ∀ (p : Port) (k : Kind) (i j : Nat) (s : State), i < 256 → j < 256 →
    match liveRecord s k i j with
    | some r => ∃ t : State,
        exec (.capture p [BitVec.ofNat 8 (kindCode k), BitVec.ofNat 8 i, BitVec.ofNat 8 j]) s = .next t ∧
        Keeps [.ports] s t ∧
        t.ports = answeredWith p 0x02 [BitVec.ofNat 8 (kindCode k), BitVec.ofNat 8 i, BitVec.ofNat 8 j] .ok
          (bytes8 (kindCode k) ++ bytes8 i ++ bytes8 j ++ bytes16 r.rev.toNat ++ bytes8 (flagCode r.occupied))
          (some ⟨k, i, j, r.rev, one 0x00 (some r.rev.toNat) ++ r.fields⟩) s ∧
        ∀ f ∈ r.fields, f.edited = false
    | none =>
        exec (.capture p [BitVec.ofNat 8 (kindCode k), BitVec.ofNat 8 i, BitVec.ofNat 8 j]) s =
          .next (refused p 0x02 [BitVec.ofNat 8 (kindCode k), BitVec.ofNat 8 i, BitVec.ofNat 8 j] .arg [] s)

/-- R146, R147, R163: READ_STAGE answers the marks of an element and its value, 0 for an absent one, and changes nothing;
EDIT_STAGE of an editable field within its range writes the value into the stage and marks it, and writes into no live
record; a value out of range is refused with ARG. -/
def Obligations.StageReadAndEdited : Prop :=
  (∀ (p : Port) (id element : Nat) (g : Staged) (s : State), id < 256 → element < 256 →
      (s.port p).stage = some g → fieldExists g.kind id element = true →
      ∃ t : State, exec (.readStage p [BitVec.ofNat 8 id, BitVec.ofNat 8 element]) s = .next t ∧ Keeps [.ports] s t ∧
        t.ports = answered p 0x03 [BitVec.ofNat 8 id, BitVec.ofNat 8 element] .ok
          (bytes8 ((if (stagedField g id element).value = none then 1 else 0) +
              (if (stagedField g id element).edited = true then 2 else 0)) ++
            bytes32 ((stagedField g id element).value.getD 0)) s) ∧
  (∀ (p : Port) (id element v : Nat) (g : Staged) (s : State), id < 256 → element < 256 → v < 2 ^ 32 →
      (s.port p).stage = some g → fieldExists g.kind id element = true →
      (editAllowed g.kind id v = true → (∃ f ∈ g.fields, f.id = id ∧ f.element = element) →
        ∃ t : State, exec (.editStage p ([BitVec.ofNat 8 id, BitVec.ofNat 8 element] ++ bytes32 v)) s = .next t ∧
          Keeps [.ports] s t ∧ (∀ q : Port, q ≠ p → t.port q = s.port q) ∧ (t.port p).holder = ⟨0x04, .ok, []⟩ ∧
          ∃ g' : Staged, (t.port p).stage = some g' ∧ g'.rev = g.rev ∧ g'.kind = g.kind ∧ g'.index = g.index ∧
            g'.subIndex = g.subIndex ∧ stagedField g' id element = ⟨id, element, some v, true⟩ ∧
            ∀ id' e' : Nat, (id', e') ≠ (id, element) → stagedField g' id' e' = stagedField g id' e') ∧
      (editAllowed g.kind id v = false →
        exec (.editStage p ([BitVec.ofNat 8 id, BitVec.ofNat 8 element] ++ bytes32 v)) s =
          .next (refused p 0x04 ([BitVec.ofNat 8 id, BitVec.ofNat 8 element] ++ bytes32 v) .arg [] s)))

/-- R35, R148, R149, R161, R162: an UPDATE at the live revision that passes its checks writes the edited fields of an ORDER,
CONSTANTS or FABRIC record together and advances its revision once; the stage is brought up to date with its marks
cleared; a failed cross-field check refuses it with ARG. Its earlier checks in order: STATE without a stage or an edit, ROLE
from another port or for another kind, MODE, STALE when the live revision differs, STATE for an order slot that is FREE. -/
def Obligations.UpdateWritesLiveRecord : Prop :=
  (∀ (g : Staged) (n : Fin 64) (o : Order) (s : State),
      (s.port .gateway).stage = some g → g.kind = .order → g.index = n.val → g.subIndex = 0 →
      (∃ f ∈ g.fields, f.edited = true) → (s.mode = .run ∨ s.mode = .hold) →
      s.book.slots.get n = ⟨g.rev, some o⟩ →
      ∃ t : State, exec (.update .gateway []) s = .next t ∧ Keeps [.book, .ports] s t ∧
        t.book = { s.book with slots := s.book.slots.set n ⟨g.rev + 1, some ((edits g).foldl editOrder o)⟩ } ∧
        t.ports = answeredWith .gateway 0x05 [] .ok (bytes16 (g.rev + 1).toNat)
          (some ⟨.order, n.val, 0, g.rev + 1,
            one 0x00 (some (g.rev + 1).toNat) ++ orderFields (some ((edits g).foldl editOrder o))⟩) s) ∧
  (∀ (g : Staged) (s : State), (s.port .gateway).stage = some g → (∃ f ∈ g.fields, f.edited = true) → g.subIndex = 0 →
      (g.kind = .constants → g.index = 0 → s.mode = .config → s.setup.constantsRev = g.rev →
        if zonesInOrder ((edits g).foldl editConstants s.setup.constants) = true then
          ∃ t : State, exec (.update .gateway []) s = .next t ∧ Keeps [.setup, .ports] s t ∧
            t.setup = { s.setup with constants := (edits g).foldl editConstants s.setup.constants,
                                     constantsRev := g.rev + 1 } ∧
            t.ports = answeredWith .gateway 0x05 [] .ok (bytes16 (g.rev + 1).toNat)
              (some ⟨.constants, 0, 0, g.rev + 1, one 0x00 (some (g.rev + 1).toNat) ++
                constantsFields ((edits g).foldl editConstants s.setup.constants)⟩) s
        else exec (.update .gateway []) s = .next (refused .gateway 0x05 [] .arg [] s)) ∧
      ∀ n : Fin 8, g.kind = .fabric → g.index = n.val → (s.setup.fabrics.get n).rev = g.rev →
        if ((edits g).foldl editFabric (s.setup.fabrics.get n).cls).valid = true ∧
            fabricInRange ((edits g).foldl editFabric (s.setup.fabrics.get n).cls) = false then
          exec (.update .gateway []) s = .next (refused .gateway 0x05 [] .arg [] s)
        else
          ∃ t : State, exec (.update .gateway []) s = .next t ∧ Keeps [.setup, .ports] s t ∧
            t.setup = { s.setup with
              fabrics := s.setup.fabrics.set n ⟨(edits g).foldl editFabric (s.setup.fabrics.get n).cls, g.rev + 1⟩ } ∧
            t.ports = answeredWith .gateway 0x05 [] .ok (bytes16 (g.rev + 1).toNat)
              (some ⟨.fabric, n.val, 0, g.rev + 1, one 0x00 (some (g.rev + 1).toNat) ++
                fabricFields ((edits g).foldl editFabric (s.setup.fabrics.get n).cls)⟩) s) ∧
  (∀ (p : Port) (s : State),
      ((s.port p).stage = none → exec (.update p []) s = .next (refused p 0x05 [] .state [] s)) ∧
      ∀ g : Staged, (s.port p).stage = some g →
        ((∀ f ∈ g.fields, f.edited = false) → exec (.update p []) s = .next (refused p 0x05 [] .state [] s)) ∧
        ((∃ f ∈ g.fields, f.edited = true) →
          ((p ≠ .gateway ∨ g.kind ∉ [Kind.order, .fabric, .constants]) →
            exec (.update p []) s = .next (refused p 0x05 [] .role [] s)) ∧
          (p = .gateway → (g.kind = .order ∧ s.mode = .config ∨ g.kind = .constants ∧ s.mode ≠ .config) →
            exec (.update p []) s = .next (refused p 0x05 [] .mode [] s)) ∧
          ∀ r : LiveRecord, p = .gateway → (g.kind = .order ∧ s.mode ≠ .config ∨ g.kind = .fabric ∨
              g.kind = .constants ∧ s.mode = .config) → liveRecord s g.kind g.index g.subIndex = some r →
            (r.rev ≠ g.rev → exec (.update p []) s = .next (refused p 0x05 [] .stale [] s)) ∧
            (r.rev = g.rev → g.kind = .order → r.occupied = false →
              exec (.update p []) s = .next (refused p 0x05 [] .state [] s))))

/-! ### Notices and attention (chapter 10) -/

/-- R151: a raised source is pending on its port; with its enable on, its group's flag is pending too; nothing else of the
notice unit changes. -/
def Obligations.RaiseSetsFlags : Prop :=
  ∀ (p : Port) (x : Source) (k : Nat) (s : State), sourceNo p x = some k →
    ((raise p x s).notice p).pending.getLsbD k = true ∧
    (∀ n : Nat, n ≠ k → ((raise p x s).notice p).pending.getLsbD n = (s.notice p).pending.getLsbD n) ∧
    ((raise p x s).notice p).enabled = (s.notice p).enabled ∧ ((raise p x s).notice p).armed = (s.notice p).armed ∧
    (∀ g : Nat, ((raise p x s).notice p).groups.getLsbD g =
      ((s.notice p).groups.getLsbD g || ((s.notice p).enabled.getLsbD k && decide (g = groupOf p k)))) ∧
    (∀ q : Port, q ≠ p → (raise p x s).notice q = s.notice q)

/-- R152, R154: SERVICE reports each pending group with its pending sources, clears the group flags it reported, disarms the
port and keeps the source flags. CLEAR_NOTICES clears the pending flags it selects and no group flag; SET_ENABLES switches
one enable, and switching it on with its source pending sets the group flag; a source the port does not have is refused. -/
def Obligations.ServiceClearEnable : Prop :=
  (∀ (p : Port) (s : State), ∃ t : State, exec (.service p []) s = .next t ∧ Keeps [.notices, .ports] s t ∧
      t.ports = answered p 0x06 [] .ok
        ((List.range (portGroups p).length).flatMap fun g =>
          if (s.notice p).groups.getLsbD g then
            [BitVec.ofNat 8 g] ++ bytes16 ((s.notice p).pending &&& groupMask p g).toNat else []) s ∧
      (t.notice p).pending = (s.notice p).pending ∧ (t.notice p).enabled = (s.notice p).enabled ∧
      (t.notice p).armed = false ∧ (∀ g : Nat, g < (portGroups p).length → (t.notice p).groups.getLsbD g = false) ∧
      attention (t.notice p) = false ∧ ∀ q : Port, q ≠ p → t.notice q = s.notice q) ∧
  (∀ (p : Port) (s : State),
      (∀ sel : BitVec 16,
        if sel.toNat < 2 ^ sourceCount p then
          ∃ t : State, exec (.clearNotices p (bytes16 sel.toNat)) s = .next t ∧ Keeps [.notices, .ports] s t ∧
            t.notice p = { s.notice p with pending := (s.notice p).pending &&& ~~~ sel } ∧
            ∀ q : Port, q ≠ p → t.notice q = s.notice q
        else exec (.clearNotices p (bytes16 sel.toNat)) s = .next (refused p 0x08 (bytes16 sel.toNat) .arg [] s)) ∧
      ∀ (k : Nat) (on : Bool), k < 256 →
        if k < sourceCount p then
          ∃ t : State, exec (.setEnables p [BitVec.ofNat 8 k, if on then 1 else 0]) s = .next t ∧
            Keeps [.notices, .ports] s t ∧ (t.notice p).pending = (s.notice p).pending ∧
            (t.notice p).armed = (s.notice p).armed ∧
            (∀ n : Nat, (t.notice p).enabled.getLsbD n = if n = k then on else (s.notice p).enabled.getLsbD n) ∧
            (∀ g : Nat, (t.notice p).groups.getLsbD g =
              ((s.notice p).groups.getLsbD g || (on && (s.notice p).pending.getLsbD k && decide (g = groupOf p k)))) ∧
            ∀ q : Port, q ≠ p → t.notice q = s.notice q
        else exec (.setEnables p [BitVec.ofNat 8 k, if on then 1 else 0]) s =
          .next (refused p 0x09 [BitVec.ofNat 8 k, if on then 1 else 0] .arg [] s))

/-- R153: REARM arms the port, whose attention line is then asserted exactly when a group flag is pending; its answer is
OK and nothing else changes. -/
def Obligations.RearmArmsPort : Prop :=
  ∀ (p : Port) (s : State), ∃ t : State, exec (.rearm p []) s = .next t ∧ Keeps [.notices, .ports] s t ∧
    (t.port p).holder = ⟨0x07, .ok, []⟩ ∧ (t.port p).stage = (s.port p).stage ∧
    (∀ q : Port, q ≠ p → t.port q = s.port q) ∧ t.notice p = { s.notice p with armed := true } ∧
    (attention (t.notice p) = true ↔ (s.notice p).groups ≠ 0) ∧ ∀ q : Port, q ≠ p → t.notice q = s.notice q

/-! ### The order book (chapter 2) -/

/-- R25 to R27, Table 12-3: a placement whose fields lie in their ranges, of a number no live order has, goes into the
lowest-numbered FREE slot, OPEN with its counts 0 and the next placement sequence, and its slot number is answered; of a
number that a live order has it is refused with DUP, and with no FREE slot with FULL, in that order. -/
def Obligations.PlaceOrderTaken : Prop :=
  (∀ (number : BitVec 32) (priority : Priority) (due : BitVec 32) (lines : List LineItem) (k : Fin 64) (s : State),
      (s.mode = .run ∨ s.mode = .hold) → number ≠ 0 → 1 ≤ lines.length → lines.length ≤ 8 →
      (∀ l ∈ lines, lineAllowed s l) → (∀ (n : Fin 64) (o : Order), s.order? n = some o → o.number ≠ number) →
      s.order? k = none → (∀ n : Fin 64, n < k → (s.order? n).isSome = true) →
      ∃ t : State, exec (.placeOrder .gateway (orderBytes number priority due lines)) s = .next t ∧
        Keeps [.book, .ports] s t ∧
        t.book = ⟨s.book.slots.set k ⟨(s.book.slots.get k).rev + 1,
          some ⟨number, s.book.seq, priority, due, false, .open, lines⟩⟩, s.book.seq + 1⟩ ∧
        t.ports = answered .gateway 0x10 (orderBytes number priority due lines) .ok [BitVec.ofNat 8 k.val] s) ∧
  (∀ (number : BitVec 32) (priority : Priority) (due : BitVec 32) (lines : List LineItem) (s : State),
      (s.mode = .run ∨ s.mode = .hold) → number ≠ 0 → 1 ≤ lines.length → lines.length ≤ 8 →
      (∀ l ∈ lines, lineAllowed s l) →
      ((∃ (n : Fin 64) (o : Order), s.order? n = some o ∧ o.number = number) →
        exec (.placeOrder .gateway (orderBytes number priority due lines)) s =
          .next (refused .gateway 0x10 (orderBytes number priority due lines) .dup [] s)) ∧
      ((∀ n : Fin 64, ∃ o : Order, s.order? n = some o ∧ o.number ≠ number) →
        exec (.placeOrder .gateway (orderBytes number priority due lines)) s =
          .next (refused .gateway 0x10 (orderBytes number priority due lines) .full [] s)))

/-- R29, R30: the match of a blank is a candidate before which no other candidate comes, and there is none exactly when no
line is a candidate. -/
def Obligations.MatchIsFirstCandidate : Prop :=
  ∀ (s : State) (b : BitVec 24),
    (∀ (k : Fin 64) (j : Fin 8), matchBlank s b = some (k, j) →
      Candidate s b k j ∧ ∀ c : Fin 64 × Fin 8, Candidate s b c.1 c.2 → c = (k, j) ∨ Precedes s (k, j) c) ∧
    (matchBlank s b = none ↔ ∀ (k : Fin 64) (j : Fin 8), ¬ Candidate s b k j)

/-- R4, R6, R8, R31, R64: a LOAD_GARMENT that finds a line and a FREE slot creates the traveller in the lowest-numbered
FREE slot, on the platen at position 0, with its pretreat record by the pretreatment decision, binds it to the line, whose
in work rises by one while the order is IN_WORK, and answers slot, order number and line; with no candidate it is answered
NOMATCH, and with a candidate but no FREE traveller slot FULL. -/
def Obligations.LoadCreatesBoundTraveller : Prop :=
  (∀ (b : BitVec 24) (k : Fin 64) (j : Fin 8) (o : Order) (l : LineItem) (i : Fin 32) (s : State),
      s.mode = .run → s.holdsClaim .prep .load = true → s.slotAt 0 = none → matchBlank s b = some (k, j) →
      s.order? k = some o → o.lines[j.val]? = some l → s.trav? i = none → (∀ n : Fin 32, n < i → (s.trav? n).isSome = true) →
      TunnelConsistent s →
      ∃ t : State, exec (.loadGarment .prep (bytes24 b.toNat)) s = .next t ∧ Keeps [.book, .table, .ring, .ports] s t ∧
        t.book = { s.book with slots := s.book.slots.set k ⟨(s.book.slots.get k).rev + 1,
          some { o with state := .inWork, lines := o.lines.set j.val { l with inWork := l.inWork + 1 } }⟩ } ∧
        t.ring = { s.ring with carried := s.ring.carried.set (platenAt s.ring 0) (some i), revs := t.ring.revs } ∧
        (∀ n : Fin 32, n ≠ i → t.table.slots.get n = s.table.slots.get n) ∧
        (t.table.slots.get i).rev = (s.table.slots.get i).rev + 1 ∧
        (∃ v : Traveller, t.trav? i = some v ∧ v.serial = nextSerial s.table.serial (serialsInUse s) ∧
          t.table.serial = v.serial + 1 ∧ v.blank = b ∧ v.slot = k ∧ v.line = j ∧ v.orphan = false ∧ v.platen = some (platenAt s.ring 0) ∧
          v.stage = .loaded ∧ v.laps = 0 ∧ v.press = none ∧ v.print = none ∧ v.cure = none ∧ v.faults = [] ∧
          v.overflow = false ∧
          v.pretreat =
            (if 0 < l.coverage.w ∧ (s.fabricOf l).mode = .ifWhite then
              some ⟨l.width * l.height / 100 * (s.fabricOf l).density / 1000,
                (l.width * l.height / 100 * (s.fabricOf l).density / 1000 * 100 + s.constants.strokeMass - 1) /
                  s.constants.strokeMass, 0, none, none, none, 0, .needDry⟩
            else none)) ∧
        t.ports = answered .prep 0x28 (bytes24 b.toNat) .ok (bytes8 i.val ++ bytes32 o.number.toNat ++ bytes8 j.val) s) ∧
  (∀ (b : BitVec 24) (s : State), s.mode = .run → s.holdsClaim .prep .load = true → s.slotAt 0 = none →
      (matchBlank s b = none →
        exec (.loadGarment .prep (bytes24 b.toNat)) s = .next (refused .prep 0x28 (bytes24 b.toNat) .noMatch [] s)) ∧
      ((matchBlank s b).isSome = true → (∀ i : Fin 32, (s.trav? i).isSome = true) →
        exec (.loadGarment .prep (bytes24 b.toNat)) s = .next (refused .prep 0x28 (bytes24 b.toNat) .full [] s)))

/-- R37 to R39: cancelling an OPEN or COMPLETE order frees its slot at once; cancelling an IN_WORK order makes it
CANCELLING and marks every open traveller bound to it an orphan; releasing a COMPLETE order frees its slot and raises
ORDER_RELEASED. The order number names one live slot. -/
def Obligations.CancelAndReleaseOrder : Prop :=
  ∀ (k : Fin 64) (o : Order) (s : State), (s.mode = .run ∨ s.mode = .hold) → s.order? k = some o →
    (∀ (n : Fin 64) (q : Order), s.order? n = some q → q.number = o.number → n = k) →
    ((o.state = .open ∨ o.state = .complete) →
      ∃ t : State, exec (.cancelOrder .gateway (bytes32 o.number.toNat)) s = .next t ∧ Keeps [.book, .ports] s t ∧
        t.book = { s.book with slots := s.book.slots.set k ⟨(s.book.slots.get k).rev + 1, none⟩ } ∧
        t.ports = answered .gateway 0x11 (bytes32 o.number.toNat) .ok [0, 0] s) ∧
    (o.state = .inWork →
      ∃ t : State, exec (.cancelOrder .gateway (bytes32 o.number.toNat)) s = .next t ∧ Keeps [.book, .table, .ports] s t ∧
        t.book = ⟨s.book.slots.set k ⟨(s.book.slots.get k).rev + 1, some { o with state := .cancelling }⟩, s.book.seq⟩ ∧
        t.table.serial = s.table.serial ∧
        (∀ i : Fin 32, t.table.slots.get i = slotAfter (s.table.slots.get i)
          ((s.trav? i).map fun v => if v.slot = k then { v with orphan := true } else v)) ∧
        (t.port .gateway).holder = ⟨0x11, .ok, [1, BitVec.ofNat 8 (boundTo s k).length]⟩) ∧
    (o.state = .complete →
      ∃ t : State, exec (.releaseOrder .tunnel (bytes32 o.number.toNat)) s = .next t ∧
        Keeps [.book, .notices, .ports] s t ∧
        t.book = { s.book with slots := s.book.slots.set k ⟨(s.book.slots.get k).rev + 1, none⟩ } ∧
        t.notices = raisedIn [(.gateway, .orderReleased)] s.notices ∧
        t.ports = answered .tunnel 0x3C (bytes32 o.number.toNat) .ok [] s)

/-! ### Modes (chapter 11) -/

/-- R46, R112, R130, R156: a START that passes its checks aligns and empties the map, enters RUN, raises LOAD_READY, makes
the zones unknown and starts the sample timer, and sends each READY engine at its clean interval to CLEAN_DUE; its checks
in order, a platen number above 11, the first missing function, which is named, and no valid fabric class, refuse with ARG. -/
def Obligations.StartEntersRun : Prop :=
  (∀ (p : Fin 12) (s : State), s.mode = .config →
      (∀ f ∈ [LineFunction.indexPermit, .indexPulse, .home, .pumpStroke, .pumpFault, .beltEnc, .gaugeExcite, .gaugeOscFront],
        ∃ l : Fin 24, (s.lines.get l).function = f) →
      (∃ k : Fin 8, (s.setup.fabrics.get k).cls.valid = true) →
      ∃ t : State, exec (.start .gateway [BitVec.ofNat 8 p.val]) s = .next t ∧
        Keeps [.setup, .ring, .notices, .tunnel, .engines, .ports] s t ∧
        t.setup = { s.setup with mode := .run } ∧
        t.ring = { s.ring with load := p, carried := .fill none, synced := true, revs := t.ring.revs } ∧
        t.tunnel = { s.tunnel with zones := .fill none, staleTimer := none, sampleTimer := some s.constants.samplePeriod,
                                   rev := t.tunnel.rev } ∧
        (∀ e : Engine, t.engine e = engineAfter (s.engine e)
          (if (s.engine e).state = .ready ∧ s.constants.cleanInterval ≤ (s.engine e).prints then
            { s.engine e with state := .cleanDue } else s.engine e)) ∧
        (∀ q : Port, q ≠ .prep → (∀ e : Engine, q ≠ enginePort e) → t.notice q = s.notice q) ∧
        t.notice .prep = raiseSource .prep .loadReady (s.notice .prep) ∧
        (∀ e : Engine, t.notice (enginePort e) =
          if (s.engine e).state = .ready ∧ s.constants.cleanInterval ≤ (s.engine e).prints then
            raiseSource (enginePort e) .cleanDue (s.notice (enginePort e)) else s.notice (enginePort e)) ∧
        t.ports = answered .gateway 0x12 [BitVec.ofNat 8 p.val] .ok [] s) ∧
  (∀ (n : Nat) (s : State), n < 256 → s.mode = .config →
      (12 ≤ n → exec (.start .gateway [BitVec.ofNat 8 n]) s = .next (refused .gateway 0x12 [BitVec.ofNat 8 n] .arg [] s)) ∧
      (n < 12 → ∀ (before after : List LineFunction) (f : LineFunction),
        [LineFunction.indexPermit, .indexPulse, .home, .pumpStroke, .pumpFault, .beltEnc, .gaugeExcite, .gaugeOscFront] =
          before ++ f :: after →
        (∀ g ∈ before, s.assigned g = true) → s.assigned f = false →
        exec (.start .gateway [BitVec.ofNat 8 n]) s =
          .next (refused .gateway 0x12 [BitVec.ofNat 8 n] .arg [BitVec.ofNat 8 (functionCode f)] s)) ∧
      (n < 12 →
        (∀ f ∈ [LineFunction.indexPermit, .indexPulse, .home, .pumpStroke, .pumpFault, .beltEnc, .gaugeExcite, .gaugeOscFront],
          s.assigned f = true) → (∀ k : Fin 8, (s.setup.fabrics.get k).cls.valid = false) →
        exec (.start .gateway [BitVec.ofNat 8 n]) s = .next (refused .gateway 0x12 [BitVec.ofNat 8 n] .arg [] s)))

/-- R62, R130, R157: STOP with no traveller open enters CONFIG, drops claims and lapse marks, stops the tunnel's timers
and makes its zones unknown; with a traveller open it is refused with BUSY. That a pass state or an awaiting entry would
become absent, in a state that no run reaches, follows Tables 4-1, 5-1 and 3-2 (log entry 18). -/
def Obligations.StopEntersConfig : Prop :=
  ∀ s : State, (s.mode = .run ∨ s.mode = .hold) →
    ((∀ i : Fin 32, s.trav? i = none) →
      ∃ t : State, exec (.stop .gateway []) s = .next t ∧ Keeps [.setup, .ring, .pre, .gauge, .tunnel, .ports] s t ∧
        t.setup = { s.setup with mode := .config } ∧
        t.ring = { s.ring with claims := .fill none, awaiting := .fill none, lapse := .fill none, revs := t.ring.revs } ∧
        t.pre = { s.pre with pass := none } ∧ t.gauge = { s.gauge with pass := none } ∧
        t.tunnel = { s.tunnel with zones := .fill none, staleTimer := none, sampleTimer := none, rev := t.tunnel.rev } ∧
        t.permit = false ∧ t.ports = answered .gateway 0x13 [] .ok [] s) ∧
    ((∃ i : Fin 32, (s.trav? i).isSome = true) →
      exec (.stop .gateway []) s = .next (refused .gateway 0x13 [] .busy [] s))

/-- R73, R90, R158: a HOLD taken in RUN with no pass in flight enters HOLD and raises HOLD_ENTERED for all five ports; taken in
HOLD it changes nothing. In HOLD every function output but FAULT_OUT shows its inactive level. With a spray pass in flight
it first stops the pass: the strokes counted are kept, the traveller takes GAUGE_ABORTED, and PASS_FAULT is raised; so with a
gauge pass, whose counts the GAUGE record takes with end ABORTED. -/
def Obligations.HoldEntersHold : Prop :=
  (∀ s : State,
      (s.mode = .run → s.passInFlight = false →
        ∃ t : State, exec (.hold .gateway []) s = .next t ∧ Keeps [.setup, .notices, .ports] s t ∧
          t.setup = { s.setup with mode := .hold } ∧
          t.notices = raisedIn [(.gateway, .holdEntered), (.prep, .holdEntered), (.engineA, .holdEntered),
            (.engineB, .holdEntered), (.tunnel, .holdEntered)] s.notices ∧
          t.ports = answered .gateway 0x14 [] .ok [] s ∧
          t.outputLevel .indexPermit = some false ∧ t.outputLevel .pumpStroke = some false ∧
          t.outputLevel .gaugeExcite = some false ∧ t.outputLevel .faultOut = some true) ∧
      (s.mode = .hold → exec (.hold .gateway []) s = .next (refused .gateway 0x14 [] .ok [] s))) ∧
  (∀ (p : SprayPass) (v : Traveller) (r : Pretreat) (s : State), s.mode = .run → s.pre.pass = some p →
      s.trav? p.trav = some v → v.pretreat = some r →
      ∃ t : State, exec (.hold .gateway []) s = .next t ∧ Keeps [.setup, .table, .pre, .notices, .ports] s t ∧
        t.setup = { s.setup with mode := .hold } ∧ t.pre = { s.pre with pass := none } ∧
        t.table = tableAfter p.trav
          (some (addFault .gaugeAborted { v with pretreat := some { r with delivered := r.delivered + s.pre.strokes } })) s ∧
        t.notices = raisedIn [(.prep, .passFault), (.gateway, .holdEntered), (.prep, .holdEntered), (.engineA, .holdEntered),
            (.engineB, .holdEntered), (.tunnel, .holdEntered)] s.notices) ∧
  (∀ (p : GaugePass) (v : Traveller) (x : LastPass) (s : State), s.mode = .run → s.pre.pass = none →
      s.gauge.pass = some p → s.gauge.last = some x → s.trav? p.trav = some v →
      ∃ t : State, exec (.hold .gateway []) s = .next t ∧ Keeps [.setup, .table, .gauge, .notices, .ports] s t ∧
        t.setup = { s.setup with mode := .hold } ∧ t.table = tableAfter p.trav (some (addFault .gaugeAborted v)) s ∧
        t.gauge = { s.gauge with
          pass := none, last := some { x with ending := .aborted }, recEdges := s.gauge.edges,
          recTimebase := s.gauge.timebase, rev := s.gauge.rev + 1 } ∧
        t.notices = raisedIn [(.prep, .passFault), (.gateway, .holdEntered), (.prep, .holdEntered), (.engineA, .holdEntered),
            (.engineB, .holdEntered), (.tunnel, .holdEntered)] s.notices ∧
        t.ports = answered .gateway 0x14 [] .ok [] s)

/-- R7, R58 to R60, R100, R101, R107, R159: a platen number above 11 refuses RESUME with ARG. With no traveller on the ring, a
RESUME that gives the map's own load platen enters RUN, keeps claims and awaiting entries, clears the lapse marks, marks the
map SYNCED, raises LOAD_READY, and advances every RING record; one that gives another platen also drops every claim and
awaiting entry, sets the load platen and raises FORCED_INDEX for the four station ports. With travellers on the ring: at the
map's own load platen each keeps its state, but that a LOADED one whose platen is away from position 0 leaves LOADED; at
another, each affected one takes FORCED_INDEX, a PRINTING one becomes REJECT_PENDING, an ASSIGNED one returns to
READY_TO_PRINT, the LOADED ones away from position 0 leave LOADED, and every engine is settled, with CLEAN_DUE raised at the
clean interval. Then each READY engine attempts to assign the READY_TO_PRINT traveller at its position; an engine with none
there stands as it is. -/
def Obligations.ResumeRealignsRing : Prop :=
  (∀ s : State, s.mode = .hold → (∀ p : Fin 12, s.ring.carried.get p = none) →
      ∃ t : State, exec (.resume .gateway [BitVec.ofNat 8 s.ring.load.val]) s = .next t ∧
        Keeps [.setup, .ring, .notices, .ports] s t ∧ t.setup = { s.setup with mode := .run } ∧
        t.ring = { s.ring with lapse := .fill none, synced := true, revs := .ofFn fun k => s.ring.revs.get k + 1 } ∧
        t.notices = raisedIn [(.prep, .loadReady)] s.notices ∧
        t.ports = answered .gateway 0x15 [BitVec.ofNat 8 s.ring.load.val] .ok [] s) ∧
  (∀ (p : Fin 12) (s : State), s.mode = .hold → p ≠ s.ring.load → (∀ q : Fin 12, s.ring.carried.get q = none) →
      s.passInFlight = false →
      ∃ t : State, exec (.resume .gateway [BitVec.ofNat 8 p.val]) s = .next t ∧
        Keeps [.setup, .ring, .notices, .ports] s t ∧ t.setup = { s.setup with mode := .run } ∧
        t.ring = { s.ring with load := p, synced := true, claims := .fill none, awaiting := .fill none, lapse := .fill none,
                               revs := .ofFn fun k => s.ring.revs.get k + 1 } ∧
        t.notices = raisedIn [(.prep, .forcedIndex), (.engineA, .forcedIndex), (.engineB, .forcedIndex),
          (.tunnel, .forcedIndex), (.prep, .loadReady)] s.notices ∧ t.permit = true) ∧
  (∀ (n : Nat) (s : State), n < 256 → 12 ≤ n → s.mode = .hold →
      exec (.resume .gateway [BitVec.ofNat 8 n]) s = .next (refused .gateway 0x15 [BitVec.ofNat 8 n] .arg [] s)) ∧
  (∀ s : State, s.mode = .hold → CarriedConsistent s →
      ∃ t : State, exec (.resume .gateway [BitVec.ofNat 8 s.ring.load.val]) s = .next t ∧
        Keeps [.setup, .ring, .table, .engines, .notices, .ports] s t ∧ t.setup = { s.setup with mode := .run } ∧
        t.ring = { s.ring with lapse := .fill none, synced := true, awaiting := t.ring.awaiting,
                               revs := .ofFn fun k => s.ring.revs.get k + 1 } ∧
        (∀ (i : Fin 32) (v w : Traveller), s.trav? i = some v →
          w = (if v.stage = .loaded ∧ v.platen ≠ none ∧ v.platen ≠ some s.ring.load then
            { v with stage := if v.pretreat.isSome then .pretreat else .readyToPrint } else v) →
          (¬ atPrint s.ring.load w → t.table.slots.get i = slotAfter (s.table.slots.get i) (some w)) ∧
          ∀ (e : Engine) (l : LineItem), w.stage = .readyToPrint →
            w.platen = some (platenAt s.ring (stationPos (engineStation e))) → s.awaitingAt e = none →
            (s.engine e).state = .ready → s.line? v.slot v.line = some l →
            Attempted s t e (s.engine e) i w (platenAt s.ring (stationPos (engineStation e))) l) ∧
        ∀ e : Engine, ((s.awaitingAt e).isSome = true ∨ (s.engine e).state ≠ .ready ∨
            ∀ (i : Fin 32) (v : Traveller), s.trav? i = some v →
              v.platen = some (platenAt s.ring (stationPos (engineStation e))) →
              v.stage ≠ .readyToPrint ∧ (v.stage = .loaded → v.pretreat.isSome = true)) →
          t.awaitingAt e = s.awaitingAt e ∧ t.engine e = s.engine e) ∧
  (∀ (p : Fin 12) (s : State), s.mode = .hold → p ≠ s.ring.load → FloorConsistent s →
      ∃ t : State, exec (.resume .gateway [BitVec.ofNat 8 p.val]) s = .next t ∧
        Keeps [.setup, .ring, .table, .engines, .notices, .ports] s t ∧ t.setup = { s.setup with mode := .run } ∧
        t.ring = { s.ring with load := p, synced := true, claims := .fill none, lapse := .fill none,
                               awaiting := t.ring.awaiting, revs := .ofFn fun k => s.ring.revs.get k + 1 } ∧
        (∀ q ∈ [Port.prep, .engineA, .engineB, .tunnel], isPending t q .forcedIndex) ∧
        (∀ (i : Fin 32) (v f : Traveller), s.trav? i = some v → (Touched s i → f = addFault .forcedIndex v) →
          (¬ Touched s i → f = v) →
          (¬ atPrint p (realigned p f) →
            t.table.slots.get i = slotAfter (s.table.slots.get i) (some (realigned p f))) ∧
          ∀ (e : Engine) (l : LineItem), (realigned p f).stage = .readyToPrint →
            f.platen = some (p - stationPos (engineStation e)) →
            (settledRec s.constants (s.engine e)).state = .ready → s.line? v.slot v.line = some l →
            Attempted s t e (settledRec s.constants (s.engine e)) i (realigned p f)
              (p - stationPos (engineStation e)) l) ∧
        ∀ e : Engine,
          (((settledRec s.constants (s.engine e)).state ≠ .ready ∨
              ∀ (i : Fin 32) (v : Traveller), s.trav? i = some v → v.platen = some (p - stationPos (engineStation e)) →
                (realigned p v).stage ≠ .readyToPrint) →
            t.awaitingAt e = none ∧ t.engine e = engineAfter (s.engine e) (settledRec s.constants (s.engine e))) ∧
          (((s.engine e).state = .assigned ∨ (s.engine e).state = .printing) →
            (settledRec s.constants (s.engine e)).state = .cleanDue → isPending t (enginePort e) .cleanDue))

/-- R17, R18, R20, R33, R40, R43, R62, R73, R90, R113, R129, R160: LINE_RESET, in every mode, stops the pass in flight, leaves no
traveller open, no garment on the ring or in the tunnel, no claim, awaiting entry, lapse mark or reservation, and returns an
ASSIGNED or PRINTING engine to READY; mode, constants, lines, ink, prints, encoder, zones and timers stand. One LOST entry per
traveller joins the exit list in slot order, with its first fault, that of the stopped pass among them, and with its binding
unless it is an orphan. With the order book consistent: of every order produced, reprints, hold, priority, due key and sequence
stand, every line's in work is 0, an IN_WORK order is OPEN, a CANCELLING one is freed with ORDER_CANCEL_DONE, and each slot's
revision advances once for each closure and once more when freed. The answer is the number of travellers closed. -/
def Obligations.LineResetClearsTheLine : Prop :=
  ∀ s : State, PassGuarded s → s.exits.length ≤ 8 → ∃ t : State, exec (.lineReset .gateway []) s = .next t ∧
    (∀ i : Fin 32, t.trav? i = none ∧ t.table.slots.get i = slotAfter (s.table.slots.get i) none) ∧
    (∀ p : Fin 12, t.ring.carried.get p = none) ∧ t.tunnel.queue = [] ∧
    (∀ st : Station, t.claimAt st = none) ∧ (∀ e : Engine, t.awaitingAt e = none ∧ t.lapseAt e = none) ∧
    t.passInFlight = false ∧ t.permit = decide (s.mode = .run) ∧
    t.ring = { s.ring with
      carried := .fill none, claims := .fill none, awaiting := .fill none, lapse := .fill none, revs := t.ring.revs } ∧
    t.pre = { s.pre with pass := none } ∧
    t.gauge = (if s.gauge.pass = none then s.gauge else { s.gauge with
      pass := none, last := s.gauge.last.map fun x => { x with ending := .aborted }, recEdges := s.gauge.edges,
      recTimebase := s.gauge.timebase, rev := s.gauge.rev + 1 }) ∧
    t.tunnel = { s.tunnel with queue := [], rev := if s.tunnel.queue = [] then s.tunnel.rev else s.tunnel.rev + 1 } ∧
    (∀ e : Engine, (t.engine e).reserved = .zero ∧ (t.engine e).current = none ∧
      (t.engine e).level = (s.engine e).level ∧ (t.engine e).prints = (s.engine e).prints ∧
      (t.engine e).state =
        (if (s.engine e).state = .assigned ∨ (s.engine e).state = .printing then .ready else (s.engine e).state) ∧
      t.engine e = engineAfter (s.engine e) { s.engine e with
        state := if (s.engine e).state = .assigned ∨ (s.engine e).state = .printing then .ready else (s.engine e).state,
        current := none, reserved := .zero }) ∧
    t.setup = s.setup ∧ t.lines = s.lines ∧ t.table.serial = s.table.serial ∧ t.book.seq = s.book.seq ∧
    t.ring.load = s.ring.load ∧ t.ring.synced = s.ring.synced ∧ t.tunnel.encoder = s.tunnel.encoder ∧
    t.tunnel.zones = s.tunnel.zones ∧ t.tunnel.staleTimer = s.tunnel.staleTimer ∧
    t.tunnel.sampleTimer = s.tunnel.sampleTimer ∧ Keeps [.book, .table, .exits, .ring, .pre, .gauge, .engines, .tunnel, .ports,
      .notices] s t ∧
    (∃ lost : List ExitEntry,
      lost.map (·.serial) = (openSlots s).filterMap (fun i => (s.trav? i).map (·.serial)) ∧
      (∀ x ∈ lost, x.disposition = .lost ∧ x.verdict = none) ∧
      lost.map (·.fault) = (openSlots s).filterMap (fun i => (s.trav? i).map fun v =>
        if v.faults = [] ∧ (s.pre.pass.map (·.trav) = some i ∨ s.gauge.pass.map (·.trav) = some i) then some .gaugeAborted
        else v.faults.head?) ∧
      (BookConsistent s → lost.map (·.binding) = (openSlots s).filterMap (fun i => (s.trav? i).map fun v =>
        if v.orphan = true then none else (s.order? v.slot).map fun o => (o.number, v.line))) ∧
      t.exits = (s.exits ++ lost).drop (s.exits.length + lost.length - 8)) ∧
    (BookConsistent s →
      (∀ k : Fin 64, s.order? k = none → t.book.slots.get k = s.book.slots.get k) ∧
      (∀ (k : Fin 64) (o : Order), s.order? k = some o → t.book.slots.get k =
        if o.state = .cancelling then ⟨(s.book.slots.get k).rev + BitVec.ofNat 16 (boundTo s k).length + 1, none⟩
        else ⟨(s.book.slots.get k).rev + BitVec.ofNat 16 (boundTo s k).length, some { o with
          lines := o.lines.map fun l => { l with inWork := 0 },
          state := if o.state = .complete then .complete else .open }⟩) ∧
      ∀ cancelled : Bool, (cancelled = true ↔ ∃ (k : Fin 64) (o : Order), s.order? k = some o ∧ o.state = .cancelling) →
        t.notices = raisedIn ((if s.passInFlight = true then [(.prep, .passFault)] else []) ++
          (if cancelled = true then [(.gateway, .orderCancelDone)] else []) ++
          (if openSlots s = [] then [] else [(.tunnel, .exitReady)]) ++
          (if 8 < s.exits.length + (openSlots s).length then [(.tunnel, .exitOverrun)] else [])) s.notices) ∧
    t.ports = answered .gateway 0x16 [] .ok [BitVec.ofNat 8 (openSlots s).length] s

/-! ### Discrete lines (chapter 8) -/

/-- R71, R132: LINE_ASSIGN in CONFIG gives the line the function, takes it from any other line, and changes nothing else of
any line; a line that gains PUMP_FAULT gives the latch its filtered level, and the latch is clear with no such line. That
the level is the one after the assignment is the model's choice (log entry 24). -/
def Obligations.LineAssignMovesFunction : Prop :=
  ∀ (n : Fin 24) (f : LineFunction) (s : State), s.mode = .config →
    ∃ t : State, exec (.lineAssign .gateway [BitVec.ofNat 8 n.val, BitVec.ofNat 8 (functionCode f)]) s = .next t ∧
      Keeps [.lines, .pre, .ports] s t ∧
      (∀ k : Fin 24, t.lines.get k =
        { s.lines.get k with function :=
            if k = n then f else if f ≠ .none ∧ (s.lines.get k).function = f then .none else (s.lines.get k).function }) ∧
      t.pre.pass = s.pre.pass ∧ t.pre.strokes = s.pre.strokes ∧
      (f = .pumpFault → (s.lines.get n).function ≠ .pumpFault → t.pre.pumpFault = t.filteredLevel n) ∧
      ((∀ k : Fin 24, (t.lines.get k).function ≠ .pumpFault) → t.pre.pumpFault = false) ∧
      (f ≠ .pumpFault → (∃ k : Fin 24, (t.lines.get k).function = .pumpFault) → t.pre.pumpFault = s.pre.pumpFault)

/-- R133 to R136: LINE_CONFIG stores direction, drive and filter, in every mode for a line with function NONE and in CONFIG for
a line with a function, which in RUN and HOLD is refused with MODE. The filtered level stands; a filter of 0 lets it follow
the pin at once, and on a line with a function that change is an edge of the function (log entry 8): in CONFIG, with no pass
in flight and no garment in the tunnel, PUMP_FAULT takes it into the latch and BELT_ENC counts a rise. LINE_SET writes the
level of every selected line, LINE_TOGGLE inverts it on the selected general outputs alone, LINE_READ answers every filtered
level and function and changes nothing. -/
def Obligations.LineSettings : Prop :=
  (∀ (n : Fin 24) (d : Bool) (v : Bool) (s : State),
      (((s.lines.get n).function = .none ∨ s.mode = .config) →
        (∀ f ∈ [(1, Filter.us1), (4, Filter.us4), (16, Filter.us16)], ∃ t : State,
          exec (.lineConfig .gateway [BitVec.ofNat 8 n.val, if d then 1 else 0, if v then 1 else 0, BitVec.ofNat 8 f.1]) s =
            .next t ∧ Keeps [.lines, .ports] s t ∧
          t.lines = s.lines.set n { s.lines.get n with
            direction := if d then .outward else .inward, drive := if v then .strong else .standard, filter := f.2,
            filtered := s.filteredLevel n } ∧ t.filteredLevel n = s.filteredLevel n ∧
          t.ports = answered .gateway 0x19
            [BitVec.ofNat 8 n.val, if d then 1 else 0, if v then 1 else 0, BitVec.ofNat 8 f.1] .ok [] s) ∧
        ((s.lines.get n).function = .none → ∃ t : State,
          exec (.lineConfig .gateway [BitVec.ofNat 8 n.val, if d then 1 else 0, if v then 1 else 0, 0]) s = .next t ∧
          Keeps [.lines, .ports] s t ∧
          t.lines = s.lines.set n { s.lines.get n with
            direction := if d then .outward else .inward, drive := if v then .strong else .standard, filter := .us0,
            filtered := t.filteredLevel n } ∧ t.filteredLevel n = t.pinLevel n ∧
          t.ports = answered .gateway 0x19 [BitVec.ofNat 8 n.val, if d then 1 else 0, if v then 1 else 0, 0] .ok [] s)) ∧
      ((s.lines.get n).function ≠ .none → s.mode = .config → s.passInFlight = false → s.tunnel.queue = [] → ∃ t : State,
        exec (.lineConfig .gateway [BitVec.ofNat 8 n.val, if d then 1 else 0, if v then 1 else 0, 0]) s = .next t ∧
        Keeps [.lines, .pre, .tunnel, .ports] s t ∧
        t.lines = s.lines.set n { s.lines.get n with
          direction := if d then .outward else .inward, drive := if v then .strong else .standard, filter := .us0,
          filtered := s.pinLevel n } ∧ t.filteredLevel n = s.pinLevel n ∧
        t.pre = (if (s.lines.get n).function = .pumpFault ∧ s.pinLevel n ≠ s.filteredLevel n then
          { s.pre with pumpFault := s.pinLevel n } else s.pre) ∧
        t.tunnel = (if (s.lines.get n).function = .beltEnc ∧ s.filteredLevel n = false ∧ s.pinLevel n = true then
          { s.tunnel with encoder := s.tunnel.encoder + 1 } else s.tunnel) ∧
        t.ports = answered .gateway 0x19 [BitVec.ofNat 8 n.val, if d then 1 else 0, if v then 1 else 0, 0] .ok [] s) ∧
      ((s.lines.get n).function ≠ .none → s.mode ≠ .config → ∀ f ∈ [0, 1, 4, 16],
        exec (.lineConfig .gateway [BitVec.ofNat 8 n.val, if d then 1 else 0, if v then 1 else 0, BitVec.ofNat 8 f]) s =
          .next (refused .gateway 0x19
            [BitVec.ofNat 8 n.val, if d then 1 else 0, if v then 1 else 0, BitVec.ofNat 8 f] .mode [] s))) ∧
  (∀ (sel levels : BitVec 24) (s : State),
      (∃ t : State, exec (.lineSet .gateway (bytes24 sel.toNat ++ bytes24 levels.toNat)) s = .next t ∧
        Keeps [.lines, .ports] s t ∧
        t.ports = answered .gateway 0x1A (bytes24 sel.toNat ++ bytes24 levels.toNat) .ok [] s ∧
        ∀ k : Fin 24, t.lines.get k =
          { s.lines.get k with level := if sel.getLsbD k.val then levels.getLsbD k.val else (s.lines.get k).level }) ∧
      (∃ t : State, exec (.lineToggle .gateway (bytes24 sel.toNat)) s = .next t ∧ Keeps [.lines, .ports] s t ∧
        t.ports = answered .gateway 0x1B (bytes24 sel.toNat) .ok [] s ∧
        ∀ k : Fin 24, t.lines.get k =
          { s.lines.get k with level :=
              (if sel.getLsbD k.val = true ∧ (s.lines.get k).function = .none ∧ (s.lines.get k).direction = .outward then
                !(s.lines.get k).level else (s.lines.get k).level) }) ∧
      ∃ (t : State) (levels' : BitVec 24), exec (.lineRead .gateway []) s = .next t ∧ Keeps [.ports] s t ∧
        (∀ k : Fin 24, levels'.getLsbD k.val = s.filteredLevel k) ∧
        t.ports = answered .gateway 0x1C [] .ok
          (bytes24 levels'.toNat ++ (List.finRange 24).map fun k => BitVec.ofNat 8 (functionCode (s.functionAt k))) s)

/-- R135: a filtered edge of an input line reaches the block that owns its function: the event of the line is the event
of the block. With a filter of 0 the pin change itself is that edge. A pin change on a line with a filter moves no
filtered level; the filtered level of a line with function NONE or HOME follows the pin at its filtered edge and
nothing else moves. That the filter time is not counted, and that an event row is the edge of the line, are the model's
choices (log entries 6 and 8). -/
def Obligations.FilteredEdgesReachTheirBlock : Prop :=
  (∀ (l : Fin 24) (f : LineFunction) (level : Bool) (c : Instr) (s : State),
      (f, level, c) ∈ [(LineFunction.indexPulse, true, Instr.index), (.pumpFault, true, .pumpFault),
        (.pumpFault, false, .pumpFaultClear), (.beltEnc, true, .encoderPulse), (.gaugeOscFront, true, .gaugeOscEdge .front),
        (.gaugeOscBack, true, .gaugeOscEdge .back)] →
      s.lineOf f = some l →
      ((s.lines.get l).filter ≠ .us0 → (s.lines.get l).outside = level → (s.lines.get l).filtered = !level →
        exec (.lineFilteredEdge l) s = exec c s) ∧
      ((s.lines.get l).filter = .us0 → (s.lines.get l).outside = !level → exec (.pinChange l level) s = exec c s)) ∧
  (∀ (l : Fin 24) (level : Bool) (s : State),
      ((s.lines.get l).filter ≠ .us0 → ∃ t : State, exec (.pinChange l level) s = .next t ∧ Keeps [.lines] s t ∧
        t.lines = s.lines.set l { s.lines.get l with outside := level } ∧ t.filteredLevel l = s.filteredLevel l) ∧
      (((s.lines.get l).function = .none ∨ (s.lines.get l).function = .home) → (s.lines.get l).filter ≠ .us0 →
        ∃ t : State, exec (.lineFilteredEdge l) s = .next t ∧ Keeps [.lines] s t ∧
          t.lines = s.lines.set l { s.lines.get l with filtered := s.pinLevel l } ∧ t.filteredLevel l = s.pinLevel l))

/-! ### The platen ring (chapter 3) -/

/-- R52, R131, R137: INDEX_PERMIT is on exactly in RUN with no claim, no awaiting assignment and no pass; a general output
drives its level, a general input and a line with an input function are undriven, and a line with an output function drives
what its block asks for, in HOLD the safe level. -/
def Obligations.PermitAndLineLevels : Prop :=
  (∀ s : State, s.permit = true ↔
      s.mode = .run ∧ (∀ st : Station, s.claimAt st = none) ∧ (∀ e : Engine, s.awaitingAt e = none) ∧
        s.pre.pass = none ∧ s.gauge.pass = none) ∧
  (∀ (l : Fin 24) (s : State),
      ((s.lines.get l).function = .none →
        s.driven l = if (s.lines.get l).direction = .outward then some (s.lines.get l).level else none) ∧
      (isInput (s.lines.get l).function = true → s.driven l = none ∧ s.pinLevel l = (s.lines.get l).outside) ∧
      ((s.lines.get l).function = .indexPermit → s.driven l = some s.permit) ∧
      ((s.lines.get l).function = .pumpStroke → s.mode ≠ .hold →
        s.driven l = some (match s.pre.pass with | some p => decide (p.phase = .active) | none => false)) ∧
      ((s.lines.get l).function = .gaugeExcite → s.mode ≠ .hold → s.driven l = some s.gauge.pass.isSome) ∧
      ((s.lines.get l).function = .faultOut → s.driven l = some (decide (s.mode = .hold))) ∧
      (s.mode = .hold → ((s.lines.get l).function = .pumpStroke ∨ (s.lines.get l).function = .gaugeExcite) →
        s.driven l = some false))

/-- R48, R50: a CLAIM of PREP or TUNNEL on the platen that stands at its own unclaimed station is taken, whatever the platen
carries, and the permit is off; RELEASE drops the claim, but with BUSY at position 2 under a pass and with STATE where no
claim is held. -/
def Obligations.StationClaimAndRelease : Prop :=
  (∀ (p : Port) (st : Station) (s : State), (p = .prep ∨ p = .tunnel) → stationPort st = p →
      (s.mode = .run ∨ s.mode = .hold) → s.claimAt st = none →
      ∃ t : State, exec (.claim p [BitVec.ofNat 8 (stationPos st).val,
          BitVec.ofNat 8 (platenAt s.ring (stationPos st)).val]) s = .next t ∧ Keeps [.ring, .ports] s t ∧
        t.ring = { s.ring with
          claims := s.ring.claims.set (stationNo st) (some ⟨p, platenAt s.ring (stationPos st)⟩), revs := t.ring.revs } ∧
        t.permit = false ∧ (t.port p).holder = ⟨0x20, .ok, []⟩) ∧
  (∀ (p : Port) (st : Station) (s : State), (p = .prep ∨ p = .tunnel) → stationPort st = p →
      (s.mode = .run ∨ s.mode = .hold) →
      ((s.claimAt st).isSome = true → (st = .spray → s.passInFlight = false) →
        ∃ t : State, exec (.release p [BitVec.ofNat 8 (stationPos st).val]) s = .next t ∧ Keeps [.ring, .ports] s t ∧
          t.ring = { s.ring with claims := s.ring.claims.set (stationNo st) none, revs := t.ring.revs } ∧
          t.ports = answered p 0x21 [BitVec.ofNat 8 (stationPos st).val] .ok [] s) ∧
      (s.claimAt st = none → exec (.release p [BitVec.ofNat 8 (stationPos st).val]) s =
        .next (refused p 0x21 [BitVec.ofNat 8 (stationPos st).val] .state [] s)) ∧
      (st = .spray → (s.claimAt st).isSome = true → s.passInFlight = true →
        exec (.release p [BitVec.ofNat 8 (stationPos st).val]) s =
          .next (refused p 0x21 [BitVec.ofNat 8 (stationPos st).val] .busy [] s)))

/-- R48, R49, R102: an engine's CLAIM of the platen that awaits it is taken: the entry goes, the claim is recorded, engine and
traveller go to PRINTING, and the permit is off. A CLAIM is refused with ARG off the port's own stations or above platen 11,
with STATE on a claimed position or a platen that is not there, and an engine's with LAPSED after its window lapsed and with
STATE when nothing awaits it. -/
def Obligations.EngineClaimStartsPrint : Prop :=
  (∀ (e : Engine) (a : Awaiting) (v : Traveller) (s : State), (s.mode = .run ∨ s.mode = .hold) →
      s.claimAt (engineStation e) = none → s.awaitingAt e = some a →
      a.platen = platenAt s.ring (stationPos (engineStation e)) → s.trav? a.trav = some v →
      ∃ t : State, exec (.claim (enginePort e) [BitVec.ofNat 8 (stationPos (engineStation e)).val,
          BitVec.ofNat 8 a.platen.val]) s = .next t ∧ Keeps [.ring, .table, .engines, .ports] s t ∧
        t.ring = { s.ring with
          claims := s.ring.claims.set (stationNo (engineStation e)) (some ⟨enginePort e, a.platen⟩),
          awaiting := s.ring.awaiting.set (engineNo e) none, revs := t.ring.revs } ∧
        t.table = tableAfter a.trav (some { v with stage := .printing }) s ∧
        t.engines = enginesAfter e { s.engine e with state := .printing } s ∧ t.permit = false ∧
        (t.port (enginePort e)).holder = ⟨0x20, .ok, []⟩) ∧
  (∀ (p : Port) (k n : Nat) (s : State), k < 256 → n < 256 → p ≠ .gateway → (s.mode = .run ∨ s.mode = .hold) →
      (((∀ st : Station, stationPort st = p → (stationPos st).val ≠ k) ∨ 12 ≤ n) →
        exec (.claim p [BitVec.ofNat 8 k, BitVec.ofNat 8 n]) s =
          .next (refused p 0x20 [BitVec.ofNat 8 k, BitVec.ofNat 8 n] .arg [] s)) ∧
      ∀ st : Station, stationPort st = p → (stationPos st).val = k → n < 12 →
        (((s.claimAt st).isSome = true ∨ (platenAt s.ring (stationPos st)).val ≠ n) →
          exec (.claim p [BitVec.ofNat 8 k, BitVec.ofNat 8 n]) s =
            .next (refused p 0x20 [BitVec.ofNat 8 k, BitVec.ofNat 8 n] .state [] s)) ∧
        ∀ e : Engine, st = engineStation e → s.claimAt st = none → (platenAt s.ring (stationPos st)).val = n →
          s.awaitingAt e = none →
          exec (.claim p [BitVec.ofNat 8 k, BitVec.ofNat 8 n]) s =
            .next (refused p 0x20 [BitVec.ofNat 8 k, BitVec.ofNat 8 n]
              (if s.lapseAt e = some (platenAt s.ring (stationPos st)) then .lapsed else .state) [] s))

/-- R7, R53, R54, R56, R57: a permitted index whose home check agrees and that brings no READY_TO_PRINT garment to a
print position: every platen moves on with what it carries, every lapse mark is cleared, every RING record advances,
the garment that left the load position leaves LOADED, and the arrivals are reported. The one that left position 10 in
LOADED, PRETREAT, READY_TO_PRINT or ASSIGNED counts a lap, and at the lap limit becomes RETURN_PENDING with LAP_LIMIT. The index as
the edge of its line is the model's choice (log entry 6). -/
def Obligations.PermittedIndexMovesRing : Prop :=
  ∀ (l : Fin 24) (s : State), s.permit = true → s.lineOf .indexPulse = some l → CarriedConsistent s →
    homeLevel s = decide (s.ring.load + 1 = 0) →
    (∀ x ∈ [s.travAt 5, s.travAt 7], x.all (fun y => y.2.stage ≠ .readyToPrint) = true) →
    ∃ t : State, exec .index s = .next t ∧ Keeps [.lines, .ring, .table, .notices] s t ∧ t.lines = edged l true s ∧
      t.ring = { s.ring with load := s.ring.load + 1, lapse := .fill none,
                             revs := .ofFn fun k => s.ring.revs.get k + 1 } ∧
      t.table.serial = s.table.serial ∧
      (∀ i : Fin 32, t.table.slots.get i = slotAfter (s.table.slots.get i)
        ((s.trav? i).map fun v =>
          if s.slotAt 0 = some i then
            (if v.stage = .loaded then { v with stage := if v.pretreat.isSome then .pretreat else .readyToPrint } else v)
          else if s.slotAt 10 = some i ∧
              (v.stage = .loaded ∨ v.stage = .pretreat ∨ v.stage = .readyToPrint ∨ v.stage = .assigned) then
            (if v.laps + 1 = s.constants.lapLimit then { v with
              laps := v.laps + 1, stage := .returnPending,
              faults := if v.faults.length < 4 then v.faults ++ [.lapLimit] else v.faults,
              overflow := v.overflow || decide (4 ≤ v.faults.length) }
            else { v with laps := v.laps + 1 })
          else v)) ∧
      t.notices = raisedIn
        ((if s.slotAt 11 = none then [(.prep, .loadReady)] else []) ++
          (if (s.travAt 1).any (fun y => y.2.stage = .pretreat) then [(.prep, .atSpray)] else []) ++
          (if (s.travAt 3).any (fun y => y.2.stage = .pretreat ∧
              ∃ r ∈ y.2.pretreat, r.sub = .verified ∨ r.sub = .heavy ∨ r.sub = .ungauged) then [(.prep, .atPress)] else []) ++
          (if (s.slotAt 9).isSome then [(.tunnel, .atUnload)] else [])) s.notices

/-- R55, R158: an index whose home check disagrees leaves the map UNSYNCED and the part in HOLD with RING_SLIP raised
on all five ports, and HOLD_ENTERED too when it was in RUN. The index as the edge of its line is the model's choice
(log entry 6). -/
def Obligations.RingSlipEntersHold : Prop :=
  ∀ (l : Fin 24) (s : State), PassGuarded s → (s.mode = .run ∨ s.mode = .hold) → s.lineOf .indexPulse = some l →
    homeLevel s ≠ decide (s.ring.load + 1 = 0) →
    ∃ t : State, exec .index s = .next t ∧ t.mode = .hold ∧ t.ring.load = s.ring.load + 1 ∧ t.ring.synced = false ∧
      t.ring.carried = s.ring.carried ∧ t.passInFlight = false ∧
      ∀ p : Port, (∃ k : Nat, sourceNo p .ringSlip = some k ∧ (t.notice p).pending.getLsbD k = true) ∧
        (s.mode = .run → ∃ k : Nat, sourceNo p .holdEntered = some k ∧ (t.notice p).pending.getLsbD k = true)

/-- R14, R53, R54, R57 to R59, R73, R90, R100, R101, R107: a forced index drops every claim, stops the pass in flight, raises
FORCED_INDEX for the four station ports, and adds FORCED_INDEX once to each traveller whose platen was claimed, awaiting its
claim or under a pass, and to no other. The garment of a stopped pass takes GAUGE_ABORTED after it and keeps the strokes
counted, and PASS_FAULT is raised; a PRINTING one becomes REJECT_PENDING, its print record with result FAULT and no actuals; an
ASSIGNED one returns to READY_TO_PRINT without a print record. Then the garments move on as at any index. Every engine is
settled, with CLEAN_DUE raised at the clean interval, and stays so unless the ring, in RUN and agreeing with the home line,
brings a READY_TO_PRINT garment to a READY one, which attempts to assign it. The index as the edge of its line is the model's
choice (log entry 6). -/
def Obligations.ForcedIndexFaultsAffected : Prop :=
  ∀ (l : Fin 24) (s : State), FloorConsistent s → (s.mode = .run ∨ s.mode = .hold) → s.permit = false →
    s.lineOf .indexPulse = some l →
    ∃ t : State, exec .index s = .next t ∧ t.ring.load = s.ring.load + 1 ∧ t.ring.carried = s.ring.carried ∧
      (∀ st : Station, t.claimAt st = none) ∧ t.passInFlight = false ∧
      (∀ p ∈ [Port.prep, .engineA, .engineB, .tunnel],
        ∃ k : Nat, sourceNo p .forcedIndex = some k ∧ (t.notice p).pending.getLsbD k = true) ∧
      (∀ (i : Fin 32) (v : Traveller), s.trav? i = some v → v.faults.length < 4 → ∃ w : Traveller, t.trav? i = some w ∧
        (Touched s i → w.faults.count .forcedIndex = v.faults.count .forcedIndex + 1) ∧
        (¬ Touched s i → w.faults.count .forcedIndex = v.faults.count .forcedIndex) ∧
        (v.stage = .printing → w.stage = .rejectPending ∧
          w.print = v.print.map fun r => { r with result := .fault, actual := none }) ∧
        (v.stage = .assigned → w.stage = .readyToPrint ∧ w.print = none)) ∧
      t.pre = { s.pre with pass := none } ∧
      t.gauge = (if s.gauge.pass = none then s.gauge else { s.gauge with
        pass := none, last := s.gauge.last.map fun x => { x with ending := .aborted }, recEdges := s.gauge.edges,
        recTimebase := s.gauge.timebase, rev := s.gauge.rev + 1 }) ∧
      (s.passInFlight = true → isPending t .prep .passFault) ∧
      (∀ (i : Fin 32) (v f : Traveller), s.trav? i = some v → (Touched s i → f = addFault .forcedIndex v) →
        (¬ Touched s i → f = v) → ¬ arriving s v →
        t.table.slots.get i = slotAfter (s.table.slots.get i) (some (movedOn s i (interrupted s i f)))) ∧
      ∀ e : Engine,
        (((settledRec s.constants (s.engine e)).state ≠ .ready ∨ s.mode = .hold ∨
            homeLevel s ≠ decide (s.ring.load + 1 = 0) ∨
            ∀ (i : Fin 32) (v : Traveller), s.trav? i = some v →
              v.platen = some (platenAt s.ring (stationPos (engineStation e) - 1)) → v.stage ≠ .readyToPrint) →
          t.awaitingAt e = none ∧ t.engine e = engineAfter (s.engine e) (settledRec s.constants (s.engine e))) ∧
        (((s.engine e).state = .assigned ∨ (s.engine e).state = .printing) →
          (settledRec s.constants (s.engine e)).state = .cleanDue → isPending t (enginePort e) .cleanDue) ∧
        ∀ (i : Fin 32) (v : Traveller) (x : LineItem), (settledRec s.constants (s.engine e)).state = .ready →
          s.mode = .run → homeLevel s = decide (s.ring.load + 1 = 0) → s.trav? i = some v → v.stage = .readyToPrint →
          v.platen = some (platenAt s.ring (stationPos (engineStation e) - 1)) → s.line? v.slot v.line = some x →
          Attempted s t e (settledRec s.constants (s.engine e)) i v (platenAt s.ring (stationPos (engineStation e) - 1)) x

/-- R51, R103: at the expiry of a claim window the entry goes, the lapse mark names its platen, the assignment is
withdrawn from traveller and engine, ASSIGN_LAPSED joins the fault list and is raised; with no entry nothing happens.
That an expiry without its timer does nothing is the model's choice (log entry 10). -/
def Obligations.ClaimWindowExpiryWithdraws : Prop :=
  ∀ (e : Engine) (s : State),
    (∀ (a : Awaiting) (v : Traveller) (r : Print), s.awaitingAt e = some a → s.trav? a.trav = some v →
      v.print = some r → v.faults.length < 4 →
      ∃ t : State, exec (.claimWindowExpiry e) s = .next t ∧ Keeps [.ring, .table, .engines, .notices] s t ∧
        t.ring = { s.ring with awaiting := s.ring.awaiting.set (engineNo e) none,
                               lapse := s.ring.lapse.set (engineNo e) (some a.platen), revs := t.ring.revs } ∧
        t.table = tableAfter a.trav
          (some { v with stage := .readyToPrint, print := none, faults := v.faults ++ [.assignLapsed] }) s ∧
        t.engines = enginesAfter e { s.engine e with
          state := if (s.engine e).prints < s.constants.cleanInterval then .ready else .cleanDue, current := none,
          reserved := Inks.zip (· - ·) (s.engine e).reserved r.estimate } s ∧
        t.notices = raisedIn ((if (s.engine e).prints < s.constants.cleanInterval then []
          else [(enginePort e, .cleanDue)]) ++ [(enginePort e, .assignLapsed)]) s.notices) ∧
    (s.awaitingAt e = none → exec (.claimWindowExpiry e) s = .next s)

/-! ### Pretreatment and the press (chapter 4) -/

/-- R66 to R68, R75: a SPRAY that passes its checks with strokes owed starts a pass of exactly the strokes owed, with the
counter at 0 and the first stroke in its inactive half, and answers the pass count; the traveller is unchanged. With target
0 and no stroke owed it completes the metering at once, with measured deposit 0, SPRAY_DONE and pass count 0; the GAUGE
record stands (log entry 17). It is refused, its checks in order: STATE without the claim or without a PRETREAT traveller at
the booth, BUSY under a pass, STATE in any sub-state but NEED_DRY of an ungauged garment and DRY_DONE of a gauged one, or
under a pump fault. -/
def Obligations.SprayStartsPass : Prop :=
  (∀ (i : Fin 32) (v : Traveller) (r : Pretreat) (s : State), s.mode = .run → s.holdsClaim .prep .spray = true →
      s.travAt 2 = some (i, v) → v.stage = .pretreat → v.pretreat = some r → s.passInFlight = false →
      r.sub = (if (s.boundLine v).placement = .back ∧ s.assigned .gaugeOscBack = false then .needDry else .dryDone) →
      s.pre.pumpFault = false → r.delivered < r.commanded →
      ∃ t : State, exec (.spray .prep []) s = .next t ∧ Keeps [.pre, .ports] s t ∧
        t.pre = ⟨some ⟨i, r.commanded - r.delivered,
          decide ((s.boundLine v).placement = .back ∧ s.assigned .gaugeOscBack = false), .inactive,
          1000000 / s.constants.strokeRate⟩, 0, false⟩ ∧
        t.ports = answered .prep 0x2A [] .ok (bytes16 (r.commanded - r.delivered)) s) ∧
  (∀ (i : Fin 32) (v : Traveller) (r : Pretreat) (ung : Bool) (s : State), s.mode = .run →
      s.holdsClaim .prep .spray = true → s.travAt 2 = some (i, v) → v.stage = .pretreat → v.pretreat = some r →
      s.passInFlight = false → ung = decide ((s.boundLine v).placement = .back ∧ s.assigned .gaugeOscBack = false) →
      r.sub = (if ung then .needDry else .dryDone) → s.pre.pumpFault = false → r.target = 0 → r.commanded ≤ r.delivered →
      ∃ t : State, exec (.spray .prep []) s = .next t ∧ Keeps [.table, .notices, .ports] s t ∧
        t.table = tableAfter i (some { v with
          pretreat := some { r with measured := some 0, sub := if ung then .ungauged else .verified } }) s ∧
        t.notices = raisedIn [(.prep, .sprayDone)] s.notices ∧
        t.ports = answered .prep 0x2A [] .ok (bytes16 0) s) ∧
  (∀ s : State, s.mode = .run →
      (s.holdsClaim .prep .spray = false → exec (.spray .prep []) s = .next (refused .prep 0x2A [] .state [] s)) ∧
      (s.travAt 2 = none → exec (.spray .prep []) s = .next (refused .prep 0x2A [] .state [] s)) ∧
      ∀ (i : Fin 32) (v : Traveller), s.holdsClaim .prep .spray = true → s.travAt 2 = some (i, v) →
        (v.stage ≠ .pretreat → exec (.spray .prep []) s = .next (refused .prep 0x2A [] .state [] s)) ∧
        ∀ r : Pretreat, v.stage = .pretreat → v.pretreat = some r →
          (s.passInFlight = true → exec (.spray .prep []) s = .next (refused .prep 0x2A [] .busy [] s)) ∧
          (s.passInFlight = false → s.pre.pumpFault = true →
            exec (.spray .prep []) s = .next (refused .prep 0x2A [] .state [] s)) ∧
          (s.passInFlight = false →
            r.sub ≠ (if (s.boundLine v).placement = .back ∧ s.assigned .gaugeOscBack = false then .needDry else .dryDone) →
            exec (.spray .prep []) s = .next (refused .prep 0x2A [] .state [] s)))

/-- R68 to R70: a stroke's active half follows its inactive half; at its end the stroke is counted, and below the pass
count the next stroke begins, at the stroke rate in force. The stroke that reaches the pass count ends the pass: a
gauged garment is SPRAYED, an ungauged one takes its deposit by stroke count and is UNGAUGED, and SPRAY_DONE is raised.
That SPRAY_PASS_END is that last stroke, and the place of the stroke's half, are the model's choices (log entries 4 and
26). -/
def Obligations.StrokesAndTheirEnd : Prop :=
  (∀ (p : SprayPass) (s : State), s.pre.pass = some p →
      (p.phase = .inactive → ∃ t : State, exec .strokeActivePhase s = .next t ∧ Keeps [.pre] s t ∧
        t.pre = { s.pre with pass := some { p with phase := .active } }) ∧
      (p.phase = .active → s.pre.strokes + 1 < p.count → ∃ t : State, exec .strokeDelivered s = .next t ∧ Keeps [.pre] s t ∧
        t.pre = { s.pre with pass := some { p with phase := .inactive, period := 1000000 / s.constants.strokeRate },
                             strokes := s.pre.strokes + 1 })) ∧
  (∀ (p : SprayPass) (v : Traveller) (r : Pretreat) (s : State), s.pre.pass = some p → p.phase = .active →
      s.pre.strokes + 1 = p.count → s.trav? p.trav = some v → v.pretreat = some r →
      ∃ t : State, exec .sprayPassEnd s = .next t ∧ exec .strokeDelivered s = .next t ∧
        Keeps [.pre, .table, .notices] s t ∧ t.pre = { s.pre with pass := none, strokes := p.count } ∧
        t.table = tableAfter p.trav (some { v with pretreat := (some (if p.ungauged then
            { r with delivered := r.delivered + p.count, sub := .ungauged,
                     measured := some (min 4095 ((r.delivered + p.count) * s.constants.strokeMass / 100)) }
          else { r with delivered := r.delivered + p.count, sub := .sprayed })) }) s ∧
        t.notices = raisedIn [(.prep, .sprayDone)] s.notices)

/-- R71, R72: an active edge of PUMP_FAULT sets the latch and, while spraying, ends the pass with the strokes counted
kept, PUMP_FAULT added and PASS_FAULT raised; an inactive edge clears the latch. The event as the edge of its line is
the model's choice (log entry 6). -/
def Obligations.PumpFaultEndsSpray : Prop :=
  ∀ (l : Fin 24) (s : State), s.lineOf .pumpFault = some l →
    (s.pre.pass = none → ∃ t : State, exec .pumpFault s = .next t ∧ Keeps [.lines, .pre] s t ∧
      t.lines = edged l true s ∧ t.pre = { s.pre with pumpFault := true }) ∧
    (∀ (p : SprayPass) (v : Traveller) (r : Pretreat), s.pre.pass = some p → s.trav? p.trav = some v →
      v.pretreat = some r → v.faults.length < 4 →
      ∃ t : State, exec .pumpFault s = .next t ∧ Keeps [.lines, .pre, .table, .notices] s t ∧ t.lines = edged l true s ∧
        t.pre = ⟨none, s.pre.strokes, true⟩ ∧
        t.table = tableAfter p.trav (some { v with
          pretreat := some { r with delivered := r.delivered + s.pre.strokes }, faults := v.faults ++ [.pumpFault] }) s ∧
        t.notices = raisedIn [(.prep, .passFault)] s.notices) ∧
    ∃ t : State, exec .pumpFaultClear s = .next t ∧ Keeps [.lines, .pre] s t ∧ t.lines = edged l false s ∧
      t.pre = { s.pre with pumpFault := false }

/-- R76, R77: a PRESS_DONE that passes its checks stores the report with its verdict against the class's minimums: PRESSED
makes the garment READY_TO_PRINT, SHORT adds PRESS_SHORT. -/
def Obligations.PressDoneJudged : Prop :=
  ∀ (temp secs : Nat) (i : Fin 32) (v : Traveller) (r : Pretreat) (s : State), (s.mode = .run ∨ s.mode = .hold) →
    temp ≤ 300 → secs ≤ 600 → s.holdsClaim .prep .press = true → s.travAt 4 = some (i, v) → v.stage = .pretreat →
    v.pretreat = some r → (r.sub = .verified ∨ r.sub = .heavy ∨ r.sub = .ungauged) → v.faults.length < 4 →
    ∃ t : State, exec (.pressDone .prep (bytes16 temp ++ bytes16 secs)) s = .next t ∧ Keeps [.table, .ports] s t ∧
      (if (s.fabricOf (s.boundLine v)).pressTemp ≤ temp ∧ (s.fabricOf (s.boundLine v)).pressTime ≤ secs then
        t.table = tableAfter i (some { v with press := some ⟨temp, secs, .pressed⟩, stage := .readyToPrint }) s ∧
        t.ports = answered .prep 0x2D (bytes16 temp ++ bytes16 secs) .ok [0] s
      else
        t.table = tableAfter i (some { v with press := some ⟨temp, secs, .short⟩,
                                              faults := v.faults ++ [.pressShort] }) s ∧
        t.ports = answered .prep 0x2D (bytes16 temp ++ bytes16 secs) .ok [1] s)

/-! ### The deposit gauge (chapter 5) -/

/-- R79 to R83, R86, R94: GAUGE_DRY and GAUGE_WET that pass their checks start a pass on the electrode of the garment's
placement, the counters at 0, the timebase of a wet pass at the stored window, and write the starting GAUGE record;
while a pass is in flight, an edge of the selected electrode counts one, a tick moves a dry pass's timebase up and a
wet pass's down, and edges of the other electrode, or in IDLE, change no counter. The edge row as the edge of its line
is the model's choice (log entry 6). Both commands are refused, their checks in order: STATE without the claim or without a
PRETREAT traveller at the booth, BUSY under a pass, NOLINE for an ungauged garment, and STATE for GAUGE_DRY in a sub-state but
NEED_DRY and DRY_DONE, for GAUGE_WET but in SPRAYED with a window. -/
def Obligations.GaugePassesStartAndCount : Prop :=
  (∀ (i : Fin 32) (v : Traveller) (r : Pretreat) (s : State), s.mode = .run → s.holdsClaim .prep .spray = true →
      s.travAt 2 = some (i, v) → v.stage = .pretreat → v.pretreat = some r → s.passInFlight = false →
      ¬ ((s.boundLine v).placement = .back ∧ s.assigned .gaugeOscBack = false) →
      ((r.sub = .needDry ∨ r.sub = .dryDone) →
        ∃ t : State, exec (.gaugeDry .prep []) s = .next t ∧ Keeps [.gauge, .ports] s t ∧
          t.gauge = ⟨some ⟨.dry, i⟩, (s.boundLine v).placement, 0, 0, some ⟨.dry, i, v.serial, .inFlight⟩, 0, 0,
            s.gauge.verdict, s.gauge.rev + 1⟩ ∧ t.ports = answered .prep 0x29 [] .ok [] s) ∧
      ∀ w : Nat, r.sub = .sprayed → r.window = some w →
        ∃ t : State, exec (.gaugeWet .prep []) s = .next t ∧ Keeps [.gauge, .ports] s t ∧
          t.gauge = ⟨some ⟨.wet, i⟩, (s.boundLine v).placement, 0, w, some ⟨.wet, i, v.serial, .inFlight⟩, 0, w,
            s.gauge.verdict, s.gauge.rev + 1⟩ ∧ t.ports = answered .prep 0x2B [] .ok [] s) ∧
  (∀ (c : Instr) (code : Byte) (s : State), s.mode = .run →
      (c, code) ∈ [(Instr.gaugeDry .prep [], (0x29 : Byte)), (.gaugeWet .prep [], 0x2B)] →
      (s.holdsClaim .prep .spray = false → exec c s = .next (refused .prep code [] .state [] s)) ∧
      (s.travAt 2 = none → exec c s = .next (refused .prep code [] .state [] s)) ∧
      ∀ (i : Fin 32) (v : Traveller), s.holdsClaim .prep .spray = true → s.travAt 2 = some (i, v) →
        (v.stage ≠ .pretreat → exec c s = .next (refused .prep code [] .state [] s)) ∧
        ∀ r : Pretreat, v.stage = .pretreat → v.pretreat = some r →
          (s.passInFlight = true → exec c s = .next (refused .prep code [] .busy [] s)) ∧
          (s.passInFlight = false →
            if (s.boundLine v).placement = .back ∧ s.assigned .gaugeOscBack = false then
              exec c s = .next (refused .prep code [] .noLine [] s)
            else
              (c = .gaugeDry .prep [] → r.sub ≠ .needDry → r.sub ≠ .dryDone →
                exec c s = .next (refused .prep code [] .state [] s)) ∧
              (c = .gaugeWet .prep [] → (r.sub ≠ .sprayed ∨ r.window = none) →
                exec c s = .next (refused .prep code [] .state [] s)))) ∧
  (∀ (e : Side) (l : Fin 24) (s : State), s.lineOf (oscFunction e) = some l →
      ((s.gauge.pass = none ∨ e ≠ s.gauge.electrode) → ∃ t : State, exec (.gaugeOscEdge e) s = .next t ∧
        Keeps [.lines] s t ∧ t.lines = edged l true s) ∧
      (∀ p : GaugePass, s.gauge.pass = some p → e = s.gauge.electrode →
        (p.kind = .dry → s.gauge.edges + 1 < s.constants.gaugeWindow) → (p.kind = .wet → s.gauge.edges < 1048575) →
        ∃ t : State, exec (.gaugeOscEdge e) s = .next t ∧ Keeps [.lines, .gauge] s t ∧ t.lines = edged l true s ∧
          t.gauge = { s.gauge with edges := s.gauge.edges + 1 }) ∧
      (∀ i : Fin 32, s.gauge.pass = some ⟨.dry, i⟩ → s.gauge.timebase < 1048575 →
        ∃ t : State, exec .timebaseTick s = .next t ∧ Keeps [.gauge] s t ∧
          t.gauge = { s.gauge with timebase := s.gauge.timebase + 1 }) ∧
      (∀ i : Fin 32, s.gauge.pass = some ⟨.wet, i⟩ → 1 < s.gauge.timebase →
        ∃ t : State, exec .timebaseTick s = .next t ∧ Keeps [.gauge] s t ∧
          t.gauge = { s.gauge with timebase := s.gauge.timebase - 1 }) ∧
      (s.gauge.pass = none → exec .timebaseTick s = .next s))

/-- R84, R85, R88: the edge that brings the gauge counter to N ends a dry pass: the timebase, at least 1, is the window
stored, the sub-state is DRY_DONE, and DRY_DONE is raised. The tick beyond 1,048,575 of a dry pass, and the edge beyond
1,048,575 of a wet pass, end the pass without a result: the pretreat record is kept, the fault is added, and PASS_FAULT
is raised. The GAUGE record takes the counts and the end. That the rows of the ends are these edges and ticks is the
model's choice (log entries 4 and 6). Of a timebase of 0, R84 gives the window 1; that the timebase counter and the GAUGE
record's count then take 1 as well is inferred (log entry 19). -/
def Obligations.DryPassEndsOrRunsOut : Prop :=
  (∀ (i : Fin 32) (v : Traveller) (r : Pretreat) (x : LastPass) (l : Fin 24) (s : State),
      s.gauge.pass = some ⟨.dry, i⟩ → s.gauge.last = some x → s.gauge.edges + 1 = s.constants.gaugeWindow →
      s.trav? i = some v → v.pretreat = some r → s.lineOf (oscFunction s.gauge.electrode) = some l →
      ∃ t : State, exec .dryPassEnd s = .next t ∧ exec (.gaugeOscEdge s.gauge.electrode) s = .next t ∧
        Keeps [.lines, .gauge, .table, .notices] s t ∧ t.lines = edged l true s ∧
        t.table = tableAfter i
          (some { v with pretreat := some { r with window := some (max 1 s.gauge.timebase), sub := .dryDone } }) s ∧
        t.gauge = { s.gauge with
          pass := none, edges := s.constants.gaugeWindow, timebase := max 1 s.gauge.timebase,
          last := some { x with ending := .normal }, recEdges := s.constants.gaugeWindow,
          recTimebase := max 1 s.gauge.timebase, rev := s.gauge.rev + 1 } ∧
        t.notices = raisedIn [(.prep, .dryDone)] s.notices) ∧
  (∀ (i : Fin 32) (v : Traveller) (x : LastPass) (s : State), s.gauge.last = some x → s.trav? i = some v →
      v.faults.length < 4 →
      (s.gauge.pass = some ⟨.dry, i⟩ → s.gauge.timebase = 1048575 →
        ∃ t : State, exec .gaugeDryTimeout s = .next t ∧ exec .timebaseTick s = .next t ∧
          Keeps [.gauge, .table, .notices] s t ∧
          t.table = tableAfter i (some { v with faults := v.faults ++ [.gaugeDryTimeout] }) s ∧
          t.gauge = { s.gauge with
            pass := none, last := some { x with ending := .dryTimeout }, recEdges := s.gauge.edges,
            recTimebase := 1048575, rev := s.gauge.rev + 1 } ∧
          t.notices = raisedIn [(.prep, .passFault)] s.notices) ∧
      ∀ l : Fin 24, s.gauge.pass = some ⟨.wet, i⟩ → s.gauge.edges = 1048575 →
        s.lineOf (oscFunction s.gauge.electrode) = some l →
        ∃ t : State, exec .gaugeWetOverflow s = .next t ∧ exec (.gaugeOscEdge s.gauge.electrode) s = .next t ∧
          Keeps [.lines, .gauge, .table, .notices] s t ∧ t.lines = edged l true s ∧
          t.table = tableAfter i (some { v with faults := v.faults ++ [.gaugeWetOverflow] }) s ∧
          t.gauge = { s.gauge with
            pass := none, last := some { x with ending := .wetOverflow }, recEdges := 1048575,
            recTimebase := s.gauge.timebase, rev := s.gauge.rev + 1 } ∧
          t.notices = raisedIn [(.prep, .passFault)] s.notices)

/-- R74, R87, R91 to R93: the tick that brings the timebase to 0 ends the wet pass: the edges are the wet count, the
deposit is measured from them, and the verdict of Table 5-4 sends the garment on to the press, to a top-up or to
rejection. That WET_PASS_END is that tick is the model's choice (log entry 4). -/
def Obligations.WetPassVerifiesDeposit : Prop :=
  ∀ (i : Fin 32) (v : Traveller) (r : Pretreat) (x : LastPass) (n kg area q tol qm : Nat) (s : State),
    s.gauge.pass = some ⟨.wet, i⟩ → s.gauge.last = some x → s.gauge.timebase = 1 → s.trav? i = some v →
    v.pretreat = some r → n = s.constants.gaugeWindow → kg = (s.fabricOf (s.boundLine v)).kg →
    area = (s.boundLine v).width * (s.boundLine v).height / 100 → q = r.target → tol = s.constants.tolerance →
    qm = min 4095 ((n - s.gauge.edges) * kg * area / (n * 100)) →
    ∃ (t : State) (w : Traveller) (verdict : GaugeVerdict), exec .wetPassEnd s = .next t ∧
      exec .timebaseTick s = .next t ∧ Keeps [.gauge, .table, .notices] s t ∧ t.table = tableAfter i (some w) s ∧
      t.gauge = { s.gauge with
        pass := none, timebase := 0, last := some { x with ending := .normal }, recEdges := s.gauge.edges,
        recTimebase := 0, verdict := some verdict, rev := s.gauge.rev + 1 } ∧
      t.notices = raisedIn [(.prep, .wetDone)] s.notices ∧
      (if q * (100 - tol) / 100 ≤ qm ∧ qm ≤ q * (100 + tol) / 100 then
        verdict = .verified ∧ w = { v with pretreat := some { r with
          wetCount := some s.gauge.edges, measured := some qm, sub := .verified } }
      else if qm < q * (100 - tol) / 100 then
        verdict = .light ∧
          if r.topUps < s.constants.topUpLimit then
            w = { v with pretreat := some { r with
              wetCount := some s.gauge.edges, measured := some qm, sub := .dryDone, topUps := r.topUps + 1,
              commanded := r.commanded + ((q - qm) * 100 + s.constants.strokeMass - 1) / s.constants.strokeMass } }
          else w = { v with stage := .rejectPending, pretreat := some { r with
            wetCount := some s.gauge.edges, measured := some qm, sub := .reject } }
      else if qm ≤ 2 * q then
        verdict = .heavy ∧ w = { v with pretreat := some { r with
          wetCount := some s.gauge.edges, measured := some qm, sub := .heavy } }
      else
        verdict = .reject ∧ w = { v with stage := .rejectPending, pretreat := some { r with
          wetCount := some s.gauge.edges, measured := some qm, sub := .reject } })

/-- R73, R89, R90: GAUGE_ABORT stops the pass in flight and answers its kind: a spray pass keeps the strokes counted, a
gauge pass discards what its counts would have produced; GAUGE_ABORTED is added and PASS_FAULT raised; with no pass it is
refused with STATE. -/
def Obligations.GaugeAbortStopsPass : Prop :=
  ∀ s : State, (s.mode = .run ∨ s.mode = .hold) →
    (s.passInFlight = false → exec (.gaugeAbort .prep []) s = .next (refused .prep 0x2C [] .state [] s)) ∧
    (∀ (p : SprayPass) (v : Traveller) (r : Pretreat), s.pre.pass = some p → s.trav? p.trav = some v →
      v.pretreat = some r → v.faults.length < 4 →
      ∃ t : State, exec (.gaugeAbort .prep []) s = .next t ∧ Keeps [.pre, .table, .notices, .ports] s t ∧
        t.pre = { s.pre with pass := none } ∧
        t.table = tableAfter p.trav (some { v with
          pretreat := some { r with delivered := r.delivered + s.pre.strokes }, faults := v.faults ++ [.gaugeAborted] }) s ∧
        t.notices = raisedIn [(.prep, .passFault)] s.notices ∧ t.ports = answered .prep 0x2C [] .ok [0] s) ∧
    ∀ (p : GaugePass) (v : Traveller) (x : LastPass), s.pre.pass = none → s.gauge.pass = some p →
      s.gauge.last = some x → s.trav? p.trav = some v → v.faults.length < 4 →
      ∃ t : State, exec (.gaugeAbort .prep []) s = .next t ∧ Keeps [.gauge, .table, .notices, .ports] s t ∧
        t.table = tableAfter p.trav (some { v with faults := v.faults ++ [.gaugeAborted] }) s ∧
        t.gauge = { s.gauge with
          pass := none, last := some { x with ending := .aborted }, recEdges := s.gauge.edges,
          recTimebase := s.gauge.timebase, rev := s.gauge.rev + 1 } ∧
        t.notices = raisedIn [(.prep, .passFault)] s.notices ∧
        t.ports = answered .prep 0x2C [] .ok [if p.kind = .dry then 1 else 2] s

/-! ### Print dispatch and ink (chapter 6) -/

/-- R96, R106, R108 to R110: ENGINE_ONLINE from OFFLINE or FAULT returns the engine to service, READY below the clean interval
and else CLEAN_DUE with the source raised; CLEAN_START and CLEAN_DONE lead through CLEANING to READY with the count at 0;
ENGINE_OFFLINE takes an idle engine to OFFLINE and is BUSY otherwise; ENGINE_FAULT is refused in OFFLINE, changes nothing
in FAULT, and takes an idle engine to FAULT. No garment awaits assignment at the position. -/
def Obligations.EngineServiceCommands : Prop :=
  (∀ (e : Engine) (s : State), (s.mode = .run ∨ s.mode = .hold) →
      (s.travAt (stationPos (engineStation e))).all (fun y => y.2.stage ≠ .readyToPrint) = true →
      (((s.engine e).state = .offline ∨ (s.engine e).state = .fault) →
        ∃ t : State, exec (.engineOnline (enginePort e) []) s = .next t ∧ Keeps [.engines, .notices, .ports] s t ∧
          t.ports = answered (enginePort e) 0x30 [] .ok [] s ∧
          if (s.engine e).prints < s.constants.cleanInterval then
            t.engines = enginesAfter e { s.engine e with state := .ready } s ∧ t.notices = s.notices
          else t.engines = enginesAfter e { s.engine e with state := .cleanDue } s ∧
            t.notices = raisedIn [(enginePort e, .cleanDue)] s.notices) ∧
      (((s.engine e).state = .ready ∨ (s.engine e).state = .cleanDue) →
        ∃ t : State, exec (.cleanStart (enginePort e) []) s = .next t ∧ Keeps [.engines, .ports] s t ∧
          t.ports = answered (enginePort e) 0x35 [] .ok [] s ∧
          t.engines = enginesAfter e { s.engine e with state := .cleaning } s) ∧
      ((s.engine e).state = .cleaning →
        ∃ t : State, exec (.cleanDone (enginePort e) []) s = .next t ∧ Keeps [.engines, .ports] s t ∧
          t.ports = answered (enginePort e) 0x36 [] .ok [] s ∧
          t.engines = enginesAfter e { s.engine e with state := .ready, prints := 0 } s)) ∧
  (∀ (e : Engine) (s : State), (s.mode = .run ∨ s.mode = .hold) →
      ((s.engine e).state ≠ .assigned → (s.engine e).state ≠ .printing →
        ∃ t : State, exec (.engineOffline (enginePort e) []) s = .next t ∧ Keeps [.engines, .ports] s t ∧
          t.ports = answered (enginePort e) 0x31 [] .ok [] s ∧
          t.engines = enginesAfter e { s.engine e with state := .offline } s) ∧
      (((s.engine e).state = .assigned ∨ (s.engine e).state = .printing) →
        exec (.engineOffline (enginePort e) []) s = .next (refused (enginePort e) 0x31 [] .busy [] s)) ∧
      ((s.engine e).state = .offline →
        exec (.engineFault (enginePort e) []) s = .next (refused (enginePort e) 0x32 [] .state [] s)) ∧
      ((s.engine e).state = .fault →
        ∃ t : State, exec (.engineFault (enginePort e) []) s = .next t ∧ Keeps [.ports] s t ∧
          t.ports = answered (enginePort e) 0x32 [] .ok [] s) ∧
      (((s.engine e).state = .ready ∨ (s.engine e).state = .cleanDue ∨ (s.engine e).state = .cleaning) →
        (s.engine e).current = none →
        ∃ t : State, exec (.engineFault (enginePort e) []) s = .next t ∧ Keeps [.engines, .ports] s t ∧
          t.ports = answered (enginePort e) 0x32 [] .ok [] s ∧
          t.engines = enginesAfter e { s.engine e with state := .fault } s))

/-- R106: ENGINE_FAULT while PRINTING fails the print: reservation and claim go, the count of prints rises, the levels
stay, the traveller becomes REJECT_PENDING with result FAULT and ENGINE_FAULT added; while ASSIGNED it withdraws the
assignment, without a lapse mark and without a fault. -/
def Obligations.EngineFaultUndoesWork : Prop :=
  ∀ (e : Engine) (i : Fin 32) (v : Traveller) (r : Print) (s : State), (s.mode = .run ∨ s.mode = .hold) →
    (s.engine e).current = some i → s.trav? i = some v → v.print = some r → v.faults.length < 4 →
    ((s.engine e).state = .printing →
      ∃ t : State, exec (.engineFault (enginePort e) []) s = .next t ∧ Keeps [.engines, .ring, .table, .ports] s t ∧
        t.engines = enginesAfter e { s.engine e with
          state := .fault, current := none, prints := (s.engine e).prints + 1,
          reserved := Inks.zip (· - ·) (s.engine e).reserved r.estimate } s ∧
        t.ring = { s.ring with claims := s.ring.claims.set (stationNo (engineStation e)) none, revs := t.ring.revs } ∧
        t.table = tableAfter i (some { v with
          stage := .rejectPending, print := some { r with result := .fault, actual := none },
          faults := v.faults ++ [.engineFault] }) s) ∧
    ((s.engine e).state = .assigned →
      ∃ t : State, exec (.engineFault (enginePort e) []) s = .next t ∧ Keeps [.engines, .ring, .table, .ports] s t ∧
        t.engines = enginesAfter e { s.engine e with
          state := .fault, current := none, reserved := Inks.zip (· - ·) (s.engine e).reserved r.estimate } s ∧
        t.ring = { s.ring with awaiting := s.ring.awaiting.set (engineNo e) none, revs := t.ring.revs } ∧
        t.table = tableAfter i (some { v with stage := .readyToPrint, print := none }) s)

/-- R111: an INK_REPORT to an engine that is not READY replaces its levels, leaves its reservation, and raises INK_SHORT
for its port and for the gateway when a level falls below its channel's reservation; a level above 2,000,000 is refused
with ARG. -/
def Obligations.InkReportReplacesLevels : Prop :=
  ∀ (e : Engine) (a : Inks) (s : State), (s.mode = .run ∨ s.mode = .hold) → (∀ x ∈ a.toList, x < 2 ^ 32) →
    ((∃ x ∈ a.toList, 2000000 < x) →
      exec (.inkReport (enginePort e) (a.toList.flatMap bytes32)) s =
        .next (refused (enginePort e) 0x33 (a.toList.flatMap bytes32) .arg [] s)) ∧
    ((∀ x ∈ a.toList, x ≤ 2000000) → (s.engine e).state ≠ .ready →
      ∃ t : State, exec (.inkReport (enginePort e) (a.toList.flatMap bytes32)) s = .next t ∧
        Keeps [.engines, .notices, .ports] s t ∧
        t.engines = enginesAfter e { s.engine e with level := a } s ∧
        (t.port (enginePort e)).holder = ⟨0x33, .ok, []⟩ ∧
        t.notices =
          if a.w < (s.engine e).reserved.w ∨ a.c < (s.engine e).reserved.c ∨ a.m < (s.engine e).reserved.m ∨
              a.y < (s.engine e).reserved.y ∨ a.k < (s.engine e).reserved.k then
            raisedIn [(enginePort e, .inkShort), (.gateway, match e with | .a => .inkShortA | .b => .inkShortB)] s.notices
          else s.notices)

/-- R98 to R101, R108, R110, R111: in RUN, a CLEAN_DONE, an ENGINE_ONLINE below the clean interval, or an INK_REPORT to a READY
engine, that finds a READY_TO_PRINT garment at its position, with neither entry nor lapse mark there, assigns it when every
channel's level covers reserved ink and estimate, and else raises INK_SHORT. The estimate of a channel is area times coverage
times ink factor over 1,000, rounded down. So does a permitted index that brings a READY_TO_PRINT garment to the print
position of a READY engine (R56; the index as the edge of its line is the model's choice, log entry 6). -/
def Obligations.AssignmentAttempted : Prop :=
  (∀ (e : Engine) (i : Fin 32) (v : Traveller) (l : LineItem) (est : Inks) (c : Instr) (x : EngineRec) (s : State),
      s.mode = .run →
      ((c = .cleanDone (enginePort e) [] ∧ (s.engine e).state = .cleaning ∧
          x = { s.engine e with state := .ready, prints := 0 }) ∨
        (c = .engineOnline (enginePort e) [] ∧ ((s.engine e).state = .offline ∨ (s.engine e).state = .fault) ∧
          (s.engine e).prints < s.constants.cleanInterval ∧ x = { s.engine e with state := .ready }) ∨
        ∃ a : Inks, c = .inkReport (enginePort e) (a.toList.flatMap bytes32) ∧ (s.engine e).state = .ready ∧
          (∀ y ∈ a.toList, y ≤ 2000000) ∧ (s.engine e).reserved = .zero ∧ x = { s.engine e with level := a }) →
      s.travAt (stationPos (engineStation e)) = some (i, v) → v.stage = .readyToPrint → s.awaitingAt e = none →
      s.lapseAt e = none → s.line? v.slot v.line = some l →
      est = ⟨l.width * l.height / 100 * l.coverage.w * s.constants.kink.w / 1000,
        l.width * l.height / 100 * l.coverage.c * s.constants.kink.c / 1000,
        l.width * l.height / 100 * l.coverage.m * s.constants.kink.m / 1000,
        l.width * l.height / 100 * l.coverage.y * s.constants.kink.y / 1000,
        l.width * l.height / 100 * l.coverage.k * s.constants.kink.k / 1000⟩ →
      ∃ t : State, exec c s = .next t ∧ (t.port (enginePort e)).holder.status = .ok ∧
        if x.reserved.w + est.w ≤ x.level.w ∧ x.reserved.c + est.c ≤ x.level.c ∧ x.reserved.m + est.m ≤ x.level.m ∧
            x.reserved.y + est.y ≤ x.level.y ∧ x.reserved.k + est.k ≤ x.level.k
        then
          Keeps [.engines, .ring, .table, .notices, .ports] s t ∧
          t.engines = enginesAfter e
            { x with state := .assigned, current := some i, reserved := Inks.zip (· + ·) x.reserved est } s ∧
          t.table = tableAfter i (some { v with stage := .assigned, print := some ⟨e, est, none, .pending⟩ }) s ∧
          t.ring = { s.ring with
            awaiting := s.ring.awaiting.set (engineNo e)
              (some ⟨i, platenAt s.ring (stationPos (engineStation e)), s.constants.claimWindow⟩),
            revs := t.ring.revs } ∧
          t.notices = raisedIn [(enginePort e, .assigned)] s.notices ∧ t.permit = false
        else
          Keeps [.engines, .notices, .ports] s t ∧ t.engines = enginesAfter e x s ∧
          t.notices =
            raisedIn [(enginePort e, .inkShort), (.gateway, match e with | .a => .inkShortA | .b => .inkShortB)] s.notices) ∧
  ∀ (e : Engine) (i : Fin 32) (v : Traveller) (x : LineItem) (l : Fin 24) (s : State), s.permit = true →
    s.lineOf .indexPulse = some l → CarriedConsistent s → homeLevel s = decide (s.ring.load + 1 = 0) →
    s.travAt (stationPos (engineStation e) - 1) = some (i, v) → v.stage = .readyToPrint → (s.engine e).state = .ready →
    s.line? v.slot v.line = some x →
    ∃ t : State, exec .index s = .next t ∧ Keeps [.lines, .ring, .table, .engines, .notices] s t ∧
      t.ring.load = s.ring.load + 1 ∧ t.ring.carried = s.ring.carried ∧
      Attempted s t e (s.engine e) i v (platenAt s.ring (stationPos (engineStation e) - 1)) x

/-- R104, R105: a PRINT_DONE settles the print: each level falls by the actual to no less than 0, the reservation by the
estimate, the claim goes, the count of prints rises, the engine returns to service, and the garment is PRINTED, or
REJECT_PENDING with PRINT_DEFECT added. -/
def Obligations.PrintDoneSettles : Prop :=
  ∀ (e : Engine) (good : Bool) (a : Inks) (i : Fin 32) (v : Traveller) (r : Print) (s : State),
    (s.mode = .run ∨ s.mode = .hold) → (∀ x ∈ a.toList, x ≤ 2000000) → (s.engine e).state = .printing →
    (s.engine e).current = some i → s.trav? i = some v → v.print = some r → v.faults.length < 4 →
    ∃ t : State, exec (.printDone (enginePort e) ((if good then 1 else 2) :: a.toList.flatMap bytes32)) s = .next t ∧
      Keeps [.engines, .ring, .table, .notices, .ports] s t ∧
      t.engines = enginesAfter e
        ⟨if (s.engine e).prints + 1 < s.constants.cleanInterval then .ready else .cleanDue, none, (s.engine e).prints + 1,
          Inks.zip (· - ·) (s.engine e).level a, Inks.zip (· - ·) (s.engine e).reserved r.estimate,
          (s.engine e).rev⟩ s ∧
      t.ring = { s.ring with claims := s.ring.claims.set (stationNo (engineStation e)) none, revs := t.ring.revs } ∧
      t.table = tableAfter i (some (if good then
          { v with stage := .printed, print := some { r with actual := some a, result := .good } }
        else { v with stage := .rejectPending, print := some { r with actual := some a, result := .defect },
                      faults := v.faults ++ [.printDefect] })) s ∧
      t.notices = (if (s.engine e).prints + 1 < s.constants.cleanInterval then s.notices
        else raisedIn [(enginePort e, .cleanDue)] s.notices) ∧
      (t.port (enginePort e)).holder = ⟨0x34, .ok, []⟩

/-! ### The curing tunnel and closures (chapters 1 and 7) -/

/-- R117 to R120: a TUNNEL_ENTRY that passes its checks computes required dose and scorch limit, creates the cure record,
empties the platen, joins the queue's tail with the class's Tmax, and answers slot, serial, dose, limit and queue length. It
is refused with FULL at 16 entries, and else with BUSY while the tail has travelled less than the entry spacing. -/
def Obligations.TunnelEntryTaken : Prop :=
  (∀ (i : Fin 32) (v : Traveller) (l : LineItem) (area qm dose limit : Nat) (s : State),
      (s.mode = .run ∨ s.mode = .hold) → s.holdsClaim .tunnel .unload = true → s.travAt 10 = some (i, v) →
      v.stage = .printed → s.tunnel.queue.length < 16 → tailTooNear s = false → s.line? v.slot v.line = some l →
      area = l.width * l.height / 100 → qm = ((v.pretreat.bind (·.measured)).getD 0) →
      dose = min 60000 (max 1 ((s.fabricOf l).cureBase +
        area * (l.coverage.w * s.constants.kw + (l.coverage.c + l.coverage.m + l.coverage.y + l.coverage.k) * s.constants.kc) /
          10000 + qm * s.constants.kd / 10)) →
      limit = min 65535 (dose * (s.fabricOf l).scorchFactor / 100) →
      ∃ t : State, exec (.tunnelEntry .tunnel []) s = .next t ∧ Keeps [.ring, .table, .tunnel, .ports] s t ∧
        t.table = tableAfter i (some { v with
          platen := none, stage := .inTunnel, cure := some ⟨s.tunnel.encoder, dose, limit, 0, 0, false, none⟩ }) s ∧
        t.ring = { s.ring with carried := s.ring.carried.set (platenAt s.ring 10) none, revs := t.ring.revs } ∧
        t.tunnel = { s.tunnel with queue := s.tunnel.queue ++ [⟨i, (s.fabricOf l).tmax⟩], sampled := s.tunnel.encoder,
                                   rev := s.tunnel.rev + 1 } ∧
        t.ports = answered .tunnel 0x38 [] .ok
          (bytes8 i.val ++ bytes16 v.serial.toNat ++ bytes16 dose ++ bytes16 limit ++ bytes8 (s.tunnel.queue.length + 1)) s) ∧
  (∀ (i : Fin 32) (v : Traveller) (s : State), (s.mode = .run ∨ s.mode = .hold) →
      s.holdsClaim .tunnel .unload = true → s.travAt 10 = some (i, v) → v.stage = .printed →
      (s.tunnel.queue.length = 16 →
        exec (.tunnelEntry .tunnel []) s = .next (refused .tunnel 0x38 [] .full [] s)) ∧
      ∀ (front : List QueueEntry) (q : QueueEntry) (w : Traveller) (c : Cure), s.tunnel.queue = front ++ [q] →
        s.tunnel.queue.length < 16 → s.trav? q.trav = some w → w.cure = some c →
        (s.tunnel.encoder - c.entryCount).toNat / 2 < s.constants.spacing →
        exec (.tunnelEntry .tunnel []) s = .next (refused .tunnel 0x38 [] .busy [] s))

/-- R122, R123: ZONE_TEMPS stores the three temperatures, clamped to 300, starts the stale timer for the stale limit,
raises TEMP_RANGE when one was clamped, and answers the stored values; the timer's expiry makes the zones unknown and
raises TEMP_STALE, and a stopped timer does not expire. That an expiry without its timer does nothing is the model's
choice (log entry 10). -/
def Obligations.ZoneTempsAndStaleTimer : Prop :=
  ∀ (z1 z2 z3 : BitVec 16) (s : State),
    ((s.mode = .run ∨ s.mode = .hold) →
      ∃ t : State, exec (.zoneTemps .tunnel (bytes16 z1.toNat ++ bytes16 z2.toNat ++ bytes16 z3.toNat)) s = .next t ∧
        Keeps [.tunnel, .notices, .ports] s t ∧
        t.tunnel.zones.get 0 = some (min 300 z1.toNat) ∧ t.tunnel.zones.get 1 = some (min 300 z2.toNat) ∧
        t.tunnel.zones.get 2 = some (min 300 z3.toNat) ∧
        t.tunnel = { s.tunnel with zones := t.tunnel.zones, staleTimer := some s.constants.staleLimit, rev := t.tunnel.rev } ∧
        t.notices = (if 300 < z1.toNat ∨ 300 < z2.toNat ∨ 300 < z3.toNat then
          raisedIn [(.tunnel, .tempRange)] s.notices else s.notices) ∧
        (t.port .tunnel).holder = ⟨0x3A, .ok,
          bytes16 (min 300 z1.toNat) ++ bytes16 (min 300 z2.toNat) ++ bytes16 (min 300 z3.toNat)⟩) ∧
    (s.tunnel.staleTimer.isSome = true →
      ∃ t : State, exec .staleTimerExpiry s = .next t ∧ Keeps [.tunnel, .notices] s t ∧
        t.tunnel = { s.tunnel with zones := .fill none, staleTimer := none, rev := s.tunnel.rev + 1 } ∧
        t.notices = raisedIn [(.tunnel, .tempStale)] s.notices) ∧
    (s.tunnel.staleTimer = none → exec .staleTimerExpiry s = .next s)

/-- R117, R125: at a sample every garment in the queue takes the heat of its zone: the increment above the onset, at most
100, to the dose, the zone's temperature to the peak; in an unknown zone nothing but, once, the stale mark and STALE_TEMP.
Every other traveller is unchanged, and the sampled encoder count is written. -/
def Obligations.SampleAddsHeat : Prop :=
  ∀ s : State, s.tunnel.sampleTimer.isSome = true → (s.tunnel.queue.map (·.trav)).Nodup →
    ∃ t : State, exec .sampleTimerExpiry s = .next t ∧ Keeps [.table, .tunnel] s t ∧
      t.tunnel = { s.tunnel with sampled := s.tunnel.encoder, rev := t.tunnel.rev } ∧
      t.table.serial = s.table.serial ∧
      (∀ i : Fin 32, i ∉ s.tunnel.queue.map (·.trav) → t.table.slots.get i = s.table.slots.get i) ∧
      ∀ (i : Fin 32) (v : Traveller) (c : Cure) (d : Nat) (z : Fin 3), i ∈ s.tunnel.queue.map (·.trav) →
        s.trav? i = some v → v.cure = some c → v.faults.length < 4 → d = (s.tunnel.encoder - c.entryCount).toNat / 2 →
        z = (if d < s.constants.zoneEnd1 then 0 else if d < s.constants.zoneEnd2 then 1 else 2) →
        t.table.slots.get i = slotAfter (s.table.slots.get i) (some
          (match s.tunnel.zones.get z with
          | some tz => { v with cure := some { c with
              dose := min 65535 (c.dose + min 100 (tz - s.constants.onset)), peak := max c.peak tz } }
          | none => if c.stale = true then v else
              { v with cure := some { c with stale := true }, faults := v.faults ++ [.staleTemp] }))

/-- R116, R126: an encoder pulse that leaves the head of the queue short of the belt length, or finds no queue, raises
the encoder count by one, in every mode, and touches nothing else. The pulse as the edge of its line is the model's
choice (log entry 6). -/
def Obligations.PulseCounts : Prop :=
  ∀ (l : Fin 24) (s : State), s.lineOf .beltEnc = some l →
    (∀ (q : QueueEntry) (rest : List QueueEntry), s.tunnel.queue = q :: rest → ∃ (v : Traveller) (c : Cure),
      s.trav? q.trav = some v ∧ v.cure = some c ∧
        (s.tunnel.encoder + 1 - c.entryCount).toNat / 2 < s.constants.beltLength) →
    ∃ t : State, exec .encoderPulse s = .next t ∧ Keeps [.lines, .tunnel] s t ∧ t.lines = edged l true s ∧
      t.tunnel = { s.tunnel with encoder := s.tunnel.encoder + 1 }

/-- R15 to R18, R32 to R34, R40, R126, R127: the tests of Table 7-2 in order; and the pulse that brings a CURED garment that
is no orphan to the belt length closes it PACK: the head leaves the queue, its slot is freed, its line moves one unit from in
work to produced, the order becomes COMPLETE when every line is produced, and the exit entry joins the list, from which a full
one loses its oldest. A SCORCHED or UNDER_CURED garment, orphan or not, it closes SCRAP: its line gives the unit back and
counts a reprint, the order is held when the reprints exceed the limit and OPEN with nothing in work, and a CANCELLING order
with nothing in work is freed. That TUNNEL_EXIT is that pulse is the model's choice (log entries 4 and 6). -/
def Obligations.CuredGarmentIsPacked : Prop :=
  (∀ (tmax : Nat) (c : Cure),
    (cureVerdict tmax c = .scorched ↔ tmax < c.peak ∨ c.scorch < c.dose) ∧
    (cureVerdict tmax c = .cured ↔ c.peak ≤ tmax ∧ c.required ≤ c.dose ∧ c.dose ≤ c.scorch) ∧
    (cureVerdict tmax c = .underCured ↔ c.peak ≤ tmax ∧ c.dose ≤ c.scorch ∧ c.dose < c.required)) ∧
  (∀ (l : Fin 24) (q : QueueEntry) (rest : List QueueEntry) (v : Traveller) (c : Cure) (o o' : Order) (s : State),
    s.lineOf .beltEnc = some l → s.tunnel.queue = q :: rest →
    s.trav? q.trav = some v → v.cure = some c → v.platen = none →
    s.constants.beltLength ≤ (s.tunnel.encoder + 1 - c.entryCount).toNat / 2 → cureVerdict q.tmax c = .cured →
    v.orphan = false → s.order? v.slot = some o → o.state = .inWork →
    o' = modLineItem v.line (fun x => { x with inWork := x.inWork - 1, produced := x.produced + 1 }) o →
    ∃ t : State, exec .tunnelExit s = .next t ∧ exec .encoderPulse s = .next t ∧
      Keeps [.lines, .tunnel, .table, .exits, .book, .notices] s t ∧ t.lines = edged l true s ∧
      t.tunnel = { s.tunnel with queue := rest, encoder := s.tunnel.encoder + 1, sampled := s.tunnel.encoder + 1,
                                 rev := s.tunnel.rev + 1 } ∧
      t.table = tableAfter q.trav none s ∧
      t.exits = exitsAfter ⟨v.serial, .pack, some (o.number, v.line), some .cured, v.faults.head?⟩ s ∧
      t.book = { s.book with slots := s.book.slots.set v.slot ⟨(s.book.slots.get v.slot).rev + 1, some
        { o' with state := (if allProduced o' = true then .complete else if noneInWork o' = true then .open else .inWork) }⟩ } ∧
      t.notices = raisedIn ((if allProduced o' = true then
        [(.gateway, .orderComplete), (.tunnel, .orderComplete)] else []) ++ exitNotices s) s.notices) ∧
  ∀ (l : Fin 24) (q : QueueEntry) (rest : List QueueEntry) (v : Traveller) (c : Cure) (o : Order) (x : LineItem)
    (lines : List LineItem) (s : State),
    s.lineOf .beltEnc = some l → s.tunnel.queue = q :: rest →
    s.trav? q.trav = some v → v.cure = some c → v.platen = none →
    s.constants.beltLength ≤ (s.tunnel.encoder + 1 - c.entryCount).toNat / 2 → cureVerdict q.tmax c ≠ .cured →
    s.order? v.slot = some o → o.lines[v.line.val]? = some x →
    lines = o.lines.set v.line.val { x with inWork := x.inWork - 1, reprints := min 65535 (x.reprints + 1) } →
    (o.state = .inWork ∨ o.state = .cancelling) →
    ∃ t : State, exec .tunnelExit s = .next t ∧ exec .encoderPulse s = .next t ∧
      Keeps [.lines, .tunnel, .table, .exits, .book, .notices] s t ∧ t.lines = edged l true s ∧
      t.tunnel = { s.tunnel with queue := rest, encoder := s.tunnel.encoder + 1, sampled := s.tunnel.encoder + 1,
                                 rev := s.tunnel.rev + 1 } ∧
      t.table = tableAfter q.trav none s ∧
      t.exits = exitsAfter ⟨v.serial, .scrap, some (o.number, v.line), some (cureVerdict q.tmax c), v.faults.head?⟩ s ∧
      (o.state = .inWork →
        t.book = { s.book with slots := s.book.slots.set v.slot ⟨(s.book.slots.get v.slot).rev + 1, some { o with
          lines := lines, hold := o.hold || decide (s.constants.reprintLimit < min 65535 (x.reprints + 1)),
          state := if lines.all (fun y => y.inWork = 0) then .open else .inWork }⟩ } ∧
        t.notices = raisedIn ((if s.constants.reprintLimit < min 65535 (x.reprints + 1) then
          [(.gateway, .orderHeld)] else []) ++ exitNotices s) s.notices) ∧
      (o.state = .cancelling →
        t.book = { s.book with slots := s.book.slots.set v.slot (if lines.all (fun y => y.inWork = 0) then
          ⟨(s.book.slots.get v.slot).rev + 2, none⟩
          else ⟨(s.book.slots.get v.slot).rev + 1, some { o with lines := lines }⟩) } ∧
        t.notices = raisedIn ((if lines.all (fun y => y.inWork = 0) then [(.gateway, .orderCancelDone)] else []) ++
          exitNotices s) s.notices)

/-- R40 to R42: salvage takes, of the live lines of the same blank, design and placement whose need is above 0, the one before
which no other comes in the order of matching. A cured orphan whose salvage finds a line is packed there: the accepting line's produced rises by one,
the accepting order becomes COMPLETE when every line is produced, and the exit entry names it; when no line accepts it,
it closes SURPLUS and the entry names no order. The original line gives its unit back, and the closure that leaves the
CANCELLING order with nothing in work frees its slot. That TUNNEL_EXIT is the pulse that ends the belt is the model's
choice (log entry 4). -/
def Obligations.CuredOrphanIsSalvaged : Prop :=
  (∀ (s : State) (x : LineItem),
      (∀ (k : Fin 64) (j : Fin 8), salvageFor s x = some (k, j) →
        SalvageCandidate s x k j ∧
          ∀ c : Fin 64 × Fin 8, SalvageCandidate s x c.1 c.2 → c = (k, j) ∨ Precedes s (k, j) c) ∧
      (salvageFor s x = none ↔ ∀ (k : Fin 64) (j : Fin 8), ¬ SalvageCandidate s x k j)) ∧
  ∀ (l : Fin 24) (q : QueueEntry) (rest : List QueueEntry) (v : Traveller) (c : Cure) (x : LineItem) (own own' : Order)
    (s : State),
    s.lineOf .beltEnc = some l → s.tunnel.queue = q :: rest →
    s.trav? q.trav = some v → v.cure = some c → v.platen = none →
    s.constants.beltLength ≤ (s.tunnel.encoder + 1 - c.entryCount).toNat / 2 → cureVerdict q.tmax c = .cured →
    v.orphan = true → s.order? v.slot = some own → own.state = .cancelling → own.lines[v.line.val]? = some x →
    own' = modLineItem v.line (fun y => { y with inWork := y.inWork - 1 }) own →
    ∃ t : State, exec .tunnelExit s = .next t ∧ t.table = tableAfter q.trav none s ∧
      t.book.slots.get v.slot =
        (if noneInWork own' = true then ⟨(s.book.slots.get v.slot).rev + 2, none⟩
        else ⟨(s.book.slots.get v.slot).rev + 1, some own'⟩) ∧
      (∀ (k : Fin 64) (j : Fin 8) (o o' : Order), salvageFor s x = some (k, j) → s.order? k = some o →
        o' = modLineItem j (fun y => { y with produced := y.produced + 1 }) o →
        t.exits = exitsAfter ⟨v.serial, .pack, some (o.number, j), some .cured, v.faults.head?⟩ s ∧
        t.book.slots.get k = ⟨(s.book.slots.get k).rev + 1, some
          { o' with state := (if allProduced o' = true then .complete else o.state) }⟩ ∧
        (∀ n : Fin 64, n ≠ k → n ≠ v.slot → t.book.slots.get n = s.book.slots.get n) ∧
        t.notices = raisedIn ((if noneInWork own' = true then [(.gateway, .orderCancelDone)] else []) ++
          (if allProduced o' = true then [(.gateway, .orderComplete), (.tunnel, .orderComplete)] else []) ++
          exitNotices s) s.notices) ∧
      (salvageFor s x = none →
        t.exits = exitsAfter ⟨v.serial, .surplus, none, some .cured, v.faults.head?⟩ s ∧
        (∀ n : Fin 64, n ≠ v.slot → t.book.slots.get n = s.book.slots.get n) ∧
        t.notices = raisedIn ((if noneInWork own' = true then [(.gateway, .orderCancelDone)] else []) ++
          exitNotices s) s.notices)

/-- R15 to R18, R33, R34, R40, R61: UNLOAD_DONE closes a REJECT_PENDING garment SCRAP, with a reprint, the order held when its
reprints exceed the limit, and a RETURN_PENDING garment RETURN; the platen is emptied, the slot freed, the entry joins the
exit list, from which a full one loses its oldest, the claim stays, and the answer is OK. An orphan gives its unit back to the
CANCELLING order, whose hold stands and whose last closure frees its slot with ORDER_CANCEL_DONE. It is refused with STATE
without the claim, with position 10 empty, and for a garment of any other stage. -/
def Obligations.UnloadClosesGarment : Prop :=
  (∀ (i : Fin 32) (v : Traveller) (o : Order) (x : LineItem) (s : State), (s.mode = .run ∨ s.mode = .hold) →
    s.holdsClaim .tunnel .unload = true → s.travAt 10 = some (i, v) → v.platen = some (platenAt s.ring 10) →
    s.order? v.slot = some o → o.lines[v.line.val]? = some x → (o.state = .inWork ∨ o.state = .cancelling) →
    i ∉ s.tunnel.queue.map (·.trav) →
    (v.stage = .rejectPending → ∀ lines : List LineItem,
      lines = o.lines.set v.line.val { x with inWork := x.inWork - 1, reprints := min 65535 (x.reprints + 1) } →
      ∃ t : State, exec (.unloadDone .tunnel []) s = .next t ∧
        Keeps [.ring, .table, .exits, .book, .notices, .ports] s t ∧ t.table = tableAfter i none s ∧
        t.ring = { s.ring with carried := s.ring.carried.set (platenAt s.ring 10) none, revs := t.ring.revs } ∧
        t.exits = exitsAfter ⟨v.serial, .scrap, some (o.number, v.line), none, v.faults.head?⟩ s ∧
        t.ports = answered .tunnel 0x39 [] .ok [] s ∧
        (o.state = .inWork →
          t.book = { s.book with slots := s.book.slots.set v.slot ⟨(s.book.slots.get v.slot).rev + 1, some { o with
            lines := lines, hold := o.hold || decide (s.constants.reprintLimit < min 65535 (x.reprints + 1)),
            state := if lines.all (fun y => y.inWork = 0) then .open else .inWork }⟩ } ∧
          t.notices = raisedIn ((if s.constants.reprintLimit < min 65535 (x.reprints + 1) then
            [(.gateway, .orderHeld)] else []) ++ exitNotices s) s.notices) ∧
        (o.state = .cancelling →
          t.book = { s.book with slots := s.book.slots.set v.slot (if lines.all (fun y => y.inWork = 0) then
            ⟨(s.book.slots.get v.slot).rev + 2, none⟩
            else ⟨(s.book.slots.get v.slot).rev + 1, some { o with lines := lines }⟩) } ∧
          t.notices = raisedIn ((if lines.all (fun y => y.inWork = 0) then [(.gateway, .orderCancelDone)] else []) ++
            exitNotices s) s.notices)) ∧
    (v.stage = .returnPending → ∀ lines : List LineItem,
      lines = o.lines.set v.line.val { x with inWork := x.inWork - 1 } →
      ∃ t : State, exec (.unloadDone .tunnel []) s = .next t ∧
        Keeps [.ring, .table, .exits, .book, .notices, .ports] s t ∧ t.table = tableAfter i none s ∧
        t.ring = { s.ring with carried := s.ring.carried.set (platenAt s.ring 10) none, revs := t.ring.revs } ∧
        t.exits = exitsAfter ⟨v.serial, .return, some (o.number, v.line), none, v.faults.head?⟩ s ∧
        t.ports = answered .tunnel 0x39 [] .ok [] s ∧
        (o.state = .inWork →
          t.book = { s.book with slots := s.book.slots.set v.slot ⟨(s.book.slots.get v.slot).rev + 1, some { o with
            lines := lines, state := if lines.all (fun y => y.inWork = 0) then .open else .inWork }⟩ } ∧
          t.notices = raisedIn (exitNotices s) s.notices) ∧
        (o.state = .cancelling →
          t.book = { s.book with slots := s.book.slots.set v.slot (if lines.all (fun y => y.inWork = 0) then
            ⟨(s.book.slots.get v.slot).rev + 2, none⟩
            else ⟨(s.book.slots.get v.slot).rev + 1, some { o with lines := lines }⟩) } ∧
          t.notices = raisedIn ((if lines.all (fun y => y.inWork = 0) then [(.gateway, .orderCancelDone)] else []) ++
            exitNotices s) s.notices))) ∧
  ∀ s : State, (s.mode = .run ∨ s.mode = .hold) →
    (s.holdsClaim .tunnel .unload = false →
      exec (.unloadDone .tunnel []) s = .next (refused .tunnel 0x39 [] .state [] s)) ∧
    (s.travAt 10 = none → exec (.unloadDone .tunnel []) s = .next (refused .tunnel 0x39 [] .state [] s)) ∧
    ∀ (i : Fin 32) (v : Traveller), s.travAt 10 = some (i, v) → v.stage ≠ .rejectPending → v.stage ≠ .returnPending →
      exec (.unloadDone .tunnel []) s = .next (refused .tunnel 0x39 [] .state [] s)

/-- R18, R19: EXIT_POP answers the oldest exit entry and removes it, and answers an empty payload when there is none; an
entry that joins a full list pushes out the oldest and raises EXIT_OVERRUN beside EXIT_READY. -/
def Obligations.ExitListIsFirstInFirstOut : Prop :=
  ∀ (x : ExitEntry) (s : State),
    ((s.mode = .run ∨ s.mode = .hold) →
      ∃ t : State, exec (.exitPop .tunnel []) s = .next t ∧ Keeps [.exits, .ports] s t ∧ t.exits = s.exits.tail ∧
        t.ports = answered .tunnel 0x3B [] .ok ((s.exits.head?.map exitBytes).getD []) s) ∧
    (s.exits.length < 8 → (joinExit x s).exits = s.exits ++ [x] ∧
      (joinExit x s).notices = raisedIn [(.tunnel, .exitReady)] s.notices) ∧
    (s.exits.length = 8 → (joinExit x s).exits = s.exits.tail ++ [x] ∧ (joinExit x s).exits.length = 8 ∧
      (joinExit x s).notices = raisedIn [(.tunnel, .exitReady), (.tunnel, .exitOverrun)] s.notices)

/-! ### Revisions (R3, R22, R45, R97, R121) -/

/-- R3, R45, R97, R121: whatever happens but a power-on or a RESUME, the revision of each traveller slot, each engine record,
each RING record and the TUNNEL record moves by one when its record changed in the event and stands when it did not. -/
def Obligations.RevisionsFollowChanges : Prop :=
  ∀ (c : Instr) (s t : State), c ≠ .powerOn → c ≠ .resetPin → (∀ (p : Port) (l : List Byte), c ≠ .resume p l) →
    exec c s = .next t →
    (∀ i : Fin 32, t.table.slots.get i = slotAfter (s.table.slots.get i) (t.trav? i)) ∧
    (∀ e : Engine, (t.engine e).rev =
      if { t.engine e with rev := 0 } = { s.engine e with rev := 0 } then (s.engine e).rev else (s.engine e).rev + 1) ∧
    (∀ k : Fin 12, t.ring.revs.get k =
      if ringView t k = ringView s k then s.ring.revs.get k else s.ring.revs.get k + 1) ∧
    t.tunnel.rev =
      if t.tunnel.zones = s.tunnel.zones ∧ t.tunnel.staleTimer.isSome = s.tunnel.staleTimer.isSome ∧
          t.tunnel.sampled = s.tunnel.sampled ∧ queueView t = queueView s then s.tunnel.rev else s.tunnel.rev + 1

/-! ### Invariants -/

/-- The conditions claimed along every run hold after power-on. -/
def Obligations.ResetMeetsInvariants : Prop :=
  PassGuarded State.reset ∧ ListsBounded State.reset ∧ ConfigurationInRange State.reset ∧ SerialsDistinct State.reset ∧
    BookConsistent State.reset ∧ FloorConsistent State.reset

/-- R65, R78, R157, R158: every step keeps at most one pass in flight, and that only in RUN under the prep claim. -/
def Obligations.StepKeepsPassGuarded : Prop :=
  ∀ s t : State, PassGuarded s → step s = .next t → PassGuarded t

/-- R14, R18, R115, R139: every step keeps the exit list, the tunnel queue, the fault lists and the response holders within
their lengths, and each receiver at the bytes it counts, stored up to the 202nd. -/
def Obligations.StepKeepsListsBounded : Prop :=
  ∀ s t : State, ListsBounded s → step s = .next t → ListsBounded t

/-- R147, R148, R161, R162: every step keeps the constants and every valid fabric class within their ranges, with the
zone ends in order. -/
def Obligations.StepKeepsConfigurationInRange : Prop :=
  ∀ s t : State, ConfigurationInRange s → step s = .next t → ConfigurationInRange t

/-- R4, R18: every step keeps the serials of open travellers and exit entries distinct. -/
def Obligations.StepKeepsSerialsDistinct : Prop :=
  ∀ s t : State, SerialsDistinct s → step s = .next t → SerialsDistinct t

/-- R13, R22 to R24, R39: every step keeps the order book's counts and states in agreement with the open travellers. -/
def Obligations.StepKeepsBookConsistent : Prop :=
  ∀ s t : State, BookConsistent s → step s = .next t → BookConsistent t

/-- R5, R11, R12, R47, R51, R95, R115: every step keeps ring, booth, engines and tunnel in agreement about where every
garment is and what holds it. -/
def Obligations.StepKeepsFloorConsistent : Prop :=
  ∀ s t : State, FloorConsistent s → step s = .next t → FloorConsistent t
end

