-- ==== Sys2Proof/Laws/State.lean ====
section
/-! SUPPORT. One lemma per field and update of the state, each true by unfolding. -/

namespace Sys2Proof.Machine

open Sys2Proof

/-! ### `setBook` -/

@[simp] theorem setBook_book (s : State) (x : OrderBook) : (s.setBook x).book = x := rfl
@[simp] theorem setBook_table (s : State) (x : OrderBook) : (s.setBook x).table = s.table := rfl
@[simp] theorem setBook_exits (s : State) (x : OrderBook) : (s.setBook x).exits = s.exits := rfl
@[simp] theorem setBook_ring (s : State) (x : OrderBook) : (s.setBook x).ring = s.ring := rfl
@[simp] theorem setBook_pre (s : State) (x : OrderBook) : (s.setBook x).pre = s.pre := rfl
@[simp] theorem setBook_gauge (s : State) (x : OrderBook) : (s.setBook x).gauge = s.gauge := rfl
@[simp] theorem setBook_engines (s : State) (x : OrderBook) : (s.setBook x).engines = s.engines := rfl
@[simp] theorem setBook_tunnel (s : State) (x : OrderBook) : (s.setBook x).tunnel = s.tunnel := rfl
@[simp] theorem setBook_ports (s : State) (x : OrderBook) : (s.setBook x).ports = s.ports := rfl
@[simp] theorem setBook_notices (s : State) (x : OrderBook) : (s.setBook x).notices = s.notices := rfl
@[simp] theorem setBook_lines (s : State) (x : OrderBook) : (s.setBook x).lines = s.lines := rfl
@[simp] theorem setBook_setup (s : State) (x : OrderBook) : (s.setBook x).setup = s.setup := rfl
@[simp] theorem setBook_bus (s : State) (x : OrderBook) : (s.setBook x).bus = s.bus := rfl
@[simp] theorem setBook_pending (s : State) (x : OrderBook) : (s.setBook x).pending = s.pending := rfl

/-! ### `setTable` -/

@[simp] theorem setTable_book (s : State) (x : TravTable) : (s.setTable x).book = s.book := rfl
@[simp] theorem setTable_table (s : State) (x : TravTable) : (s.setTable x).table = x := rfl
@[simp] theorem setTable_exits (s : State) (x : TravTable) : (s.setTable x).exits = s.exits := rfl
@[simp] theorem setTable_ring (s : State) (x : TravTable) : (s.setTable x).ring = s.ring := rfl
@[simp] theorem setTable_pre (s : State) (x : TravTable) : (s.setTable x).pre = s.pre := rfl
@[simp] theorem setTable_gauge (s : State) (x : TravTable) : (s.setTable x).gauge = s.gauge := rfl
@[simp] theorem setTable_engines (s : State) (x : TravTable) : (s.setTable x).engines = s.engines := rfl
@[simp] theorem setTable_tunnel (s : State) (x : TravTable) : (s.setTable x).tunnel = s.tunnel := rfl
@[simp] theorem setTable_ports (s : State) (x : TravTable) : (s.setTable x).ports = s.ports := rfl
@[simp] theorem setTable_notices (s : State) (x : TravTable) : (s.setTable x).notices = s.notices := rfl
@[simp] theorem setTable_lines (s : State) (x : TravTable) : (s.setTable x).lines = s.lines := rfl
@[simp] theorem setTable_setup (s : State) (x : TravTable) : (s.setTable x).setup = s.setup := rfl
@[simp] theorem setTable_bus (s : State) (x : TravTable) : (s.setTable x).bus = s.bus := rfl
@[simp] theorem setTable_pending (s : State) (x : TravTable) : (s.setTable x).pending = s.pending := rfl

/-! ### `setExits` -/

@[simp] theorem setExits_book (s : State) (x : List ExitEntry) : (s.setExits x).book = s.book := rfl
@[simp] theorem setExits_table (s : State) (x : List ExitEntry) : (s.setExits x).table = s.table := rfl
@[simp] theorem setExits_exits (s : State) (x : List ExitEntry) : (s.setExits x).exits = x := rfl
@[simp] theorem setExits_ring (s : State) (x : List ExitEntry) : (s.setExits x).ring = s.ring := rfl
@[simp] theorem setExits_pre (s : State) (x : List ExitEntry) : (s.setExits x).pre = s.pre := rfl
@[simp] theorem setExits_gauge (s : State) (x : List ExitEntry) : (s.setExits x).gauge = s.gauge := rfl
@[simp] theorem setExits_engines (s : State) (x : List ExitEntry) : (s.setExits x).engines = s.engines := rfl
@[simp] theorem setExits_tunnel (s : State) (x : List ExitEntry) : (s.setExits x).tunnel = s.tunnel := rfl
@[simp] theorem setExits_ports (s : State) (x : List ExitEntry) : (s.setExits x).ports = s.ports := rfl
@[simp] theorem setExits_notices (s : State) (x : List ExitEntry) : (s.setExits x).notices = s.notices := rfl
@[simp] theorem setExits_lines (s : State) (x : List ExitEntry) : (s.setExits x).lines = s.lines := rfl
@[simp] theorem setExits_setup (s : State) (x : List ExitEntry) : (s.setExits x).setup = s.setup := rfl
@[simp] theorem setExits_bus (s : State) (x : List ExitEntry) : (s.setExits x).bus = s.bus := rfl
@[simp] theorem setExits_pending (s : State) (x : List ExitEntry) : (s.setExits x).pending = s.pending := rfl

/-! ### `setRing` -/

@[simp] theorem setRing_book (s : State) (x : Ring) : (s.setRing x).book = s.book := rfl
@[simp] theorem setRing_table (s : State) (x : Ring) : (s.setRing x).table = s.table := rfl
@[simp] theorem setRing_exits (s : State) (x : Ring) : (s.setRing x).exits = s.exits := rfl
@[simp] theorem setRing_ring (s : State) (x : Ring) : (s.setRing x).ring = x := rfl
@[simp] theorem setRing_pre (s : State) (x : Ring) : (s.setRing x).pre = s.pre := rfl
@[simp] theorem setRing_gauge (s : State) (x : Ring) : (s.setRing x).gauge = s.gauge := rfl
@[simp] theorem setRing_engines (s : State) (x : Ring) : (s.setRing x).engines = s.engines := rfl
@[simp] theorem setRing_tunnel (s : State) (x : Ring) : (s.setRing x).tunnel = s.tunnel := rfl
@[simp] theorem setRing_ports (s : State) (x : Ring) : (s.setRing x).ports = s.ports := rfl
@[simp] theorem setRing_notices (s : State) (x : Ring) : (s.setRing x).notices = s.notices := rfl
@[simp] theorem setRing_lines (s : State) (x : Ring) : (s.setRing x).lines = s.lines := rfl
@[simp] theorem setRing_setup (s : State) (x : Ring) : (s.setRing x).setup = s.setup := rfl
@[simp] theorem setRing_bus (s : State) (x : Ring) : (s.setRing x).bus = s.bus := rfl
@[simp] theorem setRing_pending (s : State) (x : Ring) : (s.setRing x).pending = s.pending := rfl

/-! ### `setPre` -/

@[simp] theorem setPre_book (s : State) (x : PretreatUnit) : (s.setPre x).book = s.book := rfl
@[simp] theorem setPre_table (s : State) (x : PretreatUnit) : (s.setPre x).table = s.table := rfl
@[simp] theorem setPre_exits (s : State) (x : PretreatUnit) : (s.setPre x).exits = s.exits := rfl
@[simp] theorem setPre_ring (s : State) (x : PretreatUnit) : (s.setPre x).ring = s.ring := rfl
@[simp] theorem setPre_pre (s : State) (x : PretreatUnit) : (s.setPre x).pre = x := rfl
@[simp] theorem setPre_gauge (s : State) (x : PretreatUnit) : (s.setPre x).gauge = s.gauge := rfl
@[simp] theorem setPre_engines (s : State) (x : PretreatUnit) : (s.setPre x).engines = s.engines := rfl
@[simp] theorem setPre_tunnel (s : State) (x : PretreatUnit) : (s.setPre x).tunnel = s.tunnel := rfl
@[simp] theorem setPre_ports (s : State) (x : PretreatUnit) : (s.setPre x).ports = s.ports := rfl
@[simp] theorem setPre_notices (s : State) (x : PretreatUnit) : (s.setPre x).notices = s.notices := rfl
@[simp] theorem setPre_lines (s : State) (x : PretreatUnit) : (s.setPre x).lines = s.lines := rfl
@[simp] theorem setPre_setup (s : State) (x : PretreatUnit) : (s.setPre x).setup = s.setup := rfl
@[simp] theorem setPre_bus (s : State) (x : PretreatUnit) : (s.setPre x).bus = s.bus := rfl
@[simp] theorem setPre_pending (s : State) (x : PretreatUnit) : (s.setPre x).pending = s.pending := rfl

/-! ### `setGauge` -/

@[simp] theorem setGauge_book (s : State) (x : Gauge) : (s.setGauge x).book = s.book := rfl
@[simp] theorem setGauge_table (s : State) (x : Gauge) : (s.setGauge x).table = s.table := rfl
@[simp] theorem setGauge_exits (s : State) (x : Gauge) : (s.setGauge x).exits = s.exits := rfl
@[simp] theorem setGauge_ring (s : State) (x : Gauge) : (s.setGauge x).ring = s.ring := rfl
@[simp] theorem setGauge_pre (s : State) (x : Gauge) : (s.setGauge x).pre = s.pre := rfl
@[simp] theorem setGauge_gauge (s : State) (x : Gauge) : (s.setGauge x).gauge = x := rfl
@[simp] theorem setGauge_engines (s : State) (x : Gauge) : (s.setGauge x).engines = s.engines := rfl
@[simp] theorem setGauge_tunnel (s : State) (x : Gauge) : (s.setGauge x).tunnel = s.tunnel := rfl
@[simp] theorem setGauge_ports (s : State) (x : Gauge) : (s.setGauge x).ports = s.ports := rfl
@[simp] theorem setGauge_notices (s : State) (x : Gauge) : (s.setGauge x).notices = s.notices := rfl
@[simp] theorem setGauge_lines (s : State) (x : Gauge) : (s.setGauge x).lines = s.lines := rfl
@[simp] theorem setGauge_setup (s : State) (x : Gauge) : (s.setGauge x).setup = s.setup := rfl
@[simp] theorem setGauge_bus (s : State) (x : Gauge) : (s.setGauge x).bus = s.bus := rfl
@[simp] theorem setGauge_pending (s : State) (x : Gauge) : (s.setGauge x).pending = s.pending := rfl

/-! ### `setEngines` -/

@[simp] theorem setEngines_book (s : State) (x : Tab EngineRec 2) : (s.setEngines x).book = s.book := rfl
@[simp] theorem setEngines_table (s : State) (x : Tab EngineRec 2) : (s.setEngines x).table = s.table := rfl
@[simp] theorem setEngines_exits (s : State) (x : Tab EngineRec 2) : (s.setEngines x).exits = s.exits := rfl
@[simp] theorem setEngines_ring (s : State) (x : Tab EngineRec 2) : (s.setEngines x).ring = s.ring := rfl
@[simp] theorem setEngines_pre (s : State) (x : Tab EngineRec 2) : (s.setEngines x).pre = s.pre := rfl
@[simp] theorem setEngines_gauge (s : State) (x : Tab EngineRec 2) : (s.setEngines x).gauge = s.gauge := rfl
@[simp] theorem setEngines_engines (s : State) (x : Tab EngineRec 2) : (s.setEngines x).engines = x := rfl
@[simp] theorem setEngines_tunnel (s : State) (x : Tab EngineRec 2) : (s.setEngines x).tunnel = s.tunnel := rfl
@[simp] theorem setEngines_ports (s : State) (x : Tab EngineRec 2) : (s.setEngines x).ports = s.ports := rfl
@[simp] theorem setEngines_notices (s : State) (x : Tab EngineRec 2) : (s.setEngines x).notices = s.notices := rfl
@[simp] theorem setEngines_lines (s : State) (x : Tab EngineRec 2) : (s.setEngines x).lines = s.lines := rfl
@[simp] theorem setEngines_setup (s : State) (x : Tab EngineRec 2) : (s.setEngines x).setup = s.setup := rfl
@[simp] theorem setEngines_bus (s : State) (x : Tab EngineRec 2) : (s.setEngines x).bus = s.bus := rfl
@[simp] theorem setEngines_pending (s : State) (x : Tab EngineRec 2) : (s.setEngines x).pending = s.pending := rfl

/-! ### `setTunnel` -/

@[simp] theorem setTunnel_book (s : State) (x : Tunnel) : (s.setTunnel x).book = s.book := rfl
@[simp] theorem setTunnel_table (s : State) (x : Tunnel) : (s.setTunnel x).table = s.table := rfl
@[simp] theorem setTunnel_exits (s : State) (x : Tunnel) : (s.setTunnel x).exits = s.exits := rfl
@[simp] theorem setTunnel_ring (s : State) (x : Tunnel) : (s.setTunnel x).ring = s.ring := rfl
@[simp] theorem setTunnel_pre (s : State) (x : Tunnel) : (s.setTunnel x).pre = s.pre := rfl
@[simp] theorem setTunnel_gauge (s : State) (x : Tunnel) : (s.setTunnel x).gauge = s.gauge := rfl
@[simp] theorem setTunnel_engines (s : State) (x : Tunnel) : (s.setTunnel x).engines = s.engines := rfl
@[simp] theorem setTunnel_tunnel (s : State) (x : Tunnel) : (s.setTunnel x).tunnel = x := rfl
@[simp] theorem setTunnel_ports (s : State) (x : Tunnel) : (s.setTunnel x).ports = s.ports := rfl
@[simp] theorem setTunnel_notices (s : State) (x : Tunnel) : (s.setTunnel x).notices = s.notices := rfl
@[simp] theorem setTunnel_lines (s : State) (x : Tunnel) : (s.setTunnel x).lines = s.lines := rfl
@[simp] theorem setTunnel_setup (s : State) (x : Tunnel) : (s.setTunnel x).setup = s.setup := rfl
@[simp] theorem setTunnel_bus (s : State) (x : Tunnel) : (s.setTunnel x).bus = s.bus := rfl
@[simp] theorem setTunnel_pending (s : State) (x : Tunnel) : (s.setTunnel x).pending = s.pending := rfl

/-! ### `setPorts` -/

@[simp] theorem setPorts_book (s : State) (x : Tab PortState 5) : (s.setPorts x).book = s.book := rfl
@[simp] theorem setPorts_table (s : State) (x : Tab PortState 5) : (s.setPorts x).table = s.table := rfl
@[simp] theorem setPorts_exits (s : State) (x : Tab PortState 5) : (s.setPorts x).exits = s.exits := rfl
@[simp] theorem setPorts_ring (s : State) (x : Tab PortState 5) : (s.setPorts x).ring = s.ring := rfl
@[simp] theorem setPorts_pre (s : State) (x : Tab PortState 5) : (s.setPorts x).pre = s.pre := rfl
@[simp] theorem setPorts_gauge (s : State) (x : Tab PortState 5) : (s.setPorts x).gauge = s.gauge := rfl
@[simp] theorem setPorts_engines (s : State) (x : Tab PortState 5) : (s.setPorts x).engines = s.engines := rfl
@[simp] theorem setPorts_tunnel (s : State) (x : Tab PortState 5) : (s.setPorts x).tunnel = s.tunnel := rfl
@[simp] theorem setPorts_ports (s : State) (x : Tab PortState 5) : (s.setPorts x).ports = x := rfl
@[simp] theorem setPorts_notices (s : State) (x : Tab PortState 5) : (s.setPorts x).notices = s.notices := rfl
@[simp] theorem setPorts_lines (s : State) (x : Tab PortState 5) : (s.setPorts x).lines = s.lines := rfl
@[simp] theorem setPorts_setup (s : State) (x : Tab PortState 5) : (s.setPorts x).setup = s.setup := rfl
@[simp] theorem setPorts_bus (s : State) (x : Tab PortState 5) : (s.setPorts x).bus = s.bus := rfl
@[simp] theorem setPorts_pending (s : State) (x : Tab PortState 5) : (s.setPorts x).pending = s.pending := rfl

/-! ### `setNotices` -/

@[simp] theorem setNotices_book (s : State) (x : Tab NoticeState 5) : (s.setNotices x).book = s.book := rfl
@[simp] theorem setNotices_table (s : State) (x : Tab NoticeState 5) : (s.setNotices x).table = s.table := rfl
@[simp] theorem setNotices_exits (s : State) (x : Tab NoticeState 5) : (s.setNotices x).exits = s.exits := rfl
@[simp] theorem setNotices_ring (s : State) (x : Tab NoticeState 5) : (s.setNotices x).ring = s.ring := rfl
@[simp] theorem setNotices_pre (s : State) (x : Tab NoticeState 5) : (s.setNotices x).pre = s.pre := rfl
@[simp] theorem setNotices_gauge (s : State) (x : Tab NoticeState 5) : (s.setNotices x).gauge = s.gauge := rfl
@[simp] theorem setNotices_engines (s : State) (x : Tab NoticeState 5) : (s.setNotices x).engines = s.engines := rfl
@[simp] theorem setNotices_tunnel (s : State) (x : Tab NoticeState 5) : (s.setNotices x).tunnel = s.tunnel := rfl
@[simp] theorem setNotices_ports (s : State) (x : Tab NoticeState 5) : (s.setNotices x).ports = s.ports := rfl
@[simp] theorem setNotices_notices (s : State) (x : Tab NoticeState 5) : (s.setNotices x).notices = x := rfl
@[simp] theorem setNotices_lines (s : State) (x : Tab NoticeState 5) : (s.setNotices x).lines = s.lines := rfl
@[simp] theorem setNotices_setup (s : State) (x : Tab NoticeState 5) : (s.setNotices x).setup = s.setup := rfl
@[simp] theorem setNotices_bus (s : State) (x : Tab NoticeState 5) : (s.setNotices x).bus = s.bus := rfl
@[simp] theorem setNotices_pending (s : State) (x : Tab NoticeState 5) : (s.setNotices x).pending = s.pending := rfl

/-! ### `setLines` -/

@[simp] theorem setLines_book (s : State) (x : Tab Line 24) : (s.setLines x).book = s.book := rfl
@[simp] theorem setLines_table (s : State) (x : Tab Line 24) : (s.setLines x).table = s.table := rfl
@[simp] theorem setLines_exits (s : State) (x : Tab Line 24) : (s.setLines x).exits = s.exits := rfl
@[simp] theorem setLines_ring (s : State) (x : Tab Line 24) : (s.setLines x).ring = s.ring := rfl
@[simp] theorem setLines_pre (s : State) (x : Tab Line 24) : (s.setLines x).pre = s.pre := rfl
@[simp] theorem setLines_gauge (s : State) (x : Tab Line 24) : (s.setLines x).gauge = s.gauge := rfl
@[simp] theorem setLines_engines (s : State) (x : Tab Line 24) : (s.setLines x).engines = s.engines := rfl
@[simp] theorem setLines_tunnel (s : State) (x : Tab Line 24) : (s.setLines x).tunnel = s.tunnel := rfl
@[simp] theorem setLines_ports (s : State) (x : Tab Line 24) : (s.setLines x).ports = s.ports := rfl
@[simp] theorem setLines_notices (s : State) (x : Tab Line 24) : (s.setLines x).notices = s.notices := rfl
@[simp] theorem setLines_lines (s : State) (x : Tab Line 24) : (s.setLines x).lines = x := rfl
@[simp] theorem setLines_setup (s : State) (x : Tab Line 24) : (s.setLines x).setup = s.setup := rfl
@[simp] theorem setLines_bus (s : State) (x : Tab Line 24) : (s.setLines x).bus = s.bus := rfl
@[simp] theorem setLines_pending (s : State) (x : Tab Line 24) : (s.setLines x).pending = s.pending := rfl

/-! ### `setSetup` -/

@[simp] theorem setSetup_book (s : State) (x : Setup) : (s.setSetup x).book = s.book := rfl
@[simp] theorem setSetup_table (s : State) (x : Setup) : (s.setSetup x).table = s.table := rfl
@[simp] theorem setSetup_exits (s : State) (x : Setup) : (s.setSetup x).exits = s.exits := rfl
@[simp] theorem setSetup_ring (s : State) (x : Setup) : (s.setSetup x).ring = s.ring := rfl
@[simp] theorem setSetup_pre (s : State) (x : Setup) : (s.setSetup x).pre = s.pre := rfl
@[simp] theorem setSetup_gauge (s : State) (x : Setup) : (s.setSetup x).gauge = s.gauge := rfl
@[simp] theorem setSetup_engines (s : State) (x : Setup) : (s.setSetup x).engines = s.engines := rfl
@[simp] theorem setSetup_tunnel (s : State) (x : Setup) : (s.setSetup x).tunnel = s.tunnel := rfl
@[simp] theorem setSetup_ports (s : State) (x : Setup) : (s.setSetup x).ports = s.ports := rfl
@[simp] theorem setSetup_notices (s : State) (x : Setup) : (s.setSetup x).notices = s.notices := rfl
@[simp] theorem setSetup_lines (s : State) (x : Setup) : (s.setSetup x).lines = s.lines := rfl
@[simp] theorem setSetup_setup (s : State) (x : Setup) : (s.setSetup x).setup = x := rfl
@[simp] theorem setSetup_bus (s : State) (x : Setup) : (s.setSetup x).bus = s.bus := rfl
@[simp] theorem setSetup_pending (s : State) (x : Setup) : (s.setSetup x).pending = s.pending := rfl

/-! ### `setBus` -/

@[simp] theorem setBus_book (s : State) (x : Tab (List Transfer) 5) : (s.setBus x).book = s.book := rfl
@[simp] theorem setBus_table (s : State) (x : Tab (List Transfer) 5) : (s.setBus x).table = s.table := rfl
@[simp] theorem setBus_exits (s : State) (x : Tab (List Transfer) 5) : (s.setBus x).exits = s.exits := rfl
@[simp] theorem setBus_ring (s : State) (x : Tab (List Transfer) 5) : (s.setBus x).ring = s.ring := rfl
@[simp] theorem setBus_pre (s : State) (x : Tab (List Transfer) 5) : (s.setBus x).pre = s.pre := rfl
@[simp] theorem setBus_gauge (s : State) (x : Tab (List Transfer) 5) : (s.setBus x).gauge = s.gauge := rfl
@[simp] theorem setBus_engines (s : State) (x : Tab (List Transfer) 5) : (s.setBus x).engines = s.engines := rfl
@[simp] theorem setBus_tunnel (s : State) (x : Tab (List Transfer) 5) : (s.setBus x).tunnel = s.tunnel := rfl
@[simp] theorem setBus_ports (s : State) (x : Tab (List Transfer) 5) : (s.setBus x).ports = s.ports := rfl
@[simp] theorem setBus_notices (s : State) (x : Tab (List Transfer) 5) : (s.setBus x).notices = s.notices := rfl
@[simp] theorem setBus_lines (s : State) (x : Tab (List Transfer) 5) : (s.setBus x).lines = s.lines := rfl
@[simp] theorem setBus_setup (s : State) (x : Tab (List Transfer) 5) : (s.setBus x).setup = s.setup := rfl
@[simp] theorem setBus_bus (s : State) (x : Tab (List Transfer) 5) : (s.setBus x).bus = x := rfl
@[simp] theorem setBus_pending (s : State) (x : Tab (List Transfer) 5) : (s.setBus x).pending = s.pending := rfl

/-! ### `setPending` -/

@[simp] theorem setPending_book (s : State) (x : List Instr) : (s.setPending x).book = s.book := rfl
@[simp] theorem setPending_table (s : State) (x : List Instr) : (s.setPending x).table = s.table := rfl
@[simp] theorem setPending_exits (s : State) (x : List Instr) : (s.setPending x).exits = s.exits := rfl
@[simp] theorem setPending_ring (s : State) (x : List Instr) : (s.setPending x).ring = s.ring := rfl
@[simp] theorem setPending_pre (s : State) (x : List Instr) : (s.setPending x).pre = s.pre := rfl
@[simp] theorem setPending_gauge (s : State) (x : List Instr) : (s.setPending x).gauge = s.gauge := rfl
@[simp] theorem setPending_engines (s : State) (x : List Instr) : (s.setPending x).engines = s.engines := rfl
@[simp] theorem setPending_tunnel (s : State) (x : List Instr) : (s.setPending x).tunnel = s.tunnel := rfl
@[simp] theorem setPending_ports (s : State) (x : List Instr) : (s.setPending x).ports = s.ports := rfl
@[simp] theorem setPending_notices (s : State) (x : List Instr) : (s.setPending x).notices = s.notices := rfl
@[simp] theorem setPending_lines (s : State) (x : List Instr) : (s.setPending x).lines = s.lines := rfl
@[simp] theorem setPending_setup (s : State) (x : List Instr) : (s.setPending x).setup = s.setup := rfl
@[simp] theorem setPending_bus (s : State) (x : List Instr) : (s.setPending x).bus = s.bus := rfl
@[simp] theorem setPending_pending (s : State) (x : List Instr) : (s.setPending x).pending = x := rfl

/-! ### Equal updates -/

@[simp] theorem setBook_self (s : State) : s.setBook s.book = s := rfl
@[simp] theorem setBook_setBook (s : State) (x y : OrderBook) : (s.setBook x).setBook y = s.setBook y := rfl
@[simp] theorem setTable_self (s : State) : s.setTable s.table = s := rfl
@[simp] theorem setTable_setTable (s : State) (x y : TravTable) : (s.setTable x).setTable y = s.setTable y := rfl
@[simp] theorem setExits_self (s : State) : s.setExits s.exits = s := rfl
@[simp] theorem setExits_setExits (s : State) (x y : List ExitEntry) : (s.setExits x).setExits y = s.setExits y := rfl
@[simp] theorem setRing_self (s : State) : s.setRing s.ring = s := rfl
@[simp] theorem setRing_setRing (s : State) (x y : Ring) : (s.setRing x).setRing y = s.setRing y := rfl
@[simp] theorem setPre_self (s : State) : s.setPre s.pre = s := rfl
@[simp] theorem setPre_setPre (s : State) (x y : PretreatUnit) : (s.setPre x).setPre y = s.setPre y := rfl
@[simp] theorem setGauge_self (s : State) : s.setGauge s.gauge = s := rfl
@[simp] theorem setGauge_setGauge (s : State) (x y : Gauge) : (s.setGauge x).setGauge y = s.setGauge y := rfl
@[simp] theorem setEngines_self (s : State) : s.setEngines s.engines = s := rfl
@[simp] theorem setEngines_setEngines (s : State) (x y : Tab EngineRec 2) : (s.setEngines x).setEngines y = s.setEngines y := rfl
@[simp] theorem setTunnel_self (s : State) : s.setTunnel s.tunnel = s := rfl
@[simp] theorem setTunnel_setTunnel (s : State) (x y : Tunnel) : (s.setTunnel x).setTunnel y = s.setTunnel y := rfl
@[simp] theorem setPorts_self (s : State) : s.setPorts s.ports = s := rfl
@[simp] theorem setPorts_setPorts (s : State) (x y : Tab PortState 5) : (s.setPorts x).setPorts y = s.setPorts y := rfl
@[simp] theorem setNotices_self (s : State) : s.setNotices s.notices = s := rfl
@[simp] theorem setNotices_setNotices (s : State) (x y : Tab NoticeState 5) : (s.setNotices x).setNotices y = s.setNotices y := rfl
@[simp] theorem setLines_self (s : State) : s.setLines s.lines = s := rfl
@[simp] theorem setLines_setLines (s : State) (x y : Tab Line 24) : (s.setLines x).setLines y = s.setLines y := rfl
@[simp] theorem setSetup_self (s : State) : s.setSetup s.setup = s := rfl
@[simp] theorem setSetup_setSetup (s : State) (x y : Setup) : (s.setSetup x).setSetup y = s.setSetup y := rfl
@[simp] theorem setBus_self (s : State) : s.setBus s.bus = s := rfl
@[simp] theorem setBus_setBus (s : State) (x y : Tab (List Transfer) 5) : (s.setBus x).setBus y = s.setBus y := rfl
@[simp] theorem setPending_self (s : State) : s.setPending s.pending = s := rfl
@[simp] theorem setPending_setPending (s : State) (x y : List Instr) : (s.setPending x).setPending y = s.setPending y := rfl

/-- Two states with equal fields are equal. -/
theorem State.ext_fields {s t : State} (h1 : s.book = t.book) (h2 : s.table = t.table) (h3 : s.exits = t.exits)
    (h4 : s.ring = t.ring) (h5 : s.pre = t.pre) (h6 : s.gauge = t.gauge) (h7 : s.engines = t.engines)
    (h8 : s.tunnel = t.tunnel) (h9 : s.ports = t.ports) (h10 : s.notices = t.notices) (h11 : s.lines = t.lines)
    (h12 : s.setup = t.setup) (h13 : s.bus = t.bus) (h14 : s.pending = t.pending) : s = t := by
  cases s; cases t; simp_all

end Sys2Proof.Machine
end

