-- ==== Sys2Proof/Laws/Tab.lean ====
section
/-! SUPPORT. The small laws of `Tab`: what each entry reads after a write, a fill or a build, and extensionality. -/

namespace Sys2Proof

theorem Tab.ext_get {α : Type} {n : Nat} {t u : Tab α n} (h : ∀ i, t.get i = u.get i) : t = u := by
  obtain ⟨a, ha⟩ := t
  obtain ⟨b, hb⟩ := u
  have : a = b := by
    apply List.ext_get (by omega)
    intro k h1 h2
    exact h ⟨k, by omega⟩
  subst this
  rfl

theorem Tab.get_eq_getElem {α : Type} {n : Nat} (t : Tab α n) (i : Fin n) :
    t.get i = t.items[i.val]'(by have := t.len; omega) := rfl

@[simp] theorem Tab.get_set_eq {α : Type} {n : Nat} (t : Tab α n) (i : Fin n) (v : α) :
    (t.set i v).get i = v := by
  simp [Tab.get_eq_getElem, Tab.set]

theorem Tab.get_set_ne {α : Type} {n : Nat} (t : Tab α n) {i j : Fin n} (v : α) (h : j ≠ i) :
    (t.set i v).get j = t.get j := by
  have h' : (i : Nat) ≠ j := fun e => h (Fin.ext e.symm)
  simp [Tab.get_eq_getElem, Tab.set, h']

theorem Tab.get_set {α : Type} {n : Nat} (t : Tab α n) (i j : Fin n) (v : α) :
    (t.set i v).get j = if j = i then v else t.get j := by
  by_cases h : j = i
  · subst h; simp
  · simp [h, Tab.get_set_ne]

@[simp] theorem Tab.get_ofFn {α : Type} {n : Nat} (f : Fin n → α) (i : Fin n) :
    (Tab.ofFn f).get i = f i := by
  simp [Tab.get_eq_getElem, Tab.ofFn]

@[simp] theorem Tab.get_fill {α : Type} {n : Nat} (v : α) (i : Fin n) :
    (Tab.fill (n := n) v).get i = v := by
  simp [Tab.get_eq_getElem, Tab.fill]

@[simp] theorem Tab.ofFn_get {α : Type} {n : Nat} (t : Tab α n) : Tab.ofFn t.get = t :=
  Tab.ext_get fun i => by simp

@[simp] theorem Tab.set_get_self {α : Type} {n : Nat} (t : Tab α n) (i : Fin n) : t.set i (t.get i) = t :=
  Tab.ext_get fun j => by
    by_cases h : j = i
    · subst h; simp
    · simp [Tab.get_set_ne, h]

@[simp] theorem Tab.set_set {α : Type} {n : Nat} (t : Tab α n) (i : Fin n) (v w : α) :
    (t.set i v).set i w = t.set i w :=
  Tab.ext_get fun j => by by_cases h : j = i <;> simp [Tab.get_set, h]

theorem fin?_some {n k : Nat} (h : k < n) : fin? n k = some ⟨k, h⟩ := by simp [fin?, h]

theorem fin?_none {n k : Nat} (h : n ≤ k) : fin? n k = none := by simp [fin?]; omega

@[simp] theorem fin?_val {n : Nat} (i : Fin n) : fin? n i = some i := by simp [fin?]

end Sys2Proof
end

