-- ==== Sys2Proof/Laws/Frames.lean ====
section
/-! SUPPORT. What each shared operation leaves alone, field by field, and what the end of an event (`commit`) makes of the
fields. -/

namespace Sys2Proof.Machine

open Sys2Proof

/-! ### `raise` -/

@[simp] theorem raise_book (p : Port) (x : Source) (s : State) : (raise p x s).book = s.book := rfl
@[simp] theorem raise_table (p : Port) (x : Source) (s : State) : (raise p x s).table = s.table := rfl
@[simp] theorem raise_exits (p : Port) (x : Source) (s : State) : (raise p x s).exits = s.exits := rfl
@[simp] theorem raise_ring (p : Port) (x : Source) (s : State) : (raise p x s).ring = s.ring := rfl
@[simp] theorem raise_pre (p : Port) (x : Source) (s : State) : (raise p x s).pre = s.pre := rfl
@[simp] theorem raise_gauge (p : Port) (x : Source) (s : State) : (raise p x s).gauge = s.gauge := rfl
@[simp] theorem raise_engines (p : Port) (x : Source) (s : State) : (raise p x s).engines = s.engines := rfl
@[simp] theorem raise_tunnel (p : Port) (x : Source) (s : State) : (raise p x s).tunnel = s.tunnel := rfl
@[simp] theorem raise_ports (p : Port) (x : Source) (s : State) : (raise p x s).ports = s.ports := rfl
@[simp] theorem raise_lines (p : Port) (x : Source) (s : State) : (raise p x s).lines = s.lines := rfl
@[simp] theorem raise_setup (p : Port) (x : Source) (s : State) : (raise p x s).setup = s.setup := rfl
@[simp] theorem raise_bus (p : Port) (x : Source) (s : State) : (raise p x s).bus = s.bus := rfl
@[simp] theorem raise_pending (p : Port) (x : Source) (s : State) : (raise p x s).pending = s.pending := rfl

/-! ### `modNotice` -/

@[simp] theorem modNotice_book (p : Port) (f : NoticeState → NoticeState) (s : State) : (modNotice p f s).book = s.book := rfl
@[simp] theorem modNotice_table (p : Port) (f : NoticeState → NoticeState) (s : State) : (modNotice p f s).table = s.table := rfl
@[simp] theorem modNotice_exits (p : Port) (f : NoticeState → NoticeState) (s : State) : (modNotice p f s).exits = s.exits := rfl
@[simp] theorem modNotice_ring (p : Port) (f : NoticeState → NoticeState) (s : State) : (modNotice p f s).ring = s.ring := rfl
@[simp] theorem modNotice_pre (p : Port) (f : NoticeState → NoticeState) (s : State) : (modNotice p f s).pre = s.pre := rfl
@[simp] theorem modNotice_gauge (p : Port) (f : NoticeState → NoticeState) (s : State) : (modNotice p f s).gauge = s.gauge := rfl
@[simp] theorem modNotice_engines (p : Port) (f : NoticeState → NoticeState) (s : State) : (modNotice p f s).engines = s.engines := rfl
@[simp] theorem modNotice_tunnel (p : Port) (f : NoticeState → NoticeState) (s : State) : (modNotice p f s).tunnel = s.tunnel := rfl
@[simp] theorem modNotice_ports (p : Port) (f : NoticeState → NoticeState) (s : State) : (modNotice p f s).ports = s.ports := rfl
@[simp] theorem modNotice_lines (p : Port) (f : NoticeState → NoticeState) (s : State) : (modNotice p f s).lines = s.lines := rfl
@[simp] theorem modNotice_setup (p : Port) (f : NoticeState → NoticeState) (s : State) : (modNotice p f s).setup = s.setup := rfl
@[simp] theorem modNotice_bus (p : Port) (f : NoticeState → NoticeState) (s : State) : (modNotice p f s).bus = s.bus := rfl
@[simp] theorem modNotice_pending (p : Port) (f : NoticeState → NoticeState) (s : State) : (modNotice p f s).pending = s.pending := rfl

/-! ### `setCarried` -/

@[simp] theorem setCarried_book (p : Fin 12) (c : Option (Fin 32)) (s : State) : (setCarried p c s).book = s.book := rfl
@[simp] theorem setCarried_table (p : Fin 12) (c : Option (Fin 32)) (s : State) : (setCarried p c s).table = s.table := rfl
@[simp] theorem setCarried_exits (p : Fin 12) (c : Option (Fin 32)) (s : State) : (setCarried p c s).exits = s.exits := rfl
@[simp] theorem setCarried_pre (p : Fin 12) (c : Option (Fin 32)) (s : State) : (setCarried p c s).pre = s.pre := rfl
@[simp] theorem setCarried_gauge (p : Fin 12) (c : Option (Fin 32)) (s : State) : (setCarried p c s).gauge = s.gauge := rfl
@[simp] theorem setCarried_engines (p : Fin 12) (c : Option (Fin 32)) (s : State) : (setCarried p c s).engines = s.engines := rfl
@[simp] theorem setCarried_tunnel (p : Fin 12) (c : Option (Fin 32)) (s : State) : (setCarried p c s).tunnel = s.tunnel := rfl
@[simp] theorem setCarried_ports (p : Fin 12) (c : Option (Fin 32)) (s : State) : (setCarried p c s).ports = s.ports := rfl
@[simp] theorem setCarried_notices (p : Fin 12) (c : Option (Fin 32)) (s : State) : (setCarried p c s).notices = s.notices := rfl
@[simp] theorem setCarried_lines (p : Fin 12) (c : Option (Fin 32)) (s : State) : (setCarried p c s).lines = s.lines := rfl
@[simp] theorem setCarried_setup (p : Fin 12) (c : Option (Fin 32)) (s : State) : (setCarried p c s).setup = s.setup := rfl
@[simp] theorem setCarried_bus (p : Fin 12) (c : Option (Fin 32)) (s : State) : (setCarried p c s).bus = s.bus := rfl
@[simp] theorem setCarried_pending (p : Fin 12) (c : Option (Fin 32)) (s : State) : (setCarried p c s).pending = s.pending := rfl

/-! ### `setClaim` -/

@[simp] theorem setClaim_book (st : Station) (c : Option Claim) (s : State) : (setClaim st c s).book = s.book := rfl
@[simp] theorem setClaim_table (st : Station) (c : Option Claim) (s : State) : (setClaim st c s).table = s.table := rfl
@[simp] theorem setClaim_exits (st : Station) (c : Option Claim) (s : State) : (setClaim st c s).exits = s.exits := rfl
@[simp] theorem setClaim_pre (st : Station) (c : Option Claim) (s : State) : (setClaim st c s).pre = s.pre := rfl
@[simp] theorem setClaim_gauge (st : Station) (c : Option Claim) (s : State) : (setClaim st c s).gauge = s.gauge := rfl
@[simp] theorem setClaim_engines (st : Station) (c : Option Claim) (s : State) : (setClaim st c s).engines = s.engines := rfl
@[simp] theorem setClaim_tunnel (st : Station) (c : Option Claim) (s : State) : (setClaim st c s).tunnel = s.tunnel := rfl
@[simp] theorem setClaim_ports (st : Station) (c : Option Claim) (s : State) : (setClaim st c s).ports = s.ports := rfl
@[simp] theorem setClaim_notices (st : Station) (c : Option Claim) (s : State) : (setClaim st c s).notices = s.notices := rfl
@[simp] theorem setClaim_lines (st : Station) (c : Option Claim) (s : State) : (setClaim st c s).lines = s.lines := rfl
@[simp] theorem setClaim_setup (st : Station) (c : Option Claim) (s : State) : (setClaim st c s).setup = s.setup := rfl
@[simp] theorem setClaim_bus (st : Station) (c : Option Claim) (s : State) : (setClaim st c s).bus = s.bus := rfl
@[simp] theorem setClaim_pending (st : Station) (c : Option Claim) (s : State) : (setClaim st c s).pending = s.pending := rfl

/-! ### `setAwaiting` -/

@[simp] theorem setAwaiting_book (e : Engine) (a : Option Awaiting) (s : State) : (setAwaiting e a s).book = s.book := rfl
@[simp] theorem setAwaiting_table (e : Engine) (a : Option Awaiting) (s : State) : (setAwaiting e a s).table = s.table := rfl
@[simp] theorem setAwaiting_exits (e : Engine) (a : Option Awaiting) (s : State) : (setAwaiting e a s).exits = s.exits := rfl
@[simp] theorem setAwaiting_pre (e : Engine) (a : Option Awaiting) (s : State) : (setAwaiting e a s).pre = s.pre := rfl
@[simp] theorem setAwaiting_gauge (e : Engine) (a : Option Awaiting) (s : State) : (setAwaiting e a s).gauge = s.gauge := rfl
@[simp] theorem setAwaiting_engines (e : Engine) (a : Option Awaiting) (s : State) : (setAwaiting e a s).engines = s.engines := rfl
@[simp] theorem setAwaiting_tunnel (e : Engine) (a : Option Awaiting) (s : State) : (setAwaiting e a s).tunnel = s.tunnel := rfl
@[simp] theorem setAwaiting_ports (e : Engine) (a : Option Awaiting) (s : State) : (setAwaiting e a s).ports = s.ports := rfl
@[simp] theorem setAwaiting_notices (e : Engine) (a : Option Awaiting) (s : State) : (setAwaiting e a s).notices = s.notices := rfl
@[simp] theorem setAwaiting_lines (e : Engine) (a : Option Awaiting) (s : State) : (setAwaiting e a s).lines = s.lines := rfl
@[simp] theorem setAwaiting_setup (e : Engine) (a : Option Awaiting) (s : State) : (setAwaiting e a s).setup = s.setup := rfl
@[simp] theorem setAwaiting_bus (e : Engine) (a : Option Awaiting) (s : State) : (setAwaiting e a s).bus = s.bus := rfl
@[simp] theorem setAwaiting_pending (e : Engine) (a : Option Awaiting) (s : State) : (setAwaiting e a s).pending = s.pending := rfl

/-! ### `setLapse` -/

@[simp] theorem setLapse_book (e : Engine) (p : Option (Fin 12)) (s : State) : (setLapse e p s).book = s.book := rfl
@[simp] theorem setLapse_table (e : Engine) (p : Option (Fin 12)) (s : State) : (setLapse e p s).table = s.table := rfl
@[simp] theorem setLapse_exits (e : Engine) (p : Option (Fin 12)) (s : State) : (setLapse e p s).exits = s.exits := rfl
@[simp] theorem setLapse_pre (e : Engine) (p : Option (Fin 12)) (s : State) : (setLapse e p s).pre = s.pre := rfl
@[simp] theorem setLapse_gauge (e : Engine) (p : Option (Fin 12)) (s : State) : (setLapse e p s).gauge = s.gauge := rfl
@[simp] theorem setLapse_engines (e : Engine) (p : Option (Fin 12)) (s : State) : (setLapse e p s).engines = s.engines := rfl
@[simp] theorem setLapse_tunnel (e : Engine) (p : Option (Fin 12)) (s : State) : (setLapse e p s).tunnel = s.tunnel := rfl
@[simp] theorem setLapse_ports (e : Engine) (p : Option (Fin 12)) (s : State) : (setLapse e p s).ports = s.ports := rfl
@[simp] theorem setLapse_notices (e : Engine) (p : Option (Fin 12)) (s : State) : (setLapse e p s).notices = s.notices := rfl
@[simp] theorem setLapse_lines (e : Engine) (p : Option (Fin 12)) (s : State) : (setLapse e p s).lines = s.lines := rfl
@[simp] theorem setLapse_setup (e : Engine) (p : Option (Fin 12)) (s : State) : (setLapse e p s).setup = s.setup := rfl
@[simp] theorem setLapse_bus (e : Engine) (p : Option (Fin 12)) (s : State) : (setLapse e p s).bus = s.bus := rfl
@[simp] theorem setLapse_pending (e : Engine) (p : Option (Fin 12)) (s : State) : (setLapse e p s).pending = s.pending := rfl

/-! ### `dropClaims` -/

@[simp] theorem dropClaims_book (s : State) : (dropClaims s).book = s.book := rfl
@[simp] theorem dropClaims_table (s : State) : (dropClaims s).table = s.table := rfl
@[simp] theorem dropClaims_exits (s : State) : (dropClaims s).exits = s.exits := rfl
@[simp] theorem dropClaims_pre (s : State) : (dropClaims s).pre = s.pre := rfl
@[simp] theorem dropClaims_gauge (s : State) : (dropClaims s).gauge = s.gauge := rfl
@[simp] theorem dropClaims_engines (s : State) : (dropClaims s).engines = s.engines := rfl
@[simp] theorem dropClaims_tunnel (s : State) : (dropClaims s).tunnel = s.tunnel := rfl
@[simp] theorem dropClaims_ports (s : State) : (dropClaims s).ports = s.ports := rfl
@[simp] theorem dropClaims_notices (s : State) : (dropClaims s).notices = s.notices := rfl
@[simp] theorem dropClaims_lines (s : State) : (dropClaims s).lines = s.lines := rfl
@[simp] theorem dropClaims_setup (s : State) : (dropClaims s).setup = s.setup := rfl
@[simp] theorem dropClaims_bus (s : State) : (dropClaims s).bus = s.bus := rfl
@[simp] theorem dropClaims_pending (s : State) : (dropClaims s).pending = s.pending := rfl

/-! ### `clearLapses` -/

@[simp] theorem clearLapses_book (s : State) : (clearLapses s).book = s.book := rfl
@[simp] theorem clearLapses_table (s : State) : (clearLapses s).table = s.table := rfl
@[simp] theorem clearLapses_exits (s : State) : (clearLapses s).exits = s.exits := rfl
@[simp] theorem clearLapses_pre (s : State) : (clearLapses s).pre = s.pre := rfl
@[simp] theorem clearLapses_gauge (s : State) : (clearLapses s).gauge = s.gauge := rfl
@[simp] theorem clearLapses_engines (s : State) : (clearLapses s).engines = s.engines := rfl
@[simp] theorem clearLapses_tunnel (s : State) : (clearLapses s).tunnel = s.tunnel := rfl
@[simp] theorem clearLapses_ports (s : State) : (clearLapses s).ports = s.ports := rfl
@[simp] theorem clearLapses_notices (s : State) : (clearLapses s).notices = s.notices := rfl
@[simp] theorem clearLapses_lines (s : State) : (clearLapses s).lines = s.lines := rfl
@[simp] theorem clearLapses_setup (s : State) : (clearLapses s).setup = s.setup := rfl
@[simp] theorem clearLapses_bus (s : State) : (clearLapses s).bus = s.bus := rfl
@[simp] theorem clearLapses_pending (s : State) : (clearLapses s).pending = s.pending := rfl

/-! ### `modEngine` -/

@[simp] theorem modEngine_book (e : Engine) (f : EngineRec → EngineRec) (s : State) : (modEngine e f s).book = s.book := rfl
@[simp] theorem modEngine_table (e : Engine) (f : EngineRec → EngineRec) (s : State) : (modEngine e f s).table = s.table := rfl
@[simp] theorem modEngine_exits (e : Engine) (f : EngineRec → EngineRec) (s : State) : (modEngine e f s).exits = s.exits := rfl
@[simp] theorem modEngine_ring (e : Engine) (f : EngineRec → EngineRec) (s : State) : (modEngine e f s).ring = s.ring := rfl
@[simp] theorem modEngine_pre (e : Engine) (f : EngineRec → EngineRec) (s : State) : (modEngine e f s).pre = s.pre := rfl
@[simp] theorem modEngine_gauge (e : Engine) (f : EngineRec → EngineRec) (s : State) : (modEngine e f s).gauge = s.gauge := rfl
@[simp] theorem modEngine_tunnel (e : Engine) (f : EngineRec → EngineRec) (s : State) : (modEngine e f s).tunnel = s.tunnel := rfl
@[simp] theorem modEngine_ports (e : Engine) (f : EngineRec → EngineRec) (s : State) : (modEngine e f s).ports = s.ports := rfl
@[simp] theorem modEngine_notices (e : Engine) (f : EngineRec → EngineRec) (s : State) : (modEngine e f s).notices = s.notices := rfl
@[simp] theorem modEngine_lines (e : Engine) (f : EngineRec → EngineRec) (s : State) : (modEngine e f s).lines = s.lines := rfl
@[simp] theorem modEngine_setup (e : Engine) (f : EngineRec → EngineRec) (s : State) : (modEngine e f s).setup = s.setup := rfl
@[simp] theorem modEngine_bus (e : Engine) (f : EngineRec → EngineRec) (s : State) : (modEngine e f s).bus = s.bus := rfl
@[simp] theorem modEngine_pending (e : Engine) (f : EngineRec → EngineRec) (s : State) : (modEngine e f s).pending = s.pending := rfl

/-! ### `modLine` -/

@[simp] theorem modLine_book (l : Fin 24) (f : Line → Line) (s : State) : (modLine l f s).book = s.book := rfl
@[simp] theorem modLine_table (l : Fin 24) (f : Line → Line) (s : State) : (modLine l f s).table = s.table := rfl
@[simp] theorem modLine_exits (l : Fin 24) (f : Line → Line) (s : State) : (modLine l f s).exits = s.exits := rfl
@[simp] theorem modLine_ring (l : Fin 24) (f : Line → Line) (s : State) : (modLine l f s).ring = s.ring := rfl
@[simp] theorem modLine_pre (l : Fin 24) (f : Line → Line) (s : State) : (modLine l f s).pre = s.pre := rfl
@[simp] theorem modLine_gauge (l : Fin 24) (f : Line → Line) (s : State) : (modLine l f s).gauge = s.gauge := rfl
@[simp] theorem modLine_engines (l : Fin 24) (f : Line → Line) (s : State) : (modLine l f s).engines = s.engines := rfl
@[simp] theorem modLine_tunnel (l : Fin 24) (f : Line → Line) (s : State) : (modLine l f s).tunnel = s.tunnel := rfl
@[simp] theorem modLine_ports (l : Fin 24) (f : Line → Line) (s : State) : (modLine l f s).ports = s.ports := rfl
@[simp] theorem modLine_notices (l : Fin 24) (f : Line → Line) (s : State) : (modLine l f s).notices = s.notices := rfl
@[simp] theorem modLine_setup (l : Fin 24) (f : Line → Line) (s : State) : (modLine l f s).setup = s.setup := rfl
@[simp] theorem modLine_bus (l : Fin 24) (f : Line → Line) (s : State) : (modLine l f s).bus = s.bus := rfl
@[simp] theorem modLine_pending (l : Fin 24) (f : Line → Line) (s : State) : (modLine l f s).pending = s.pending := rfl

/-! ### `modPort` -/

@[simp] theorem modPort_book (p : Port) (f : PortState → PortState) (s : State) : (modPort p f s).book = s.book := rfl
@[simp] theorem modPort_table (p : Port) (f : PortState → PortState) (s : State) : (modPort p f s).table = s.table := rfl
@[simp] theorem modPort_exits (p : Port) (f : PortState → PortState) (s : State) : (modPort p f s).exits = s.exits := rfl
@[simp] theorem modPort_ring (p : Port) (f : PortState → PortState) (s : State) : (modPort p f s).ring = s.ring := rfl
@[simp] theorem modPort_pre (p : Port) (f : PortState → PortState) (s : State) : (modPort p f s).pre = s.pre := rfl
@[simp] theorem modPort_gauge (p : Port) (f : PortState → PortState) (s : State) : (modPort p f s).gauge = s.gauge := rfl
@[simp] theorem modPort_engines (p : Port) (f : PortState → PortState) (s : State) : (modPort p f s).engines = s.engines := rfl
@[simp] theorem modPort_tunnel (p : Port) (f : PortState → PortState) (s : State) : (modPort p f s).tunnel = s.tunnel := rfl
@[simp] theorem modPort_notices (p : Port) (f : PortState → PortState) (s : State) : (modPort p f s).notices = s.notices := rfl
@[simp] theorem modPort_lines (p : Port) (f : PortState → PortState) (s : State) : (modPort p f s).lines = s.lines := rfl
@[simp] theorem modPort_setup (p : Port) (f : PortState → PortState) (s : State) : (modPort p f s).setup = s.setup := rfl
@[simp] theorem modPort_bus (p : Port) (f : PortState → PortState) (s : State) : (modPort p f s).bus = s.bus := rfl
@[simp] theorem modPort_pending (p : Port) (f : PortState → PortState) (s : State) : (modPort p f s).pending = s.pending := rfl

/-! ### `endFrame` -/

@[simp] theorem endFrame_book (p : Port) (n : Nat) (b : Bool) (s : State) : (endFrame p n b s).book = s.book := rfl
@[simp] theorem endFrame_table (p : Port) (n : Nat) (b : Bool) (s : State) : (endFrame p n b s).table = s.table := rfl
@[simp] theorem endFrame_exits (p : Port) (n : Nat) (b : Bool) (s : State) : (endFrame p n b s).exits = s.exits := rfl
@[simp] theorem endFrame_ring (p : Port) (n : Nat) (b : Bool) (s : State) : (endFrame p n b s).ring = s.ring := rfl
@[simp] theorem endFrame_pre (p : Port) (n : Nat) (b : Bool) (s : State) : (endFrame p n b s).pre = s.pre := rfl
@[simp] theorem endFrame_gauge (p : Port) (n : Nat) (b : Bool) (s : State) : (endFrame p n b s).gauge = s.gauge := rfl
@[simp] theorem endFrame_engines (p : Port) (n : Nat) (b : Bool) (s : State) : (endFrame p n b s).engines = s.engines := rfl
@[simp] theorem endFrame_tunnel (p : Port) (n : Nat) (b : Bool) (s : State) : (endFrame p n b s).tunnel = s.tunnel := rfl
@[simp] theorem endFrame_notices (p : Port) (n : Nat) (b : Bool) (s : State) : (endFrame p n b s).notices = s.notices := rfl
@[simp] theorem endFrame_lines (p : Port) (n : Nat) (b : Bool) (s : State) : (endFrame p n b s).lines = s.lines := rfl
@[simp] theorem endFrame_setup (p : Port) (n : Nat) (b : Bool) (s : State) : (endFrame p n b s).setup = s.setup := rfl
@[simp] theorem endFrame_bus (p : Port) (n : Nat) (b : Bool) (s : State) : (endFrame p n b s).bus = s.bus := rfl
@[simp] theorem endFrame_pending (p : Port) (n : Nat) (b : Bool) (s : State) : (endFrame p n b s).pending = s.pending := rfl

/-! ### `respond` -/

@[simp] theorem respond_book (p : Port) (code : Byte) (st : Status) (data : List Byte) (s : State) : (respond p code st data s).book = s.book := rfl
@[simp] theorem respond_table (p : Port) (code : Byte) (st : Status) (data : List Byte) (s : State) : (respond p code st data s).table = s.table := rfl
@[simp] theorem respond_exits (p : Port) (code : Byte) (st : Status) (data : List Byte) (s : State) : (respond p code st data s).exits = s.exits := rfl
@[simp] theorem respond_ring (p : Port) (code : Byte) (st : Status) (data : List Byte) (s : State) : (respond p code st data s).ring = s.ring := rfl
@[simp] theorem respond_pre (p : Port) (code : Byte) (st : Status) (data : List Byte) (s : State) : (respond p code st data s).pre = s.pre := rfl
@[simp] theorem respond_gauge (p : Port) (code : Byte) (st : Status) (data : List Byte) (s : State) : (respond p code st data s).gauge = s.gauge := rfl
@[simp] theorem respond_engines (p : Port) (code : Byte) (st : Status) (data : List Byte) (s : State) : (respond p code st data s).engines = s.engines := rfl
@[simp] theorem respond_tunnel (p : Port) (code : Byte) (st : Status) (data : List Byte) (s : State) : (respond p code st data s).tunnel = s.tunnel := rfl
@[simp] theorem respond_notices (p : Port) (code : Byte) (st : Status) (data : List Byte) (s : State) : (respond p code st data s).notices = s.notices := rfl
@[simp] theorem respond_lines (p : Port) (code : Byte) (st : Status) (data : List Byte) (s : State) : (respond p code st data s).lines = s.lines := rfl
@[simp] theorem respond_setup (p : Port) (code : Byte) (st : Status) (data : List Byte) (s : State) : (respond p code st data s).setup = s.setup := rfl
@[simp] theorem respond_bus (p : Port) (code : Byte) (st : Status) (data : List Byte) (s : State) : (respond p code st data s).bus = s.bus := rfl
@[simp] theorem respond_pending (p : Port) (code : Byte) (st : Status) (data : List Byte) (s : State) : (respond p code st data s).pending = s.pending := rfl

/-! ### `setStage` -/

@[simp] theorem setStage_book (p : Port) (g : Option Staged) (s : State) : (setStage p g s).book = s.book := rfl
@[simp] theorem setStage_table (p : Port) (g : Option Staged) (s : State) : (setStage p g s).table = s.table := rfl
@[simp] theorem setStage_exits (p : Port) (g : Option Staged) (s : State) : (setStage p g s).exits = s.exits := rfl
@[simp] theorem setStage_ring (p : Port) (g : Option Staged) (s : State) : (setStage p g s).ring = s.ring := rfl
@[simp] theorem setStage_pre (p : Port) (g : Option Staged) (s : State) : (setStage p g s).pre = s.pre := rfl
@[simp] theorem setStage_gauge (p : Port) (g : Option Staged) (s : State) : (setStage p g s).gauge = s.gauge := rfl
@[simp] theorem setStage_engines (p : Port) (g : Option Staged) (s : State) : (setStage p g s).engines = s.engines := rfl
@[simp] theorem setStage_tunnel (p : Port) (g : Option Staged) (s : State) : (setStage p g s).tunnel = s.tunnel := rfl
@[simp] theorem setStage_notices (p : Port) (g : Option Staged) (s : State) : (setStage p g s).notices = s.notices := rfl
@[simp] theorem setStage_lines (p : Port) (g : Option Staged) (s : State) : (setStage p g s).lines = s.lines := rfl
@[simp] theorem setStage_setup (p : Port) (g : Option Staged) (s : State) : (setStage p g s).setup = s.setup := rfl
@[simp] theorem setStage_bus (p : Port) (g : Option Staged) (s : State) : (setStage p g s).bus = s.bus := rfl
@[simp] theorem setStage_pending (p : Port) (g : Option Staged) (s : State) : (setStage p g s).pending = s.pending := rfl

/-! ### `putTrav` -/

@[simp] theorem putTrav_book (i : Fin 32) (v : Option Traveller) (s : State) : (putTrav i v s).book = s.book := rfl
@[simp] theorem putTrav_exits (i : Fin 32) (v : Option Traveller) (s : State) : (putTrav i v s).exits = s.exits := rfl
@[simp] theorem putTrav_ring (i : Fin 32) (v : Option Traveller) (s : State) : (putTrav i v s).ring = s.ring := rfl
@[simp] theorem putTrav_pre (i : Fin 32) (v : Option Traveller) (s : State) : (putTrav i v s).pre = s.pre := rfl
@[simp] theorem putTrav_gauge (i : Fin 32) (v : Option Traveller) (s : State) : (putTrav i v s).gauge = s.gauge := rfl
@[simp] theorem putTrav_engines (i : Fin 32) (v : Option Traveller) (s : State) : (putTrav i v s).engines = s.engines := rfl
@[simp] theorem putTrav_tunnel (i : Fin 32) (v : Option Traveller) (s : State) : (putTrav i v s).tunnel = s.tunnel := rfl
@[simp] theorem putTrav_ports (i : Fin 32) (v : Option Traveller) (s : State) : (putTrav i v s).ports = s.ports := rfl
@[simp] theorem putTrav_notices (i : Fin 32) (v : Option Traveller) (s : State) : (putTrav i v s).notices = s.notices := rfl
@[simp] theorem putTrav_lines (i : Fin 32) (v : Option Traveller) (s : State) : (putTrav i v s).lines = s.lines := rfl
@[simp] theorem putTrav_setup (i : Fin 32) (v : Option Traveller) (s : State) : (putTrav i v s).setup = s.setup := rfl
@[simp] theorem putTrav_bus (i : Fin 32) (v : Option Traveller) (s : State) : (putTrav i v s).bus = s.bus := rfl
@[simp] theorem putTrav_pending (i : Fin 32) (v : Option Traveller) (s : State) : (putTrav i v s).pending = s.pending := rfl

/-! ### `setMode` -/

@[simp] theorem setMode_book (m : Mode) (s : State) : (setMode m s).book = s.book := rfl
@[simp] theorem setMode_table (m : Mode) (s : State) : (setMode m s).table = s.table := rfl
@[simp] theorem setMode_exits (m : Mode) (s : State) : (setMode m s).exits = s.exits := rfl
@[simp] theorem setMode_ring (m : Mode) (s : State) : (setMode m s).ring = s.ring := rfl
@[simp] theorem setMode_pre (m : Mode) (s : State) : (setMode m s).pre = s.pre := rfl
@[simp] theorem setMode_gauge (m : Mode) (s : State) : (setMode m s).gauge = s.gauge := rfl
@[simp] theorem setMode_engines (m : Mode) (s : State) : (setMode m s).engines = s.engines := rfl
@[simp] theorem setMode_tunnel (m : Mode) (s : State) : (setMode m s).tunnel = s.tunnel := rfl
@[simp] theorem setMode_ports (m : Mode) (s : State) : (setMode m s).ports = s.ports := rfl
@[simp] theorem setMode_notices (m : Mode) (s : State) : (setMode m s).notices = s.notices := rfl
@[simp] theorem setMode_lines (m : Mode) (s : State) : (setMode m s).lines = s.lines := rfl
@[simp] theorem setMode_bus (m : Mode) (s : State) : (setMode m s).bus = s.bus := rfl
@[simp] theorem setMode_pending (m : Mode) (s : State) : (setMode m s).pending = s.pending := rfl

/-! ### `putOrder` -/

@[simp] theorem putOrder_table (k : Fin 64) (o : Option Order) (s : State) : (putOrder k o s).table = s.table := rfl
@[simp] theorem putOrder_exits (k : Fin 64) (o : Option Order) (s : State) : (putOrder k o s).exits = s.exits := rfl
@[simp] theorem putOrder_ring (k : Fin 64) (o : Option Order) (s : State) : (putOrder k o s).ring = s.ring := rfl
@[simp] theorem putOrder_pre (k : Fin 64) (o : Option Order) (s : State) : (putOrder k o s).pre = s.pre := rfl
@[simp] theorem putOrder_gauge (k : Fin 64) (o : Option Order) (s : State) : (putOrder k o s).gauge = s.gauge := rfl
@[simp] theorem putOrder_engines (k : Fin 64) (o : Option Order) (s : State) : (putOrder k o s).engines = s.engines := rfl
@[simp] theorem putOrder_tunnel (k : Fin 64) (o : Option Order) (s : State) : (putOrder k o s).tunnel = s.tunnel := rfl
@[simp] theorem putOrder_ports (k : Fin 64) (o : Option Order) (s : State) : (putOrder k o s).ports = s.ports := rfl
@[simp] theorem putOrder_notices (k : Fin 64) (o : Option Order) (s : State) : (putOrder k o s).notices = s.notices := rfl
@[simp] theorem putOrder_lines (k : Fin 64) (o : Option Order) (s : State) : (putOrder k o s).lines = s.lines := rfl
@[simp] theorem putOrder_setup (k : Fin 64) (o : Option Order) (s : State) : (putOrder k o s).setup = s.setup := rfl
@[simp] theorem putOrder_bus (k : Fin 64) (o : Option Order) (s : State) : (putOrder k o s).bus = s.bus := rfl
@[simp] theorem putOrder_pending (k : Fin 64) (o : Option Order) (s : State) : (putOrder k o s).pending = s.pending := rfl

/-! ### `setPumpFault` -/

@[simp] theorem setPumpFault_book (b : Bool) (s : State) : (setPumpFault b s).book = s.book := rfl
@[simp] theorem setPumpFault_table (b : Bool) (s : State) : (setPumpFault b s).table = s.table := rfl
@[simp] theorem setPumpFault_exits (b : Bool) (s : State) : (setPumpFault b s).exits = s.exits := rfl
@[simp] theorem setPumpFault_ring (b : Bool) (s : State) : (setPumpFault b s).ring = s.ring := rfl
@[simp] theorem setPumpFault_gauge (b : Bool) (s : State) : (setPumpFault b s).gauge = s.gauge := rfl
@[simp] theorem setPumpFault_engines (b : Bool) (s : State) : (setPumpFault b s).engines = s.engines := rfl
@[simp] theorem setPumpFault_tunnel (b : Bool) (s : State) : (setPumpFault b s).tunnel = s.tunnel := rfl
@[simp] theorem setPumpFault_ports (b : Bool) (s : State) : (setPumpFault b s).ports = s.ports := rfl
@[simp] theorem setPumpFault_notices (b : Bool) (s : State) : (setPumpFault b s).notices = s.notices := rfl
@[simp] theorem setPumpFault_lines (b : Bool) (s : State) : (setPumpFault b s).lines = s.lines := rfl
@[simp] theorem setPumpFault_setup (b : Bool) (s : State) : (setPumpFault b s).setup = s.setup := rfl
@[simp] theorem setPumpFault_bus (b : Bool) (s : State) : (setPumpFault b s).bus = s.bus := rfl
@[simp] theorem setPumpFault_pending (b : Bool) (s : State) : (setPumpFault b s).pending = s.pending := rfl

/-! ### `sprayIdle` -/

@[simp] theorem sprayIdle_book (n : Nat) (s : State) : (sprayIdle n s).book = s.book := rfl
@[simp] theorem sprayIdle_table (n : Nat) (s : State) : (sprayIdle n s).table = s.table := rfl
@[simp] theorem sprayIdle_exits (n : Nat) (s : State) : (sprayIdle n s).exits = s.exits := rfl
@[simp] theorem sprayIdle_ring (n : Nat) (s : State) : (sprayIdle n s).ring = s.ring := rfl
@[simp] theorem sprayIdle_gauge (n : Nat) (s : State) : (sprayIdle n s).gauge = s.gauge := rfl
@[simp] theorem sprayIdle_engines (n : Nat) (s : State) : (sprayIdle n s).engines = s.engines := rfl
@[simp] theorem sprayIdle_tunnel (n : Nat) (s : State) : (sprayIdle n s).tunnel = s.tunnel := rfl
@[simp] theorem sprayIdle_ports (n : Nat) (s : State) : (sprayIdle n s).ports = s.ports := rfl
@[simp] theorem sprayIdle_notices (n : Nat) (s : State) : (sprayIdle n s).notices = s.notices := rfl
@[simp] theorem sprayIdle_lines (n : Nat) (s : State) : (sprayIdle n s).lines = s.lines := rfl
@[simp] theorem sprayIdle_setup (n : Nat) (s : State) : (sprayIdle n s).setup = s.setup := rfl
@[simp] theorem sprayIdle_bus (n : Nat) (s : State) : (sprayIdle n s).bus = s.bus := rfl
@[simp] theorem sprayIdle_pending (n : Nat) (s : State) : (sprayIdle n s).pending = s.pending := rfl

/-! ### `gaugeIdle` -/

@[simp] theorem gaugeIdle_book (e : GaugeEnd) (n m : Nat) (s : State) : (gaugeIdle e n m s).book = s.book := rfl
@[simp] theorem gaugeIdle_table (e : GaugeEnd) (n m : Nat) (s : State) : (gaugeIdle e n m s).table = s.table := rfl
@[simp] theorem gaugeIdle_exits (e : GaugeEnd) (n m : Nat) (s : State) : (gaugeIdle e n m s).exits = s.exits := rfl
@[simp] theorem gaugeIdle_ring (e : GaugeEnd) (n m : Nat) (s : State) : (gaugeIdle e n m s).ring = s.ring := rfl
@[simp] theorem gaugeIdle_pre (e : GaugeEnd) (n m : Nat) (s : State) : (gaugeIdle e n m s).pre = s.pre := rfl
@[simp] theorem gaugeIdle_engines (e : GaugeEnd) (n m : Nat) (s : State) : (gaugeIdle e n m s).engines = s.engines := rfl
@[simp] theorem gaugeIdle_tunnel (e : GaugeEnd) (n m : Nat) (s : State) : (gaugeIdle e n m s).tunnel = s.tunnel := rfl
@[simp] theorem gaugeIdle_ports (e : GaugeEnd) (n m : Nat) (s : State) : (gaugeIdle e n m s).ports = s.ports := rfl
@[simp] theorem gaugeIdle_notices (e : GaugeEnd) (n m : Nat) (s : State) : (gaugeIdle e n m s).notices = s.notices := rfl
@[simp] theorem gaugeIdle_lines (e : GaugeEnd) (n m : Nat) (s : State) : (gaugeIdle e n m s).lines = s.lines := rfl
@[simp] theorem gaugeIdle_setup (e : GaugeEnd) (n m : Nat) (s : State) : (gaugeIdle e n m s).setup = s.setup := rfl
@[simp] theorem gaugeIdle_bus (e : GaugeEnd) (n m : Nat) (s : State) : (gaugeIdle e n m s).bus = s.bus := rfl
@[simp] theorem gaugeIdle_pending (e : GaugeEnd) (n m : Nat) (s : State) : (gaugeIdle e n m s).pending = s.pending := rfl

/-! ### `modTrav` -/

@[simp] theorem modTrav_book (i : Fin 32) (f : Traveller → Traveller) (s : State) :
    (modTrav i f s).book = s.book := by unfold modTrav; split <;> rfl
@[simp] theorem modTrav_exits (i : Fin 32) (f : Traveller → Traveller) (s : State) :
    (modTrav i f s).exits = s.exits := by unfold modTrav; split <;> rfl
@[simp] theorem modTrav_ring (i : Fin 32) (f : Traveller → Traveller) (s : State) :
    (modTrav i f s).ring = s.ring := by unfold modTrav; split <;> rfl
@[simp] theorem modTrav_pre (i : Fin 32) (f : Traveller → Traveller) (s : State) :
    (modTrav i f s).pre = s.pre := by unfold modTrav; split <;> rfl
@[simp] theorem modTrav_gauge (i : Fin 32) (f : Traveller → Traveller) (s : State) :
    (modTrav i f s).gauge = s.gauge := by unfold modTrav; split <;> rfl
@[simp] theorem modTrav_engines (i : Fin 32) (f : Traveller → Traveller) (s : State) :
    (modTrav i f s).engines = s.engines := by unfold modTrav; split <;> rfl
@[simp] theorem modTrav_tunnel (i : Fin 32) (f : Traveller → Traveller) (s : State) :
    (modTrav i f s).tunnel = s.tunnel := by unfold modTrav; split <;> rfl
@[simp] theorem modTrav_ports (i : Fin 32) (f : Traveller → Traveller) (s : State) :
    (modTrav i f s).ports = s.ports := by unfold modTrav; split <;> rfl
@[simp] theorem modTrav_notices (i : Fin 32) (f : Traveller → Traveller) (s : State) :
    (modTrav i f s).notices = s.notices := by unfold modTrav; split <;> rfl
@[simp] theorem modTrav_lines (i : Fin 32) (f : Traveller → Traveller) (s : State) :
    (modTrav i f s).lines = s.lines := by unfold modTrav; split <;> rfl
@[simp] theorem modTrav_setup (i : Fin 32) (f : Traveller → Traveller) (s : State) :
    (modTrav i f s).setup = s.setup := by unfold modTrav; split <;> rfl
@[simp] theorem modTrav_bus (i : Fin 32) (f : Traveller → Traveller) (s : State) :
    (modTrav i f s).bus = s.bus := by unfold modTrav; split <;> rfl
@[simp] theorem modTrav_pending (i : Fin 32) (f : Traveller → Traveller) (s : State) :
    (modTrav i f s).pending = s.pending := by unfold modTrav; split <;> rfl

/-! ### `modPretreat` -/

@[simp] theorem modPretreat_book (i : Fin 32) (f : Pretreat → Pretreat) (s : State) :
    (modPretreat i f s).book = s.book := by simp [modPretreat]
@[simp] theorem modPretreat_exits (i : Fin 32) (f : Pretreat → Pretreat) (s : State) :
    (modPretreat i f s).exits = s.exits := by simp [modPretreat]
@[simp] theorem modPretreat_ring (i : Fin 32) (f : Pretreat → Pretreat) (s : State) :
    (modPretreat i f s).ring = s.ring := by simp [modPretreat]
@[simp] theorem modPretreat_pre (i : Fin 32) (f : Pretreat → Pretreat) (s : State) :
    (modPretreat i f s).pre = s.pre := by simp [modPretreat]
@[simp] theorem modPretreat_gauge (i : Fin 32) (f : Pretreat → Pretreat) (s : State) :
    (modPretreat i f s).gauge = s.gauge := by simp [modPretreat]
@[simp] theorem modPretreat_engines (i : Fin 32) (f : Pretreat → Pretreat) (s : State) :
    (modPretreat i f s).engines = s.engines := by simp [modPretreat]
@[simp] theorem modPretreat_tunnel (i : Fin 32) (f : Pretreat → Pretreat) (s : State) :
    (modPretreat i f s).tunnel = s.tunnel := by simp [modPretreat]
@[simp] theorem modPretreat_ports (i : Fin 32) (f : Pretreat → Pretreat) (s : State) :
    (modPretreat i f s).ports = s.ports := by simp [modPretreat]
@[simp] theorem modPretreat_notices (i : Fin 32) (f : Pretreat → Pretreat) (s : State) :
    (modPretreat i f s).notices = s.notices := by simp [modPretreat]
@[simp] theorem modPretreat_lines (i : Fin 32) (f : Pretreat → Pretreat) (s : State) :
    (modPretreat i f s).lines = s.lines := by simp [modPretreat]
@[simp] theorem modPretreat_setup (i : Fin 32) (f : Pretreat → Pretreat) (s : State) :
    (modPretreat i f s).setup = s.setup := by simp [modPretreat]
@[simp] theorem modPretreat_bus (i : Fin 32) (f : Pretreat → Pretreat) (s : State) :
    (modPretreat i f s).bus = s.bus := by simp [modPretreat]
@[simp] theorem modPretreat_pending (i : Fin 32) (f : Pretreat → Pretreat) (s : State) :
    (modPretreat i f s).pending = s.pending := by simp [modPretreat]

/-! ### `raiseOn` -/

@[simp] theorem raiseOn_book (ps : List Port) (x : Source) (s : State) : (raiseOn ps x s).book = s.book := by
  unfold raiseOn; induction ps generalizing s with
  | nil => rfl
  | cons p ps ih => rw [List.foldl_cons, ih, raise_book]
@[simp] theorem raiseOn_table (ps : List Port) (x : Source) (s : State) : (raiseOn ps x s).table = s.table := by
  unfold raiseOn; induction ps generalizing s with
  | nil => rfl
  | cons p ps ih => rw [List.foldl_cons, ih, raise_table]
@[simp] theorem raiseOn_exits (ps : List Port) (x : Source) (s : State) : (raiseOn ps x s).exits = s.exits := by
  unfold raiseOn; induction ps generalizing s with
  | nil => rfl
  | cons p ps ih => rw [List.foldl_cons, ih, raise_exits]
@[simp] theorem raiseOn_ring (ps : List Port) (x : Source) (s : State) : (raiseOn ps x s).ring = s.ring := by
  unfold raiseOn; induction ps generalizing s with
  | nil => rfl
  | cons p ps ih => rw [List.foldl_cons, ih, raise_ring]
@[simp] theorem raiseOn_pre (ps : List Port) (x : Source) (s : State) : (raiseOn ps x s).pre = s.pre := by
  unfold raiseOn; induction ps generalizing s with
  | nil => rfl
  | cons p ps ih => rw [List.foldl_cons, ih, raise_pre]
@[simp] theorem raiseOn_gauge (ps : List Port) (x : Source) (s : State) : (raiseOn ps x s).gauge = s.gauge := by
  unfold raiseOn; induction ps generalizing s with
  | nil => rfl
  | cons p ps ih => rw [List.foldl_cons, ih, raise_gauge]
@[simp] theorem raiseOn_engines (ps : List Port) (x : Source) (s : State) : (raiseOn ps x s).engines = s.engines := by
  unfold raiseOn; induction ps generalizing s with
  | nil => rfl
  | cons p ps ih => rw [List.foldl_cons, ih, raise_engines]
@[simp] theorem raiseOn_tunnel (ps : List Port) (x : Source) (s : State) : (raiseOn ps x s).tunnel = s.tunnel := by
  unfold raiseOn; induction ps generalizing s with
  | nil => rfl
  | cons p ps ih => rw [List.foldl_cons, ih, raise_tunnel]
@[simp] theorem raiseOn_ports (ps : List Port) (x : Source) (s : State) : (raiseOn ps x s).ports = s.ports := by
  unfold raiseOn; induction ps generalizing s with
  | nil => rfl
  | cons p ps ih => rw [List.foldl_cons, ih, raise_ports]
@[simp] theorem raiseOn_lines (ps : List Port) (x : Source) (s : State) : (raiseOn ps x s).lines = s.lines := by
  unfold raiseOn; induction ps generalizing s with
  | nil => rfl
  | cons p ps ih => rw [List.foldl_cons, ih, raise_lines]
@[simp] theorem raiseOn_setup (ps : List Port) (x : Source) (s : State) : (raiseOn ps x s).setup = s.setup := by
  unfold raiseOn; induction ps generalizing s with
  | nil => rfl
  | cons p ps ih => rw [List.foldl_cons, ih, raise_setup]
@[simp] theorem raiseOn_bus (ps : List Port) (x : Source) (s : State) : (raiseOn ps x s).bus = s.bus := by
  unfold raiseOn; induction ps generalizing s with
  | nil => rfl
  | cons p ps ih => rw [List.foldl_cons, ih, raise_bus]
@[simp] theorem raiseOn_pending (ps : List Port) (x : Source) (s : State) : (raiseOn ps x s).pending = s.pending := by
  unfold raiseOn; induction ps generalizing s with
  | nil => rfl
  | cons p ps ih => rw [List.foldl_cons, ih, raise_pending]

/-! ### `commit` -/

@[simp] theorem commit_book (old new : State) : (commit old new).book = new.book := rfl
@[simp] theorem commit_exits (old new : State) : (commit old new).exits = new.exits := rfl
@[simp] theorem commit_pre (old new : State) : (commit old new).pre = new.pre := rfl
@[simp] theorem commit_gauge (old new : State) : (commit old new).gauge = new.gauge := rfl
@[simp] theorem commit_ports (old new : State) : (commit old new).ports = new.ports := rfl
@[simp] theorem commit_notices (old new : State) : (commit old new).notices = new.notices := rfl
@[simp] theorem commit_lines (old new : State) : (commit old new).lines = new.lines := rfl
@[simp] theorem commit_setup (old new : State) : (commit old new).setup = new.setup := rfl
@[simp] theorem commit_bus (old new : State) : (commit old new).bus = new.bus := rfl
@[simp] theorem commit_pending (old new : State) : (commit old new).pending = new.pending := rfl

end Sys2Proof.Machine
end

