-- ==== Sys2Proof/Laws/Events.lean ====
section
/-! SUPPORT. What the shared operations do: reads after writes, the flags a raise sets, the revisions the end of an event
advances, and what a command can come to. -/

namespace Sys2Proof.Machine

open Sys2Proof

/-! ### Reads after writes -/

theorem trav?_putTrav (i j : Fin 32) (v : Option Traveller) (s : State) :
    (putTrav i v s).trav? j = if j = i then v else s.trav? j := by
  unfold State.trav? putTrav
  simp only [setTable_table, Tab.get_set]
  split <;> simp_all

@[simp] theorem trav?_putTrav_eq (i : Fin 32) (v : Option Traveller) (s : State) : (putTrav i v s).trav? i = v := by
  simp [trav?_putTrav]

theorem trav?_modTrav (i j : Fin 32) (f : Traveller → Traveller) (s : State) :
    (modTrav i f s).trav? j = if j = i then (s.trav? i).map f else s.trav? j := by
  unfold modTrav
  cases h : s.trav? i with
  | none => by_cases hj : j = i <;> simp_all
  | some t => simp [trav?_putTrav]

theorem modTrav_some {i : Fin 32} {t : Traveller} {s : State} (f : Traveller → Traveller) (h : s.trav? i = some t) :
    modTrav i f s = putTrav i (some (f t)) s := by simp [modTrav, h]

theorem modPretreat_some {i : Fin 32} {t : Traveller} {s : State} (f : Pretreat → Pretreat) (h : s.trav? i = some t) :
    modPretreat i f s = putTrav i (some { t with pretreat := t.pretreat.map f }) s := modTrav_some _ h

@[simp] theorem putTrav_putTrav (i : Fin 32) (v w : Option Traveller) (s : State) :
    putTrav i w (putTrav i v s) = putTrav i w s := by
  unfold putTrav
  simp only [setTable_table, setTable_setTable, Tab.get_set_eq]
  congr 2
  exact Tab.ext_get fun j => by by_cases h : j = i <;> simp [Tab.get_set, h]

theorem order?_putOrder (k n : Fin 64) (o : Option Order) (s : State) :
    (putOrder k o s).order? n = if n = k then o else s.order? n := by
  unfold State.order? putOrder
  simp only [setBook_book, Tab.get_set]
  split <;> simp_all

theorem engineNo_inj {e f : Engine} : engineNo e = engineNo f ↔ e = f := by cases e <;> cases f <;> decide

theorem portNo_inj {p q : Port} : portNo p = portNo q ↔ p = q := by cases p <;> cases q <;> decide

theorem stationNo_inj {a b : Station} : stationNo a = stationNo b ↔ a = b := by cases a <;> cases b <;> decide

theorem engine_modEngine (e g : Engine) (f : EngineRec → EngineRec) (s : State) :
    (modEngine e f s).engine g = if g = e then f (s.engine e) else s.engine g := by
  simp [State.engine, modEngine, Tab.get_set, engineNo_inj]

theorem port_modPort (p q : Port) (f : PortState → PortState) (s : State) :
    (modPort p f s).port q = if q = p then f (s.port p) else s.port q := by
  simp [State.port, modPort, Tab.get_set, portNo_inj]

theorem claimAt_setClaim (a b : Station) (c : Option Claim) (s : State) :
    (setClaim a c s).claimAt b = if b = a then c else s.claimAt b := by
  simp [State.claimAt, setClaim, Tab.get_set, stationNo_inj]

theorem awaitingAt_setAwaiting (e g : Engine) (a : Option Awaiting) (s : State) :
    (setAwaiting e a s).awaitingAt g = if g = e then a else s.awaitingAt g := by
  simp [State.awaitingAt, setAwaiting, Tab.get_set, engineNo_inj]

theorem carried_setCarried (p q : Fin 12) (c : Option (Fin 32)) (s : State) :
    (setCarried p c s).ring.carried.get q = if q = p then c else s.ring.carried.get q := by
  simp [setCarried, Tab.get_set]

/-! ### Raising (R151) -/

@[simp] theorem raise_notices (p : Port) (x : Source) (s : State) : (raise p x s).notices = raisedIn [(p, x)] s.notices := rfl

theorem raisedIn_nil (n : Tab NoticeState 5) : raisedIn [] n = n := rfl

@[simp] theorem raisedIn_raisedIn (xs ys : List (Port × Source)) (n : Tab NoticeState 5) :
    raisedIn ys (raisedIn xs n) = raisedIn (xs ++ ys) n := by simp [raisedIn, List.foldl_append]

theorem raiseOn_notices (ps : List Port) (x : Source) (s : State) :
    (raiseOn ps x s).notices = raisedIn (ps.map fun p => (p, x)) s.notices := by
  unfold raiseOn
  induction ps generalizing s with
  | nil => rfl
  | cons p ps ih => rw [List.foldl_cons, ih, raise_notices, raisedIn_raisedIn]; rfl

/-! ### The end of an event (R3, R45, R97, R121) -/

theorem commit_table_slot (old new : State) (i : Fin 32) :
    (commit old new).table.slots.get i =
      if (new.table.slots.get i).trav = old.trav? i then new.table.slots.get i
      else { new.table.slots.get i with rev := (new.table.slots.get i).rev + 1 } := by
  simp [commit, advanceTravellers]

theorem commit_serial (old new : State) : (commit old new).table.serial = new.table.serial := rfl

theorem commit_trav? (old new : State) (i : Fin 32) : (commit old new).trav? i = new.trav? i := by
  unfold State.trav?
  rw [commit_table_slot]
  split <;> rfl

theorem commit_table_same {old new : State} (h : new.table = old.table) : (commit old new).table = old.table := by
  have hs : (commit old new).table.slots = old.table.slots := Tab.ext_get fun i => by
    rw [commit_table_slot, h]; simp [State.trav?]
  have : (commit old new).table = ⟨(commit old new).table.slots, (commit old new).table.serial⟩ := rfl
  rw [this, hs, commit_serial, h]

/-- R3, for an event that wrote one traveller slot. -/
theorem commit_table_put {old new : State} {i : Fin 32} {v : Option Traveller}
    (h : new.table = (putTrav i v old).table) : (commit old new).table = tableAfter i v old := by
  have hs : (commit old new).table.slots = (tableAfter i v old).slots := Tab.ext_get fun j => by
    rw [commit_table_slot, h]
    by_cases hj : j = i
    · subst hj
      by_cases hv : v = (old.table.slots.get j).trav <;> simp [putTrav, tableAfter, slotAfter, State.trav?, hv]
    · simp [putTrav, tableAfter, State.trav?, Tab.get_set_ne _ _ hj]
  have : (commit old new).table = ⟨(commit old new).table.slots, (commit old new).table.serial⟩ := rfl
  rw [this, hs, commit_serial, h]
  rfl

theorem commit_engine (old new : State) (e : Engine) :
    (commit old new).engine e =
      if { new.engine e with rev := 0 } = { old.engine e with rev := 0 } then new.engine e
      else { new.engine e with rev := (new.engine e).rev + 1 } := by
  simp [State.engine, commit, advanceEngines]

theorem commit_engines_same {old new : State} (h : new.engines = old.engines) :
    (commit old new).engines = old.engines := by
  exact Tab.ext_get fun i => by simp [commit, advanceEngines, h]

/-- R97: how the end of an event reads one record whose revision has not moved yet. -/
theorem engineAfter_eq {x y : EngineRec} (h : y.rev = x.rev) :
    (if ({ y with rev := 0 } : EngineRec) = { x with rev := 0 } then y else { y with rev := y.rev + 1 }) =
      engineAfter x y := by
  obtain ⟨a, b, c, d, e, f⟩ := x
  obtain ⟨a', b', c', d', e', f'⟩ := y
  obtain rfl : f' = f := h
  simp only [engineAfter, EngineRec.mk.injEq, and_true]
  split <;> simp_all

/-- R97, for an event that wrote one engine record. -/
theorem commit_engines_put {old new : State} {e : Engine} {y : EngineRec} (hr : y.rev = (old.engine e).rev)
    (h : new.engines = old.engines.set (engineNo e) y) : (commit old new).engines = enginesAfter e y old := by
  refine Tab.ext_get fun i => ?_
  simp only [commit, setTunnel_engines, setRing_engines, setEngines_engines, advanceEngines, Tab.get_ofFn, h, enginesAfter]
  by_cases hi : i = engineNo e
  · subst hi
    simp only [Tab.get_set_eq]
    exact engineAfter_eq hr
  · simp [Tab.get_set_ne _ _ hi]

theorem ringView_congr {s t : State} (h : t.ring = s.ring) (k : Fin 12) : ringView t k = ringView s k := by
  have h1 : t.claimAt = s.claimAt := by funext st; simp [State.claimAt, h]
  have h2 : t.awaitingAt = s.awaitingAt := by funext e; simp [State.awaitingAt, h]
  have h3 : t.lapseAt = s.lapseAt := by funext e; simp [State.lapseAt, h]
  simp [ringView, h, h1, h2, h3, State.slotAt]

/-- R45, record by record. -/
theorem commit_ring_rev (old new : State) (k : Fin 12) :
    (commit old new).ring.revs.get k =
      if ringView new k = ringView old k then new.ring.revs.get k else new.ring.revs.get k + 1 := by
  simp [commit, advanceRing]

/-- The end of an event touches nothing of the ring but its revisions. -/
theorem commit_ring (old new : State) :
    (commit old new).ring = { new.ring with revs := (commit old new).ring.revs } := rfl

theorem commit_ring_same {old new : State} (h : new.ring = old.ring) : (commit old new).ring = old.ring := by
  have : (commit old new).ring.revs = new.ring.revs := Tab.ext_get fun k => by
    rw [commit_ring_rev, if_pos (ringView_congr h k)]
  rw [commit_ring, this, ← h]

/-- The end of an event touches nothing of the tunnel but its revision (R121). -/
theorem commit_tunnel (old new : State) :
    (commit old new).tunnel = { new.tunnel with rev := if tunnelChanged old new then new.tunnel.rev + 1 else new.tunnel.rev } :=
  rfl

/-- The travellers in the queue keep their serials. -/
def SerialsKept (old new : State) : Prop :=
  ∀ q ∈ old.tunnel.queue, (new.trav? q.trav).map (·.serial) = (old.trav? q.trav).map (·.serial)

theorem commit_tunnel_same {old new : State} (h : new.tunnel = old.tunnel) (hs : SerialsKept old new) :
    (commit old new).tunnel = old.tunnel := by
  have hq : queueView new = queueView old := by
    unfold queueView
    rw [h]
    exact List.map_congr_left fun q hq => by rw [hs q hq]
  have : tunnelChanged old new = false := by simp [tunnelChanged, h, hq]
  rw [commit_tunnel, this, h]
  rfl

theorem serialsKept_of_table {old new : State} (h : new.table = old.table) : SerialsKept old new :=
  fun _ _ => by simp [State.trav?, h]

/-- One traveller rewritten with its serial kept. -/
theorem serialsKept_of_put {old new : State} {i : Fin 32} {t u : Traveller} (ht : old.trav? i = some t)
    (hu : u.serial = t.serial) (h : new.table = (putTrav i (some u) old).table) : SerialsKept old new := by
  intro q _
  have hn : new.trav? q.trav = (putTrav i (some u) old).trav? q.trav := by simp only [State.trav?, h]
  rw [hn, trav?_putTrav]
  split
  · rename_i hq; rw [hq, ht]; simp [hu]
  · rfl

/-- An event that changes nothing advances nothing. -/
theorem commit_self (s : State) : commit s s = s :=
  State.ext_fields rfl (commit_table_same rfl) rfl (commit_ring_same rfl) rfl rfl (commit_engines_same rfl)
    (commit_tunnel_same rfl (serialsKept_of_table rfl)) rfl rfl rfl rfl rfl rfl

/-! ### Commands (R144) -/

/-- The state in which a command's checks and effects are worked out: its frame has ended. -/
theorem endFrame_ports (p : Port) (n : Nat) (b : Bool) (s : State) :
    (endFrame p n b s).ports =
      s.ports.set (portNo p) { s.port p with receiver := .idle, shifted := shiftedOut (s.port p).holder b n } := rfl

theorem respond_ports (p : Port) (code : Byte) (st : Status) (data : List Byte) (s : State) :
    (respond p code st data s).ports = s.ports.set (portNo p) { s.port p with holder := ⟨code, st, data⟩ } := rfl

/-- R144: with port, mode and length right, a command comes to its own checks and effects. -/
theorem checked_pass {p : Port} {roles : List Port} {modes : List Mode} {ok : Bool} {body : State → Answer} {s : State}
    (hp : p ∈ roles) (hm : s.mode ∈ modes) (hl : ok = true) : checked p roles modes ok body s = body s := by
  simp [checked, refuseIf, hp, hm, hl]

/-- R144: what it takes for a command to be taken. -/
theorem checked_accept {p : Port} {roles : List Port} {modes : List Mode} {ok : Bool} {body : State → Answer}
    {s t : State} {data : List Byte} (h : checked p roles modes ok body s = .accept t data) :
    p ∈ roles ∧ s.mode ∈ modes ∧ ok = true ∧ body s = .accept t data := by
  unfold checked refuseIf at h
  split at h
  · cases h
  · split at h
    · cases h
    · split at h
      · cases h
      · exact ⟨by simp_all, by simp_all, by simp_all, h⟩

/-- A command frame that its checks refuse changes its own port and nothing else. -/
theorem command_refused {p : Port} {code : Byte} {l : List Byte} {roles : List Port} {modes : List Mode} {ok : Bool}
    {body : State → Answer} {s : State} {st : Status} {data : List Byte}
    (h : checked p roles modes ok body (endFrame p (l.length + 2) false s) = .refuse st data) :
    command p code l roles modes ok body s = refused p code l st data s := by
  simp only [command, h, conclude]
  simp [respond, modPort, endFrame, refused, answered, answeredWith, State.port]

/-- A command frame that is taken: its effects with the revisions they advance, then its response. -/
theorem command_accepted {p : Port} {code : Byte} {l : List Byte} {roles : List Port} {modes : List Mode} {ok : Bool}
    {body : State → Answer} {s t : State} {data : List Byte}
    (h : checked p roles modes ok body (endFrame p (l.length + 2) false s) = .accept t data) :
    command p code l roles modes ok body s =
      respond p code .ok data (commit (endFrame p (l.length + 2) false s) t) := by
  simp only [command, h, conclude]

/-- The ports after a command whose effects touch no port. -/
theorem accepted_ports {p : Port} {code : Byte} {l : List Byte} {data : List Byte} {s t : State}
    (ht : t.ports = (endFrame p (l.length + 2) false s).ports) :
    (respond p code .ok data (commit (endFrame p (l.length + 2) false s) t)).ports = answered p code l .ok data s := by
  rw [respond_ports, commit_ports, ht, endFrame_ports]
  simp [State.port, commit_ports, ht, endFrame_ports, answered, answeredWith]

end Sys2Proof.Machine
end

