-- ==== Sys2Proof/Laws/PerInstr.lean ====
section
/-! SUPPORT. One lemma per command about its frame: the command byte of Table 12-2 names the command that carries it. -/

namespace Sys2Proof.Laws

/-- R144 with Table 12-2: the port, command byte and payload of a well-formed command name that command, an unknown one
where the table lists no such byte. -/
def CommandNamed.Statement (i : Instr) : Prop :=
  ∀ (p : Port) (code : Byte) (l : List Byte), wellFormed i = true → commandParts i = some (p, code, l) →
    (commandOf p code l).getD (.unknownCommand p code l) = i

theorem CommandNamed.powerOn : CommandNamed.Statement (.powerOn) :=
  fun _ _ _ _ h => nomatch h

theorem CommandNamed.resetPin : CommandNamed.Statement (.resetPin) :=
  fun _ _ _ _ h => nomatch h

theorem CommandNamed.read (p : Port) (rest : List Byte) : CommandNamed.Statement (.read p rest) :=
  fun _ _ _ _ h => nomatch h

theorem CommandNamed.linkReset (p : Port) (rest : List Byte) : CommandNamed.Statement (.linkReset p rest) :=
  fun _ _ _ _ h => nomatch h

theorem CommandNamed.emptyFrame (p : Port) : CommandNamed.Statement (.emptyFrame p) :=
  fun _ _ _ _ h => nomatch h

theorem CommandNamed.frameMalformed (p : Port) (frame : List Byte) (midByte : Bool) : CommandNamed.Statement (.frameMalformed p frame midByte) :=
  fun _ _ _ _ h => nomatch h

theorem CommandNamed.unknownCommand (p : Port) (code : Byte) (payload : List Byte) : CommandNamed.Statement (.unknownCommand p code payload) := by
  intro q c l hw h
  simp only [commandParts, Option.some.injEq, Prod.mk.injEq] at h
  obtain ⟨rfl, rfl, rfl⟩ := h
  have hn : (commandOf p code []).isNone = true := by
    simp only [wellFormed, isUnknown, Bool.and_eq_true] at hw
    exact hw.1.2
  have hc : commandOf p code payload = none := by
    revert hn
    unfold commandOf
    split <;> simp
  simp [hc]

theorem CommandNamed.ident (p : Port) (payload : List Byte) : CommandNamed.Statement (.ident p payload) :=
  fun _ _ _ _ h => by cases h; rfl

theorem CommandNamed.capture (p : Port) (payload : List Byte) : CommandNamed.Statement (.capture p payload) :=
  fun _ _ _ _ h => by cases h; rfl

theorem CommandNamed.readStage (p : Port) (payload : List Byte) : CommandNamed.Statement (.readStage p payload) :=
  fun _ _ _ _ h => by cases h; rfl

theorem CommandNamed.editStage (p : Port) (payload : List Byte) : CommandNamed.Statement (.editStage p payload) :=
  fun _ _ _ _ h => by cases h; rfl

theorem CommandNamed.update (p : Port) (payload : List Byte) : CommandNamed.Statement (.update p payload) :=
  fun _ _ _ _ h => by cases h; rfl

theorem CommandNamed.service (p : Port) (payload : List Byte) : CommandNamed.Statement (.service p payload) :=
  fun _ _ _ _ h => by cases h; rfl

theorem CommandNamed.rearm (p : Port) (payload : List Byte) : CommandNamed.Statement (.rearm p payload) :=
  fun _ _ _ _ h => by cases h; rfl

theorem CommandNamed.clearNotices (p : Port) (payload : List Byte) : CommandNamed.Statement (.clearNotices p payload) :=
  fun _ _ _ _ h => by cases h; rfl

theorem CommandNamed.setEnables (p : Port) (payload : List Byte) : CommandNamed.Statement (.setEnables p payload) :=
  fun _ _ _ _ h => by cases h; rfl

theorem CommandNamed.placeOrder (p : Port) (payload : List Byte) : CommandNamed.Statement (.placeOrder p payload) :=
  fun _ _ _ _ h => by cases h; rfl

theorem CommandNamed.cancelOrder (p : Port) (payload : List Byte) : CommandNamed.Statement (.cancelOrder p payload) :=
  fun _ _ _ _ h => by cases h; rfl

theorem CommandNamed.releaseOrder (p : Port) (payload : List Byte) : CommandNamed.Statement (.releaseOrder p payload) :=
  fun _ _ _ _ h => by cases h; rfl

theorem CommandNamed.start (p : Port) (payload : List Byte) : CommandNamed.Statement (.start p payload) :=
  fun _ _ _ _ h => by cases h; rfl

theorem CommandNamed.stop (p : Port) (payload : List Byte) : CommandNamed.Statement (.stop p payload) :=
  fun _ _ _ _ h => by cases h; rfl

theorem CommandNamed.hold (p : Port) (payload : List Byte) : CommandNamed.Statement (.hold p payload) :=
  fun _ _ _ _ h => by cases h; rfl

theorem CommandNamed.resume (p : Port) (payload : List Byte) : CommandNamed.Statement (.resume p payload) :=
  fun _ _ _ _ h => by cases h; rfl

theorem CommandNamed.lineReset (p : Port) (payload : List Byte) : CommandNamed.Statement (.lineReset p payload) :=
  fun _ _ _ _ h => by cases h; rfl

theorem CommandNamed.lineAssign (p : Port) (payload : List Byte) : CommandNamed.Statement (.lineAssign p payload) :=
  fun _ _ _ _ h => by cases h; rfl

theorem CommandNamed.lineConfig (p : Port) (payload : List Byte) : CommandNamed.Statement (.lineConfig p payload) :=
  fun _ _ _ _ h => by cases h; rfl

theorem CommandNamed.lineSet (p : Port) (payload : List Byte) : CommandNamed.Statement (.lineSet p payload) :=
  fun _ _ _ _ h => by cases h; rfl

theorem CommandNamed.lineToggle (p : Port) (payload : List Byte) : CommandNamed.Statement (.lineToggle p payload) :=
  fun _ _ _ _ h => by cases h; rfl

theorem CommandNamed.lineRead (p : Port) (payload : List Byte) : CommandNamed.Statement (.lineRead p payload) :=
  fun _ _ _ _ h => by cases h; rfl

theorem CommandNamed.lineFilteredEdge (l : Fin 24) : CommandNamed.Statement (.lineFilteredEdge l) :=
  fun _ _ _ _ h => nomatch h

theorem CommandNamed.claim (p : Port) (payload : List Byte) : CommandNamed.Statement (.claim p payload) :=
  fun _ _ _ _ h => by cases h; rfl

theorem CommandNamed.release (p : Port) (payload : List Byte) : CommandNamed.Statement (.release p payload) :=
  fun _ _ _ _ h => by cases h; rfl

theorem CommandNamed.loadGarment (p : Port) (payload : List Byte) : CommandNamed.Statement (.loadGarment p payload) :=
  fun _ _ _ _ h => by cases h; rfl

theorem CommandNamed.index : CommandNamed.Statement (.index) :=
  fun _ _ _ _ h => nomatch h

theorem CommandNamed.claimWindowExpiry (e : Engine) : CommandNamed.Statement (.claimWindowExpiry e) :=
  fun _ _ _ _ h => nomatch h

theorem CommandNamed.spray (p : Port) (payload : List Byte) : CommandNamed.Statement (.spray p payload) :=
  fun _ _ _ _ h => by cases h; rfl

theorem CommandNamed.strokeActivePhase : CommandNamed.Statement (.strokeActivePhase) :=
  fun _ _ _ _ h => nomatch h

theorem CommandNamed.strokeDelivered : CommandNamed.Statement (.strokeDelivered) :=
  fun _ _ _ _ h => nomatch h

theorem CommandNamed.sprayPassEnd : CommandNamed.Statement (.sprayPassEnd) :=
  fun _ _ _ _ h => nomatch h

theorem CommandNamed.pumpFault : CommandNamed.Statement (.pumpFault) :=
  fun _ _ _ _ h => nomatch h

theorem CommandNamed.pumpFaultClear : CommandNamed.Statement (.pumpFaultClear) :=
  fun _ _ _ _ h => nomatch h

theorem CommandNamed.gaugeDry (p : Port) (payload : List Byte) : CommandNamed.Statement (.gaugeDry p payload) :=
  fun _ _ _ _ h => by cases h; rfl

theorem CommandNamed.gaugeWet (p : Port) (payload : List Byte) : CommandNamed.Statement (.gaugeWet p payload) :=
  fun _ _ _ _ h => by cases h; rfl

theorem CommandNamed.gaugeOscEdge (e : Side) : CommandNamed.Statement (.gaugeOscEdge e) :=
  fun _ _ _ _ h => nomatch h

theorem CommandNamed.dryPassEnd : CommandNamed.Statement (.dryPassEnd) :=
  fun _ _ _ _ h => nomatch h

theorem CommandNamed.gaugeDryTimeout : CommandNamed.Statement (.gaugeDryTimeout) :=
  fun _ _ _ _ h => nomatch h

theorem CommandNamed.wetPassEnd : CommandNamed.Statement (.wetPassEnd) :=
  fun _ _ _ _ h => nomatch h

theorem CommandNamed.gaugeWetOverflow : CommandNamed.Statement (.gaugeWetOverflow) :=
  fun _ _ _ _ h => nomatch h

theorem CommandNamed.gaugeAbort (p : Port) (payload : List Byte) : CommandNamed.Statement (.gaugeAbort p payload) :=
  fun _ _ _ _ h => by cases h; rfl

theorem CommandNamed.pressDone (p : Port) (payload : List Byte) : CommandNamed.Statement (.pressDone p payload) :=
  fun _ _ _ _ h => by cases h; rfl

theorem CommandNamed.engineOnline (p : Port) (payload : List Byte) : CommandNamed.Statement (.engineOnline p payload) :=
  fun _ _ _ _ h => by cases h; rfl

theorem CommandNamed.engineOffline (p : Port) (payload : List Byte) : CommandNamed.Statement (.engineOffline p payload) :=
  fun _ _ _ _ h => by cases h; rfl

theorem CommandNamed.engineFault (p : Port) (payload : List Byte) : CommandNamed.Statement (.engineFault p payload) :=
  fun _ _ _ _ h => by cases h; rfl

theorem CommandNamed.inkReport (p : Port) (payload : List Byte) : CommandNamed.Statement (.inkReport p payload) :=
  fun _ _ _ _ h => by cases h; rfl

theorem CommandNamed.printDone (p : Port) (payload : List Byte) : CommandNamed.Statement (.printDone p payload) :=
  fun _ _ _ _ h => by cases h; rfl

theorem CommandNamed.cleanStart (p : Port) (payload : List Byte) : CommandNamed.Statement (.cleanStart p payload) :=
  fun _ _ _ _ h => by cases h; rfl

theorem CommandNamed.cleanDone (p : Port) (payload : List Byte) : CommandNamed.Statement (.cleanDone p payload) :=
  fun _ _ _ _ h => by cases h; rfl

theorem CommandNamed.tunnelEntry (p : Port) (payload : List Byte) : CommandNamed.Statement (.tunnelEntry p payload) :=
  fun _ _ _ _ h => by cases h; rfl

theorem CommandNamed.unloadDone (p : Port) (payload : List Byte) : CommandNamed.Statement (.unloadDone p payload) :=
  fun _ _ _ _ h => by cases h; rfl

theorem CommandNamed.zoneTemps (p : Port) (payload : List Byte) : CommandNamed.Statement (.zoneTemps p payload) :=
  fun _ _ _ _ h => by cases h; rfl

theorem CommandNamed.staleTimerExpiry : CommandNamed.Statement (.staleTimerExpiry) :=
  fun _ _ _ _ h => nomatch h

theorem CommandNamed.sampleTimerExpiry : CommandNamed.Statement (.sampleTimerExpiry) :=
  fun _ _ _ _ h => nomatch h

theorem CommandNamed.encoderPulse : CommandNamed.Statement (.encoderPulse) :=
  fun _ _ _ _ h => nomatch h

theorem CommandNamed.tunnelExit : CommandNamed.Statement (.tunnelExit) :=
  fun _ _ _ _ h => nomatch h

theorem CommandNamed.exitPop (p : Port) (payload : List Byte) : CommandNamed.Statement (.exitPop p payload) :=
  fun _ _ _ _ h => by cases h; rfl

theorem CommandNamed.timebaseTick : CommandNamed.Statement (.timebaseTick) :=
  fun _ _ _ _ h => nomatch h

theorem CommandNamed.pinChange (l : Fin 24) (level : Bool) : CommandNamed.Statement (.pinChange l level) :=
  fun _ _ _ _ h => nomatch h

end Sys2Proof.Laws
end

