-- ==== Sys2Proof/Laws/Receiver.lean ====
section
/-! SUPPORT. What a moment of the frame receivers does: to each port, to what its station still sends, to the queue, and to
nothing else. -/

namespace Sys2Proof.Machine

open Sys2Proof

/-! ### One port -/

@[simp] theorem clockByte_holder (b : Byte) (q : PortState) : (clockByte b q).holder = q.holder := rfl
@[simp] theorem clockByte_stage (b : Byte) (q : PortState) : (clockByte b q).stage = q.stage := rfl
@[simp] theorem clockByte_receiver (b : Byte) (q : PortState) : (clockByte b q).receiver = storeByte b q.receiver := rfl
@[simp] theorem clockByte_shifted (b : Byte) (q : PortState) :
    (clockByte b q).shifted = (if q.receiver.count = 0 then [] else q.shifted) ++ [shiftByte q.holder q.receiver] := rfl

@[simp] theorem storeByte_count (b : Byte) (r : Receiver) : (storeByte b r).count = r.count + 1 := rfl

/-- R139: a receiver that stores the bytes it counts up to the 202nd goes on doing so. -/
theorem storeByte_length {b : Byte} {r : Receiver} (h : r.bytes.length = min 202 r.count) :
    (storeByte b r).bytes.length = min 202 (storeByte b r).count := by
  by_cases hl : r.bytes.length < 202 <;> simp [storeByte, Config.receiverBytes, hl] <;> omega

/-- Up to its 202nd byte a frame received is the bytes stored. -/
theorem receivedFrame_short {r : Receiver} (h : r.bytes.length = r.count) : receivedFrame r = r.bytes := by
  simp [receivedFrame, h]

@[simp] theorem movedPort_holder (l : List Transfer) (q : PortState) : (movedPort l q).holder = q.holder := by
  unfold movedPort; split <;> rfl

@[simp] theorem movedPort_stage (l : List Transfer) (q : PortState) : (movedPort l q).stage = q.stage := by
  unfold movedPort; split <;> rfl

@[simp] theorem movedPort_nil (q : PortState) : movedPort [] q = q := rfl
@[simp] theorem movedPort_byte (b : Byte) (bytes : List Byte) (midByte : Bool) (later : List Transfer) (q : PortState) :
    movedPort (⟨b :: bytes, midByte⟩ :: later) q = clockByte b q := rfl
@[simp] theorem movedPort_release (midByte : Bool) (later : List Transfer) (q : PortState) :
    movedPort (⟨[], midByte⟩ :: later) q = { q with receiver := .idle } := rfl

@[simp] theorem movedBus_nil : movedBus [] = [] := rfl
@[simp] theorem movedBus_byte (b : Byte) (bytes : List Byte) (midByte : Bool) (later : List Transfer) :
    movedBus (⟨b :: bytes, midByte⟩ :: later) = ⟨bytes, midByte⟩ :: later := rfl
@[simp] theorem movedBus_release (midByte : Bool) (later : List Transfer) : movedBus (⟨[], midByte⟩ :: later) = later := rfl

@[simp] theorem released_nil (p : Port) (q : PortState) : released p [] q = [] := rfl
@[simp] theorem released_byte (p : Port) (b : Byte) (bytes : List Byte) (midByte : Bool) (later : List Transfer)
    (q : PortState) : released p (⟨b :: bytes, midByte⟩ :: later) q = [] := rfl
@[simp] theorem released_release (p : Port) (midByte : Bool) (later : List Transfer) (q : PortState) :
    released p (⟨[], midByte⟩ :: later) q = [decodeFrame p (receivedFrame q.receiver) midByte] := rfl

/-! ### All ports -/

@[simp] theorem busTick_port (s : State) (p : Port) : (busTick s).port p = movedPort (s.busOf p) (s.port p) := by
  simp [busTick, State.port, State.busOf]

@[simp] theorem busTick_busOf (s : State) (p : Port) : (busTick s).busOf p = movedBus (s.busOf p) := by
  simp [busTick, State.busOf]

@[simp] theorem busTick_pending (s : State) :
    (busTick s).pending = s.pending ++ allPorts.flatMap fun p => released p (s.busOf p) (s.port p) := rfl

/-- R139: a moment of the receivers touches the ports alone. -/
theorem busTick_same (s : State) (b : Block) (h : b ≠ .ports) : b.same s (busTick s) := by
  cases b <;> first | exact absurd rfl h | rfl

/-- When no station sends, nothing happens. -/
theorem busTick_idle {s : State} (h : ∀ k : Fin 5, s.bus.get k = []) : busTick s = s := by
  have hb : (Tab.ofFn fun k => movedBus (s.bus.get k)) = s.bus := Tab.ext_get fun k => by simp [h k]
  have hp : (Tab.ofFn fun k => movedPort (s.bus.get k) (s.ports.get k)) = s.ports := Tab.ext_get fun k => by simp [h k]
  have hq : (allPorts.flatMap fun p => released p (s.busOf p) (s.port p)) = [] := by simp [State.busOf, h]
  simp only [busTick, hb, hp, hq, List.append_nil]
  rfl

end Sys2Proof.Machine
end

