-- ==== Sys2Proof/Tests/Slice0.lean ====
section
/-! SUPPORT. Tests of single events on small states, with expected values from the manual's worked cases and tables; the
smoke tests of well-formedness; and, for each statement with hypotheses, a state and operands that meet them. -/

namespace Sys2Proof.Tests

open Sys2Proof Sys2Proof.Machine

/-! ### Scenes -/

/-- The state that a command leaves. -/
def after (c : Instr) (s : State) : State :=
  match exec c s with
  | .next t => t
  | .fault _ | .refused _ => s

/-- Status and payload of the response that port `p` holds. -/
def answer (p : Port) (s : State) : Status × List Nat :=
  ((s.port p).holder.status, (s.port p).holder.payload.map BitVec.toNat)

/-- The class of the worked cases 4.12, 4.13, 5.6 and 7.10. -/
def fabric : FabricClass := ⟨true, .ifWhite, 150, 200, 160, 15, 18000, 200, 180⟩

/-- The line of the worked cases 4.12 and 7.10, with these counts. -/
def item (quantity produced inWork reprints : Nat) : LineItem :=
  { blank := 0x1A2B03, design := 0x0C40, quantity, fabric := 0, placement := .front, width := 300, height := 400,
    coverage := ⟨800, 300, 300, 300, 300⟩, produced, inWork, reprints }

/-- Order 7,310 of Table 2-7. -/
def order (state : OrderState) (lines : List LineItem) : Order := ⟨7310, 118, .rush, 0x1400, false, state, lines⟩

/-- The pretreat record of Table 4-4. -/
def record (sub : SubState) (delivered : Nat) : Pretreat := ⟨180, 180, delivered, some 100000, none, none, 0, sub⟩

/-- A traveller bound to line 0 of order slot 0. -/
def garment (stage : Stage) (platen : Option (Fin 12)) : Traveller where
  serial := 0x41
  blank := 0x1A2B03
  slot := 0
  line := 0
  orphan := false
  platen := platen
  stage := stage
  laps := 0
  pretreat := none
  press := none
  print := none
  cure := none
  faults := []
  overflow := false

/-- L0 to L9 hold the ten functions in the order of Table 8-1. -/
def wired : Tab Line 24 := .ofFn fun l => { Line.reset false with function := (functionOf (l.val + 1)).getD .none }

/-- The part in mode `m`, wired, with fabric class 0 valid and the ring aligned with platen 0 at position 0. -/
def line (m : Mode) : State :=
  ((State.reset.setLines wired).setRing { Ring.reset with synced := true }).setSetup
    { State.reset.setup with mode := m, fabrics := State.reset.setup.fabrics.set 0 ⟨fabric, 0⟩ }

/-- Order slot 0 holds `o`, at revision 22. -/
def withOrder (o : Order) (s : State) : State := s.setBook { s.book with slots := s.book.slots.set 0 ⟨22, some o⟩ }

/-- Traveller slot 3 holds `t`, and its platen carries it. -/
def withGarment (t : Traveller) (s : State) : State :=
  let s := putTrav 3 (some t) s
  match t.platen with
  | some p => setCarried p (some 3) s
  | none => s

/-- The station's port claims the platen that stands there. -/
def claimed (st : Station) (s : State) : State := setClaim st (some ⟨stationPort st, platenAt s.ring (stationPos st)⟩) s

/-- A garment of order slot 0 at ring position `k`, in mode `m`. -/
def at_ (k : Fin 12) (m : Mode) (f : Traveller → Traveller) : State :=
  withGarment (f (garment .loaded (some (0 - k)))) (withOrder (order .inWork [item 2 0 1 0]) (line m))

/-- A garment in PRETREAT under the prep claim at the booth. -/
def booth (sub : SubState) (delivered : Nat) : State :=
  claimed .spray (at_ 2 .run fun t => { t with stage := .pretreat, pretreat := some (record sub delivered) })

/-- A spray pass of `count` strokes over the garment at the booth. -/
def spraying (count strokes : Nat) (phase : StrokePhase) (ungauged : Bool) : State :=
  (booth (if ungauged then .needDry else .dryDone) 0).setPre ⟨some ⟨3, count, ungauged, phase, 50000⟩, strokes, false⟩

/-- A gauge pass over the garment at the booth, with the counters where they stand. -/
def gauging (k : PassKind) (edges ticks : Nat) : State :=
  let s := booth (if k = .dry then .needDry else .sprayed) 180
  s.setGauge { s.gauge with
    pass := some ⟨k, 3⟩, edges := edges, timebase := ticks, last := some ⟨k, 3, 0x41, .inFlight⟩, recTimebase := ticks }

/-- Levels of the worked case 6.11 before engine B prints. -/
def ink : Inks := ⟨400000, 90000, 120000, 140000, 60000⟩

/-- The estimates of the garment: 1,200 cm² at its coverages and the default ink factors (R98). -/
def estimate : Inks := ⟨28800, 4320, 4320, 4320, 4320⟩

/-- Engine `e` in state `st` with the garment of stage `stage` at its position and the print record of an assignment. -/
def atEngine (e : Engine) (st : EngineState) (stage : Stage) (prints : Nat) : State :=
  let held := st = .assigned ∨ st = .printing
  modEngine e
    (fun _ => ⟨st, if held then some 3 else none, prints, ink, if held then estimate else .zero, 0⟩)
    (at_ (stationPos (engineStation e)) .run fun t =>
      { t with stage := stage, print := if held then some ⟨e, estimate, none, .pending⟩ else none })

/-- The assignment of the garment at engine `e` awaits its claim. -/
def awaiting (e : Engine) (prints : Nat) : State :=
  setAwaiting e (some ⟨3, 0 - stationPos (engineStation e), 500⟩) (atEngine e .assigned .assigned prints)

/-- Engine `e` prints the garment under its claim. -/
def printing (e : Engine) (prints : Nat) : State := claimed (engineStation e) (atEngine e .printing .printing prints)

/-- The cure record of the worked case 7.10. -/
def cure (dose peak : Nat) : Cure := ⟨5000000, 23640, 42552, dose, peak, false, none⟩

/-- The garment of 7.10 in the tunnel at encoder count `count`. -/
def curing (count : Nat) (c : Cure) (f : Traveller → Traveller) (zones : Option Nat) : State :=
  let s := withGarment (f { garment .inTunnel none with cure := some c })
    (withOrder (order .inWork [item 2 0 1 0]) (line .run))
  s.setTunnel { s.tunnel with
    queue := [⟨3, 200⟩], encoder := BitVec.ofNat 32 count, zones := .fill zones, sampleTimer := some 250 }

/-- The garment at the unload point in stage `stage`, under the unload claim. -/
def unloading (stage : Stage) (reprints : Nat) : State :=
  claimed .unload (withOrder (order .inWork [item 2 0 1 reprints]) (at_ 10 .run fun t => { t with stage := stage }))

/-! ### Well-formedness: each check refuses an ill-formed command -/

theorem test_wf_payload_of_200 : wellFormed (.ident .prep (List.replicate 200 0)) = true := by
  change decide ((List.replicate 200 (0 : Byte)).length ≤ 200) = true
  rw [List.length_replicate]
  decide

theorem test_wf_payload_of_201 : wellFormed (.ident .prep (List.replicate 201 0)) = false := by
  change decide ((List.replicate 201 (0 : Byte)).length ≤ 200) = false
  rw [List.length_replicate]
  decide

theorem test_wf_unknown_payload : wellFormed (.unknownCommand .prep 0x17 (List.replicate 201 0)) = false := by
  change (isUnknown .prep 0x17 && decide ((List.replicate 201 (0 : Byte)).length ≤ 200)) = false
  rw [List.length_replicate]
  decide

theorem test_wf_unknown_is_known : wellFormed (.unknownCommand .prep 0x10 []) = false := by decide

theorem test_wf_unknown_is_read : wellFormed (.unknownCommand .prep 0x00 []) = false := by decide

theorem test_wf_malformed_is_empty : wellFormed (.frameMalformed .prep [] true) = false := by decide

theorem test_wf_malformed_is_read : wellFormed (.frameMalformed .prep [0x00] true) = false := by decide

theorem test_wf_malformed_is_link_reset : wellFormed (.frameMalformed .prep [0xFF, 0xFF, 0xFF, 0xFF] true) = false := by decide

theorem test_wf_malformed_is_whole : wellFormed (.frameMalformed .prep [0x01, 0x00] false) = false := by decide

theorem test_wf_malformed : wellFormed (.frameMalformed .prep [0x01, 0x01] false) = true := by decide

/-! ### Frames, written out from R141 and Table 12-2 -/

theorem test_frame_hold : decodeFrame .gateway [0x14, 0x00] false = .hold .gateway [] := by decide

theorem test_frame_claim : decodeFrame .prep [0x20, 0x02, 0x04, 0x07] false = .claim .prep [0x04, 0x07] := by decide

theorem test_frame_print_done :
    decodeFrame .engineB (0x34 :: 0x15 :: List.replicate 21 1) false = .printDone .engineB (List.replicate 21 1) := by decide

theorem test_frame_read : decodeFrame .tunnel [0x00, 0x3B, 0x00] false = .read .tunnel [0x3B, 0x00] := by decide

theorem test_frame_link_reset_first : decodeFrame .tunnel [0xFF, 0xFF, 0xFF, 0xFF] true = .linkReset .tunnel [] := by decide

theorem test_frame_short : decodeFrame .tunnel [0x3B, 0x01] false = .frameMalformed .tunnel [0x3B, 0x01] false := by decide

theorem test_frame_unlisted : decodeFrame .tunnel [0x17, 0x00] false = .unknownCommand .tunnel 0x17 [] := by decide

/-! ### Power-on, frames and the record window (chapters 9, 11, 12) -/

/-- R155. -/
theorem test_powerOn_frees_everything :
    (after .powerOn (printing .a 12)).mode = .config ∧ (after .powerOn (printing .a 12)).trav? 3 = none := by decide

/-- Table 8-2: filtered levels come from the pins. -/
theorem test_resetPin_reads_pins :
    (after .resetPin (after (.pinChange 9 true) (line .run))).filteredLevel 9 = true := by decide

/-- R140, R142: the size of the response, its bytes, then 0x00. -/
theorem test_read_shifts_holder :
    ((after (.read .gateway [1, 2, 3]) State.reset).port .gateway).shifted = [0x02, 0x00, 0x00, 0x00] := by decide

/-- R143. -/
theorem test_linkReset_holder :
    ((after (.linkReset .prep []) (line .run)).port .prep).holder = ⟨0xFF, .ok, []⟩ := by decide

/-- R141. -/
theorem test_emptyFrame_keeps_holder :
    ((after (.emptyFrame .prep) (after (.linkReset .prep []) (line .run))).port .prep).holder = ⟨0xFF, .ok, []⟩ := by decide

/-- R141. -/
theorem test_frameMalformed_length : answer .prep (after (.frameMalformed .prep [0x28, 9] false) (line .run)) = (.length, []) := by
  decide

/-- R144. -/
theorem test_unknownCommand_arg : answer .prep (after (.unknownCommand .prep 0x17 []) (line .run)) = (.arg, []) := by decide

/-- Table 12-2: vendor 0x4844, part 0x0C12, revision 1, port 4, role 4. -/
theorem test_ident : answer .tunnel (after (.ident .tunnel []) State.reset) = (.ok, [0x48, 0x44, 0x0C, 0x12, 1, 4, 4]) := by
  decide

/-- Table 9-4: kind, index, second index, revision, live. -/
theorem test_capture_order :
    answer .gateway (after (.capture .gateway [0, 0, 0]) (at_ 4 .run id)) = (.ok, [0, 0, 0, 0, 22, 1]) := by decide

/-- R145: order slots are numbered 0 to 63. -/
theorem test_capture_out_of_range : answer .gateway (after (.capture .gateway [0, 64, 0]) (at_ 4 .run id)) = (.arg, []) := by decide

/-- Table 9-4: the stage shows the due key 0x00001400, neither absent nor edited. -/
theorem test_readStage_due :
    answer .gateway (after (.readStage .gateway [0x05, 0]) (after (.capture .gateway [0, 0, 0]) (at_ 4 .run id))) =
      (.ok, [0, 0, 0, 0x14, 0]) := by decide

/-- R147: an edit shows in the stage and not in the live record (Table 9-4). -/
theorem test_editStage_due :
    ((after (.editStage .gateway [0x05, 0, 0, 0, 0x09, 0]) (after (.capture .gateway [0, 0, 0]) (at_ 4 .run id))).order? 0).map
      (·.due) = some 0x1400 := by decide

/-- The stage of Table 9-4 with the due key edited. -/
def edited : State :=
  after (.editStage .gateway [0x05, 0, 0, 0, 0x09, 0]) (after (.capture .gateway [0, 0, 0]) (at_ 4 .run id))

/-- Table 9-4: OK with the new revision. -/
theorem test_update_applies :
    answer .gateway (after (.update .gateway []) edited) = (.ok, [0, 23]) ∧
      ((after (.update .gateway []) edited).order? 0).map (·.due) = some 0x900 := by decide

/-- Table 9-4: the live revision has moved on. -/
theorem test_update_stale :
    answer .gateway (after (.update .gateway []) (edited.setBook { edited.book with
      slots := edited.book.slots.set 0 ⟨23, some (order .inWork [item 2 0 1 0])⟩ })) = (.stale, []) := by decide

/-! ### Frames byte by byte (R139 to R141) -/

/-- The station of port `p` is to clock in the frame `bytes`. -/
def onBus (p : Port) (bytes : List Byte) (s : State) : State := s.setBus (s.bus.set (portNo p) [⟨bytes, false⟩])

/-- GATEWAY is to send HOLD; PREP has sent IDENT up to the release of chip select. -/
def twoFrames : State :=
  (onBus .gateway [0x14, 0x00] (onBus .prep [] (line .run))).setPorts
    ((line .run).ports.set (portNo .prep) ⟨⟨[0x01, 0x00], 2⟩, ⟨0x00, .ok, []⟩, none, []⟩)

/-- The two ports move on together: one stores its first byte while the other's frame becomes a command. -/
theorem test_busTick_two_ports :
    ((busTick twoFrames).port .gateway).receiver = ⟨[0x14], 1⟩ ∧ ((busTick twoFrames).port .prep).receiver = ⟨[], 0⟩ ∧
      (busTick twoFrames).pending = [.ident .prep []] := by decide

/-- R139: the 203rd byte is counted and not stored. -/
theorem test_storeByte_beyond_202 (l : List Byte) (h : l.length = 202) : storeByte 7 ⟨l, 202⟩ = ⟨l, 203⟩ := by
  simp [storeByte, Config.receiverBytes, h]

/-! ### Notices (Table 10-3) -/

/-- The TUNNEL port of Table 10-3 after an exit into a full list: EXIT_READY is source 1, EXIT_OVERRUN 2, TEMP_STALE 3. -/
def noticed : State :=
  raise .tunnel .exitOverrun (raise .tunnel .exitReady (modNotice .tunnel (fun _ => ⟨0, 0b01010, 0, true⟩) (line .run)))

theorem test_raise_asserts : attention (noticed.notice .tunnel) = true := by decide

theorem test_service_reports :
    answer .tunnel (after (.service .tunnel []) noticed) = (.ok, [1, 0, 0b110]) ∧
      (after (.service .tunnel []) noticed).notice .tunnel = ⟨0b110, 0b01010, 0, false⟩ := by decide

theorem test_rearm_asserts_at_once :
    attention ((after (.rearm .tunnel []) (modNotice .tunnel (fun _ => ⟨0b1000, 0b01010, 0b010, false⟩) noticed)).notice .tunnel) =
      true := by decide

theorem test_clearNotices_keeps_group :
    (after (.clearNotices .tunnel [0, 0b110]) noticed).notice .tunnel = ⟨0, 0b01010, 0b010, true⟩ := by decide

/-- R154: an enable switched on over a pending source sets the group flag. -/
theorem test_setEnables_pending :
    ((after (.setEnables .tunnel [2, 1]) (modNotice .tunnel (fun _ => ⟨0b100, 0, 0, false⟩) noticed)).notice .tunnel) =
      ⟨0b100, 0b100, 0b010, false⟩ := by decide

/-! ### The order book (chapter 2) -/

/-- R27: the lowest-numbered FREE slot. -/
theorem test_placeOrder_slot :
    answer .gateway (after (.placeOrder .gateway (orderBytes 7310 .rush 0x1400 [item 2 0 0 0])) (at_ 4 .run id)) = (.dup, []) ∧
      answer .gateway (after (.placeOrder .gateway (orderBytes 7311 .rush 0x1400 [item 2 0 0 0])) (at_ 4 .run id)) =
        (.ok, [1]) := by decide

/-- R25: a quantity above 24. -/
theorem test_placeOrder_arg :
    answer .gateway (after (.placeOrder .gateway (orderBytes 7311 .rush 0x1400 [item 25 0 0 0])) (line .run)) = (.arg, []) := by
  decide

/-- Table 2-8: outcome CANCELLING with the orphans, each marked. -/
theorem test_cancelOrder_orphans :
    answer .gateway (after (.cancelOrder .gateway [0, 0, 0x1C, 0x8E]) (at_ 4 .run id)) = (.ok, [1, 1]) ∧
      ((after (.cancelOrder .gateway [0, 0, 0x1C, 0x8E]) (at_ 4 .run id)).trav? 3).map (·.orphan) = some true := by decide

/-- Table 2-7, last row. -/
theorem test_releaseOrder_frees :
    (after (.releaseOrder .tunnel [0, 0, 0x1C, 0x8E]) (withOrder (order .complete [item 2 2 0 1]) (line .run))).book.slots.get 0 =
      ⟨23, none⟩ := by decide

/-- Table 2-7: the load binds the traveller to line 0. -/
theorem test_loadGarment_binds :
    (after (.loadGarment .prep [0x1A, 0x2B, 0x03])
      (claimed .load (withOrder (order .open [item 2 0 0 0]) (line .run)))).book.slots.get 0 =
      ⟨23, some (order .inWork [item 2 0 1 0])⟩ := by decide

/-- Table 4-2: target 180 and 180 initial strokes. -/
theorem test_loadGarment_target :
    ((after (.loadGarment .prep [0x1A, 0x2B, 0x03])
      (claimed .load (withOrder (order .open [item 2 0 0 0]) (line .run)))).trav? 0).map (·.pretreat) =
      some (some ⟨180, 180, 0, none, none, none, 0, .needDry⟩) := by decide

/-! ### Modes (chapter 11) -/

/-- Table 3-4, first row. -/
theorem test_start_aligns :
    (after (.start .gateway [4]) (line .config)).ring.load = 4 ∧ (after (.start .gateway [4]) (line .config)).permit = true := by
  decide

/-- R156: the first missing function is named; HOME is function 3. -/
theorem test_start_names_missing :
    answer .gateway (after (.start .gateway [4]) ((line .config).setLines
      (wired.set 2 (Line.reset false)))) = (.arg, [3]) := by decide

/-- R157. -/
theorem test_stop_busy : answer .gateway (after (.stop .gateway []) (at_ 4 .run id)) = (.busy, []) := by decide

/-- Section 4.14: a hold after 200 strokes keeps them. -/
theorem test_hold_keeps_strokes :
    ((after (.hold .gateway []) (spraying 258 200 .active true)).trav? 3).map (fun t => (t.pretreat.map (·.delivered), t.faults)) =
      some (some 200, [.gaugeAborted]) := by decide

/-- R60: a RESUME at another platen drops the claims. -/
theorem test_resume_realigns :
    (after (.resume .gateway [5]) (claimed .load (line .hold))).claimAt .load = none ∧
      (after (.resume .gateway [5]) (claimed .load (line .hold))).ring.load = 5 := by decide

/-- R20: the open traveller closes LOST. -/
theorem test_lineReset_lost :
    answer .gateway (after (.lineReset .gateway []) (printing .a 12)) = (.ok, [1]) ∧
      (after (.lineReset .gateway []) (printing .a 12)).exits = [⟨0x41, .lost, some (7310, 0), none, none⟩] := by decide

/-! ### Discrete lines (Table 8-3) -/

/-- L10 is a general output driving high. -/
def stackLight : State :=
  (line .config).setLines (wired.set 10 ⟨.none, .outward, true, .standard, .us1, true, false⟩)

theorem test_lineAssign_latch : (after (.lineAssign .gateway [10, 5]) stackLight).pre.pumpFault = true := by decide

theorem test_lineAssign_moves : ((after (.lineAssign .gateway [10, 5]) stackLight).lines.get 4).function = .none := by decide

theorem test_lineConfig_filter : ((after (.lineConfig .gateway [9, 0, 0, 16]) stackLight).lines.get 9).filter = .us16 := by decide

/-- Section 8.7: after START a line with a function is refused with MODE. -/
theorem test_lineConfig_mode : answer .gateway (after (.lineConfig .gateway [9, 0, 0, 16]) (line .run)) = (.mode, []) := by decide

theorem test_lineSet_low : (after (.lineSet .gateway [0, 0x04, 0, 0, 0, 0]) stackLight).driven 10 = some false := by decide

theorem test_lineToggle_function_held :
    (after (.lineToggle .gateway [0, 0x06, 0]) stackLight).driven 10 = some false ∧
      ((after (.lineToggle .gateway [0, 0x06, 0]) stackLight).lines.get 9).level = false := by decide

/-- R136: L10 is high; L0 to L9 hold functions 1 to 10. -/
theorem test_lineRead : answer .gateway (after (.lineRead .gateway []) stackLight) =
    (.ok, [0, 0x04, 0] ++ [1, 2, 3, 4, 5, 6, 7, 8, 9, 10] ++ List.replicate 14 0) := by decide

/-- The contact on L4 is open: the latch is set. -/
def contactOpen : State :=
  (line .run).setLines (wired.set 4 ⟨.pumpFault, .inward, false, .standard, .us16, true, false⟩) |>.setPre ⟨none, 0, true⟩

theorem test_lineFilteredEdge_clears : (after (.lineFilteredEdge 4) contactOpen).pre.pumpFault = false := by decide

theorem test_pinChange_waits_for_filter :
    (after (.pinChange 4 true) (line .run)).pre.pumpFault = false ∧
      (after (.lineFilteredEdge 4) (after (.pinChange 4 true) (line .run))).pre.pumpFault = true := by decide

/-! ### The ring (Tables 3-4 and 6-4) -/

/-- The platen that stands there is claimed and the permit goes off; platen 4 at load platen 5 is refused. -/
theorem test_claim_station :
    answer .prep (after (.claim .prep [0, 0]) (line .run)) = (.ok, []) ∧ (after (.claim .prep [0, 0]) (line .run)).permit = false ∧
      answer .prep (after (.claim .prep [0, 4]) ((line .run).setRing { (line .run).ring with load := 5 })) = (.state, []) := by
  decide

theorem test_release_permit_on : (after (.release .prep [0]) (claimed .load (line .run))).permit = true := by decide

/-- Table 3-4: the garment without pretreatment leaves LOADED for READY_TO_PRINT. -/
theorem test_index_leaves_loaded :
    ((after .index (at_ 0 .run id)).trav? 3).map (·.stage) = some .readyToPrint ∧ (after .index (at_ 0 .run id)).ring.load = 1 := by
  decide

/-- Section 3.12: the second lap reaches the limit. -/
theorem test_index_lap_limit :
    ((after .index (at_ 10 .run fun t => { t with stage := .readyToPrint, laps := 1 })).trav? 3).map
      (fun t => (t.stage, t.laps, t.faults)) = some (.returnPending, 2, [.lapLimit]) := by decide

/-- Table 6-4: the expiry returns the garment and marks the platen. -/
theorem test_claimWindowExpiry :
    ((after (.claimWindowExpiry .a) (awaiting .a 12)).trav? 3).map (fun t => (t.stage, t.print, t.faults)) =
      some (.readyToPrint, none, [.assignLapsed]) ∧
    (after (.claimWindowExpiry .a) (awaiting .a 12)).lapseAt .a = some 6 := by decide

/-! ### Pretreatment (Tables 4-4 and 4-5) -/

theorem test_spray_count : answer .prep (after (.spray .prep []) (booth .dryDone 0)) = (.ok, [0, 180]) := by decide

theorem test_spray_rest : answer .prep (after (.spray .prep []) (booth .dryDone 111)) = (.ok, [0, 69]) := by decide

theorem test_strokeActivePhase :
    (after .strokeActivePhase (spraying 180 111 .inactive false)).outputLevel .pumpStroke = some true := by decide

theorem test_strokeDelivered : (after .strokeDelivered (spraying 180 110 .active false)).pre.strokes = 111 := by decide

theorem test_sprayPassEnd :
    ((after .sprayPassEnd (spraying 180 179 .active false)).trav? 3).map (·.pretreat) = some (some (record .sprayed 180)) := by decide

/-- Section 4.14: an ungauged garment takes its deposit by strokes; at the default stroke mass 258 strokes are 25.8 g. -/
theorem test_sprayPassEnd_ungauged :
    ((after .sprayPassEnd (spraying 258 257 .active true)).trav? 3).map (fun t => t.pretreat.map fun r => (r.measured, r.sub)) =
      some (some (some 258, .ungauged)) := by decide

theorem test_pumpFault :
    ((after .pumpFault (spraying 180 111 .active false)).trav? 3).map (fun t => (t.pretreat, t.faults)) =
      some (some (record .dryDone 111), [.pumpFault]) := by decide

theorem test_pumpFaultClear : (after .pumpFaultClear contactOpen).pre.pumpFault = false := by decide

/-- The garment of Table 4-5 under the prep claim at the press. -/
def press : State :=
  claimed .press (at_ 4 .run fun t => { t with stage := .pretreat, pretreat := some (record .verified 240) })

/-- 165 °C for 12 s, against 160 °C for 15 s. -/
theorem test_pressDone_short :
    answer .prep (after (.pressDone .prep [0, 165, 0, 12]) press) = (.ok, [1]) ∧
      ((after (.pressDone .prep [0, 165, 0, 12]) press).trav? 3).map (·.stage) = some .pretreat := by decide

/-- 165 °C for 16 s. -/
theorem test_pressDone_pressed :
    ((after (.pressDone .prep [0, 165, 0, 16]) press).trav? 3).map (fun t => (t.stage, t.press)) =
      some (.readyToPrint, some ⟨165, 16, .pressed⟩) := by decide

/-! ### The deposit gauge (Tables 5-5 and 5-6) -/

theorem test_gaugeDry_starts : (after (.gaugeDry .prep []) (booth .needDry 0)).gauge.pass = some ⟨.dry, 3⟩ := by decide

/-- R94, R138: a back garment with GAUGE_OSC_BACK unassigned. -/
theorem test_gaugeDry_noLine :
    answer .prep (after (.gaugeDry .prep []) (withOrder (order .inWork [{ item 2 0 1 0 with placement := .back }])
      ((booth .needDry 0).setLines (wired.set 8 (Line.reset false))))) = (.noLine, []) := by decide

theorem test_gaugeWet_window : (after (.gaugeWet .prep []) (booth .sprayed 180)).gauge.timebase = 100000 := by decide

theorem test_gaugeOscEdge_counts : (after (.gaugeOscEdge .front) (gauging .dry 7 40)).gauge.edges = 8 := by decide

theorem test_timebaseTick_counts : (after .timebaseTick (gauging .dry 7 40)).gauge.timebase = 41 := by decide

theorem test_dryPassEnd :
    ((after .dryPassEnd (gauging .dry 19999 100000)).trav? 3).map (fun t => t.pretreat.map fun r => (r.window, r.sub)) =
      some (some (some 100000, .dryDone)) := by decide

theorem test_gaugeDryTimeout :
    ((after .gaugeDryTimeout (gauging .dry 400 1048575)).trav? 3).map (·.faults) = some [.gaugeDryTimeout] := by decide

/-- m 18,500: Qm 180, VERIFIED. -/
theorem test_wetPassEnd_verified :
    ((after .wetPassEnd (gauging .wet 18500 1)).trav? 3).map (fun t => t.pretreat.map fun r => (r.measured, r.sub)) =
      some (some (some 180, .verified)) := by decide

/-- m 19,000: Qm 120, LIGHT, 60 strokes more. -/
theorem test_wetPassEnd_light :
    ((after .wetPassEnd (gauging .wet 19000 1)).trav? 3).map (fun t => t.pretreat.map fun r => (r.measured, r.commanded, r.sub)) =
      some (some (some 120, 240, .dryDone)) := by decide

theorem test_gaugeWetOverflow :
    ((after .gaugeWetOverflow (gauging .wet 1048575 3)).trav? 3).map (·.faults) = some [.gaugeWetOverflow] := by decide

theorem test_gaugeAbort : answer .prep (after (.gaugeAbort .prep []) (gauging .wet 7 40)) = (.ok, [2]) := by decide

/-! ### Print dispatch (Table 6-4) -/

theorem test_claim_engine :
    ((after (.claim .engineB [8, 4]) (awaiting .b 59)).trav? 3).map (·.stage) = some .printing ∧
      ((after (.claim .engineB [8, 4]) (awaiting .b 59)).engine .b).state = .printing ∧
      answer .engineA (after (.claim .engineA [6, 6]) (after (.claimWindowExpiry .a) (awaiting .a 12))) = (.lapsed, []) := by
  decide

/-- Levels 400,000, 86,000, 118,000, 139,000 and 3,000: K falls below what is reserved. -/
def shortReport : List Byte := [400000, 86000, 118000, 139000, 3000].flatMap bytes32

theorem test_inkReport_short :
    ((after (.inkReport .engineB shortReport) (printing .b 59)).notice .gateway).pending = 0b10000000 := by decide

/-- Actuals 0, 3,500, 1,750, 880 and 5,300. -/
def doneReport : List Byte := 1 :: [0, 3500, 1750, 880, 5300].flatMap bytes32

theorem test_printDone_settles :
    (after (.printDone .engineB doneReport) (after (.inkReport .engineB shortReport) (printing .b 59))).engine .b =
      ⟨.cleanDue, none, 60, ⟨400000, 82500, 116250, 138120, 0⟩, .zero, 2⟩ := by decide

theorem test_printDone_defect :
    ((after (.printDone .engineB (2 :: doneReport.tail)) (printing .b 59)).trav? 3).map (fun t => (t.stage, t.faults)) =
      some (.rejectPending, [.printDefect]) := by decide

/-- R108 with R96: the clean interval is 60. -/
theorem test_engineOnline_cleanDue : ((after (.engineOnline .engineA []) (atEngine .a .offline .printed 60)).engine .a).state =
    .cleanDue := by decide

theorem test_engineOffline_busy : answer .engineA (after (.engineOffline .engineA []) (printing .a 12)) = (.busy, []) := by decide

/-- R106. -/
theorem test_engineFault_printing :
    ((after (.engineFault .engineA []) (printing .a 12)).trav? 3).map (fun t => (t.stage, t.faults)) =
      some (.rejectPending, [.engineFault]) ∧
    ((after (.engineFault .engineA []) (printing .a 12)).engine .a).prints = 13 := by decide

theorem test_cleanStart : ((after (.cleanStart .engineA []) (atEngine .a .cleanDue .printed 60)).engine .a).state = .cleaning := by
  decide

/-- R110 with R101: the garment in front of the engine is assigned. -/
theorem test_cleanDone_assigns :
    (after (.cleanDone .engineA []) (atEngine .a .cleaning .readyToPrint 60)).engine .a = ⟨.assigned, some 3, 0, ink, estimate, 1⟩ := by
  decide

/-! ### The tunnel and closures (Tables 7-3 to 7-7, 1-16) -/

/-- The PRINTED garment of Table 7-3 at the unload point, with its measured deposit. -/
def printed : State :=
  let s := claimed .unload (at_ 10 .run fun t =>
    { t with stage := .printed, pretreat := some { record .verified 180 with measured := some 180 } })
  s.setTunnel { s.tunnel with encoder := 5000000 }

/-- R 23,640 is 0x5C58 and L 42,552 is 0xA638. -/
theorem test_tunnelEntry_doses :
    answer .tunnel (after (.tunnelEntry .tunnel []) printed) = (.ok, [3, 0, 0x41, 0x5C, 0x58, 0xA6, 0x38, 1]) := by decide

/-- The same with slot 7 in the queue, entered `n` pulses ago (Table 7-7). -/
def entered (n : Nat) : State :=
  let s := putTrav 7 (some { garment .inTunnel none with cure := some (cure 0 0) }) printed
  s.setTunnel { s.tunnel with encoder := BitVec.ofNat 32 (5000000 + n), queue := [⟨7, 200⟩] }

theorem test_tunnelEntry_spacing :
    answer .tunnel (after (.tunnelEntry .tunnel []) (entered 599)) = (.busy, []) ∧
      (answer .tunnel (after (.tunnelEntry .tunnel []) (entered 600))).1 = .ok := by decide

/-- R122. -/
theorem test_zoneTemps_clamped :
    answer .tunnel (after (.zoneTemps .tunnel [0, 165, 1, 0x2D, 0, 160]) (line .run)) = (.ok, [0, 165, 1, 0x2C, 0, 160]) := by decide

theorem test_staleTimerExpiry :
    (after .staleTimerExpiry (after (.zoneTemps .tunnel [0, 165, 0, 170, 0, 160]) (line .run))).tunnel.zones.get 0 = none := by decide

/-- Table 7-4: zone 1 at 165 °C adds 35. -/
theorem test_sampleTimerExpiry_heat :
    ((after .sampleTimerExpiry (curing 5000004 (cure 0 0) id (some 165))).trav? 3).map (·.cure) = some (some (cure 35 165)) := by
  decide

/-- Table 7-6: the first sample with the zone unknown. -/
theorem test_sampleTimerExpiry_stale :
    ((after .sampleTimerExpiry (curing 5002004 (cure 35 165) id none)).trav? 3).map (fun t => (t.cure.map (·.stale), t.faults)) =
      some (some true, [.staleTemp]) := by decide

theorem test_encoderPulse_counts : (after .encoderPulse (line .config)).tunnel.encoder = 1 := by decide

/-- Table 7-4: the exit pulse. -/
theorem test_tunnelExit_pack :
    (after .tunnelExit (curing 5005999 (cure 25200 170) id (some 160))).exits = [⟨0x41, .pack, some (7310, 0), some .cured, none⟩] ∧
      (after .tunnelExit (curing 5005999 (cure 25200 170) id (some 160))).trav? 3 = none := by decide

/-- Table 7-5: a dose of 42,570 is above L. -/
theorem test_tunnelExit_scorched :
    (after .tunnelExit (curing 5005999 (cure 42570 170) id (some 160))).exits =
      [⟨0x41, .scrap, some (7310, 0), some .scorched, none⟩] := by decide

/-- Table 2-7: the scrap gives the unit back and counts a reprint; one beyond the limit of 3 holds the order (R34). -/
theorem test_unloadDone_scrap :
    (after (.unloadDone .tunnel []) (unloading .rejectPending 0)).book.slots.get 0 = ⟨23, some (order .open [item 2 0 0 1])⟩ ∧
      ((after (.unloadDone .tunnel []) (unloading .rejectPending 3)).order? 0).map (·.hold) = some true := by decide

/-- The eight entries of Table 1-16. -/
def fullList : List ExitEntry :=
  (List.range 8).map fun k => ⟨BitVec.ofNat 16 (0x101 + k), .pack, none, none, none⟩

theorem test_exit_overrun :
    ((after (.unloadDone .tunnel []) ((unloading .rejectPending 0).setExits fullList)).exits.map (·.serial)) =
      [0x102, 0x103, 0x104, 0x105, 0x106, 0x107, 0x108, 0x41] := by decide

theorem test_exitPop_oldest :
    answer .tunnel (after (.exitPop .tunnel []) ((line .run).setExits fullList)) = (.ok, [1, 1, 0, 0, 0, 0, 0, 0, 0, 0, 0]) := by
  decide

/-- R19: an empty list. -/
theorem test_exitPop_empty : answer .tunnel (after (.exitPop .tunnel []) (line .run)) = (.ok, []) := by decide

/-! ### Witnesses: for each statement with hypotheses, a state and operands that meet them -/

theorem all_some {α : Type} {o : Option α} {P : α → Prop} [DecidablePred P] :
    (∀ t, o = some t → P t) ↔ o.all (fun t => decide (P t)) = true := by cases o <;> simp

theorem ex_some {α : Type} {o : Option α} {P : α → Prop} [DecidablePred P] :
    (∃ t, o = some t ∧ P t) ↔ o.any (fun t => decide (P t)) = true := by cases o <;> simp

/-- A garment waits at the booth under the prep claim; the next command starts its dry pass. -/
def busy : State := (booth .needDry 0).setPending [.gaugeDry .prep []]

theorem witness_StepRunsFrontCommand_idle :
    (line .run).pending = [] ∧ ∀ p ∈ allPorts, (line .run).busOf p = [] := by decide

/-- Two ports at work at once: a frame that has begun, and one whose chip select is about to be released. -/
theorem witness_StepRunsFrontCommand_ports :
    twoFrames.pending = [] ∧ twoFrames.busOf .gateway = [⟨[0x14, 0x00], false⟩] ∧ twoFrames.busOf .prep = [⟨[], false⟩] ∧
      (twoFrames.port .prep).receiver.count = 1 + 1 ∧ (twoFrames.port .gateway).receiver.count = 0 := by decide

theorem witness_FramesWithoutCommand_clocked :
    let s := onBus .gateway [0x14, 0x00] (line .run)
    s.pending = [] ∧ [0x14, 0x00].length ≤ 202 ∧ (s.port .gateway).receiver = ⟨[], 0⟩ ∧
      s.busOf .gateway = [⟨[0x14, 0x00], false⟩] ∧ ∀ q ∈ allPorts, q ≠ Port.gateway → s.busOf q = [] := by decide

theorem witness_FrameReadsBack_command :
    wellFormed (.claim .prep [4, 7]) = true ∧
      encodeFrame (.claim .prep [4, 7]) = some (.prep, [0x20, 2, 4, 7], false) := by decide

theorem witness_FrameReadsBack_malformed :
    wellFormed (.frameMalformed .prep [0x01] true) = true ∧
      encodeFrame (.frameMalformed .prep [0x01] true) = some (.prep, [0x01], true) := by decide

/-- Role, mode and length fail in turn. -/
theorem witness_CommandChecks :
    (wellFormed (.spray .tunnel []) = true ∧ commandParts (.spray .tunnel []) = some (.tunnel, 0x2A, [])) ∧
      (ruleOf 0x2A).map (fun r => (decide (Port.tunnel ∈ r.roles), decide (Port.prep ∈ r.roles), decide (Mode.hold ∈ r.modes),
        decide (Mode.run ∈ r.modes), r.length [0])) = some (false, true, false, true, false) := by decide

theorem witness_Refusals :
    commandParts (.spray .tunnel []) = some (.tunnel, 0x2A, []) ∧
      exec (.spray .tunnel []) (line .run) = .next (after (.spray .tunnel []) (line .run)) ∧
      ((after (.spray .tunnel []) (line .run)).port .tunnel).holder.status ≠ .ok := ⟨rfl, rfl, by decide⟩

theorem witness_CaptureFillsStage :
    (liveRecord (line .run) .order 63 0).isSome = true ∧ liveRecord (line .run) .order 64 0 = none ∧
      (liveRecord (line .run) .line 0 7).isSome = true ∧ liveRecord (line .run) .line 0 8 = none := by decide

/-- The gateway's stage holds the constants record, with nothing edited. -/
def constantsStage : Staged := stageOf .constants 0 0 ⟨0, true, constantsFields .default⟩

/-- The gateway's stage is `g`. -/
def staged (g : Staged) (s : State) : State := setStage .gateway (some g) s

theorem witness_StageReadAndEdited :
    ((staged constantsStage (line .run)).port .gateway).stage = some constantsStage ∧
      fieldExists .constants 0x90 0 = true ∧ (∃ f ∈ constantsStage.fields, f.id = 0x90 ∧ f.element = 0) ∧
      editAllowed .constants 0x90 1 = true ∧ editAllowed .constants 0x90 3 = true ∧
      editAllowed .constants 0x90 0 = false ∧ editAllowed .constants 0x90 4 = false := by decide

/-- The stage of order slot 0 with its due key edited. -/
def orderStage : Staged := editField 0x05 0 0x900 (stageOf .order 0 0 ⟨22, true, orderFields (some (order .inWork [item 2 0 1 0]))⟩)

theorem witness_UpdateWrites_order :
    ((staged orderStage (at_ 4 .run id)).port .gateway).stage = some orderStage ∧ orderStage.kind = .order ∧
      orderStage.index = (0 : Fin 64).val ∧ orderStage.subIndex = 0 ∧ (∃ f ∈ orderStage.fields, f.edited = true) ∧
      (staged orderStage (at_ 4 .run id)).mode = .run ∧
      (staged orderStage (at_ 4 .run id)).book.slots.get 0 = ⟨orderStage.rev, some (order .inWork [item 2 0 1 0])⟩ := by decide

/-- Section 9.6: Z2 edited to 3,000, and then E to 4,000 too. -/
theorem witness_UpdateWrites_constants :
    (∃ f ∈ (editField 0x9F 0 3000 constantsStage).fields, f.edited = true) ∧
      (staged (editField 0x9F 0 3000 constantsStage) (line .config)).mode = .config ∧
      (staged (editField 0x9F 0 3000 constantsStage) (line .config)).setup.constantsRev = constantsStage.rev ∧
      zonesInOrder ((edits (editField 0x9F 0 3000 constantsStage)).foldl editConstants .default) = false ∧
      zonesInOrder ((edits (editField 0x9D 0 4000 (editField 0x9F 0 3000 constantsStage))).foldl editConstants .default) = true := by
  decide

/-- The stage of fabric class 0 as it stands. -/
def fabricStage : Staged := stageOf .fabric 0 0 ⟨0, true, fabricFields fabric⟩

/-- A class edited to Kg 1, and a reset class edited to valid with its Kg of 0. -/
theorem witness_UpdateWrites_fabric :
    (∃ f ∈ (editField 0x83 0 1 fabricStage).fields, f.edited = true) ∧
      ((line .run).setup.fabrics.get 0).rev = fabricStage.rev ∧
      fabricInRange ((edits (editField 0x83 0 1 fabricStage)).foldl editFabric fabric) = true ∧
      ((edits (editField 0x80 0 1 fabricStage)).foldl editFabric .reset).valid = true ∧
      fabricInRange ((edits (editField 0x80 0 1 fabricStage)).foldl editFabric .reset) = false := by decide

/-- No stage; an unedited stage; another port; a kind that takes no UPDATE; the wrong modes; a revision that has moved on; an
order slot that is FREE. -/
theorem witness_Update_refused :
    ((line .run).port .gateway).stage = none ∧
      (((staged fabricStage (line .run)).port .gateway).stage = some fabricStage ∧ ∀ f ∈ fabricStage.fields, f.edited = false) ∧
      (((setStage .prep (some orderStage) (line .run)).port .prep).stage = some orderStage ∧ Port.prep ≠ .gateway ∧
        ∃ f ∈ orderStage.fields, f.edited = true) ∧
      Kind.ring ∉ [Kind.order, .fabric, .constants] ∧ (staged orderStage (line .config)).mode = .config ∧
      ((editField 0x9F 0 3000 constantsStage).kind = .constants ∧ (line .run).mode ≠ .config) ∧
      (orderStage.kind = .order ∧ (staged orderStage (line .run)).mode ≠ .config ∧
        (liveRecord (staged orderStage (line .run)) .order 0 0).map (fun r => decide (r.rev ≠ orderStage.rev)) = some true) ∧
      (liveRecord (staged { orderStage with rev := 0 } (line .run)) .order 0 0).map (fun r => (r.rev, r.occupied)) =
        some (0, false) := by decide

theorem witness_RaiseSetsFlags : sourceNo .prep .holdEntered = some 9 ∧ sourceNo .gateway .orderComplete = some 0 := by decide

/-- The PREP port has ten sources: 9 is the last, 10 is none; a selection of all is 1,023. -/
theorem witness_ServiceClearEnable : sourceCount .prep = 10 ∧ (0x3FF : BitVec 16).toNat < 2 ^ sourceCount .prep ∧
    ¬ (0x400 : BitVec 16).toNat < 2 ^ sourceCount .prep := by decide

theorem witness_PlaceOrder_free :
    (line .run).mode = .run ∧ (∀ l ∈ [item 1 0 0 0, item 24 0 0 0], lineAllowed (line .run) l) ∧
      (∀ n : Fin 64, (line .run).order? n = none) := by
  unfold lineAllowed
  decide

theorem witness_PlaceOrder_dup :
    ∃ o : Order, (at_ 4 .run id).order? 0 = some o ∧ o.number = 7310 := ⟨_, rfl, rfl⟩

theorem witness_PlaceOrder_last :
    let s := (line .run).setBook ⟨(Tab.fill ⟨0, some (order .open [item 2 0 0 0])⟩).set 63 ⟨0, none⟩, 0⟩
    s.order? 63 = none ∧ ∀ n : Fin 64, n < 63 → (s.order? n).isSome = true := by decide

theorem witness_PlaceOrder_full (n : Fin 64) :
    ∃ o : Order, ((line .run).setBook ⟨.fill ⟨0, some (order .open [item 2 0 0 0])⟩, 0⟩).order? n = some o ∧ o.number ≠ 5 :=
  ⟨order .open [item 2 0 0 0], by simp [State.order?, State.setBook], by decide⟩

theorem witness_MatchIsFirstCandidate :
    matchBlank (at_ 4 .run id) 0x1A2B03 = some (0, 0) ∧ matchBlank (at_ 4 .run id) 0x1A2B04 = none := by decide

/-- The prep claim at an empty load position, the order OPEN. -/
def loading : State := claimed .load (withOrder (order .open [item 2 0 0 0]) (line .run))

theorem witness_LoadCreates :
    loading.mode = .run ∧ loading.holdsClaim .prep .load = true ∧ loading.slotAt 0 = none ∧
      matchBlank loading 0x1A2B03 = some (0, 0) ∧ loading.order? 0 = some (order .open [item 2 0 0 0]) ∧
      loading.trav? 0 = none ∧ TunnelConsistent loading := by
  refine ⟨rfl, by decide, by decide, by decide, rfl, by decide, ?_⟩
  unfold TunnelConsistent
  simp only [all_some, ex_some]
  decide

theorem witness_LoadNoMatch : matchBlank loading 0x1A2B04 = none := by decide

theorem witness_LoadFull :
    let s := loading.setTable ⟨.fill ⟨0, some (garment .rejectPending (some 5))⟩, 0⟩
    (matchBlank s 0x1A2B03).isSome = true ∧ s.slotAt 0 = none ∧ ∀ i : Fin 32, (s.trav? i).isSome = true := by decide

theorem only_order (o : Order) (s : State) (hs : ∀ n : Fin 64, n ≠ 0 → s.order? n = none) (n : Fin 64) (q : Order)
    (h : (withOrder o s).order? n = some q) : n = 0 := by
  by_contra hn
  have : (withOrder o s).order? n = s.order? n := by
    simp [withOrder, State.order?, State.setBook, Tab.get_set_ne _ _ hn]
  rw [this, hs n hn] at h
  exact absurd h (by simp)

/-- Slot 0 alone is live, in each of the states concerned. -/
theorem witness_CancelAndRelease (st : OrderState) :
    (withOrder (order st [item 2 0 1 0]) (line .run)).mode = .run ∧
      (withOrder (order st [item 2 0 1 0]) (line .run)).order? 0 = some (order st [item 2 0 1 0]) ∧
      ∀ (n : Fin 64) (q : Order), (withOrder (order st [item 2 0 1 0]) (line .run)).order? n = some q →
        q.number = 7310 → n = 0 :=
  ⟨rfl, rfl, fun n q h _ => only_order _ (line .run) (by decide) n q h⟩

theorem witness_StartEntersRun :
    (line .config).mode = .config ∧
      (∀ f ∈ [LineFunction.indexPermit, .indexPulse, .home, .pumpStroke, .pumpFault, .beltEnc, .gaugeExcite, .gaugeOscFront],
        ∃ l : Fin 24, ((line .config).lines.get l).function = f) ∧
      ∃ k : Fin 8, ((line .config).setup.fabrics.get k).cls.valid = true := by decide

theorem witness_Start_missing :
    let s := (line .config).setLines (wired.set 0 (Line.reset false))
    s.mode = .config ∧ s.assigned .indexPermit = false ∧
      ((line .config).setLines (wired.set 7 (Line.reset false))).assigned .gaugeOscFront = false ∧
      (∀ f ∈ [LineFunction.indexPermit, .indexPulse, .home, .pumpStroke, .pumpFault, .beltEnc, .gaugeExcite],
        ((line .config).setLines (wired.set 7 (Line.reset false))).assigned f = true) := by decide

theorem witness_Start_noFabric :
    let s := (line .config).setSetup State.reset.setup
    s.mode = .config ∧
      (∀ f ∈ [LineFunction.indexPermit, .indexPulse, .home, .pumpStroke, .pumpFault, .beltEnc, .gaugeExcite, .gaugeOscFront],
        s.assigned f = true) ∧ ∀ k : Fin 8, (s.setup.fabrics.get k).cls.valid = false := by decide

theorem witness_Stop :
    (line .hold).mode = .hold ∧ (∀ i : Fin 32, (line .hold).trav? i = none) ∧ (at_ 4 .run id).mode = .run ∧
      ∃ i : Fin 32, ((at_ 4 .run id).trav? i).isSome = true := by decide

theorem witness_Hold :
    (line .run).mode = .run ∧ (line .run).passInFlight = false ∧ (line .hold).mode = .hold := by decide

theorem witness_Hold_spraying :
    (spraying 180 111 .active false).mode = .run ∧
      (spraying 180 111 .active false).pre.pass = some ⟨3, 180, false, .active, 50000⟩ ∧
      ((spraying 180 111 .active false).trav? 3).bind (·.pretreat) = some (record .dryDone 0) := by decide

theorem witness_Hold_gauging :
    (gauging .wet 7 40).mode = .run ∧ (gauging .wet 7 40).pre.pass = none ∧ (gauging .wet 7 40).gauge.pass = some ⟨.wet, 3⟩ ∧
      (gauging .wet 7 40).gauge.last = some ⟨.wet, 3, 0x41, .inFlight⟩ ∧ ((gauging .wet 7 40).trav? 3).isSome = true := by decide

theorem witness_Resume :
    let s := claimed .load (line .hold)
    s.mode = .hold ∧ (∀ p : Fin 12, s.ring.carried.get p = none) ∧ s.passInFlight = false ∧ (11 : Fin 12) ≠ s.ring.load := by decide

/-- Eight exit entries and an open traveller under a pass. -/
theorem witness_LineReset :
    let s := (gauging .dry 7 40).setExits fullList
    PassGuarded s ∧ s.exits.length ≤ 8 ∧ openSlots s = [3] := by
  refine ⟨?_, by decide, by decide⟩
  unfold PassGuarded
  decide

theorem witness_LineAssign :
    stackLight.mode = .config ∧ (stackLight.lines.get 10).function ≠ .pumpFault ∧
      (∃ k : Fin 24, (stackLight.lines.get k).function = .pumpFault) ∧
      ∀ k : Fin 24, ((after (.lineAssign .gateway [4, 0]) stackLight).lines.get k).function ≠ .pumpFault := by decide

theorem witness_LineSettings :
    ((line .config).lines.get 5).function = .beltEnc ∧ (line .config).passInFlight = false ∧ (line .config).tunnel.queue = [] ∧
    ((line .run).lines.get 23).function = .none ∧ ((line .run).lines.get 0).function ≠ .none ∧ (line .run).mode ≠ .config ∧
      (line .config).mode = .config := by decide

/-- The pump fault input after its pin has risen, with a filter of 16 µs and with none. -/
theorem witness_FilteredEdges :
    let s := (line .run).setLines (wired.set 4 ⟨.pumpFault, .inward, false, .standard, .us16, false, true⟩)
    let t := (line .run).setLines (wired.set 4 ⟨.pumpFault, .inward, false, .standard, .us0, false, false⟩)
    s.lineOf .pumpFault = some 4 ∧ (s.lines.get 4).filter ≠ .us0 ∧ (s.lines.get 4).outside = true ∧
      (s.lines.get 4).filtered = !true ∧ t.lineOf .pumpFault = some 4 ∧ (t.lines.get 4).filter = .us0 ∧
      (t.lines.get 4).outside = !true ∧ (s.lines.get 23).function = .none ∧ (s.lines.get 2).function = .home ∧
      (s.lines.get 2).filter ≠ .us0 := by decide

theorem witness_PermitAndLineLevels :
    ((line .run).lines.get 23).function = .none ∧ isInput ((line .run).lines.get 1).function = true ∧
      ((line .run).lines.get 0).function = .indexPermit ∧ ((line .run).lines.get 3).function = .pumpStroke ∧
      ((line .run).lines.get 6).function = .gaugeExcite ∧ ((line .run).lines.get 9).function = .faultOut ∧
      (line .run).mode ≠ .hold ∧ ((line .hold).lines.get 3).function = .pumpStroke ∧ (line .hold).mode = .hold := by decide

theorem witness_StationClaimAndRelease :
    stationPort .spray = .prep ∧ (line .run).claimAt .spray = none ∧ ((booth .dryDone 0).claimAt .spray).isSome = true ∧
      (booth .dryDone 0).passInFlight = false ∧ (spraying 180 0 .inactive false).passInFlight = true ∧
      ((spraying 180 0 .inactive false).claimAt .spray).isSome = true ∧ stationPort .unload = .tunnel := by decide

theorem witness_EngineClaim :
    (awaiting .b 59).mode = .run ∧ (awaiting .b 59).claimAt .printB = none ∧ (awaiting .b 59).awaitingAt .b = some ⟨3, 4, 500⟩ ∧
      platenAt (awaiting .b 59).ring (stationPos .printB) = 4 ∧ ((awaiting .b 59).trav? 3).isSome = true := by decide

/-- Off the port's stations; the platen not there; the position claimed; nothing awaiting; the window lapsed. -/
theorem witness_EngineClaim_refused :
    (∀ st ∈ allStations, stationPort st = .engineA → (stationPos st).val ≠ 8) ∧
      (platenAt (line .run).ring (stationPos .printA)).val ≠ 11 ∧ ((printing .a 12).claimAt .printA).isSome = true ∧
      ((line .run).claimAt .printA = none ∧ (platenAt (line .run).ring (stationPos .printA)).val = 6 ∧
        (line .run).awaitingAt .a = none ∧ (line .run).lapseAt .a = none) ∧
      (after (.claimWindowExpiry .a) (awaiting .a 12)).lapseAt .a = some 6 := by decide

theorem carriedConsistent_of_check (s : State)
    (h : ∀ (p : Fin 12) (i : Fin 32), s.ring.carried.get p = some i ↔
      (s.trav? i).any (fun t => decide (t.platen = some p)) = true) : CarriedConsistent s :=
  fun p i => (h p i).trans ex_some.symm

/-- The index takes a garment from the load position; the home line is inactive. -/
theorem witness_PermittedIndex :
    (at_ 0 .run id).permit = true ∧ (at_ 0 .run id).lineOf .indexPulse = some 1 ∧ CarriedConsistent (at_ 0 .run id) ∧
      homeLevel (at_ 0 .run id) = decide ((at_ 0 .run id).ring.load + 1 = 0) ∧
      ∀ x ∈ [(at_ 0 .run id).travAt 5, (at_ 0 .run id).travAt 7], x.all (fun y => y.2.stage ≠ .readyToPrint) = true :=
  ⟨by decide, by decide, carriedConsistent_of_check _ (by decide), by decide, by decide⟩

/-- The home line is inactive as platen 0 comes to the load position. -/
theorem witness_RingSlip :
    let s := (booth .needDry 0).setRing { (booth .needDry 0).ring with load := 11 }
    PassGuarded s ∧ s.mode = .run ∧ s.lineOf .indexPulse = some 1 ∧ homeLevel s ≠ decide (s.ring.load + 1 = 0) := by
  refine ⟨?_, by decide, by decide, by decide⟩
  unfold PassGuarded
  decide

/-- The conditions of the floor in a mode other than CONFIG, from checks that evaluate. -/
theorem floor_of_checks (s : State) (guarded : PassGuarded s)
    (carried : ∀ (p : Fin 12) (i : Fin 32), s.ring.carried.get p = some i ↔
      (s.trav? i).any (fun t => decide (t.platen = some p)) = true)
    (claims : ∀ st ∈ allStations, (s.claimAt st).all
      (fun c => decide (c.port = stationPort st ∧ c.platen = platenAt s.ring (stationPos st))) = true)
    (booth : ∀ i : Fin 32, (s.pre.pass.map (·.trav) = some i ∨ s.gauge.pass.map (·.trav) = some i) →
      s.slotAt 2 = some i ∧ (s.trav? i).any (fun t => decide (t.stage = .pretreat ∧ t.pretreat.isSome = true)) = true)
    (engines : ∀ e : Engine, EngineConsistent s e)
    (held : ∀ i : Fin 32, (s.trav? i).all (fun t => decide ((t.stage = .assigned ∨ t.stage = .printing) →
      (s.engine .a).current = some i ∨ (s.engine .b).current = some i)) = true)
    (queued : (s.tunnel.queue.map (·.trav)).Nodup ∧ ∀ i : Fin 32, i ∈ s.tunnel.queue.map (·.trav) ↔
      (s.trav? i).any (fun t => decide (t.stage = .inTunnel)) = true)
    (placed : ∀ i : Fin 32, (s.trav? i).all (fun t => decide ((t.stage = .inTunnel ↔ t.platen = none) ∧
      (t.stage = .inTunnel ↔ t.cure.isSome = true))) = true)
    (quiet : s.mode ≠ .config) : FloorConsistent s where
  guarded := guarded
  carried := carriedConsistent_of_check s carried
  claims := fun st c h => all_some.mpr (claims st (by cases st <;> decide)) c h
  booth := fun i h => ⟨(booth i h).1, ex_some.mpr (booth i h).2⟩
  engines := engines
  held := fun i t ht hs => (all_some.mpr (held i) t ht hs).elim (fun h => ⟨.a, h⟩) (fun h => ⟨.b, h⟩)
  tunnel := ⟨queued.1, fun i => (queued.2 i).trans ex_some.symm, fun i t ht => all_some.mpr (placed i) t ht⟩
  quiet := fun h => absurd h quiet

/-- An engine that is idle and holds nothing. -/
theorem engine_idle {s : State} {e : Engine} (h : (s.engine e).state = .offline ∨ (s.engine e).state = .ready)
    (hn : (s.engine e).current = none ∧ (s.engine e).reserved = .zero ∧ s.claimAt (engineStation e) = none ∧
      s.awaitingAt e = none) : EngineConsistent s e := by
  unfold EngineConsistent
  obtain h | h := h <;> rw [h] <;> exact hn

/-- A wet pass over the claimed garment at the booth. -/
theorem floor_gauging : FloorConsistent (gauging .wet 7 40) :=
  floor_of_checks _ (by unfold PassGuarded; decide) (by decide) (by decide) (by decide)
    (fun e => by cases e <;> exact engine_idle (by decide) (by decide))
    (by decide) (by decide) (by decide) (by decide)

/-- Engine A prints under its claim, one print short of the clean interval. -/
theorem floor_printing : FloorConsistent (printing .a 59) :=
  floor_of_checks _ (by unfold PassGuarded; decide) (by decide) (by decide) (by decide)
    (fun e => by
      cases e
      · exact ⟨⟨3, _, _, rfl, by decide, rfl, rfl, rfl, rfl, rfl⟩, by decide, by decide⟩
      · exact engine_idle (by decide) (by decide))
    (by decide) (by decide) (by decide) (by decide)

/-- The load point is claimed while a garment stands one position before engine A, which is ready. -/
def waitingBehind : State :=
  claimed .load
    (modEngine .a (fun x => { x with state := .ready, level := ink }) (at_ 5 .run fun t => { t with stage := .readyToPrint }))

theorem floor_waitingBehind : FloorConsistent waitingBehind :=
  floor_of_checks _ (by unfold PassGuarded; decide) (by decide) (by decide) (by decide)
    (fun e => by cases e <;> exact engine_idle (by decide) (by decide))
    (by decide) (by decide) (by decide) (by decide)

/-- A forced index under a print that ends at the clean interval. -/
theorem witness_ForcedIndex_printing :
    FloorConsistent (printing .a 59) ∧ (printing .a 59).mode = .run ∧ (printing .a 59).permit = false ∧
      (printing .a 59).lineOf .indexPulse = some 1 ∧ ((printing .a 59).trav? 3).map (·.stage) = some .printing ∧
      ((printing .a 59).engine .a).state = .printing ∧
      (settledRec (printing .a 59).constants ((printing .a 59).engine .a)).state = .cleanDue ∧
      ((printing .a 59).trav? 3).map (fun v => decide (v.stage = .readyToPrint)) = some false ∧
      Touched (printing .a 59) 3 :=
  ⟨floor_printing, by decide, by decide, by decide, by decide, by decide, by decide, by decide,
    6, by decide, .inl ⟨.printA, _, rfl, rfl⟩⟩

/-- A forced index that brings a READY_TO_PRINT garment to a ready engine. -/
theorem witness_ForcedIndex_arrival :
    FloorConsistent waitingBehind ∧ waitingBehind.mode = .run ∧ waitingBehind.permit = false ∧
      waitingBehind.lineOf .indexPulse = some 1 ∧ homeLevel waitingBehind = decide (waitingBehind.ring.load + 1 = 0) ∧
      (settledRec waitingBehind.constants (waitingBehind.engine .a)).state = .ready ∧
      (waitingBehind.trav? 3).map (fun v => (v.stage, v.platen)) =
        some (.readyToPrint, some (platenAt waitingBehind.ring (stationPos (engineStation .a) - 1))) ∧
      waitingBehind.line? 0 0 = some (item 2 0 1 0) :=
  ⟨floor_waitingBehind, by decide, by decide, by decide, by decide, by decide, by decide, by decide⟩

theorem witness_ForcedIndex :
    FloorConsistent (gauging .wet 7 40) ∧ (gauging .wet 7 40).mode = .run ∧ (gauging .wet 7 40).permit = false ∧
      (gauging .wet 7 40).lineOf .indexPulse = some 1 ∧ ((gauging .wet 7 40).trav? 3).map (·.faults.length) = some 0 ∧
      Touched (gauging .wet 7 40) 3 :=
  ⟨floor_gauging, by decide, by decide, by decide, by decide, 10, by decide, .inr (.inr (.inr (by decide)))⟩

/-- The part in HOLD, with the assignment at engine A awaiting its claim and engine B ready. -/
def heldAwaiting : State :=
  let s := modEngine .b (fun x => { x with state := .ready }) (awaiting .a 12)
  s.setSetup { s.setup with mode := .hold }

theorem floor_heldAwaiting : FloorConsistent heldAwaiting :=
  floor_of_checks _ (by unfold PassGuarded; decide) (by decide) (by decide) (by decide)
    (fun e => by
      cases e
      · exact ⟨⟨3, _, _, rfl, by decide, rfl, rfl, rfl, rfl, rfl⟩, by decide, _, rfl, rfl, by decide⟩
      · exact engine_idle (by decide) (by decide))
    (by decide) (by decide) (by decide) (by decide)

/-- A re-alignment by two platens: the assignment is withdrawn, and its garment then stands at the position of engine B. -/
theorem witness_Resume_realigned :
    FloorConsistent heldAwaiting ∧ heldAwaiting.mode = .hold ∧ (2 : Fin 12) ≠ heldAwaiting.ring.load ∧ Touched heldAwaiting 3 ∧
      (heldAwaiting.trav? 3).map (fun v => (realigned 2 (addFault .forcedIndex v)).stage) = some .readyToPrint ∧
      (heldAwaiting.trav? 3).map (·.platen) = some (some (2 - stationPos (engineStation .b))) ∧
      (settledRec heldAwaiting.constants (heldAwaiting.engine .b)).state = .ready ∧
      (heldAwaiting.trav? 3).map (·.platen) ≠ some (some (2 - stationPos (engineStation .a))) ∧
      heldAwaiting.line? 0 0 = some (item 2 0 1 0) :=
  ⟨floor_heldAwaiting, by decide, by decide, ⟨6, by decide, .inr (.inl ⟨.a, _, rfl, rfl⟩)⟩, by decide, by decide, by decide,
    by decide, by decide⟩

/-- RESUME at the map's own load platen: a garment waits at engine A, which is ready; one awaits its claim. -/
theorem witness_Resume_aligned :
    let s := (atEngine .a .ready .readyToPrint 12).setSetup { (line .run).setup with mode := .hold }
    s.mode = .hold ∧ CarriedConsistent s ∧ (s.trav? 3).map (fun v => (v.stage, v.platen)) =
        some (.readyToPrint, some (platenAt s.ring (stationPos (engineStation .a)))) ∧
      s.awaitingAt .a = none ∧ (s.engine .a).state = .ready ∧ s.line? 0 0 = some (item 2 0 1 0) ∧
      (heldAwaiting.awaitingAt .a).isSome = true ∧
      (s.trav? 3).map (·.platen) ≠ some (some (platenAt s.ring (stationPos (engineStation .b)))) :=
  ⟨by decide, carriedConsistent_of_check _ (by decide), by decide, by decide, by decide, by decide, by decide, by decide⟩

theorem witness_ClaimWindowExpiry :
    (awaiting .a 59).awaitingAt .a = some ⟨3, 6, 500⟩ ∧
      ((awaiting .a 59).trav? 3).map (fun t => (t.print.isSome, t.faults.length)) = some (true, 0) ∧
      (line .run).awaitingAt .a = none := by decide

theorem witness_SprayStartsPass :
    (booth .dryDone 111).mode = .run ∧ (booth .dryDone 111).holdsClaim .prep .spray = true ∧
      ((booth .dryDone 111).travAt 2).map (fun x => (x.1, x.2.stage, x.2.pretreat)) =
        some (3, .pretreat, some (record .dryDone 111)) ∧
      (booth .dryDone 111).passInFlight = false ∧ (booth .dryDone 111).pre.pumpFault = false ∧
      ¬ (((booth .dryDone 111).boundLine (garment .pretreat (some 10))).placement = .back) := by decide

/-- The booth with a garment whose target is 0, of a line on the front or the back, with the back electrode wired or not. -/
def sprayless (sub : SubState) (side : Side) : State :=
  withOrder (order .inWork [{ item 2 0 1 0 with placement := side }])
    ((claimed .spray (at_ 2 .run fun t => { t with stage := .pretreat, pretreat := some ⟨0, 0, 0, none, none, none, 0, sub⟩ })).setLines
      (wired.set 8 (Line.reset false)))

/-- A gauged garment and an ungauged one, with nothing to spray. -/
theorem witness_Spray_zero :
    (sprayless .dryDone .front).mode = .run ∧ (sprayless .dryDone .front).holdsClaim .prep .spray = true ∧
      ((sprayless .dryDone .front).travAt 2).map (fun x => (x.1, x.2.stage, x.2.pretreat)) =
        some (3, .pretreat, some ⟨0, 0, 0, none, none, none, 0, .dryDone⟩) ∧
      (sprayless .dryDone .front).passInFlight = false ∧ (sprayless .dryDone .front).pre.pumpFault = false ∧
      ((sprayless .needDry .back).boundLine (garment .pretreat (some 10))).placement = .back ∧
      (sprayless .needDry .back).assigned .gaugeOscBack = false ∧
      ((sprayless .needDry .back).travAt 2).map (fun x => x.2.pretreat.map (·.sub)) = some (some .needDry) := by decide

/-- A gauged garment whose dry pass is still to come. -/
theorem witness_Spray_substate :
    (booth .needDry 0).passInFlight = false ∧ (booth .needDry 0).holdsClaim .prep .spray = true ∧
      ((booth .needDry 0).travAt 2).map (fun x => x.2.pretreat.map (·.sub)) = some (some .needDry) ∧
      ¬ (((booth .needDry 0).boundLine (garment .pretreat (some 10))).placement = .back) := by decide

theorem witness_Spray_refused :
    (line .run).holdsClaim .prep .spray = false ∧ (line .run).travAt 2 = none ∧
      (((claimed .spray (at_ 2 .run id)).travAt 2).map (·.2.stage) = some .loaded ∧
        (claimed .spray (at_ 2 .run id)).holdsClaim .prep .spray = true) ∧
      (spraying 180 0 .inactive false).passInFlight = true ∧
      ((booth .dryDone 111).setPre ⟨none, 111, true⟩).pre.pumpFault = true ∧
      ((booth .sprayed 180).travAt 2).map (fun x => x.2.pretreat.map (·.sub)) = some (some .sprayed) := by decide

theorem witness_Strokes :
    (spraying 180 0 .inactive false).pre.pass = some ⟨3, 180, false, .inactive, 50000⟩ ∧
      (spraying 180 178 .active false).pre.strokes + 1 < 180 ∧
      (spraying 180 179 .active false).pre.pass = some ⟨3, 180, false, .active, 50000⟩ ∧
      (spraying 180 179 .active false).pre.strokes + 1 = 180 ∧
      ((spraying 180 179 .active false).trav? 3).bind (·.pretreat) = some (record .dryDone 0) := by decide

theorem witness_PumpFault :
    (spraying 180 111 .active false).lineOf .pumpFault = some 4 ∧ (line .run).pre.pass = none ∧
      (line .run).lineOf .pumpFault = some 4 ∧
      (spraying 180 111 .active false).pre.pass = some ⟨3, 180, false, .active, 50000⟩ ∧
      ((spraying 180 111 .active false).trav? 3).map (fun t => (t.pretreat.isSome, t.faults.length)) = some (true, 0) := by decide

/-- The bounds of the report, and a report on either side of the class's minimums (160 °C, 15 s). -/
theorem witness_PressDone :
    press.mode = .run ∧ press.holdsClaim .prep .press = true ∧
      (press.travAt 4).map (fun x => (x.1, x.2.stage, x.2.pretreat, x.2.faults)) =
        some (3, .pretreat, some (record .verified 240), []) ∧
      (press.fabricOf (press.boundLine (garment .pretreat (some 8)))).pressTemp = 160 ∧
      (press.fabricOf (press.boundLine (garment .pretreat (some 8)))).pressTime = 15 := by decide

theorem witness_GaugePasses_start :
    (booth .needDry 0).passInFlight = false ∧
      ¬ (((booth .needDry 0).boundLine (garment .pretreat (some 10))).placement = .back ∧
        (booth .needDry 0).assigned .gaugeOscBack = false) ∧
      ((booth .needDry 0).travAt 2).map (fun x => x.2.pretreat.map (·.sub)) = some (some .needDry) ∧
      ((booth .sprayed 180).travAt 2).map (fun x => x.2.pretreat.map fun r => (r.sub, r.window)) =
        some (some (.sprayed, some 100000)) := by decide

/-- No claim and no garment; a garment not in PRETREAT; a pass in flight; an ungauged garment; the sub-states that each command
refuses, and a window that is absent. -/
theorem witness_Gauge_refused :
    (line .run).holdsClaim .prep .spray = false ∧ (line .run).travAt 2 = none ∧
      ((claimed .spray (at_ 2 .run id)).holdsClaim .prep .spray = true ∧
        ((claimed .spray (at_ 2 .run id)).travAt 2).map (·.2.stage) = some .loaded) ∧
      ((gauging .wet 7 40).passInFlight = true ∧ (gauging .wet 7 40).holdsClaim .prep .spray = true) ∧
      ((sprayless .needDry .back).passInFlight = false ∧ (sprayless .needDry .back).holdsClaim .prep .spray = true ∧
        ((sprayless .needDry .back).boundLine (garment .pretreat (some 10))).placement = .back ∧
        (sprayless .needDry .back).assigned .gaugeOscBack = false) ∧
      ((booth .sprayed 180).travAt 2).map (fun x => x.2.pretreat.map (·.sub)) = some (some .sprayed) ∧
      ((sprayless .sprayed .front).travAt 2).map (fun x => x.2.pretreat.map fun r => (r.sub, r.window)) =
        some (some (.sprayed, none)) := by decide

theorem witness_GaugePasses_count :
    (gauging .dry 19998 1048574).lineOf (oscFunction .front) = some 7 ∧
      (gauging .dry 19998 1048574).gauge.pass = some ⟨.dry, 3⟩ ∧ (gauging .dry 19998 1048574).gauge.electrode = .front ∧
      (gauging .dry 19998 1048574).gauge.edges + 1 < (gauging .dry 19998 1048574).constants.gaugeWindow ∧
      (gauging .dry 19998 1048574).gauge.timebase < 1048575 ∧ (gauging .wet 1048574 2).gauge.edges < 1048575 ∧
      1 < (gauging .wet 1048574 2).gauge.timebase ∧ (gauging .wet 1048574 2).gauge.pass = some ⟨.wet, 3⟩ ∧
      (line .run).gauge.pass = none := by decide

theorem witness_DryPassEnds :
    (gauging .dry 19999 0).gauge.last = some ⟨.dry, 3, 0x41, .inFlight⟩ ∧
      (gauging .dry 19999 0).gauge.edges + 1 = (gauging .dry 19999 0).constants.gaugeWindow ∧
      ((gauging .dry 19999 0).trav? 3).map (fun t => (t.pretreat.isSome, t.faults.length)) = some (true, 0) ∧
      (gauging .dry 7 1048575).gauge.timebase = 1048575 ∧ (gauging .wet 1048575 3).gauge.edges = 1048575 := by decide

theorem witness_WetPassVerifies :
    (gauging .wet 18500 1).gauge.pass = some ⟨.wet, 3⟩ ∧ (gauging .wet 18500 1).gauge.timebase = 1 ∧
      (gauging .wet 18500 1).gauge.last = some ⟨.wet, 3, 0x41, .inFlight⟩ ∧
      ((gauging .wet 18500 1).trav? 3).map (fun t => t.pretreat.isSome) = some true := by decide

/-- Deposits at the edges of Table 5-4 for a target of 180: 143, 144, 216, 217, 360 and 361. -/
theorem witness_WetPass_verdicts :
    [143, 144, 216, 217, 360, 361].map (verdictOf 180 20) = [.light, .verified, .verified, .heavy, .heavy, .reject] := by decide

theorem witness_GaugeAbort :
    (gauging .wet 7 40).mode = .run ∧ (gauging .wet 7 40).pre.pass = none ∧ (gauging .wet 7 40).gauge.pass = some ⟨.wet, 3⟩ ∧
      (gauging .wet 7 40).gauge.last.isSome = true ∧ (line .hold).passInFlight = false ∧
      (spraying 180 111 .active false).pre.pass.isSome = true := by decide

theorem witness_EngineService :
    ((atEngine .a .offline .printed 59).engine .a).state = .offline ∧ ((atEngine .a .fault .printed 60).engine .a).state = .fault ∧
      ((atEngine .a .offline .printed 59).travAt 6).all (fun y => y.2.stage ≠ .readyToPrint) = true ∧
      ((atEngine .a .cleanDue .printed 60).engine .a).state = .cleanDue ∧
      ((atEngine .a .cleaning .printed 60).engine .a).state = .cleaning ∧
      ((atEngine .a .ready .printed 59).engine .a).current = none ∧
      ((printing .a 12).engine .a).state = .printing := by decide

theorem witness_EngineFault :
    ((printing .a 12).engine .a).current = some 3 ∧ ((awaiting .a 12).engine .a).current = some 3 ∧
      ((awaiting .a 12).engine .a).state = .assigned ∧
      ((printing .a 12).trav? 3).map (fun t => (t.print.isSome, t.faults.length)) = some (true, 0) := by decide

theorem witness_InkReport :
    (∀ x ∈ (⟨2000000, 0, 0, 0, 3000⟩ : Inks).toList, x ≤ 2000000) ∧ (∃ x ∈ (⟨2000001, 0, 0, 0, 0⟩ : Inks).toList, 2000000 < x) ∧
      ((printing .b 59).engine .b).state ≠ .ready ∧ 3000 < ((printing .b 59).engine .b).reserved.k := by decide

/-- Ink that covers the estimate in every channel to the last microlitre, and ink that falls short. -/
theorem witness_Assignment :
    let s := atEngine .a .cleaning .readyToPrint 60
    s.mode = .run ∧ (s.engine .a).state = .cleaning ∧ (s.travAt 6).map (fun x => (x.1, x.2.stage)) = some (3, .readyToPrint) ∧
      s.awaitingAt .a = none ∧ s.lapseAt .a = none ∧ s.line? 0 0 = some (item 2 0 1 0) ∧
      estimates s.constants (item 2 0 1 0) = estimate ∧ inkCovers { s.engine .a with level := estimate } estimate = true ∧
      inkCovers { s.engine .a with level := { estimate with k := 4319 } } estimate = false := by decide

/-- The same garment before an engine that comes online and before one that a refill finds ready. -/
theorem witness_Assignment_commands :
    ((atEngine .b .offline .readyToPrint 59).engine .b).state = .offline ∧
      ((atEngine .b .offline .readyToPrint 59).engine .b).prints < (line .run).constants.cleanInterval ∧
      ((atEngine .b .ready .readyToPrint 59).engine .b).state = .ready ∧
      ((atEngine .b .ready .readyToPrint 59).engine .b).reserved = .zero ∧ (∀ y ∈ ink.toList, y ≤ 2000000) ∧
      ((atEngine .b .ready .readyToPrint 59).travAt 8).map (fun x => (x.1, x.2.stage)) = some (3, .readyToPrint) ∧
      (atEngine .b .ready .readyToPrint 59).awaitingAt .b = none ∧ (atEngine .b .ready .readyToPrint 59).lapseAt .b = none := by
  decide

/-- A garment one position before engine A, which is ready. -/
theorem witness_Assignment_index :
    let s := modEngine .a (fun x => { x with state := .ready, level := ink }) (at_ 5 .run fun t => { t with stage := .readyToPrint })
    s.permit = true ∧ s.lineOf .indexPulse = some 1 ∧ CarriedConsistent s ∧
      homeLevel s = decide (s.ring.load + 1 = 0) ∧
      (s.travAt (stationPos (engineStation .a) - 1)).map (fun x => (x.1, x.2.stage)) = some (3, .readyToPrint) ∧
      (s.engine .a).state = .ready ∧ s.line? 0 0 = some (item 2 0 1 0) :=
  ⟨by decide, by decide, carriedConsistent_of_check _ (by decide), by decide, by decide, by decide, by decide⟩

theorem witness_PrintDone :
    (printing .b 59).mode = .run ∧ ((printing .b 59).engine .b).state = .printing ∧
      ((printing .b 59).engine .b).current = some 3 ∧
      ((printing .b 59).trav? 3).map (fun t => (t.print.isSome, t.faults.length)) = some (true, 0) := by decide

theorem witness_TunnelEntry :
    printed.mode = .run ∧ printed.holdsClaim .tunnel .unload = true ∧
      (printed.travAt 10).map (fun x => (x.1, x.2.stage)) = some (3, .printed) ∧ printed.tunnel.queue.length < 16 ∧
      tailTooNear printed = false ∧ printed.line? 0 0 = some (item 2 0 1 0) := by decide

theorem witness_TunnelEntry_refused :
    (printed.setTunnel { printed.tunnel with queue := List.replicate 16 ⟨7, 200⟩ }).tunnel.queue.length = 16 ∧
      (entered 599).tunnel.queue = [] ++ [⟨7, 200⟩] ∧
      ((entered 599).trav? 7).map (fun t => t.cure.map fun c => ((entered 599).tunnel.encoder - c.entryCount).toNat / 2) =
        some (some 299) := by decide

theorem witness_ZoneTemps :
    (line .hold).mode = .hold ∧ (line .run).tunnel.staleTimer = none ∧
      (after (.zoneTemps .tunnel [0, 165, 0, 170, 1, 0x2D]) (line .run)).tunnel.staleTimer.isSome = true := by decide

theorem witness_Sample :
    (curing 5002000 (cure 35 165) id none).tunnel.sampleTimer.isSome = true ∧
      ((curing 5002000 (cure 35 165) id none).tunnel.queue.map (·.trav)).Nodup ∧
      (3 : Fin 32) ∈ (curing 5002000 (cure 35 165) id none).tunnel.queue.map (·.trav) ∧
      ((curing 5002000 (cure 35 165) id none).trav? 3).map (fun t => (t.cure.isSome, t.faults.length)) = some (true, 0) := by decide

theorem witness_PulseCounts :
    (curing 5005998 (cure 0 0) id none).lineOf .beltEnc = some 5 ∧
      (curing 5005998 (cure 0 0) id none).tunnel.queue = [⟨3, 200⟩] ∧
      ((curing 5005998 (cure 0 0) id none).tunnel.encoder + 1 - 5000000).toNat / 2 <
        (curing 5005998 (cure 0 0) id none).constants.beltLength := by decide

theorem witness_Packed :
    let s := curing 5005999 (cure 25200 170) id (some 160)
    s.lineOf .beltEnc = some 5 ∧ s.tunnel.queue = [⟨3, 200⟩] ∧
      (s.trav? 3).map (fun t => (t.cure, t.platen, t.orphan)) = some (some (cure 25200 170), none, false) ∧
      s.constants.beltLength ≤ (s.tunnel.encoder + 1 - 5000000).toNat / 2 ∧ cureVerdict 200 (cure 25200 170) = .cured ∧
      s.order? 0 = some (order .inWork [item 2 0 1 0]) := by decide

/-- A scorched garment of a live order, and of a CANCELLING one. -/
theorem witness_Scrapped (st : OrderState) :
    let s := withOrder (order st [item 2 0 1 3]) (curing 5005999 (cure 42570 170) id (some 160))
    s.lineOf .beltEnc = some 5 ∧ s.tunnel.queue = [⟨3, 200⟩] ∧
      (s.trav? 3).map (fun t => (t.cure, t.platen)) = some (some (cure 42570 170), none) ∧
      s.constants.beltLength ≤ (s.tunnel.encoder + 1 - 5000000).toNat / 2 ∧ cureVerdict 200 (cure 42570 170) ≠ .cured ∧
      s.order? 0 = some (order st [item 2 0 1 3]) := by cases st <;> decide

/-- The edges of Table 7-2. -/
theorem witness_Packed_verdicts :
    [cure 23639 200, cure 23640 200, cure 42552 200, cure 42553 200, cure 23640 201].map (cureVerdict 200) =
      [.underCured, .cured, .cured, .scorched, .scorched] := by decide

/-- An orphan of a CANCELLING order at the end of the belt; order slot 1 has a line for it when `quantity` is above 0. -/
def orphaned (quantity : Nat) : State :=
  let s := withOrder (order .cancelling [item 2 0 1 0])
    (curing 5005999 (cure 25200 170) (fun t => { t with orphan := true }) (some 160))
  s.setBook { s.book with slots := s.book.slots.set 1 ⟨5, some { order .open [item quantity 0 0 0] with number := 7333 }⟩ }

theorem witness_Salvage :
    ((orphaned 4).trav? 3).map (fun t => (t.cure, t.platen, t.orphan)) = some (some (cure 25200 170), none, true) ∧
      (orphaned 4).order? 0 = some (order .cancelling [item 2 0 1 0]) ∧
      salvageFor (orphaned 4) (item 2 0 1 0) = some (1, 0) ∧ salvageFor (orphaned 0) (item 2 0 1 0) = none := by decide

theorem witness_Unload :
    let s := unloading .rejectPending 3
    s.mode = .run ∧ s.holdsClaim .tunnel .unload = true ∧
      (s.travAt 10).map (fun x => (x.1, x.2.stage, x.2.platen)) = some (3, .rejectPending, some (platenAt s.ring 10)) ∧
      s.order? 0 = some (order .inWork [item 2 0 1 3]) ∧ (3 : Fin 32) ∉ s.tunnel.queue.map (·.trav) ∧
      ((unloading .returnPending 0).travAt 10).map (·.2.stage) = some .returnPending := by decide

/-- An orphan at the unload point, to be scrapped and to be returned. -/
theorem witness_Unload_orphan (st : Stage) :
    let s := claimed .unload (withOrder (order .cancelling [item 2 0 1 0])
      (at_ 10 .run fun t => { t with stage := st, orphan := true }))
    s.mode = .run ∧ s.holdsClaim .tunnel .unload = true ∧
      (s.travAt 10).map (fun x => (x.1, x.2.stage, x.2.platen)) = some (3, st, some (platenAt s.ring 10)) ∧
      s.order? 0 = some (order .cancelling [item 2 0 1 0]) ∧ (3 : Fin 32) ∉ s.tunnel.queue.map (·.trav) := by
  cases st <;> decide

/-- No claim; nothing at position 10; a garment that leaves by TUNNEL_ENTRY. -/
theorem witness_Unload_refused :
    (line .run).holdsClaim .tunnel .unload = false ∧ (line .run).travAt 10 = none ∧
      ((unloading .printed 0).travAt 10).map (·.2.stage) = some .printed := by decide

theorem witness_ExitList :
    ((line .run).setExits fullList).exits.length = 8 ∧ ((line .run).setExits fullList.tail).exits.length < 8 := by decide

theorem witness_Revisions :
    exec .index (at_ 0 .run id) = .next (after .index (at_ 0 .run id)) ∧ Instr.index ≠ .powerOn ∧ Instr.index ≠ .resetPin :=
  ⟨rfl, by decide, by decide⟩

/-! The invariants hold of a part at work, which then takes a step. -/

theorem busy_steps : step busy = .next (after (.gaugeDry .prep []) (booth .needDry 0)) := rfl

theorem witness_StepKeepsPassGuarded : PassGuarded busy := by
  unfold PassGuarded
  decide

theorem witness_StepKeepsListsBounded : ListsBounded busy := by
  refine ⟨by decide, by decide, fun p => by cases p <;> decide, fun i => ?_⟩
  unfold faultsBounded
  rw [all_some]
  revert i
  decide

theorem witness_StepKeepsConfiguration : ConfigurationInRange busy := by
  refine ⟨by decide, by decide, fun p g h => ?_⟩
  have : (busy.port p).stage = none := by cases p <;> decide
  rw [this] at h
  exact absurd h (by simp)

theorem witness_StepKeepsSerials : SerialsDistinct busy := by
  unfold SerialsDistinct
  decide

theorem witness_StepKeepsBook : BookConsistent busy := by
  refine ⟨fun k j => ?_, fun i => ?_, fun k => ?_⟩
  · rw [all_some]
    revert k j
    decide
  · simp only [ex_some]
    rw [all_some]
    revert i
    decide
  · intro o h
    have hk : k = 0 := only_order _ (line .run) (by decide) k o h
    subst hk
    have : o = order .inWork [item 2 0 1 0] := by
      have h' : busy.order? 0 = some (order .inWork [item 2 0 1 0]) := rfl
      rw [h'] at h
      exact (Option.some.inj h).symm
    subst this
    exact ⟨by decide, by decide, show noneInWork _ = false by decide⟩

/-- The order book is consistent with a garment on the line; LINE_RESET finds it so. -/
theorem witness_LineReset_book :
    PassGuarded busy ∧ busy.exits.length ≤ 8 ∧ BookConsistent busy ∧ openSlots busy = [3] ∧
      ((busy.order? 0).map (·.state) = some .inWork) :=
  ⟨witness_StepKeepsPassGuarded, by decide, witness_StepKeepsBook, by decide, by decide⟩

/-- Beside the wet pass above, the same floor with a command waiting. -/
theorem witness_StepKeepsFloor : FloorConsistent ((gauging .wet 7 40).setPending [.timebaseTick]) where
  guarded := floor_gauging.guarded
  carried := floor_gauging.carried
  claims := floor_gauging.claims
  booth := floor_gauging.booth
  engines := floor_gauging.engines
  held := floor_gauging.held
  tunnel := floor_gauging.tunnel
  quiet := floor_gauging.quiet

end Sys2Proof.Tests
end

