-- ==== Sys2Proof/Proofs/PlatenRing/Rules.lean ====
section
/-! PROOF. What the proofs about the platen ring share: when a command is taken or refused, what an event keeps, the ring's
claims and awaiting entries as a whole, and the bytes of numbers. -/

namespace Sys2Proof.PlatenRing

open Sys2Proof Sys2Proof.Machine

/-! ### Commands (R144) -/

/-- A command from a port, in a mode and with a length that R144 lets pass, whose own checks take it. -/
theorem command_taken {p : Port} {code : Byte} {l : List Byte} {roles : List Port} {modes : List Mode} {ok : Bool}
    {body : State → Answer} {s u : State} {data : List Byte} (hp : p ∈ roles) (hm : s.mode ∈ modes) (hl : ok = true)
    (hb : body (endFrame p (l.length + 2) false s) = .accept u data) :
    command p code l roles modes ok body s =
      respond p code .ok data (commit (endFrame p (l.length + 2) false s) u) :=
  command_accepted ((checked_pass (s := endFrame p (l.length + 2) false s) hp hm hl).trans hb)

/-- The same with own checks that refuse it. -/
theorem command_rejected {p : Port} {code : Byte} {l : List Byte} {roles : List Port} {modes : List Mode} {ok : Bool}
    {body : State → Answer} {s : State} {st : Status} {data : List Byte} (hp : p ∈ roles) (hm : s.mode ∈ modes)
    (hl : ok = true) (hb : body (endFrame p (l.length + 2) false s) = .refuse st data) :
    command p code l roles modes ok body s = refused p code l st data s :=
  command_refused ((checked_pass (s := endFrame p (l.length + 2) false s) hp hm hl).trans hb)

theorem mem_runHold {s : State} (h : s.mode = .run ∨ s.mode = .hold) : s.mode ∈ runHold := by
  simpa [runHold] using h

@[simp] theorem refuseIf_pos {c : Prop} [Decidable c] (h : c) (st : Status) (k : Answer) :
    refuseIf c st k = .refuse st [] := if_pos h

@[simp] theorem refuseIf_neg {c : Prop} [Decidable c] (h : ¬ c) (st : Status) (k : Answer) : refuseIf c st k = k :=
  if_neg h

/-- The response that a taken command leaves on its own port. -/
theorem holder_taken (p : Port) (code : Byte) (st : Status) (data : List Byte) (s : State) :
    ((respond p code st data s).port p).holder = ⟨code, st, data⟩ := by
  simp [respond, port_modPort]

/-! The end of a frame touches the ports alone, so every other reading stands. -/

section
variable (p : Port) (n : Nat) (b : Bool) (s : State)

@[simp] theorem trav?_endFrame (i : Fin 32) : (endFrame p n b s).trav? i = s.trav? i := rfl
@[simp] theorem claimAt_endFrame (st : Station) : (endFrame p n b s).claimAt st = s.claimAt st := rfl
@[simp] theorem awaitingAt_endFrame (e : Engine) : (endFrame p n b s).awaitingAt e = s.awaitingAt e := rfl
@[simp] theorem lapseAt_endFrame (e : Engine) : (endFrame p n b s).lapseAt e = s.lapseAt e := rfl
@[simp] theorem engine_endFrame (e : Engine) : (endFrame p n b s).engine e = s.engine e := rfl
@[simp] theorem passInFlight_endFrame : (endFrame p n b s).passInFlight = s.passInFlight := rfl
@[simp] theorem mode_endFrame : (endFrame p n b s).mode = s.mode := rfl
@[simp] theorem constants_endFrame : (endFrame p n b s).constants = s.constants := rfl
@[simp] theorem slotAt_endFrame (k : Fin 12) : (endFrame p n b s).slotAt k = s.slotAt k := rfl
@[simp] theorem travAt_endFrame (k : Fin 12) : (endFrame p n b s).travAt k = s.travAt k := rfl
@[simp] theorem boundLine_endFrame (v : Traveller) : (endFrame p n b s).boundLine v = s.boundLine v := rfl
@[simp] theorem assigned_endFrame (f : LineFunction) : (endFrame p n b s).assigned f = s.assigned f := rfl

end

/-! The response touches the ports alone too. -/

section
variable (p : Port) (code : Byte) (st : Status) (data : List Byte) (s : State)

@[simp] theorem trav?_respond (i : Fin 32) : (respond p code st data s).trav? i = s.trav? i := rfl
@[simp] theorem engine_respond (e : Engine) : (respond p code st data s).engine e = s.engine e := rfl
@[simp] theorem claimAt_respond (x : Station) : (respond p code st data s).claimAt x = s.claimAt x := rfl
@[simp] theorem awaitingAt_respond (e : Engine) : (respond p code st data s).awaitingAt e = s.awaitingAt e := rfl
@[simp] theorem notice_respond (q : Port) : (respond p code st data s).notice q = s.notice q := rfl
@[simp] theorem permit_respond : (respond p code st data s).permit = s.permit := rfl

end

/-! A raised source touches the notices alone. -/

section
variable (p : Port) (x : Source) (s : State)

@[simp] theorem trav?_raise (i : Fin 32) : (raise p x s).trav? i = s.trav? i := rfl
@[simp] theorem engine_raise (e : Engine) : (raise p x s).engine e = s.engine e := rfl
@[simp] theorem awaitingAt_raise (e : Engine) : (raise p x s).awaitingAt e = s.awaitingAt e := rfl
@[simp] theorem mode_raise : (raise p x s).mode = s.mode := rfl
@[simp] theorem constants_raise : (raise p x s).constants = s.constants := rfl
@[simp] theorem slotAt_raise (k : Fin 12) : (raise p x s).slotAt k = s.slotAt k := rfl
@[simp] theorem travAt_raise (k : Fin 12) : (raise p x s).travAt k = s.travAt k := rfl

end

/-! ### What an event keeps -/

theorem Block.same_trans {s t u : State} {b : Block} (h : b.same s t) (k : b.same t u) : b.same s u := by
  cases b <;> exact Eq.trans k h

theorem keeps_trans {changed : List Block} {s t u : State} (h : Keeps changed s t) (k : Keeps changed t u) :
    Keeps changed s u :=
  ⟨k.1.trans h.1, k.2.1.trans h.2.1, fun b hb => Block.same_trans (h.2.2 b hb) (k.2.2 b hb)⟩

/-- The end of an event keeps what its effects kept, as long as the travellers in the tunnel keep their serials. -/
theorem keeps_commit {changed : List Block} {s u : State} (h : Keeps changed s u) (hs : SerialsKept s u) :
    Keeps changed s (commit s u) := by
  obtain ⟨hp, hb, hk⟩ := h
  refine ⟨hp, hb, fun b hb => ?_⟩
  have hsame := hk b hb
  cases b with
  | table => exact commit_table_same hsame
  | ring => exact commit_ring_same hsame
  | engines => exact commit_engines_same hsame
  | tunnel => exact commit_tunnel_same hsame hs
  | book | exits | pre | gauge | ports | notices | lines | setup => exact hsame

/-- A taken command keeps what its effects kept, its ports apart. -/
theorem keeps_taken {changed : List Block} {p : Port} {code : Byte} {st : Status} {data : List Byte} {n : Nat} {s u : State}
    (hp : Block.ports ∈ changed) (h : Keeps changed (endFrame p n false s) u) (hs : SerialsKept (endFrame p n false s) u) :
    Keeps changed s (respond p code st data (commit (endFrame p n false s) u)) := by
  have hports (f : PortState → PortState) (w : State) : Keeps changed w (modPort p f w) :=
    ⟨rfl, rfl, fun b hb => by cases b <;> first | rfl | exact absurd hp hb⟩
  exact keeps_trans (hports _ _) (keeps_trans (keeps_commit h hs) (hports _ _))

/-! ### Writing a traveller into the table -/

theorem trav?_congr {s u : State} (h : u.table = s.table) (i : Fin 32) : u.trav? i = s.trav? i := by
  simp [State.trav?, h]

theorem putTrav_table_congr {s u : State} (h : u.table = s.table) (i : Fin 32) (v : Option Traveller) :
    (putTrav i v u).table = (putTrav i v s).table := by simp [putTrav, h]

/-- A traveller rewritten twice in a state whose table is that of `s`. -/
theorem modTrav_modTrav_table {s u : State} {i : Fin 32} {v : Traveller} (f g : Traveller → Traveller)
    (h : u.table = s.table) (hv : s.trav? i = some v) :
    (modTrav i g (modTrav i f u)).table = (putTrav i (some (g (f v))) s).table := by
  rw [modTrav_some f ((trav?_congr h i).trans hv), modTrav_some g (trav?_putTrav_eq _ _ _), putTrav_putTrav,
    putTrav_table_congr h]

/-! ### Claims, awaiting entries and the permit (R47, R51, R52) -/

theorem stationNo_surjective : ∀ k : Fin 6, ∃ st : Station, stationNo st = k
  | 0 => ⟨.load, rfl⟩
  | 1 => ⟨.spray, rfl⟩
  | 2 => ⟨.press, rfl⟩
  | 3 => ⟨.printA, rfl⟩
  | 4 => ⟨.printB, rfl⟩
  | 5 => ⟨.unload, rfl⟩

theorem engineNo_surjective : ∀ k : Fin 2, ∃ e : Engine, engineNo e = k
  | 0 => ⟨.a, rfl⟩
  | 1 => ⟨.b, rfl⟩

theorem claims_eq_fill_none_iff {s : State} : s.ring.claims = .fill none ↔ ∀ st : Station, s.claimAt st = none := by
  refine ⟨fun h st => by simp [State.claimAt, h], fun h => Tab.ext_get fun k => ?_⟩
  obtain ⟨st, rfl⟩ := stationNo_surjective k
  simpa [State.claimAt] using h st

theorem awaiting_eq_fill_none_iff {s : State} : s.ring.awaiting = .fill none ↔ ∀ e : Engine, s.awaitingAt e = none := by
  refine ⟨fun h e => by simp [State.awaitingAt, h], fun h => Tab.ext_get fun k => ?_⟩
  obtain ⟨e, rfl⟩ := engineNo_surjective k
  simpa [State.awaitingAt] using h e

theorem passInFlight_eq_false_iff {s : State} : s.passInFlight = false ↔ s.pre.pass = none ∧ s.gauge.pass = none := by
  simp [State.passInFlight]

/-- R52. -/
theorem permit_iff {s : State} : s.permit = true ↔ s.mode = .run ∧ (∀ st : Station, s.claimAt st = none) ∧
    (∀ e : Engine, s.awaitingAt e = none) ∧ s.pre.pass = none ∧ s.gauge.pass = none := by
  rw [← claims_eq_fill_none_iff, ← awaiting_eq_fill_none_iff, ← passInFlight_eq_false_iff]
  simp [State.permit, and_assoc]

theorem permit_false_of_claim {s : State} {st : Station} {c : Claim} (h : s.claimAt st = some c) : s.permit = false :=
  Bool.eq_false_iff.mpr fun hp => by simp [(permit_iff.mp hp).2.1 st] at h

theorem permit_false_of_awaiting {s : State} {e : Engine} {a : Awaiting} (h : s.awaitingAt e = some a) :
    s.permit = false :=
  Bool.eq_false_iff.mpr fun hp => by simp [(permit_iff.mp hp).2.2.1 e] at h

theorem permit_false_of_mode {s : State} (h : s.mode ≠ .run) : s.permit = false :=
  Bool.eq_false_iff.mpr fun hp => h (permit_iff.mp hp).1

theorem claimAt_commit (s u : State) (st : Station) : (commit s u).claimAt st = u.claimAt st := rfl
theorem awaitingAt_commit (s u : State) (e : Engine) : (commit s u).awaitingAt e = u.awaitingAt e := rfl

/-! ### Bytes of small numbers (R163) -/

theorem byteAt_cons_ofNat {n : Nat} (h : n < 256) (l : List Byte) : byteAt (BitVec.ofNat 8 n :: l) 0 = n := by
  simp [byteAt, Nat.mod_eq_of_lt h]

theorem byteAt_snd_ofNat {n : Nat} (h : n < 256) (b : Byte) (l : List Byte) :
    byteAt (b :: BitVec.ofNat 8 n :: l) 1 = n := by
  simp [byteAt, Nat.mod_eq_of_lt h]

end Sys2Proof.PlatenRing
end

