-- ==== Sys2Proof/Proofs/PlatenRing/Claims.lean ====
section
/-! PROOF. Permit and line levels (O25), CLAIM and RELEASE (O26, O27), and the expiry of a claim window (O31). -/

namespace Sys2Proof.PlatenRing

open Sys2Proof Sys2Proof.Machine

/-! ### What a line drives (R131, R137) -/

theorem driven_general {s : State} {l : Fin 24} (h : (s.lines.get l).function = .none) :
    s.driven l = if (s.lines.get l).direction = .outward then some (s.lines.get l).level else none := by
  simp [State.driven, h]

theorem driven_function {s : State} {l : Fin 24} {f : LineFunction} (h : (s.lines.get l).function = f) (hf : f ≠ .none) :
    s.driven l = s.outputLevel f := by
  simp [State.driven, h, hf]

theorem driven_input {s : State} {l : Fin 24} (h : isInput (s.lines.get l).function = true) : s.driven l = none := by
  generalize hf : (s.lines.get l).function = f at h
  have hne : f ≠ .none := by rintro rfl; simp [isInput] at h
  rw [driven_function hf hne]
  cases f <;> first | cases h; done | rfl

theorem outputLevel_indexPermit (s : State) : s.outputLevel .indexPermit = some s.permit := by
  by_cases h : s.mode = .hold
  · simp [State.outputLevel, h, permit_false_of_mode (s := s) (by simp [h])]
  · simp [State.outputLevel, h]

/-- Settles O25: the permit is the conjunction of R52, and each kind of line is read off Table 8-1. -/
theorem permitAndLineLevels : Obligations.PermitAndLineLevels := by
  refine ⟨fun s => permit_iff, fun l s => ⟨driven_general, fun h => ?_, fun h => ?_, fun h hm => ?_, fun h hm => ?_,
    fun h => ?_, fun hm h => ?_⟩⟩
  · exact ⟨driven_input h, by simp [State.pinLevel, driven_input h]⟩
  · rw [driven_function h (by decide), outputLevel_indexPermit]
  · rw [driven_function h (by decide), State.outputLevel, decide_eq_true hm]
    rfl
  · simp [driven_function h, State.outputLevel, hm]
  · simp [driven_function h, State.outputLevel]
  · obtain h | h := h <;> simp [driven_function h, State.outputLevel, hm]

/-! ### The stations of a port (Table 3-1) -/

theorem stationAt_stationPos (st : Station) : stationAt (stationPos st).val = some st := by cases st <;> decide

theorem stationAt_eq_some_iff {k : Nat} {st : Station} : stationAt k = some st ↔ (stationPos st).val = k :=
  ⟨fun h => by simpa using List.find?_some h, fun h => h ▸ stationAt_stationPos st⟩

theorem ownStation_eq_some_iff {p : Port} {k : Nat} {st : Station} :
    ownStation p k = some st ↔ stationPort st = p ∧ (stationPos st).val = k := by
  simp [ownStation, Option.filter_eq_some_iff, stationAt_eq_some_iff, and_comm]

theorem ownStation_eq_none {p : Port} {k : Nat} (h : ∀ st : Station, stationPort st = p → (stationPos st).val ≠ k) :
    ownStation p k = none :=
  Option.eq_none_iff_forall_ne_some.mpr fun st hst =>
    h st (ownStation_eq_some_iff.mp hst).1 (ownStation_eq_some_iff.mp hst).2

theorem stationPos_lt (st : Station) : (stationPos st).val < 256 := by omega

theorem stationPort_engineStation (e : Engine) : stationPort (engineStation e) = enginePort e := by cases e <;> rfl

theorem stationEngine_engineStation (e : Engine) : stationEngine (engineStation e) = some e := by cases e <;> rfl

theorem stationEngine_of_port {st : Station} {p : Port} (hp : p = .prep ∨ p = .tunnel) (hst : stationPort st = p) :
    stationEngine st = none := by
  subst hst
  cases st <;> simp_all [stationPort, stationEngine]

/-! ### CLAIM and RELEASE, check by check (R48 to R50) -/

/-- The payload of a CLAIM of platen `q` at station `st`. -/
def claimBytes (st : Station) (q : Fin 12) : List Byte := [BitVec.ofNat 8 (stationPos st).val, BitVec.ofNat 8 q.val]

/-- What a CLAIM that passes the checks of R48 comes to: an engine's has more to pass. -/
def takeClaim (st : Station) (c : Claim) (s : State) : Answer :=
  match stationEngine st with
  | some e => engineClaim e st c s
  | none => .accept (setClaim st (some c) s) []

theorem takeClaim_station {st : Station} (h : stationEngine st = none) (c : Claim) (s : State) :
    takeClaim st c s = .accept (setClaim st (some c) s) [] := by simp [takeClaim, h]

theorem takeClaim_engine (e : Engine) (c : Claim) (s : State) :
    takeClaim (engineStation e) c s = engineClaim e (engineStation e) c s := by
  simp [takeClaim, stationEngine_engineStation]

theorem claimBody_at {p : Port} {st : Station} (hst : stationPort st = p) (q : Fin 12) (s : State) :
    claimBody p (claimBytes st q) s =
      refuseIf ((s.claimAt st).isSome = true) .state
        (refuseIf (platenAt s.ring (stationPos st) ≠ q) .state (takeClaim st ⟨p, q⟩ s)) := by
  have hq : q.val < 256 := by omega
  simp only [claimBody, claimBytes, byteAt_cons_ofNat (stationPos_lt st), byteAt_snd_ofNat hq,
    ownStation_eq_some_iff.mpr ⟨hst, rfl⟩, fin?_val]
  rfl

theorem claimBody_arg {p : Port} {k n : Nat} (hk : k < 256) (hn : n < 256)
    (h : (∀ st : Station, stationPort st = p → (stationPos st).val ≠ k) ∨ 12 ≤ n) (s : State) :
    claimBody p [BitVec.ofNat 8 k, BitVec.ofNat 8 n] s = .refuse .arg [] := by
  simp only [claimBody, byteAt_cons_ofNat hk, byteAt_snd_ofNat hn]
  obtain h | h := h
  · rw [ownStation_eq_none h]
  · rw [fin?_none h]
    cases ownStation p k <;> rfl

theorem releaseBody_at {p : Port} {st : Station} (hst : stationPort st = p) (s : State) :
    releaseBody p [BitVec.ofNat 8 (stationPos st).val] s =
      refuseIf (s.claimAt st = none) .state
        (refuseIf (st = .spray ∧ s.passInFlight = true) .busy (.accept (setClaim st none s) [])) := by
  simp only [releaseBody, byteAt_cons_ofNat (stationPos_lt st), ownStation_eq_some_iff.mpr ⟨hst, rfl⟩]

theorem keeps_setClaim {changed : List Block} (h : Block.ring ∈ changed) (st : Station) (c : Option Claim) (s : State) :
    Keeps changed s (setClaim st c s) :=
  ⟨rfl, rfl, fun b hb => by cases b <;> first | rfl | exact absurd h hb⟩

theorem claimPort_of_ne {p : Port} (h : p ≠ .gateway) : p ∈ claimPorts := by
  cases p <;> simp_all [claimPorts]

/-- Settles O26: the claim table is written at the port's own station and nothing else of the part moves. -/
theorem stationClaimAndRelease : Obligations.StationClaimAndRelease := by
  refine ⟨fun p st s hp hst hm hfree => ?_, fun p st s hp hst hm => ⟨fun hc hpass => ?_, fun hc => ?_, ?_⟩⟩
  · let q := platenAt s.ring (stationPos st)
    have hb : claimBody p (claimBytes st q) (endFrame p 4 false s) =
        .accept (setClaim st (some ⟨p, q⟩) (endFrame p 4 false s)) [] := by
      rw [claimBody_at hst, refuseIf_neg (by simp [hfree]), refuseIf_neg (by simp [q]),
        takeClaim_station (stationEngine_of_port hp hst)]
    have hport : p ∈ claimPorts := claimPort_of_ne (by rintro rfl; simp at hp)
    refine ⟨_, congrArg Host.Outcome.next (command_taken hport (mem_runHold hm) rfl hb),
      keeps_taken (by simp) (keeps_setClaim (by simp) st _ _) (serialsKept_of_table rfl), rfl, ?_, holder_taken _ _ _ _ _⟩
    refine permit_false_of_claim (st := st) (c := ⟨p, q⟩) ?_
    exact (claimAt_setClaim st st _ _).trans (if_pos rfl)
  · have hne : ¬ s.claimAt st = none := by simpa [Option.isSome_iff_ne_none] using hc
    have hb : releaseBody p [BitVec.ofNat 8 (stationPos st).val] (endFrame p 3 false s) =
        .accept (setClaim st none (endFrame p 3 false s)) [] := by
      rw [releaseBody_at hst, refuseIf_neg (by simpa using hne), refuseIf_neg fun h => ?_]
      exact absurd (hpass h.1) (by simpa using h.2)
    refine ⟨_, congrArg Host.Outcome.next (command_taken (by simpa using hp) (mem_runHold hm) rfl hb),
      keeps_taken (by simp) (keeps_setClaim (by simp) st _ _) (serialsKept_of_table rfl), rfl, accepted_ports rfl⟩
  · refine congrArg Host.Outcome.next (command_rejected (by simpa using hp) (mem_runHold hm) rfl ?_)
    rw [releaseBody_at hst]
    exact refuseIf_pos hc _ _
  · intro hspray hc hpass
    have hne : ¬ s.claimAt st = none := by simpa [Option.isSome_iff_ne_none] using hc
    refine congrArg Host.Outcome.next (command_rejected (by simpa using hp) (mem_runHold hm) rfl ?_)
    rw [releaseBody_at hst, refuseIf_neg (by simpa using hne)]
    exact refuseIf_pos ⟨hspray, hpass⟩ _ _

/-! ### The claim of an engine (R49, R102) -/

/-- The state that an engine's claim of its awaiting entry leaves. -/
theorem claimed_print_eq {e : Engine} {a : Awaiting} {v : Traveller} {s : State} (hv : s.trav? a.trav = some v)
    (c : Option Claim) :
    setClaim (engineStation e) c (printStart e a s) =
      setClaim (engineStation e) c (putTrav a.trav (some { v with stage := .printing })
        (modEngine e (fun x => { x with state := .printing }) (setAwaiting e none s))) := by
  rw [printStart, modTrav_some _ (show (modEngine e _ (setAwaiting e none s)).trav? a.trav = some v from hv)]

/-- Settles O27: the awaiting entry becomes the claim, and engine and garment print. -/
theorem engineClaimStartsPrint : Obligations.EngineClaimStartsPrint := by
  refine ⟨fun e a v s hm hfree ha hq hv => ?_, fun p k n s hk hn hp hm => ⟨fun h => ?_, ?_⟩⟩
  · let u := endFrame (enginePort e) 4 false s
    have hb : claimBody (enginePort e) (claimBytes (engineStation e) a.platen) u =
        .accept (setClaim (engineStation e) (some ⟨enginePort e, a.platen⟩) (printStart e a u)) [] := by
      rw [claimBody_at (stationPort_engineStation e), refuseIf_neg (by simp [u, hfree]), refuseIf_neg (by simp [hq, u]),
        takeClaim_engine]
      simp [engineClaim, u, ha]
    rw [claimed_print_eq (show u.trav? a.trav = some v from hv)] at hb
    have hport : enginePort e ∈ claimPorts := by cases e <;> decide
    refine ⟨_, congrArg Host.Outcome.next (command_taken hport (mem_runHold hm) rfl hb), ?_, rfl,
      commit_table_put (old := u) rfl, commit_engines_put (old := u) rfl rfl, ?_, holder_taken _ _ _ _ _⟩
    · refine keeps_taken (by simp) ⟨rfl, rfl, fun b hb => ?_⟩ (serialsKept_of_put (t := v) (u := { v with stage := .printing }) hv rfl rfl)
      cases b <;> first | rfl | simp at hb
    · refine permit_false_of_claim (st := engineStation e) (c := ⟨enginePort e, a.platen⟩) ?_
      exact (claimAt_setClaim _ _ _ _).trans (if_pos rfl)
  · exact congrArg Host.Outcome.next
      (command_rejected (claimPort_of_ne hp) (mem_runHold hm) rfl (claimBody_arg hk hn h _))
  · rintro st hst rfl hn12
    obtain ⟨q, rfl⟩ : ∃ q : Fin 12, q.val = n := ⟨⟨n, hn12⟩, rfl⟩
    refine ⟨fun h => congrArg Host.Outcome.next (command_rejected (claimPort_of_ne hp) (mem_runHold hm) rfl ?_),
      fun e he hfree hq ha => congrArg Host.Outcome.next
        (command_rejected (claimPort_of_ne hp) (mem_runHold hm) rfl ?_)⟩
    · refine (claimBody_at hst q _).trans ?_
      by_cases hc : (s.claimAt st).isSome = true
      · exact refuseIf_pos hc _ _
      · rw [refuseIf_neg (by simpa using hc)]
        have hq : platenAt s.ring (stationPos st) ≠ q := fun hq => h.resolve_left hc (congrArg Fin.val hq)
        exact refuseIf_pos hq _ _
    · have hq' : platenAt s.ring (stationPos st) = q := Fin.ext hq
      refine (claimBody_at hst q _).trans ?_
      rw [refuseIf_neg (by simp [hfree]), refuseIf_neg fun h => h hq', he,
        takeClaim_engine]
      simp only [engineClaim, ← he, awaitingAt_endFrame, lapseAt_endFrame, ha, hq']
      split <;> rfl

/-! ### The expiry of a claim window (R51, R103) -/

theorem estimateOf_some {s : State} {i : Fin 32} {v : Traveller} {r : Print} (hv : s.trav? i = some v)
    (hr : v.print = some r) : estimateOf s i = r.estimate := by simp [estimateOf, hv, hr]

theorem addFault_of_lt {v : Traveller} (h : v.faults.length < 4) (c : FaultCode) :
    addFault c v = { v with faults := v.faults ++ [c] } := if_pos h

/-- R96: an engine record in service again. -/
def served (c : Constants) (x : EngineRec) : EngineRec := { x with state := serviceState c x.prints }

/-- R96: what a return to service with `n` prints counted raises. -/
def serviceNotices (c : Constants) (e : Engine) (n : Nat) : List (Port × Source) :=
  if n < c.cleanInterval then [] else [(enginePort e, .cleanDue)]

theorem returnToService_eq (e : Engine) (f : EngineRec → EngineRec) (s : State) :
    returnToService e f s = (modEngine e (fun x => served s.constants (f x)) s).setNotices
      (raisedIn (serviceNotices s.constants e (f (s.engine e)).prints) s.notices) := by
  have hy : ((modEngine e (fun x => served s.constants (f x)) s).engine e).state =
      serviceState s.constants (f (s.engine e)).prints := by simp [engine_modEngine, served]
  by_cases h : (f (s.engine e)).prints < s.constants.cleanInterval
  · have hr : serviceState s.constants (f (s.engine e)).prints = .ready := if_pos h
    rw [serviceNotices, if_pos h]
    exact if_neg (by rw [hr] at hy; exact fun hc => nomatch hy.symm.trans hc)
  · have hr : serviceState s.constants (f (s.engine e)).prints = .cleanDue := if_neg h
    rw [serviceNotices, if_neg h]
    exact if_pos (hy.trans hr)

@[simp] theorem returnToService_table (e : Engine) (f : EngineRec → EngineRec) (s : State) :
    (returnToService e f s).table = s.table := by rw [returnToService_eq]; rfl
@[simp] theorem returnToService_ring (e : Engine) (f : EngineRec → EngineRec) (s : State) :
    (returnToService e f s).ring = s.ring := by rw [returnToService_eq]; rfl
@[simp] theorem returnToService_engines (e : Engine) (f : EngineRec → EngineRec) (s : State) :
    (returnToService e f s).engines = s.engines.set (engineNo e) (served s.constants (f (s.engine e))) := by
  rw [returnToService_eq]; rfl
@[simp] theorem returnToService_notices (e : Engine) (f : EngineRec → EngineRec) (s : State) :
    (returnToService e f s).notices =
      raisedIn (serviceNotices s.constants e (f (s.engine e)).prints) s.notices := by rw [returnToService_eq]; rfl

theorem keeps_returnToService {changed : List Block} (h : Block.engines ∈ changed) (h' : Block.notices ∈ changed)
    (e : Engine) (f : EngineRec → EngineRec) (s : State) : Keeps changed s (returnToService e f s) := by
  rw [returnToService_eq]
  exact ⟨rfl, rfl, fun b hb => by cases b <;> first | rfl | exact absurd h hb | exact absurd h' hb⟩

theorem keeps_modTrav {changed : List Block} (h : Block.table ∈ changed) (i : Fin 32) (f : Traveller → Traveller)
    (s : State) : Keeps changed s (modTrav i f s) :=
  ⟨modTrav_pending i f s, modTrav_bus i f s, fun b hb => by
    cases b <;> first | exact absurd h hb | simp [Block.same]⟩

theorem keeps_raise {changed : List Block} (h : Block.notices ∈ changed) (p : Port) (x : Source) (s : State) :
    Keeps changed s (raise p x s) :=
  ⟨rfl, rfl, fun b hb => by cases b <;> first | rfl | exact absurd h hb⟩

/-- Settles O31: withdrawal, lapse mark, fault and notices, one block after the other. -/
theorem claimWindowExpiryWithdraws : Obligations.ClaimWindowExpiryWithdraws := by
  refine fun e s => ⟨fun a v r ha hv hr hf => ?_, fun ha => ?_⟩
  · let w : State := setLapse e (some a.platen) (setAwaiting e none s)
    let u : State := returnToService e (freeEngine r.estimate) w
    let v' : Traveller := { v with stage := .readyToPrint, print := none, faults := v.faults ++ [.assignLapsed] }
    have heff : claimWindowExpiry e s =
        raise (enginePort e) .assignLapsed (modTrav a.trav (addFault .assignLapsed) (withdrawTraveller a.trav u)) := by
      simp only [claimWindowExpiry, ha, estimateOf_some hv hr]
      rfl
    have htable : (claimWindowExpiry e s).table = (putTrav a.trav (some v') s).table := by
      have hu : u.table = s.table := returnToService_table _ _ _
      rw [heff, raise_table, withdrawTraveller, modTrav_modTrav_table _ _ hu hv, addFault_of_lt (by exact hf)]
    have hkeeps : Keeps [.ring, .table, .engines, .notices] s (claimWindowExpiry e s) := by
      rw [heff]
      have hw : Keeps [.ring, .table, .engines, .notices] s w :=
        ⟨rfl, rfl, fun b hb => by cases b <;> first | rfl | simp at hb⟩
      exact keeps_trans hw (keeps_trans (keeps_returnToService (by simp) (by simp) _ _ _)
        (keeps_trans (keeps_modTrav (by simp) _ _ _)
          (keeps_trans (keeps_modTrav (by simp) _ _ _) (keeps_raise (by simp) _ _ _))))
    refine ⟨commit s (claimWindowExpiry e s), rfl, keeps_commit hkeeps (serialsKept_of_put (u := v') hv rfl htable), ?_,
      commit_table_put htable, commit_engines_put (by rfl) ?_, ?_⟩
    · rw [commit_ring, heff]
      simp [withdrawTraveller, u, w, setLapse, setAwaiting]
    · rw [heff]
      simp [withdrawTraveller, u, w]
      rfl
    · rw [commit_notices, heff]
      simp [withdrawTraveller, u, w, serviceNotices]
      rfl
  · have : claimWindowExpiry e s = s := by simp [claimWindowExpiry, ha]
    simp only [exec, execClaimWindowExpiry, event, this, commit_self]

end Sys2Proof.PlatenRing
end

