-- ==== Sys2Proof/Proofs/PlatenRing/StartStop.lean ====
section
/-! PROOF. START (O17) and STOP (O18). -/

namespace Sys2Proof.PlatenRing

open Sys2Proof Sys2Proof.Machine

/-! ### Notices read port by port -/

theorem notice_raise (p q : Port) (x : Source) (s : State) :
    (raise p x s).notice q = if q = p then raiseSource p x (s.notice p) else s.notice q := by
  simp only [State.notice, raise, setNotices_notices, Tab.get_set, portNo_inj]

theorem notice_commit (s u : State) (q : Port) : (commit s u).notice q = u.notice q := rfl

theorem enginePort_inj {e f : Engine} : enginePort e = enginePort f ↔ e = f := by cases e <;> cases f <;> decide

theorem enginePort_ne_prep (e : Engine) : Port.prep ≠ enginePort e := by cases e <;> decide

/-! ### The checks of START (R156) -/

theorem assigned_iff {s : State} {f : LineFunction} :
    s.assigned f = true ↔ ∃ l : Fin 24, (s.lines.get l).function = f := by
  simp [State.assigned, State.lineOf, List.find?_isSome]

theorem missingFunction_eq_none {s : State} (h : ∀ f ∈ requiredFunctions, s.assigned f = true) :
    missingFunction s = none :=
  List.find?_eq_none.mpr fun f hf => by simp [h f hf]

theorem missingFunction_eq_some {s : State} {before after : List LineFunction} {f : LineFunction}
    (hl : requiredFunctions = before ++ f :: after) (hb : ∀ g ∈ before, s.assigned g = true)
    (hf : s.assigned f = false) : missingFunction s = some f :=
  List.find?_eq_some_iff_append.mpr ⟨by simp [hf], before, after, hl, fun g hg => by simp [hb g hg]⟩

theorem anyFabricValid_iff {s : State} :
    anyFabricValid s = true ↔ ∃ k : Fin 8, (s.setup.fabrics.get k).cls.valid = true := by
  simp [anyFabricValid]

/-- R156: the checks of START on a platen number in range, a missing function first. -/
theorem startBody_missing {p : Fin 12} {s : State} {f : LineFunction} (h : missingFunction s = some f) :
    startBody [BitVec.ofNat 8 p.val] s = .refuse .arg (bytes8 (functionCode f)) := by
  simp [startBody, byteAt_cons_ofNat (show p.val < 256 by omega), h]

theorem startBody_complete {p : Fin 12} {s : State} (h : missingFunction s = none) :
    startBody [BitVec.ofNat 8 p.val] s =
      refuseIf (anyFabricValid s = false) .arg (.accept (started p s) []) := by
  simp [startBody, byteAt_cons_ofNat (show p.val < 256 by omega), h]

/-! ### The engines at START (R112) -/

theorem startEngine_engine (e g : Engine) (s : State) :
    (startEngine e s).engine g =
      if g = e ∧ (s.engine e).state = .ready ∧ s.constants.cleanInterval ≤ (s.engine e).prints then
        { s.engine e with state := .cleanDue } else s.engine g := by
  by_cases h : (s.engine e).state = .ready ∧ s.constants.cleanInterval ≤ (s.engine e).prints
  · rw [startEngine, if_pos h]
    have hg := engine_modEngine e g (fun x => { x with state := .cleanDue }) s
    simpa [h] using hg
  · simp [startEngine, h]

theorem startEngine_notice (e : Engine) (q : Port) (s : State) :
    (startEngine e s).notice q =
      if q = enginePort e ∧ (s.engine e).state = .ready ∧ s.constants.cleanInterval ≤ (s.engine e).prints then
        raiseSource q .cleanDue (s.notice q) else s.notice q := by
  by_cases h : (s.engine e).state = .ready ∧ s.constants.cleanInterval ≤ (s.engine e).prints
  · rw [startEngine, if_pos h, notice_raise]
    by_cases hq : q = enginePort e
    · subst hq
      simp [h, State.notice]
    · simp only [hq, false_and, if_false]
      rfl
  · simp [startEngine, h]

/-- What START does to the engines and their notices, and to nothing else. -/
theorem startEngine_eq (e : Engine) (s : State) :
    startEngine e s = (s.setEngines (startEngine e s).engines).setNotices (startEngine e s).notices := by
  unfold startEngine
  split <;> rfl

section
variable (e : Engine) (s : State)

@[simp] theorem startEngine_table : (startEngine e s).table = s.table := by rw [startEngine_eq]; rfl
@[simp] theorem startEngine_ring : (startEngine e s).ring = s.ring := by rw [startEngine_eq]; rfl
@[simp] theorem startEngine_tunnel : (startEngine e s).tunnel = s.tunnel := by rw [startEngine_eq]; rfl
@[simp] theorem startEngine_ports : (startEngine e s).ports = s.ports := by rw [startEngine_eq]; rfl
@[simp] theorem startEngine_setup : (startEngine e s).setup = s.setup := by rw [startEngine_eq]; rfl

theorem startEngine_constants : (startEngine e s).constants = s.constants :=
  congrArg Setup.constants (startEngine_setup e s)

theorem keeps_startEngine {changed : List Block} (h : Block.engines ∈ changed) (h' : Block.notices ∈ changed) :
    Keeps changed s (startEngine e s) := by
  rw [startEngine_eq]
  exact ⟨rfl, rfl, fun b hb => by cases b <;> first | rfl | exact absurd h hb | exact absurd h' hb⟩

end

theorem startEngines_engine (e : Engine) (s : State) :
    (startEngine .b (startEngine .a s)).engine e =
      if (s.engine e).state = .ready ∧ s.constants.cleanInterval ≤ (s.engine e).prints then
        { s.engine e with state := .cleanDue } else s.engine e := by
  have hb : (startEngine .a s).engine .b = s.engine .b := by simp [startEngine_engine]
  cases e
  · simp [startEngine_engine .b, startEngine_engine .a]
  · simp [startEngine_engine .b, startEngine_constants, hb]

theorem startEngines_notice_engine (e : Engine) (s : State) :
    (startEngine .b (startEngine .a s)).notice (enginePort e) =
      if (s.engine e).state = .ready ∧ s.constants.cleanInterval ≤ (s.engine e).prints then
        raiseSource (enginePort e) .cleanDue (s.notice (enginePort e)) else s.notice (enginePort e) := by
  have hb : (startEngine .a s).engine .b = s.engine .b := by simp [startEngine_engine]
  cases e
  · simp [startEngine_notice .b, startEngine_notice .a, enginePort_inj]
  · simp [startEngine_notice .b, startEngine_notice .a, enginePort_inj, startEngine_constants, hb]

theorem startEngines_notice_other {q : Port} (hq : ∀ e : Engine, q ≠ enginePort e) (s : State) :
    (startEngine .b (startEngine .a s)).notice q = s.notice q := by
  simp [startEngine_notice, hq]

/-- Settles O17: mode, ring and tunnel are written outright, then each engine is looked at with its notice. -/
theorem startEntersRun : Obligations.StartEntersRun := by
  refine ⟨fun p s hm hfun hfab => ?_, fun n s hn hm => ?_⟩
  · let u := endFrame .gateway 3 false s
    obtain ⟨w, hw⟩ : ∃ w, w = startTunnel (raise .prep .loadReady (alignRing p (setMode .run u))) := ⟨_, rfl⟩
    have hmiss : missingFunction u = none := missingFunction_eq_none fun f hf => assigned_iff.mpr (hfun f hf)
    have hvalid : anyFabricValid u = true := anyFabricValid_iff.mpr hfab
    have hb : startBody [BitVec.ofNat 8 p.val] u = .accept (startEngine .b (startEngine .a w)) [] := by
      rw [startBody_complete hmiss, hw]
      exact refuseIf_neg (by simp [hvalid]) _ _
    have hnotice (q : Port) : w.notice q = if q = .prep then raiseSource .prep .loadReady (s.notice .prep)
        else s.notice q := by rw [hw]; exact notice_raise .prep q .loadReady _
    have hengine (e : Engine) : w.engine e = s.engine e := by rw [hw]; rfl
    have hconstants : w.constants = s.constants := by rw [hw]; rfl
    have hkeeps : Keeps [.setup, .ring, .notices, .tunnel, .engines, .ports] u (startEngine .b (startEngine .a w)) := by
      refine keeps_trans ?_ (keeps_trans (keeps_startEngine .a w (by simp) (by simp))
        (keeps_startEngine .b _ (by simp) (by simp)))
      refine ⟨by simp [hw, u, startTunnel, alignRing], by simp [hw, u, startTunnel, alignRing], fun b hb => ?_⟩
      cases b <;> simp [Block.same, hw, u, startTunnel, alignRing] at hb ⊢
    have htable : (startEngine .b (startEngine .a w)).table = u.table := by simp [hw, u, startTunnel, alignRing]
    refine ⟨_, congrArg Host.Outcome.next (command_taken (by simp) (by simp [hm]) rfl hb),
      keeps_taken (by simp) hkeeps (serialsKept_of_table htable), ?_, ?_, ?_, fun e => ?_, fun q hq he => ?_, ?_,
      fun e => ?_, accepted_ports (by simp [hw, u, startTunnel, alignRing])⟩
    · simp [hw, u, startTunnel, alignRing, setMode]
    · rw [respond_ring, commit_ring, startEngine_ring, startEngine_ring, hw]
      rfl
    · rw [respond_tunnel, commit_tunnel, startEngine_tunnel, startEngine_tunnel, hw]
      rfl
    · rw [engine_respond, commit_engine, engine_endFrame, startEngines_engine, hengine, hconstants]
      refine engineAfter_eq ?_
      split <;> rfl
    · rw [notice_respond, notice_commit, startEngines_notice_other he, hnotice, if_neg hq]
    · rw [notice_respond, notice_commit, startEngines_notice_other enginePort_ne_prep, hnotice, if_pos rfl]
    · rw [notice_respond, notice_commit, startEngines_notice_engine, hnotice, if_neg (enginePort_ne_prep e).symm, hengine, hconstants]
  · have hreject {data : List Byte} (hb : startBody [BitVec.ofNat 8 n] (endFrame .gateway 3 false s) = .refuse .arg data) :
        exec (.start .gateway [BitVec.ofNat 8 n]) s = .next (refused .gateway 0x12 [BitVec.ofNat 8 n] .arg data s) :=
      congrArg Host.Outcome.next (command_rejected (by simp) (by simp [hm]) rfl hb)
    refine ⟨fun h12 => hreject ?_, fun h12 before after f hl hbefore hf => hreject ?_, fun h12 hfun hfab => hreject ?_⟩
    · rw [startBody, byteAt_cons_ofNat hn, fin?_none h12]
    · exact startBody_missing (p := ⟨n, h12⟩)
        (missingFunction_eq_some (s := endFrame .gateway 3 false s) hl hbefore hf)
    · have hinvalid : anyFabricValid (endFrame .gateway 3 false s) = false := by
        rw [Bool.eq_false_iff, ne_eq, anyFabricValid_iff]
        exact fun ⟨k, hk⟩ => Bool.noConfusion (hk.symm.trans (hfab k))
      exact (startBody_complete (p := ⟨n, h12⟩)
        (missingFunction_eq_none (s := endFrame .gateway 3 false s) hfun)).trans (refuseIf_pos hinvalid _ _)

/-! ### STOP (R157) -/

theorem openSlots_eq_nil_iff {s : State} : openSlots s = [] ↔ ∀ i : Fin 32, s.trav? i = none := by
  simp [openSlots, List.filter_eq_nil_iff]

/-- Settles O18. -/
theorem stopEntersConfig : Obligations.StopEntersConfig := by
  refine fun s hm => ⟨fun hnone => ?_, fun ⟨i, hi⟩ => ?_⟩
  · let u := endFrame .gateway 2 false s
    have hopen : openSlots u = [] := openSlots_eq_nil_iff.mpr hnone
    have hb : stopBody u = .accept (stopped u) [] := refuseIf_neg (by simp [hopen]) _ _
    have hkeeps : Keeps [.setup, .ring, .pre, .gauge, .tunnel, .ports] u (stopped u) := by
      refine ⟨by simp [stopped, stopTunnel, idlePasses], by simp [stopped, stopTunnel, idlePasses], fun b hb => ?_⟩
      cases b <;> simp [Block.same, stopped, stopTunnel, idlePasses] at hb ⊢
    have htable : (stopped u).table = u.table := by simp [stopped, stopTunnel, idlePasses]
    have hports : (stopped u).ports = u.ports := by simp [stopped, stopTunnel, idlePasses]
    refine ⟨_, congrArg Host.Outcome.next (command_taken (by simp) (mem_runHold hm) rfl hb),
      keeps_taken (by simp) hkeeps (serialsKept_of_table htable), ?_, ?_, ?_, ?_, ?_, ?_, accepted_ports hports⟩
    · simp [stopped, stopTunnel, idlePasses, setMode, u]
    · rw [respond_ring, commit_ring]
      simp [stopped, stopTunnel, idlePasses, clearLapses, dropClaims, u]
    · simp [stopped, stopTunnel, idlePasses, u]
    · simp [stopped, stopTunnel, idlePasses, u]
    · rw [respond_tunnel, commit_tunnel]
      simp [stopped, stopTunnel, idlePasses, zonesUnknown, u]
    · refine permit_false_of_mode ?_
      simp [State.mode, stopped, stopTunnel, idlePasses, setMode]
  · have hopen : openSlots (endFrame .gateway 2 false s) ≠ [] := fun h => by
      simp [(openSlots_eq_nil_iff.mp h) i, ← trav?_endFrame .gateway 2 false s i] at hi
    exact congrArg Host.Outcome.next (command_rejected (by simp) (mem_runHold hm) rfl (refuseIf_pos hopen _ _))

end Sys2Proof.PlatenRing
end

