-- ==== Sys2Proof/Proofs/PlatenRing/Leaves.lean ====
section
/-! PROOF. What no part of an index or of a RESUME touches (`Leaves`), and what that gives at the end of the event. -/

namespace Sys2Proof.PlatenRing

open Sys2Proof Sys2Proof.Machine

/-! ### Raised sources stay pending (R151) -/

theorem raiseSource_keeps {n : NoticeState} {j : Nat} (p : Port) (x : Source) (h : n.pending.getLsbD j = true) :
    (raiseSource p x n).pending.getLsbD j = true := by
  unfold raiseSource raiseNo setGroup
  split
  · dsimp only
    split <;> simp [h]
  · exact h

theorem raiseSource_sets {p : Port} {x : Source} {k : Nat} (n : NoticeState) (h : sourceNo p x = some k) :
    (raiseSource p x n).pending.getLsbD k = true := by
  have hlen : (portGroups p).flatten.length ≤ 16 := by cases p <;> decide
  have hk : k < 16 := by
    obtain ⟨hlt, -⟩ := List.findIdx?_eq_some_iff_getElem.mp h
    omega
  simp only [raiseSource, h, raiseNo, setGroup]
  split <;> simp [hk]

theorem isPending_raise {p : Port} {x : Source} (s : State) (h : (sourceNo p x).isSome = true) :
    isPending (raise p x s) p x := by
  obtain ⟨k, hk⟩ := Option.isSome_iff_exists.mp h
  exact ⟨k, hk, by rw [notice_raise, if_pos rfl]; exact raiseSource_sets _ hk⟩

/-! ### What stands -/

/-- What ties a traveller to its platen and its order: an index and a RESUME write none of it. -/
def ident (v : Traveller) : BitVec 16 × Fin 64 × Fin 8 × Option (Fin 12) := (v.serial, v.slot, v.line, v.platen)

/-- What no part of an index or of a RESUME touches, from `s` to `t`: the blocks named, the configuration, what the
platens carry, who the travellers are, and every revision; and a source once pending stays so. -/
structure Leaves (s t : State) : Prop where
  book : t.book = s.book
  exits : t.exits = s.exits
  tunnel : t.tunnel = s.tunnel
  ports : t.ports = s.ports
  lines : t.lines = s.lines
  bus : t.bus = s.bus
  pending : t.pending = s.pending
  setup : t.setup = { s.setup with mode := t.mode }
  carried : t.ring.carried = s.ring.carried
  ringRevs : t.ring.revs = s.ring.revs
  serial : t.table.serial = s.table.serial
  slotRev : ∀ i : Fin 32, (t.table.slots.get i).rev = (s.table.slots.get i).rev
  ident : ∀ i : Fin 32, (t.trav? i).map ident = (s.trav? i).map ident
  engineRev : ∀ e : Engine, (t.engine e).rev = (s.engine e).rev
  raised : ∀ (p : Port) (k : Nat), (s.notice p).pending.getLsbD k = true → (t.notice p).pending.getLsbD k = true

namespace Leaves

variable {s t u : State}

theorem refl (s : State) : Leaves s s := by constructor <;> first | rfl | exact fun _ => rfl | exact fun _ _ h => h

theorem trans (h : Leaves s t) (k : Leaves t u) : Leaves s u where
  book := k.book.trans h.book
  exits := k.exits.trans h.exits
  tunnel := k.tunnel.trans h.tunnel
  ports := k.ports.trans h.ports
  lines := k.lines.trans h.lines
  bus := k.bus.trans h.bus
  pending := k.pending.trans h.pending
  setup := by rw [k.setup, h.setup]
  carried := k.carried.trans h.carried
  ringRevs := k.ringRevs.trans h.ringRevs
  serial := k.serial.trans h.serial
  slotRev i := (k.slotRev i).trans (h.slotRev i)
  ident i := (k.ident i).trans (h.ident i)
  engineRev e := (k.engineRev e).trans (h.engineRev e)
  raised p n hn := k.raised p n (h.raised p n hn)

theorem constants (h : Leaves s t) : t.constants = s.constants := by rw [State.constants, h.setup]; rfl

theorem isPending (h : Leaves s t) {p : Port} {x : Source} : isPending s p x → isPending t p x :=
  fun ⟨k, hk, hp⟩ => ⟨k, hk, h.raised p k hp⟩

theorem serialsKept (h : Leaves s t) : SerialsKept s t := fun q _ => by
  simpa [Function.comp_def, PlatenRing.ident] using congrArg (Option.map Prod.fst) (h.ident q.trav)

/-- R3: how the end of an event reads a slot whose revision has not moved yet. -/
theorem slotAfter_eq {x y : TravSlot} (h : y.rev = x.rev) :
    (if y.trav = x.trav then y else { y with rev := y.rev + 1 }) = slotAfter x y.trav := by
  obtain ⟨r, v⟩ := x
  obtain ⟨r', w⟩ := y
  obtain rfl : r' = r := h
  simp only [slotAfter]
  split <;> simp_all

/-- R3: a traveller slot at the end of the event. -/
theorem slot (h : Leaves s t) (i : Fin 32) :
    (commit s t).table.slots.get i = slotAfter (s.table.slots.get i) (t.trav? i) := by
  rw [commit_table_slot]
  exact slotAfter_eq (h.slotRev i)

/-- R97: an engine record at the end of the event. -/
theorem engine (h : Leaves s t) (e : Engine) : (commit s t).engine e = engineAfter (s.engine e) (t.engine e) := by
  rw [commit_engine]
  exact engineAfter_eq (h.engineRev e)

end Leaves

/-! ### The shared operations leave it -/

section
variable (s : State)

theorem leaves_raise (p : Port) (x : Source) : Leaves s (raise p x s) := by
  refine { Leaves.refl s with raised := fun q k h => ?_ }
  rw [notice_raise]
  split
  · rename_i hq
    exact raiseSource_keeps p x (hq ▸ h)
  · exact h

theorem leaves_setRing {r : Ring} (hc : r.carried = s.ring.carried) (hr : r.revs = s.ring.revs) : Leaves s (s.setRing r) :=
  { Leaves.refl s with carried := hc, ringRevs := hr }

theorem leaves_setPre (x : PretreatUnit) : Leaves s (s.setPre x) := { Leaves.refl s with }

theorem leaves_setGauge (x : Gauge) : Leaves s (s.setGauge x) := { Leaves.refl s with }

theorem leaves_setMode (m : Mode) : Leaves s (setMode m s) := { Leaves.refl s with setup := rfl }

theorem leaves_modEngine (e : Engine) {f : EngineRec → EngineRec} (hf : (f (s.engine e)).rev = (s.engine e).rev) :
    Leaves s (modEngine e f s) := by
  refine { Leaves.refl s with engineRev := fun g => ?_ }
  rw [engine_modEngine]
  split
  · rename_i hg
    rw [hf, hg]
  · rfl

theorem leaves_modTrav (i : Fin 32) {f : Traveller → Traveller} (hf : ∀ v, ident (f v) = ident v) :
    Leaves s (modTrav i f s) := by
  cases hv : s.trav? i with
  | none =>
    rw [modTrav, hv]
    exact Leaves.refl s
  | some v =>
    rw [modTrav_some f hv]
    refine { Leaves.refl s with slotRev := fun j => ?_, ident := fun j => ?_ }
    · by_cases hj : j = i
      · subst hj; simp [putTrav]
      · simp [putTrav, Tab.get_set_ne _ _ hj]
    · rw [trav?_putTrav]
      split
      · rename_i hj
        rw [hj, hv]
        exact congrArg some (hf v)
      · rfl

/-- A sequence of operations leaves what each of them leaves. -/
theorem leaves_foldl {α : Type} {op : State → α → State} (h : ∀ s a, Leaves s (op s a)) (l : List α) :
    Leaves s (l.foldl op s) := by
  induction l generalizing s with
  | nil => exact Leaves.refl s
  | cons a l ih => exact (h s a).trans (ih _)

theorem leaves_raiseOn (ps : List Port) (x : Source) : Leaves s (raiseOn ps x s) :=
  leaves_foldl s (fun s p => leaves_raise s p x) ps

end

theorem isPending_raiseOn {ps : List Port} {p : Port} {x : Source} (s : State) (hp : p ∈ ps)
    (h : (sourceNo p x).isSome = true) : isPending (raiseOn ps x s) p x := by
  induction ps generalizing s with
  | nil => cases hp
  | cons q ps ih =>
    rcases List.mem_cons.mp hp with rfl | hp
    · exact (leaves_raiseOn _ ps x).isPending (isPending_raise s h)
    · exact ih _ hp

@[simp] theorem ident_addFault (c : FaultCode) (v : Traveller) : ident (addFault c v) = ident v := by
  unfold addFault
  split <;> rfl

/-! ### What keeps a block keeps it to the end of the event -/

theorem Leaves.keeps {changed : List Block} {s t : State} (h : Leaves s t)
    (hc : ∀ b ∈ [Block.table, .ring, .pre, .gauge, .engines, .notices, .setup], b ∈ changed ∨ b.same s t) :
    Keeps changed s t := by
  refine ⟨h.pending, h.bus, fun b hb => ?_⟩
  cases b with
  | book => exact h.book
  | exits => exact h.exits
  | tunnel => exact h.tunnel
  | ports => exact h.ports
  | lines => exact h.lines
  | table | ring | pre | gauge | engines | notices | setup => exact (hc _ (by simp)).resolve_left hb

end Sys2Proof.PlatenRing
end

