-- ==== Sys2Proof/Proofs/PlatenRing/Attempts.lean ====
section
/-! PROOF. Assignment attempts (R98 to R101): what one does, the two of an arrival (R56), and the attempts by command
(the first half of O43). -/

namespace Sys2Proof.PlatenRing

open Sys2Proof Sys2Proof.Machine

/-- The ring position of an engine (Table 3-1). -/
abbrev enginePos (e : Engine) : Fin 12 := stationPos (engineStation e)

/-! ### Reading the ring -/

theorem travAt_eq_some_iff {s : State} {k : Fin 12} {i : Fin 32} {v : Traveller} :
    s.travAt k = some (i, v) ↔ s.slotAt k = some i ∧ s.trav? i = some v := by
  cases h : s.slotAt k with
  | none => simp [State.travAt, h]
  | some j =>
    simp only [State.travAt, h, Option.bind_some, Option.map_eq_some_iff, Prod.mk.injEq, Option.some.injEq]
    exact ⟨fun ⟨w, hw, hj, hv⟩ => ⟨hj, hj ▸ hv ▸ hw⟩, fun ⟨hj, hv⟩ => ⟨v, hj ▸ hv, hj, rfl⟩⟩

theorem slotAt_congr {s t : State} (hl : t.ring.load = s.ring.load) (hc : t.ring.carried = s.ring.carried) (k : Fin 12) :
    t.slotAt k = s.slotAt k := by simp [State.slotAt, platenAt, hl, hc]

/-- No garment stands on two platens. -/
def CarriedOnce (s : State) : Prop :=
  ∀ (p q : Fin 12) (i : Fin 32), s.ring.carried.get p = some i → s.ring.carried.get q = some i → p = q

theorem carriedOnce_of_consistent {s : State} (h : CarriedConsistent s) : CarriedOnce s := by
  intro p q i hp hq
  obtain ⟨v, hv, hvp⟩ := (h p i).mp hp
  obtain ⟨w, hw, hwq⟩ := (h q i).mp hq
  cases hv.symm.trans hw
  exact Option.some.inj (hvp.symm.trans hwq)

theorem carriedOnce_congr {s t : State} (hc : t.ring.carried = s.ring.carried) (h : CarriedOnce s) : CarriedOnce t := by
  unfold CarriedOnce
  rwa [hc]

/-- A garment stands at one position. -/
theorem CarriedOnce.pos_inj {s : State} (h : CarriedOnce s) {j k : Fin 12} {i : Fin 32} (hj : s.slotAt j = some i)
    (hk : s.slotAt k = some i) : j = k := by
  have := h _ _ i hj hk
  simp only [platenAt] at this
  omega

/-! ### Estimates (R98, R99) -/

theorem estimates_eq (c : Constants) (l : LineItem) : estimates c l = estimateOfLine c l := rfl

theorem inkCovers_iff {x : EngineRec} {est : Inks} : inkCovers x est = true ↔ inkSuffices x est := by
  simp only [inkCovers, Inks.all, Bool.and_eq_true, decide_eq_true_eq, and_assoc]
  exact Iff.rfl

theorem boundLine_of {s : State} {v : Traveller} {l : LineItem} (h : s.line? v.slot v.line = some l) :
    s.boundLine v = l := by simp [State.boundLine, h]

theorem boundLine_congr {s t : State} (h : t.book = s.book) (v : Traveller) : t.boundLine v = s.boundLine v := by
  simp [State.boundLine, State.line?, State.order?, h]

/-! ### When an attempt is made (R100) -/

theorem assignable_eq_some_iff {e : Engine} {s : State} {i : Fin 32} {v : Traveller} :
    assignable e s = some (i, v) ↔ s.slotAt (enginePos e) = some i ∧ s.trav? i = some v ∧ s.mode = .run ∧
      v.stage = .readyToPrint ∧ s.awaitingAt e = none ∧ s.lapseAt e = none ∧ (s.engine e).state = .ready := by
  rw [← and_assoc, ← travAt_eq_some_iff, assignable]
  cases h : s.travAt (stationPos (engineStation e)) with
  | none => simp
  | some x =>
    obtain ⟨j, w⟩ := x
    simp only [Option.ite_none_right_eq_some, Option.some.injEq, Prod.mk.injEq]
    constructor
    · rintro ⟨hc, rfl, rfl⟩
      exact ⟨⟨rfl, rfl⟩, hc⟩
    · rintro ⟨⟨rfl, rfl⟩, hc⟩
      exact ⟨hc, rfl, rfl⟩

/-- An attempt looks at the mode, the ring, the garment at the position and the engine's state alone. -/
theorem assignable_congr {e : Engine} {s t : State} (hm : t.mode = s.mode)
    (hp : t.slotAt (enginePos e) = s.slotAt (enginePos e))
    (hv : ∀ i, s.slotAt (enginePos e) = some i → t.trav? i = s.trav? i) (ha : t.awaitingAt e = s.awaitingAt e)
    (hl : t.lapseAt e = s.lapseAt e) (he : (t.engine e).state = (s.engine e).state) : assignable e t = assignable e s := by
  refine Option.ext fun ⟨i, v⟩ => ?_
  rw [assignable_eq_some_iff, assignable_eq_some_iff, hm, hp, ha, hl, he]
  exact and_congr_right fun hi => by rw [hv i hi]

/-! ### What an attempt does -/

theorem attempt_of_none {e : Engine} {s : State} (h : assignable e s = none) : attempt e s = s := by
  rw [attempt, h]

theorem attempt_of_covered {e : Engine} {s : State} {i : Fin 32} {v : Traveller} (h : assignable e s = some (i, v))
    (hc : inkSuffices (s.engine e) (estimateOfLine s.constants (s.boundLine v))) :
    attempt e s = assign e i v (estimateOfLine s.constants (s.boundLine v)) s := by
  simp only [attempt, h, estimates_eq]
  exact if_pos (inkCovers_iff.mpr hc)

theorem attempt_of_short {e : Engine} {s : State} {i : Fin 32} {v : Traveller} (h : assignable e s = some (i, v))
    (hc : ¬ inkSuffices (s.engine e) (estimateOfLine s.constants (s.boundLine v))) :
    attempt e s = raiseInkShort e s := by
  simp only [attempt, h, estimates_eq]
  exact if_neg (mt inkCovers_iff.mp hc)

/-- An attempt does nothing, raises INK_SHORT, or assigns the garment at the position. -/
theorem attempt_cases (e : Engine) (s : State) :
    attempt e s = s ∨ attempt e s = raiseInkShort e s ∨
      ∃ (i : Fin 32) (v : Traveller) (est : Inks), assignable e s = some (i, v) ∧ attempt e s = assign e i v est s := by
  cases h : assignable e s with
  | none => exact .inl (attempt_of_none h)
  | some x =>
    obtain ⟨i, v⟩ := x
    simp only [attempt, h]
    split
    · exact .inr (.inr ⟨i, v, _, rfl, rfl⟩)
    · exact .inr (.inl rfl)

theorem raiseInkShort_eq (e : Engine) (s : State) :
    raiseInkShort e s = raise .gateway (gatewayInkShort e) (raise (enginePort e) .inkShort s) := by
  cases e <;> rfl

/-! R101: what the assignment writes: the garment, the engine and its awaiting entry. -/

section
variable (e : Engine) (i : Fin 32) (v : Traveller) (est : Inks) (s : State)

theorem assign_trav? (j : Fin 32) : (assign e i v est s).trav? j =
    if j = i then some { v with stage := .assigned, print := some ⟨e, est, none, .pending⟩ } else s.trav? j :=
  (trav?_congr (by simp [assign]) j).trans (trav?_putTrav i j _ s)

theorem assign_engine (g : Engine) : (assign e i v est s).engine g =
    if g = e then { s.engine e with
      state := .assigned, current := some i, reserved := Inks.zip (· + ·) (s.engine e).reserved est }
    else s.engine g := by
  simp [assign, State.engine, modEngine, Tab.get_set, engineNo_inj]

theorem assign_table : (assign e i v est s).table =
    (putTrav i (some { v with stage := .assigned, print := some ⟨e, est, none, .pending⟩ }) s).table := by
  simp [assign]

theorem assign_engines : (assign e i v est s).engines = s.engines.set (engineNo e) { s.engine e with
    state := .assigned, current := some i, reserved := Inks.zip (· + ·) (s.engine e).reserved est } := by
  simp [assign, modEngine, State.engine]

theorem assign_ring : (assign e i v est s).ring = { s.ring with
    awaiting := s.ring.awaiting.set (engineNo e) (some ⟨i, platenAt s.ring (enginePos e), s.constants.claimWindow⟩) } := by
  simp [assign, setAwaiting]

theorem assign_awaitingAt (g : Engine) : (assign e i v est s).awaitingAt g =
    if g = e then some ⟨i, platenAt s.ring (enginePos e), s.constants.claimWindow⟩ else s.awaitingAt g := by
  simp [State.awaitingAt, assign_ring, Tab.get_set, engineNo_inj]

theorem leaves_setAwaiting (a : Option Awaiting) : Leaves s (setAwaiting e a s) := leaves_setRing s rfl rfl

theorem leaves_assign (hv : s.trav? i = some v) : Leaves s (assign e i v est s) := by
  have hput := modTrav_some (fun v => { v with stage := .assigned, print := some ⟨e, est, none, .pending⟩ }) hv
  rw [assign, ← hput]
  exact (leaves_modTrav s i fun _ => by rfl).trans ((leaves_modEngine _ e (by rfl)).trans
    ((leaves_setAwaiting e _ _).trans (leaves_raise _ _ _)))

end

theorem leaves_raiseInkShort (e : Engine) (s : State) : Leaves s (raiseInkShort e s) := by
  rw [raiseInkShort_eq]
  exact (leaves_raise s _ _).trans (leaves_raise _ _ _)

theorem leaves_attempt (e : Engine) (s : State) : Leaves s (attempt e s) := by
  obtain h | h | ⟨i, v, est, ha, h⟩ := attempt_cases e s
  · rw [h]
    exact Leaves.refl s
  · rw [h]
    exact leaves_raiseInkShort e s
  · obtain ⟨-, hv, -⟩ := assignable_eq_some_iff.mp ha
    rw [h]
    exact leaves_assign e i v est s hv

/-- What an attempt of engine `e` leaves of the rest: of the ring all but the engine's awaiting entry, the other engine,
and every garment but the one at the position, which it does not move either. -/
structure AttemptFrame (e : Engine) (s t : State) : Prop where
  setup : t.setup = s.setup
  pre : t.pre = s.pre
  gauge : t.gauge = s.gauge
  ring : t.ring = { s.ring with awaiting := t.ring.awaiting }
  awaiting : ∀ g : Engine, g ≠ e → t.awaitingAt g = s.awaitingAt g
  engine : ∀ g : Engine, g ≠ e → t.engine g = s.engine g
  trav : ∀ i : Fin 32, (∀ v, assignable e s ≠ some (i, v)) → t.trav? i = s.trav? i

theorem attemptFrame (e : Engine) (s : State) : AttemptFrame e s (attempt e s) := by
  obtain h | h | ⟨i, v, est, ha, h⟩ := attempt_cases e s
  · rw [h]
    exact ⟨rfl, rfl, rfl, rfl, fun _ _ => rfl, fun _ _ => rfl, fun _ _ => rfl⟩
  · rw [h, raiseInkShort_eq]
    exact ⟨rfl, rfl, rfl, rfl, fun _ _ => rfl, fun _ _ => rfl, fun _ _ => rfl⟩
  · rw [h]
    refine ⟨by simp [assign], by simp [assign], by simp [assign], by simp [assign_ring], fun g hg => ?_, fun g hg => ?_,
      fun j hj => ?_⟩
    · rw [assign_awaitingAt, if_neg hg]
    · rw [assign_engine, if_neg hg]
    · rw [assign_trav?, if_neg fun hji : j = i => hj v (hji ▸ ha)]

/-- R100, R101: in `t`, engine `e` has attempted to assign garment `v` of slot `i`, bound to line `l`, as `u` stood. -/
def Tried (u t : State) (e : Engine) (i : Fin 32) (v : Traveller) (l : LineItem) : Prop :=
  (inkSuffices (u.engine e) (estimateOfLine u.constants l) →
    t.trav? i = some { v with stage := .assigned, print := some ⟨e, estimateOfLine u.constants l, none, .pending⟩ } ∧
    t.engine e = { u.engine e with
      state := .assigned, current := some i,
      reserved := Inks.zip (· + ·) (u.engine e).reserved (estimateOfLine u.constants l) } ∧
    t.awaitingAt e = some ⟨i, platenAt u.ring (enginePos e), u.constants.claimWindow⟩ ∧
    isPending t (enginePort e) .assigned) ∧
  (¬ inkSuffices (u.engine e) (estimateOfLine u.constants l) →
    t.trav? i = some v ∧ t.engine e = u.engine e ∧ t.awaitingAt e = none ∧
    isPending t (enginePort e) .inkShort ∧ isPending t .gateway (gatewayInkShort e))

theorem tried_attempt {e : Engine} {u : State} {i : Fin 32} {v : Traveller} (h : assignable e u = some (i, v)) :
    Tried u (attempt e u) e i v (u.boundLine v) := by
  obtain ⟨-, hv, -, -, ha, -⟩ := assignable_eq_some_iff.mp h
  refine ⟨fun hc => ?_, fun hc => ?_⟩
  · rw [attempt_of_covered h hc]
    refine ⟨?_, ?_, ?_, isPending_raise _ (by cases e <;> decide)⟩
    · rw [assign_trav?, if_pos rfl]
    · rw [assign_engine, if_pos rfl]
    · rw [assign_awaitingAt, if_pos rfl]
  · rw [attempt_of_short h hc, raiseInkShort_eq]
    exact ⟨hv, rfl, ha, (leaves_raise _ _ _).isPending (isPending_raise u (by cases e <;> decide)),
      isPending_raise _ (by cases e <;> decide)⟩

/-- Whatever comes of it, the garment is still there, with its faults. -/
theorem Tried.faults {u t : State} {e : Engine} {i : Fin 32} {v : Traveller} {l : LineItem} (h : Tried u t e i v l) :
    ∃ w, t.trav? i = some w ∧ w.faults = v.faults := by
  by_cases hc : inkSuffices (u.engine e) (estimateOfLine u.constants l)
  · exact ⟨_, (h.1 hc).1, rfl⟩
  · exact ⟨_, (h.2 hc).1, rfl⟩

/-- What came after the attempt left its garment, its engine and its entry alone. -/
theorem Tried.later {u t t' : State} {e : Engine} {i : Fin 32} {v : Traveller} {l : LineItem} (h : Tried u t e i v l)
    (hv : t'.trav? i = t.trav? i) (he : t'.engine e = t.engine e) (ha : t'.awaitingAt e = t.awaitingAt e)
    (hp : Leaves t t') : Tried u t' e i v l := by
  unfold Tried
  rw [hv, he, ha]
  exact ⟨fun hc => (h.1 hc).imp_right fun ⟨h2, h3, h4⟩ => ⟨h2, h3, hp.isPending h4⟩,
    fun hc => (h.2 hc).imp_right fun ⟨h2, h3, h4, h5⟩ => ⟨h2, h3, hp.isPending h4, hp.isPending h5⟩⟩

/-- What came before it left unread everything that an attempt reads. -/
theorem Tried.earlier {u w t : State} {e : Engine} {i : Fin 32} {v : Traveller} {l : LineItem} (h : Tried w t e i v l)
    (hc : w.constants = u.constants) (he : w.engine e = u.engine e) (hl : w.ring.load = u.ring.load) : Tried u t e i v l := by
  unfold Tried at h ⊢
  rwa [hc, he, show platenAt w.ring (enginePos e) = platenAt u.ring (enginePos e) by simp [platenAt, hl]] at h

/-- The attempt as the statements give it, at the end of the event. -/
theorem attempted_of_tried {s u t : State} {e : Engine} {i : Fin 32} {v : Traveller} {q : Fin 12} {l : LineItem}
    (h : Tried u t e i v l) (hs : Leaves s t) (hc : u.constants = s.constants) (hq : platenAt u.ring (enginePos e) = q) :
    Attempted s (commit s t) e (u.engine e) i v q l := by
  subst hq
  unfold Tried at h
  rw [hc] at h
  refine ⟨fun hi => ?_, fun hi => ?_⟩
  · obtain ⟨hv, he, ha, hp⟩ := h.1 hi
    exact ⟨(commit_trav? s t i).trans hv, (hs.engine e).trans (by rw [he]), ha, permit_false_of_awaiting ha, hp⟩
  · obtain ⟨hv, he, ha, hp, hp'⟩ := h.2 hi
    exact ⟨(commit_trav? s t i).trans hv, (hs.engine e).trans (by rw [he]), ha, hp, hp'⟩

end Sys2Proof.PlatenRing
end

