-- ==== Sys2Proof/Proofs/PlatenRing/Arrivals.lean ====
section
/-! PROOF. The arrivals (R56): reports that raise and nothing else, then an attempt of each engine at its own position. -/

namespace Sys2Proof.PlatenRing

open Sys2Proof Sys2Proof.Machine

/-! ### Reports -/

/-- From `s` to `t` sources were raised, and nothing else happened. -/
structure Reported (s t : State) : Prop where
  eq : t = s.setNotices t.notices
  leaves : Leaves s t

theorem Reported.refl (s : State) : Reported s s := ⟨rfl, Leaves.refl s⟩

theorem Reported.trans {s t u : State} (h : Reported s t) (k : Reported t u) : Reported s u := by
  refine ⟨?_, h.leaves.trans k.leaves⟩
  have he := k.eq
  rw [h.eq] at he
  exact he

theorem reported_raise (p : Port) (x : Source) (s : State) : Reported s (raise p x s) := ⟨rfl, leaves_raise s p x⟩

/-- A report that is made under a condition. -/
theorem reported_ite (c : Prop) [Decidable c] (p : Port) (x : Source) (s : State) :
    Reported s (if c then raise p x s else s) := by
  split
  · exact reported_raise p x s
  · exact Reported.refl s

/-- The reports of R56 before the attempts. -/
def reports (s : State) : State := reportPress (reportSpray (reportLoad s))

theorem reported_reports (s : State) : Reported s (reports s) :=
  (reported_ite _ _ _ s).trans ((reported_ite _ _ _ _).trans (reported_ite _ _ _ _))

theorem reported_reportUnload (s : State) : Reported s (reportUnload s) := reported_ite _ _ _ s

section
variable {s t : State} (h : Reported s t)
include h

theorem Reported.trav? (i : Fin 32) : t.trav? i = s.trav? i := by rw [h.eq]; rfl
theorem Reported.engine (e : Engine) : t.engine e = s.engine e := by rw [h.eq]; rfl
theorem Reported.setup : t.setup = s.setup := by rw [h.eq]; rfl
theorem Reported.ring : t.ring = s.ring := by rw [h.eq]; rfl
theorem Reported.pre : t.pre = s.pre := by rw [h.eq]; rfl
theorem Reported.gauge : t.gauge = s.gauge := by rw [h.eq]; rfl
theorem Reported.assignable (e : Engine) : assignable e t = assignable e s := by rw [h.eq]; rfl

end

/-! ### The two attempts -/

/-- The garment at the position of engine B is not the one that engine A attempts, so B finds what it found before. -/
theorem assignable_b_attempt_a {s : State} (h : CarriedOnce s) : assignable .b (attempt .a s) = assignable .b s := by
  have f := attemptFrame .a s
  refine assignable_congr (congrArg Setup.mode f.setup) (slotAt_congr (by rw [f.ring]) (by rw [f.ring]) _)
    (fun i hi => f.trav i fun v hv => ?_) (f.awaiting .b (by decide)) (by rw [State.lapseAt, f.ring]; rfl)
    (by rw [f.engine .b (by decide)])
  have hpos := h.pos_inj hi (assignable_eq_some_iff.mp hv).1
  exact absurd hpos (by decide)

/-- What the arrivals leave of the part, wherever the garments stand. -/
structure ArrivalsBase (s t : State) : Prop where
  leaves : Leaves s t
  setup : t.setup = s.setup
  pre : t.pre = s.pre
  gauge : t.gauge = s.gauge
  ring : t.ring = { s.ring with awaiting := t.ring.awaiting }

theorem arrivalsBase (s : State) : ArrivalsBase s (arrivals s) := by
  have hw := reported_reports s
  have hu := reported_reportUnload (attempt .b (attempt .a (reports s)))
  have ha := attemptFrame .a (reports s)
  have hb := attemptFrame .b (attempt .a (reports s))
  refine ⟨hw.leaves.trans ((leaves_attempt .a _).trans ((leaves_attempt .b _).trans hu.leaves)),
    hu.setup.trans (hb.setup.trans (ha.setup.trans hw.setup)), hu.pre.trans (hb.pre.trans (ha.pre.trans hw.pre)),
    hu.gauge.trans (hb.gauge.trans (ha.gauge.trans hw.gauge)), ?_⟩
  rw [show (arrivals s).ring = _ from hu.ring, hb.ring, ha.ring, hw.ring]

/-- What the arrivals leave of the travellers and the engines, no garment standing twice on the ring. -/
structure ArrivalsFrame (s t : State) : Prop extends ArrivalsBase s t where
  trav : ∀ i : Fin 32, (∀ (e : Engine) (v : Traveller), assignable e s ≠ some (i, v)) → t.trav? i = s.trav? i
  idle : ∀ e : Engine, assignable e s = none → t.engine e = s.engine e ∧ t.awaitingAt e = s.awaitingAt e
  tried : ∀ (e : Engine) (i : Fin 32) (v : Traveller), assignable e s = some (i, v) → Tried s t e i v (s.boundLine v)

theorem arrivalsFrame {s : State} (h : CarriedOnce s) : ArrivalsFrame s (arrivals s) := by
  have hw := reported_reports s
  have hu := reported_reportUnload (attempt .b (attempt .a (reports s)))
  have h' : CarriedOnce (reports s) := carriedOnce_congr (by rw [hw.ring]) h
  have ha := attemptFrame .a (reports s)
  have hb := attemptFrame .b (attempt .a (reports s))
  have hassa : assignable .a (reports s) = assignable .a s := hw.assignable .a
  have hassb : assignable .b (attempt .a (reports s)) = assignable .b s :=
    (assignable_b_attempt_a h').trans (hw.assignable .b)
  have hla := leaves_attempt .a (reports s)
  have hlb := leaves_attempt .b (attempt .a (reports s))
  have hw_await (e : Engine) : (reports s).awaitingAt e = s.awaitingAt e := by simp [State.awaitingAt, hw.ring]
  have hu_await (e : Engine) : (arrivals s).awaitingAt e = (attempt .b (attempt .a (reports s))).awaitingAt e := by
    simp only [State.awaitingAt]
    exact congrArg (fun r : Ring => r.awaiting.get (engineNo e)) hu.ring
  refine ⟨arrivalsBase s, fun i hi => ?_, fun e he => ?_, fun e i v he => ?_⟩
  · have hia := ha.trav i fun v => hassa ▸ hi .a v
    have hib := hb.trav i fun v => hassb ▸ hi .b v
    exact (hu.trav? i).trans (hib.trans (hia.trans (hw.trav? i)))
  · cases e with
    | a =>
      have hidle := attempt_of_none (hassa.trans he)
      refine ⟨(hu.engine .a).trans ((hb.engine .a (by decide)).trans ?_), (hu_await .a).trans ((hb.awaiting .a (by decide)).trans ?_)⟩
      · rw [hidle, hw.engine]
      · rw [hidle, hw_await]
    | b =>
      have hidle := attempt_of_none (hassb.trans he)
      refine ⟨(hu.engine .b).trans ?_, (hu_await .b).trans ?_⟩
      · rw [hidle, ha.engine .b (by decide), hw.engine]
      · rw [hidle, ha.awaiting .b (by decide), hw_await]
  · cases e with
    | a =>
      have ht := tried_attempt (hassa.trans he)
      rw [boundLine_congr hw.leaves.book] at ht
      have hnb : ∀ w, assignable .b (attempt .a (reports s)) ≠ some (i, w) := fun w hc => by
        have hpos := h.pos_inj (assignable_eq_some_iff.mp he).1 (assignable_eq_some_iff.mp (hassb ▸ hc)).1
        exact absurd hpos (by decide)
      exact (ht.later ((hu.trav? i).trans (hb.trav i hnb)) ((hu.engine .a).trans (hb.engine .a (by decide)))
        ((hu_await .a).trans (hb.awaiting .a (by decide))) (hlb.trans hu.leaves)).earlier hw.leaves.constants
        (hw.engine .a) (by rw [hw.ring])
    | b =>
      have ht := tried_attempt (hassb.trans he)
      rw [boundLine_congr (hw.leaves.trans hla).book] at ht
      exact (ht.later (hu.trav? i) (hu.engine .b) (hu_await .b) hu.leaves).earlier
        (hla.constants.trans hw.leaves.constants) ((ha.engine .b (by decide)).trans (hw.engine .b))
        (by rw [ha.ring, hw.ring])

end Sys2Proof.PlatenRing
end

