-- ==== Sys2Proof/Proofs/PlatenRing/Index.lean ====
section
/-! PROOF. The steps of an index (R53 to R57), from the edge of its line to the lap count, for a ring that no pass holds. -/

namespace Sys2Proof.PlatenRing

open Sys2Proof Sys2Proof.Machine

/-! ### The edge of the index line (R135, log entry 6) -/

theorem lineOf_eq_some {s : State} {f : LineFunction} {l : Fin 24} (h : s.lineOf f = some l) :
    (s.lines.get l).function = f := by simpa using List.find?_some h

/-- The part as the index reaches the ring tracker: the line has taken the level of the edge. -/
def indexEdge (l : Fin 24) (s : State) : State := s.setLines (edged l true s)

theorem exec_index {s : State} {l : Fin 24} (h : s.lineOf .indexPulse = some l) :
    exec .index s = .next (commit s (takeIndex (indexEdge l s))) := by
  simp only [exec, execIndex, event, functionEdge, h, deliver]
  rfl

theorem driven_home {s : State} {l : Fin 24} (h : (s.lines.get l).function = .home) : s.driven l = none :=
  driven_input (by rw [h]; rfl)

/-- The home line is an input, so its level is read off the line table alone (R55, R135). -/
theorem homeLevel_congr {s t : State} (hf : ∀ k, (t.lines.get k).function = (s.lines.get k).function)
    (hl : ∀ k, (s.lines.get k).function = .home → t.lines.get k = s.lines.get k) : homeLevel t = homeLevel s := by
  have hof : t.lineOf .home = s.lineOf .home := by simp only [State.lineOf, hf]
  unfold homeLevel
  rw [hof]
  cases hs : s.lineOf .home with
  | none => rfl
  | some l =>
    have hfun := lineOf_eq_some hs
    have hfun' : (t.lines.get l).function = .home := (hf l).trans hfun
    simp only [State.filteredLevel, State.pinLevel, driven_home hfun, driven_home hfun', hl l hfun]

theorem homeLevel_lines {s t : State} (h : t.lines = s.lines) : homeLevel t = homeLevel s :=
  homeLevel_congr (fun _ => by rw [h]) (fun _ _ => by rw [h])

theorem homeLevel_indexEdge {s : State} {l : Fin 24} (h : s.lineOf .indexPulse = some l) :
    homeLevel (indexEdge l s) = homeLevel s := by
  have hl := lineOf_eq_some h
  have hget (k : Fin 24) : (indexEdge l s).lines.get k =
      if k = l then { s.lines.get l with outside := true, filtered := true } else s.lines.get k := Tab.get_set _ _ _ _
  refine homeLevel_congr (fun k => ?_) (fun k hk => ?_)
  · rw [hget]
    split
    · rename_i hkl
      rw [hkl]
    · rfl
  · rw [hget, if_neg]
    rintro rfl
    exact absurd (hl.symm.trans hk) (by decide)

/-! ### Rotation (R54) -/

theorem slotAt_of_load {s t : State} (hl : t.ring.load = s.ring.load + 1) (hc : t.ring.carried = s.ring.carried)
    (k : Fin 12) : t.slotAt k = s.slotAt (k - 1) := by
  have : s.ring.load + 1 - k = s.ring.load - (k - 1) := by omega
  simp [State.slotAt, platenAt, hl, hc, this]

/-- R54, before a garment leaves LOADED: the map has rotated. -/
def rotated (s : State) : State :=
  s.setRing { s.ring with load := s.ring.load + 1, lapse := .fill none }

theorem slotAt_rotated (s : State) (k : Fin 12) : (rotated s).slotAt k = s.slotAt (k - 1) :=
  slotAt_of_load (s := s) (t := rotated s) rfl rfl k

theorem rotate_of_none {s : State} (h : s.slotAt 0 = none) : rotate s = rotated s := by
  have h1 : (rotated s).slotAt 1 = none := (slotAt_rotated s 1).trans h
  change (match (rotated s).slotAt 1 with | some i => modTrav i leaveLoaded (rotated s) | none => rotated s) = _
  rw [h1]

theorem rotate_of_some {s : State} {i : Fin 32} (h : s.slotAt 0 = some i) :
    rotate s = modTrav i leaveLoaded (rotated s) := by
  have h1 : (rotated s).slotAt 1 = some i := (slotAt_rotated s 1).trans h
  change (match (rotated s).slotAt 1 with | some i => modTrav i leaveLoaded (rotated s) | none => rotated s) = _
  rw [h1]

@[simp] theorem ident_leaveLoaded (v : Traveller) : ident (leaveLoaded v) = ident v := by
  unfold leaveLoaded
  split <;> rfl

/-- What the rotation leaves, and the garment that leaves LOADED. -/
structure RotateFrame (s t : State) : Prop where
  leaves : Leaves s t
  setup : t.setup = s.setup
  pre : t.pre = s.pre
  gauge : t.gauge = s.gauge
  engines : t.engines = s.engines
  ring : t.ring = { s.ring with load := s.ring.load + 1, lapse := .fill none }
  trav : ∀ i : Fin 32, t.trav? i = if s.slotAt 0 = some i then (s.trav? i).map leaveLoaded else s.trav? i

theorem rotateFrame (s : State) : RotateFrame s (rotate s) := by
  have hl : Leaves s (rotated s) := leaves_setRing s rfl rfl
  cases h : s.slotAt 0 with
  | none =>
    rw [rotate_of_none h]
    exact ⟨hl, rfl, rfl, rfl, rfl, rfl, fun i => by simp [h, rotated, State.trav?]⟩
  | some j =>
    rw [rotate_of_some h]
    refine ⟨hl.trans (leaves_modTrav _ j ident_leaveLoaded), by simp [rotated], by simp [rotated], by simp [rotated],
      by simp [rotated], by simp [rotated], fun i => ?_⟩
    rw [trav?_modTrav, h]
    by_cases hij : i = j
    · subst hij
      simp [rotated, State.trav?]
    · simp [hij, Ne.symm hij, rotated, State.trav?]

/-! ### The home check (R55) -/

theorem stopPass_of_none {s : State} (h : s.passInFlight = false) : stopPass s = s := by
  obtain ⟨h1, h2⟩ := passInFlight_eq_false_iff.mp h
  simp [stopPass, h1, h2]

/-- R55, for a ring that no pass holds: what the home check leaves, and the mode it ends in. -/
structure HomeFrame (s t : State) : Prop where
  leaves : Leaves s t
  pre : t.pre = s.pre
  gauge : t.gauge = s.gauge
  table : t.table = s.table
  engines : t.engines = s.engines
  ring : t.ring = { s.ring with synced := t.ring.synced }
  agreed : homeAgrees s = true → t = s
  slipped : homeAgrees s = false → (s.mode = .run ∨ s.mode = .hold) → t.mode = .hold ∧ t.ring.synced = false ∧
    (∀ p : Port, isPending t p .ringSlip) ∧ (s.mode = .run → ∀ p : Port, isPending t p .holdEntered)

theorem mem_allPorts (p : Port) : p ∈ allPorts := by cases p <;> decide

theorem isPending_raiseOn_all {x : Source} (s : State) (h : ∀ p, (sourceNo p x).isSome = true) (p : Port) :
    isPending (raiseOn allPorts x s) p x := isPending_raiseOn s (mem_allPorts p) (h p)

theorem homeFrame {s : State} (h : s.passInFlight = false) : HomeFrame s (homeCheck s) := by
  unfold homeCheck
  by_cases ha : homeAgrees s = true
  · rw [if_pos ha]
    exact ⟨Leaves.refl s, rfl, rfl, rfl, rfl, rfl, fun _ => rfl, fun hn => absurd hn (by simp [ha])⟩
  · rw [if_neg ha]
    obtain ⟨w, hw⟩ : ∃ w, w = raiseOn allPorts .ringSlip (s.setRing { s.ring with synced := false }) := ⟨_, rfl⟩
    have hlw : Leaves s w := hw ▸ (leaves_setRing s (by rfl) (by rfl)).trans (leaves_raiseOn _ _ _)
    have hpend (p : Port) : isPending w p .ringSlip := hw ▸ isPending_raiseOn_all _ (fun p => by cases p <;> decide) p
    have hmode : w.mode = s.mode := by rw [hw, State.mode, raiseOn_setup]; rfl
    have hslip : ringSlip s = if w.mode = .run then enterHold w else w := by rw [hw]; rfl
    rw [hslip, hmode]
    by_cases hm : s.mode = .run
    · have hpass : w.passInFlight = false := by
        rw [passInFlight_eq_false_iff] at h ⊢
        simpa [hw] using h
      have hlm := (leaves_setMode w .hold).trans (leaves_raiseOn _ allPorts .holdEntered)
      rw [if_pos hm, enterHold, stopPass_of_none hpass]
      refine ⟨hlw.trans hlm, by simp [hw], by simp [hw], by simp [hw], by simp [hw], by simp [hw],
        fun hc => absurd hc ha, fun _ _ => ⟨?_, by simp [hw], fun p => hlm.isPending (hpend p),
          fun _ p => isPending_raiseOn_all _ (fun p => by cases p <;> decide) p⟩⟩
      rw [State.mode, raiseOn_setup]
      rfl
    · rw [if_neg hm]
      exact ⟨hlw, by simp [hw], by simp [hw], by simp [hw], by simp [hw], by simp [hw], fun hc => absurd hc ha,
        fun _ hm' => ⟨hmode.trans (hm'.resolve_left hm), by simp [hw], hpend, fun hr => absurd hr hm⟩⟩

/-! ### The lap (R57) -/

theorem ident_lapped (n : Nat) (v : Traveller) : ident (lapped n v) = ident v := by
  unfold lapped
  split
  · dsimp only
    split
    · exact ident_addFault _ _
    · rfl
  · rfl

theorem countLap_trav? (s : State) (i : Fin 32) :
    (countLap s).trav? i = if s.slotAt 11 = some i then (s.trav? i).map (lapped s.constants.lapLimit) else s.trav? i := by
  unfold countLap
  cases h : s.slotAt 11 with
  | none => simp
  | some j =>
    dsimp only
    rw [trav?_modTrav]
    by_cases hij : i = j
    · simp [hij]
    · simp [hij, Ne.symm hij]

theorem leaves_countLap (s : State) : Leaves s (countLap s) := by
  unfold countLap
  split
  · exact leaves_modTrav s _ (ident_lapped _)
  · exact Leaves.refl s

section
variable (s : State)

@[simp] theorem countLap_ring : (countLap s).ring = s.ring := by unfold countLap; split <;> simp
@[simp] theorem countLap_engines : (countLap s).engines = s.engines := by unfold countLap; split <;> simp
@[simp] theorem countLap_pre : (countLap s).pre = s.pre := by unfold countLap; split <;> simp
@[simp] theorem countLap_gauge : (countLap s).gauge = s.gauge := by unfold countLap; split <;> simp
@[simp] theorem countLap_setup : (countLap s).setup = s.setup := by unfold countLap; split <;> simp

end

/-! ### The index as a whole -/

/-- An index once its claims are settled: rotation, home check, arrivals, lap. -/
def indexSteps (s : State) : State := countLap (arrivals (homeCheck (rotate s)))

theorem takeIndex_eq {s : State} (h : s.mode ≠ .config) :
    takeIndex s = indexSteps (if s.permit then s else forcedHandling s) := if_neg h

/-- R54, R57: a garment after an index that does not bring it to an engine. -/
def moved (s : State) (i : Fin 32) (v : Traveller) : Traveller :=
  if s.slotAt 0 = some i then leaveLoaded v
  else if s.slotAt 10 = some i then lapped s.constants.lapLimit v else v

/-- R55: the home line shows what the map will show after the index. -/
def homeFits (s : State) : Prop := homeLevel s = decide (s.ring.load + 1 = 0)

/-- R56, R100: the index brings garment `v` of slot `i` to the position of engine `e`, which attempts to assign it. -/
def ArrivesAt (e : Engine) (s : State) (i : Fin 32) (v : Traveller) : Prop :=
  s.mode = .run ∧ homeFits s ∧ s.slotAt (enginePos e - 1) = some i ∧ s.trav? i = some v ∧ v.stage = .readyToPrint ∧
    s.awaitingAt e = none ∧ (s.engine e).state = .ready

/-- What an index does to the blocks from `s` on, no pass being in flight. -/
structure IndexBase (s t : State) : Prop where
  leaves : Leaves s t
  pre : t.pre = s.pre
  gauge : t.gauge = s.gauge
  ring : t.ring = { s.ring with
    load := s.ring.load + 1, lapse := .fill none, synced := t.ring.synced, awaiting := t.ring.awaiting }
  fits : homeFits s → t.setup = s.setup ∧ t.ring.synced = s.ring.synced
  slipped : ¬ homeFits s → (s.mode = .run ∨ s.mode = .hold) → t.mode = .hold ∧ t.ring.synced = false ∧
    (∀ p : Port, isPending t p .ringSlip) ∧ (s.mode = .run → ∀ p : Port, isPending t p .holdEntered)

/-- What it does to the travellers and the engines, no garment standing twice on the ring. -/
structure IndexFrame (s t : State) : Prop extends IndexBase s t where
  trav : ∀ i : Fin 32, (∀ (e : Engine) (v : Traveller), ¬ ArrivesAt e s i v) → t.trav? i = (s.trav? i).map (moved s i)
  idle : ∀ e : Engine, (∀ (i : Fin 32) (v : Traveller), ¬ ArrivesAt e s i v) →
    t.engine e = s.engine e ∧ t.awaitingAt e = s.awaitingAt e
  tried : ∀ (e : Engine) (i : Fin 32) (v : Traveller), ArrivesAt e s i v → Tried (rotated s) t e i v (s.boundLine v)

theorem homeAgrees_rotate_iff (s : State) : homeAgrees (rotate s) = true ↔ homeFits s := by
  have r := rotateFrame s
  simp [homeAgrees, homeFits, homeLevel_lines r.leaves.lines, r.ring]

theorem rotate_passInFlight {s : State} (h : s.passInFlight = false) : (rotate s).passInFlight = false := by
  rw [passInFlight_eq_false_iff] at h ⊢
  rwa [(rotateFrame s).pre, (rotateFrame s).gauge]

/-- What the position of an engine brings: the garment one position behind it, which is not the one leaving LOADED. -/
theorem assignable_homeCheck_rotate {s : State} (hp : s.passInFlight = false) (hc : CarriedOnce s)
    (hm : s.mode = .run ∨ s.mode = .hold) {e : Engine} {i : Fin 32} {v : Traveller} :
    assignable e (homeCheck (rotate s)) = some (i, v) ↔ ArrivesAt e s i v := by
  have r := rotateFrame s
  have h := homeFrame (rotate_passInFlight hp)
  have hmode : (homeCheck (rotate s)).mode = .run ↔ s.mode = .run ∧ homeFits s := by
    have hmr : (rotate s).mode = s.mode := congrArg Setup.mode r.setup
    by_cases hf : homeAgrees (rotate s) = true
    · rw [h.agreed hf, hmr, and_iff_left ((homeAgrees_rotate_iff s).mp hf)]
    · have hslip := (h.slipped (by simpa using hf) (hmr ▸ hm)).1
      simp [hslip, mt (homeAgrees_rotate_iff s).mpr hf]
  have hslot : (homeCheck (rotate s)).slotAt (enginePos e) = s.slotAt (enginePos e - 1) :=
    slotAt_of_load (by rw [h.ring, r.ring]) (by rw [h.ring, r.ring]) _
  have htrav (hi : s.slotAt (enginePos e - 1) = some i) : (homeCheck (rotate s)).trav? i = s.trav? i := by
    rw [trav?_congr h.table, r.trav, if_neg]
    intro h0
    have hpos := hc.pos_inj hi h0
    exact absurd hpos (by cases e <;> decide)
  have hawait : (homeCheck (rotate s)).awaitingAt e = s.awaitingAt e := by
    rw [State.awaitingAt, h.ring, r.ring]
    rfl
  have hlapse : (homeCheck (rotate s)).lapseAt e = none := by
    rw [State.lapseAt, h.ring, r.ring]
    exact Tab.get_fill _ _
  have hengine : (homeCheck (rotate s)).engine e = s.engine e := by
    rw [State.engine, h.engines, r.engines]
    rfl
  rw [assignable_eq_some_iff, hslot, hmode, hawait, hlapse, hengine, ArrivesAt]
  constructor
  · rintro ⟨hi, hv, ⟨hrun, hfit⟩, hst, ha, -, he⟩
    exact ⟨hrun, hfit, hi, htrav hi ▸ hv, hst, ha, he⟩
  · rintro ⟨hrun, hfit, hi, hv, hst, ha, he⟩
    exact ⟨hi, (htrav hi).trans hv, ⟨hrun, hfit⟩, hst, ha, rfl, he⟩

theorem indexBase {s : State} (hp : s.passInFlight = false) : IndexBase s (indexSteps s) := by
  have r := rotateFrame s
  have h := homeFrame (rotate_passInFlight hp)
  have hmr : (rotate s).mode = s.mode := congrArg Setup.mode r.setup
  have a := arrivalsBase (homeCheck (rotate s))
  have hlap := leaves_countLap (arrivals (homeCheck (rotate s)))
  have hring : (indexSteps s).ring = (arrivals (homeCheck (rotate s))).ring := countLap_ring _
  have hsetup : (indexSteps s).setup = (homeCheck (rotate s)).setup := (countLap_setup _).trans a.setup
  refine ⟨r.leaves.trans (h.leaves.trans (a.leaves.trans hlap)), ?_, ?_, ?_, fun hf => ?_, fun hf hm => ?_⟩
  · rw [indexSteps, countLap_pre, a.pre, h.pre, r.pre]
  · rw [indexSteps, countLap_gauge, a.gauge, h.gauge, r.gauge]
  · rw [hring, a.ring, h.ring, r.ring]
  · have hagree := h.agreed ((homeAgrees_rotate_iff s).mpr hf)
    refine ⟨by rw [hsetup, hagree, r.setup], ?_⟩
    rw [hring, a.ring, hagree, r.ring]
  · obtain ⟨hmode, hsync, hslip, hheld⟩ :=
      h.slipped (Bool.eq_false_iff.mpr (mt (homeAgrees_rotate_iff s).mp hf)) (hmr ▸ hm)
    have hlast := a.leaves.trans hlap
    refine ⟨(congrArg Setup.mode hsetup).trans hmode, ?_, fun p => hlast.isPending (hslip p),
      fun hrun p => hlast.isPending (hheld (hmr.trans hrun) p)⟩
    rw [hring, a.ring]
    exact hsync

theorem indexFrame {s : State} (hp : s.passInFlight = false) (hc : CarriedOnce s)
    (hm : s.mode = .run ∨ s.mode = .hold) : IndexFrame s (indexSteps s) := by
  have r := rotateFrame s
  have h := homeFrame (rotate_passInFlight hp)
  have a := arrivalsFrame (s := homeCheck (rotate s)) (carriedOnce_congr (by rw [h.ring, r.ring]) hc)
  have hassign {e : Engine} {i : Fin 32} {v : Traveller} := assignable_homeCheck_rotate hp hc hm (e := e) (i := i) (v := v)
  have hlap := leaves_countLap (arrivals (homeCheck (rotate s)))
  have hleaves := r.leaves.trans (h.leaves.trans a.leaves)
  have hslot (k : Fin 12) : (arrivals (homeCheck (rotate s))).slotAt k = s.slotAt (k - 1) :=
    slotAt_of_load (by rw [a.ring, h.ring, r.ring]) (by rw [a.ring, h.ring, r.ring]) k
  have hengine (e : Engine) : (indexSteps s).engine e = (arrivals (homeCheck (rotate s))).engine e := by
    rw [State.engine, indexSteps, countLap_engines]
    rfl
  have hawait (e : Engine) : (indexSteps s).awaitingAt e = (arrivals (homeCheck (rotate s))).awaitingAt e := by
    rw [State.awaitingAt, indexSteps, countLap_ring]
    rfl
  refine ⟨indexBase hp, fun i hi => ?_, fun e he => ?_, fun e i v hi => ?_⟩
  · have harr : (arrivals (homeCheck (rotate s))).trav? i =
        if s.slotAt 0 = some i then (s.trav? i).map leaveLoaded else s.trav? i := by
      rw [a.trav i fun e v he => hi e v (hassign.mp he), trav?_congr h.table, r.trav]
    rw [indexSteps, countLap_trav?, hslot, hleaves.constants, harr, show (11 : Fin 12) - 1 = 10 by decide]
    by_cases h0 : s.slotAt 0 = some i
    · have h10 : s.slotAt 10 ≠ some i := fun h10 => absurd (hc.pos_inj h0 h10) (by decide)
      rw [if_pos h0, if_neg h10, show moved s i = leaveLoaded from funext fun v => if_pos h0]
    · rw [if_neg h0]
      have hmoved : moved s i = fun v => if s.slotAt 10 = some i then lapped s.constants.lapLimit v else v :=
        funext fun v => if_neg h0
      rw [hmoved]
      by_cases h10 : s.slotAt 10 = some i <;> simp [h10]
  · have hnone : assignable e (homeCheck (rotate s)) = none :=
      Option.eq_none_iff_forall_ne_some.mpr fun x hx => he x.1 x.2 (hassign.mp hx)
    obtain ⟨he', ha'⟩ := a.idle e hnone
    refine ⟨(hengine e).trans (he'.trans ?_), (hawait e).trans (ha'.trans ?_)⟩
    · rw [State.engine, h.engines, r.engines]
      rfl
    · rw [State.awaitingAt, h.ring, r.ring]
      rfl
  · have ht := a.tried e i v (hassign.mpr hi)
    rw [boundLine_congr (r.leaves.trans h.leaves).book] at ht
    have hnotlast : (arrivals (homeCheck (rotate s))).slotAt 11 ≠ some i := fun h11 => by
      have hpos := hc.pos_inj hi.2.2.1 ((hslot 11).symm.trans h11)
      exact absurd hpos (by cases e <;> decide)
    refine (ht.later ?_ (hengine e) (hawait e) hlap).earlier ?_ ?_ ?_
    · rw [indexSteps, countLap_trav?, if_neg hnotlast]
    · exact (r.leaves.trans h.leaves).constants
    · rw [State.engine, h.engines, r.engines]
      rfl
    · rw [h.ring, r.ring]
      rfl

end Sys2Proof.PlatenRing
end

