-- ==== Sys2Proof/Proofs/PlatenRing/Assignment.lean ====
section
/-! PROOF. An assignment attempt by command and on arrival (O43). -/

namespace Sys2Proof.PlatenRing

open Sys2Proof Sys2Proof.Machine

/-! ### Ink amounts in a payload (R163) -/

theorem u32At_ofNat {n : Nat} (h : n < 4294967296) (l l' : List Byte) :
    u32At (l ++ (bytes32 n ++ l')) l.length = n := by
  simp only [u32At, u24At, u16At, byteAt, bytes32, bytes24, bytes16, List.cons_append, List.nil_append, List.getD_eq_getElem?_getD]
  simp
  omega

theorem inksAt_flatMap {a : Inks} (h : ∀ y ∈ a.toList, y ≤ 2000000) : inksAt (a.toList.flatMap bytes32) 0 = a := by
  obtain ⟨w, c, m, y, k⟩ := a
  simp only [Inks.toList, List.mem_cons, List.not_mem_nil, or_false, forall_eq_or_imp, forall_eq] at h
  obtain ⟨hw, hc, hm, hy, hk⟩ := h
  have hw' := u32At_ofNat (n := w) (by omega) [] (bytes32 c ++ bytes32 m ++ bytes32 y ++ bytes32 k)
  have hc' := u32At_ofNat (n := c) (by omega) (bytes32 w) (bytes32 m ++ bytes32 y ++ bytes32 k)
  have hm' := u32At_ofNat (n := m) (by omega) (bytes32 w ++ bytes32 c) (bytes32 y ++ bytes32 k)
  have hy' := u32At_ofNat (n := y) (by omega) (bytes32 w ++ bytes32 c ++ bytes32 m) (bytes32 k)
  have hk' := u32At_ofNat (n := k) (by omega) (bytes32 w ++ bytes32 c ++ bytes32 m ++ bytes32 y) []
  rw [inksAt, Inks.mk.injEq]
  exact ⟨hw', hc', hm', hy', hk'⟩

/-! ### What the commands attempt -/

/-- Engine `e` has the record `x`. -/
def withEngine (e : Engine) (x : EngineRec) (s : State) : State := s.setEngines (s.engines.set (engineNo e) x)

theorem engine_withEngine (e : Engine) (x : EngineRec) (s : State) : (withEngine e x s).engine e = x := by
  simp [withEngine, State.engine]

theorem modEngine_eq_withEngine (e : Engine) (f : EngineRec → EngineRec) (s : State) :
    modEngine e f s = withEngine e (f (s.engine e)) s := rfl

theorem cleanDoneBody_of {e : Engine} {s : State} (h : (s.engine e).state = .cleaning) :
    cleanDoneBody e s = .accept (attempt e (withEngine e { s.engine e with state := .ready, prints := 0 } s)) [] := by
  rw [cleanDoneBody, refuseIf_neg (by simp [h])]
  rfl

theorem engineOnlineBody_of {e : Engine} {s : State} (h : (s.engine e).state = .offline ∨ (s.engine e).state = .fault)
    (hp : (s.engine e).prints < s.constants.cleanInterval) :
    engineOnlineBody e s = .accept (attempt e (withEngine e { s.engine e with state := .ready } s)) [] := by
  have hs : serviceState s.constants (s.engine e).prints = .ready := if_pos hp
  have hr : returnToService e id s = withEngine e { s.engine e with state := .ready } s := by
    rw [returnToService_eq, serviceNotices, id, if_pos hp, modEngine_eq_withEngine, served, id, hs]
    rfl
  rw [engineOnlineBody, hr, refuseIf_neg (by simpa [imp_iff_not_or] using h)]

theorem inkReportBody_of {l : List Byte} {a : Inks} {e : Engine} {s : State} (hl : inksAt l 0 = a)
    (ha : ∀ y ∈ a.toList, y ≤ 2000000) (hr : (s.engine e).reserved = .zero) :
    inkReportBody l e s = .accept (attempt e (withEngine e { s.engine e with level := a } s)) [] := by
  have hb : belowReserved { s.engine e with level := a } = false := by
    simp [belowReserved, hr, Inks.all, Inks.zero]
  have hi : inkReported e a s = withEngine e { s.engine e with level := a } s := by
    rw [inkReported, modEngine_eq_withEngine, engine_withEngine, hb]
    rfl
  rw [inkReportBody, hl, hi, refuseIf_neg]
  simp only [List.any_eq_true, decide_eq_true_eq, not_exists, not_and, not_lt]
  exact ha

/-! ### The outcome of an attempt by command -/

section
variable {e : Engine} {i : Fin 32} {v : Traveller} {l : LineItem} {x : EngineRec} {s : State} {code : Byte} {n : Nat}

/-- R101: the assignment at the end of the command. -/
theorem assign_outcome (hv : s.trav? i = some v) (hrev : x.rev = (s.engine e).rev) (est : Inks) {u t : State}
    (hu : u = endFrame (enginePort e) n false s)
    (ht : t = respond (enginePort e) code .ok [] (commit u (assign e i v est (withEngine e x u)))) :
    Keeps [.engines, .ring, .table, .notices, .ports] s t ∧
    t.engines = enginesAfter e
      { x with state := .assigned, current := some i, reserved := Inks.zip (· + ·) x.reserved est } s ∧
    t.table = tableAfter i (some { v with stage := .assigned, print := some ⟨e, est, none, .pending⟩ }) s ∧
    t.ring = { s.ring with
      awaiting := s.ring.awaiting.set (engineNo e) (some ⟨i, platenAt s.ring (enginePos e), s.constants.claimWindow⟩),
      revs := t.ring.revs } ∧
    t.notices = raisedIn [(enginePort e, .assigned)] s.notices ∧ t.permit = false := by
  obtain ⟨w, hw⟩ : ∃ w, w = assign e i v est (withEngine e x u) := ⟨_, rfl⟩
  rw [← hw] at ht
  have htable : w.table = (putTrav i (some { v with stage := .assigned, print := some ⟨e, est, none, .pending⟩ }) u).table := by
    rw [hw, assign_table]
    exact putTrav_table_congr rfl i _
  have hengines : w.engines = u.engines.set (engineNo e)
      { x with state := .assigned, current := some i, reserved := Inks.zip (· + ·) x.reserved est } := by
    rw [hw, assign_engines, engine_withEngine]
    simp [withEngine]
  have hring : w.ring = { s.ring with
      awaiting := s.ring.awaiting.set (engineNo e)
        (some ⟨i, platenAt s.ring (enginePos e), s.constants.claimWindow⟩) } := by
    rw [hw, assign_ring, hu]
    rfl
  have hkeeps : Keeps [.engines, .ring, .table, .notices, .ports] u w := by
    rw [hw]
    refine ⟨by simp [assign, withEngine], by simp [assign, withEngine], fun b hb => ?_⟩
    cases b <;> simp [Block.same, assign, withEngine] at hb ⊢
  have hvu : u.trav? i = some v := by rw [hu]; exact hv
  have hpermit : w.permit = false := by
    rw [hw]
    exact permit_false_of_awaiting ((assign_awaitingAt e i v est _ e).trans (if_pos rfl))
  subst ht
  refine ⟨?_, ?_, ?_, ?_, ?_, hpermit⟩
  · have hser : SerialsKept u w := serialsKept_of_put hvu (by rfl) htable
    subst hu
    exact keeps_taken (by simp) hkeeps hser
  · rw [respond_engines, commit_engines_put (by rw [hu]; exact hrev) hengines, hu]
    rfl
  · rw [respond_table, commit_table_put htable, hu]
    rfl
  · rw [respond_ring, commit_ring, hring]
  · rw [respond_notices, commit_notices, hw, hu]
    simp [assign, withEngine]

/-- R100: an attempt that finds too little ink, at the end of the command. -/
theorem short_outcome (hrev : x.rev = (s.engine e).rev) {u t : State} (hu : u = endFrame (enginePort e) n false s)
    (ht : t = respond (enginePort e) code .ok [] (commit u (raiseInkShort e (withEngine e x u)))) :
    Keeps [.engines, .notices, .ports] s t ∧ t.engines = enginesAfter e x s ∧
    t.notices = raisedIn [(enginePort e, .inkShort), (.gateway, gatewayInkShort e)] s.notices := by
  obtain ⟨w, hw⟩ : ∃ w, w = raiseInkShort e (withEngine e x u) := ⟨_, rfl⟩
  rw [← hw] at ht
  rw [raiseInkShort_eq] at hw
  have hkeeps : Keeps [.engines, .notices, .ports] u w := by
    rw [hw]
    refine ⟨by simp [withEngine], by simp [withEngine], fun b hb => ?_⟩
    cases b <;> simp [Block.same, withEngine] at hb ⊢
  have htable : w.table = u.table := by simp [hw, withEngine]
  have hengines : w.engines = u.engines.set (engineNo e) x := by simp [hw, withEngine]
  subst ht
  refine ⟨?_, ?_, ?_⟩
  · subst hu
    exact keeps_taken (by simp) hkeeps (serialsKept_of_table htable)
  · rw [respond_engines, commit_engines_put (by rw [hu]; exact hrev) hengines, hu]
    rfl
  · rw [respond_notices, commit_notices, hw, hu]
    simp [withEngine]

/-- R99: the two outcomes of an attempt, as the ink decides. -/
theorem attempt_withEngine (hv : s.travAt (enginePos e) = some (i, v)) (hm : s.mode = .run) (hst : v.stage = .readyToPrint)
    (ha : s.awaitingAt e = none) (hl : s.lapseAt e = none) (hx : x.state = .ready) (hline : s.line? v.slot v.line = some l) :
    (inkSuffices x (estimateOfLine s.constants l) →
      attempt e (withEngine e x s) = assign e i v (estimateOfLine s.constants l) (withEngine e x s)) ∧
    (¬ inkSuffices x (estimateOfLine s.constants l) →
      attempt e (withEngine e x s) = raiseInkShort e (withEngine e x s)) := by
  obtain ⟨hslot, htrav⟩ := travAt_eq_some_iff.mp hv
  have hx' := engine_withEngine e x s
  have hassign : assignable e (withEngine e x s) = some (i, v) :=
    assignable_eq_some_iff.mpr ⟨hslot, htrav, hm, hst, ha, hl, by rw [hx']; exact hx⟩
  have hbound : (withEngine e x s).boundLine v = l := boundLine_of hline
  refine ⟨fun hc => ?_, fun hc => attempt_of_short hassign (by rw [hx', hbound]; exact hc)⟩
  have hcov := attempt_of_covered hassign (by rw [hx', hbound]; exact hc)
  rwa [hbound] at hcov

end

theorem mem_enginePorts (e : Engine) : enginePort e ∈ enginePorts := by cases e <;> decide

theorem onEngine_enginePort (e : Engine) (k : Engine → State → Answer) (s : State) :
    onEngine (enginePort e) k s = k e s := by cases e <;> rfl

/-- R108, R110, R111: the three commands come to an attempt with the engine's record changed. -/
theorem attempting_command {e : Engine} {c : Instr} {x : EngineRec} {s : State} (hm : s.mode = .run)
    (h : (c = .cleanDone (enginePort e) [] ∧ (s.engine e).state = .cleaning ∧
          x = { s.engine e with state := .ready, prints := 0 }) ∨
        (c = .engineOnline (enginePort e) [] ∧ ((s.engine e).state = .offline ∨ (s.engine e).state = .fault) ∧
          (s.engine e).prints < s.constants.cleanInterval ∧ x = { s.engine e with state := .ready }) ∨
        ∃ a : Inks, c = .inkReport (enginePort e) (a.toList.flatMap bytes32) ∧ (s.engine e).state = .ready ∧
          (∀ y ∈ a.toList, y ≤ 2000000) ∧ (s.engine e).reserved = .zero ∧ x = { s.engine e with level := a }) :
    x.state = .ready ∧ x.rev = (s.engine e).rev ∧ ∃ (code : Byte) (n : Nat),
      exec c s = .next (respond (enginePort e) code .ok []
        (commit (endFrame (enginePort e) n false s)
          (attempt e (withEngine e x (endFrame (enginePort e) n false s))))) := by
  have hmode : s.mode ∈ runHold := mem_runHold (.inl hm)
  obtain ⟨rfl, hst, rfl⟩ | ⟨rfl, hst, hp, rfl⟩ | ⟨a, rfl, hst, ha, hr, rfl⟩ := h
  · exact ⟨rfl, rfl, _, _, congrArg Host.Outcome.next (command_taken (mem_enginePorts e) hmode rfl
      ((onEngine_enginePort e _ _).trans (cleanDoneBody_of hst)))⟩
  · exact ⟨rfl, rfl, _, _, congrArg Host.Outcome.next (command_taken (mem_enginePorts e) hmode rfl
      ((onEngine_enginePort e _ _).trans (engineOnlineBody_of hst hp)))⟩
  · have hlen : decide ((a.toList.flatMap bytes32).length = 20) = true := rfl
    exact ⟨hst, rfl, _, _, congrArg Host.Outcome.next (command_taken (mem_enginePorts e) hmode hlen
      ((onEngine_enginePort e _ _).trans (inkReportBody_of (inksAt_flatMap ha) ha hr)))⟩

theorem keeps_indexEdge {changed : List Block} (h : Block.lines ∈ changed) (l : Fin 24) (s : State) :
    Keeps changed s (indexEdge l s) :=
  ⟨rfl, rfl, fun b hb => by cases b <;> first | exact absurd h hb | rfl⟩

/-- Settles O43: the commands by their outcomes, the index by the attempt that its arrivals make. -/
theorem assignmentAttempted : Obligations.AssignmentAttempted := by
  refine ⟨fun e i v l est c x s hm hc hv hst ha hl hline hest => ?_,
    fun e i v x l s hp hof hcar hfit hv hst he hline => ?_⟩
  · obtain ⟨hx, hrev, code, n, hexec⟩ := attempting_command hm hc
    obtain ⟨u, hu⟩ : ∃ u, u = endFrame (enginePort e) n false s := ⟨_, rfl⟩
    have htwo := attempt_withEngine (s := u) (x := x) (e := e) (by rw [hu]; exact hv) (by rw [hu]; exact hm) hst
      (by rw [hu]; exact ha) (by rw [hu]; exact hl) hx (by rw [hu]; exact hline)
    have hcons : u.constants = s.constants := by rw [hu]; rfl
    have hest' : estimateOfLine s.constants l = est := hest.symm
    obtain ⟨-, htrav⟩ := travAt_eq_some_iff.mp hv
    rw [hcons, hest'] at htwo
    refine ⟨_, hexec, congrArg Holder.status (holder_taken _ _ _ _ _), ?_⟩
    rw [← hu]
    split
    · rename_i hink
      exact assign_outcome htrav hrev est hu (by rw [htwo.1 hink])
    · rename_i hink
      have hout := short_outcome (e := e) (x := x) (s := s) (code := code) hrev hu rfl
      rw [htwo.2 hink]
      cases e <;> exact hout
  · obtain ⟨hrun, -, hnone, hpre, hgauge⟩ := permit_iff.mp hp
    obtain ⟨hslot, htrav⟩ := travAt_eq_some_iff.mp hv
    have f : IndexFrame (indexEdge l s) (indexSteps (indexEdge l s)) :=
      indexFrame (passInFlight_eq_false_iff.mpr ⟨hpre, hgauge⟩) (carriedOnce_of_consistent hcar) (.inl hrun)
    have hfits : homeFits (indexEdge l s) := (homeLevel_indexEdge hof).trans hfit
    have htake : takeIndex (indexEdge l s) = indexSteps (indexEdge l s) :=
      (takeIndex_eq (by rw [show (indexEdge l s).mode = .run from hrun]; decide)).trans
        (congrArg indexSteps (if_pos hp))
    have harr : ArrivesAt e (indexEdge l s) i v := ⟨hrun, hfits, hslot, htrav, hst, hnone e, he⟩
    have htried := f.tried e i v harr
    rw [boundLine_of (show (indexEdge l s).line? v.slot v.line = some x from hline)] at htried
    obtain ⟨hsetup, hsync⟩ := f.fits hfits
    have hkeeps : Keeps [.lines, .ring, .table, .engines, .notices] s (indexSteps (indexEdge l s)) :=
      keeps_trans (keeps_indexEdge (by simp) l s) (f.leaves.keeps (by simp [Block.same, f.pre, f.gauge, hsetup]))
    have hq : platenAt (rotated (indexEdge l s)).ring (enginePos e) = platenAt s.ring (enginePos e - 1) := by
      change s.ring.load + 1 - enginePos e = s.ring.load - (enginePos e - 1)
      omega
    have hattempted := attempted_of_tried htried f.leaves rfl hq
    refine ⟨_, exec_index hof, ?_⟩
    rw [htake]
    refine ⟨keeps_commit hkeeps f.leaves.serialsKept, ?_, ?_, hattempted⟩
    · rw [commit_ring, f.ring]
      rfl
    · rw [commit_ring, f.ring]
      rfl

end Sys2Proof.PlatenRing
end

