-- ==== Sys2Proof/Proofs/PlatenRing/Forced.lean ====
section
/-! PROOF. The handling of a forced index and of a re-alignment (R58, R59, R73, R90, R107): what it does to each traveller,
to each engine, and to the pass in flight. -/

namespace Sys2Proof.PlatenRing

open Sys2Proof Sys2Proof.Machine

/-! ### Operations on one traveller, in sequence -/

/-- An operation on each slot of a list without repetition that maps the traveller in that slot and no other. -/
theorem foldl_trav? {op : State → Fin 32 → State} {f : Traveller → Traveller}
    (hop : ∀ (s : State) (j i : Fin 32), (op s j).trav? i = if i = j then (s.trav? i).map f else s.trav? i)
    {l : List (Fin 32)} (hl : l.Nodup) (s : State) (i : Fin 32) :
    (l.foldl op s).trav? i = if i ∈ l then (s.trav? i).map f else s.trav? i := by
  induction l generalizing s with
  | nil => simp
  | cons j l ih =>
    obtain ⟨hj, hl⟩ := List.nodup_cons.mp hl
    rw [List.foldl_cons, ih hl, hop]
    by_cases hij : i = j
    · subst hij
      simp [hj]
    · simp [hij]

/-! ### The pass in flight is stopped (R73, R90) -/

/-- R73, R90: traveller `v` of slot `i` once the pass in flight is stopped. -/
def cutShort (s : State) (i : Fin 32) (v : Traveller) : Traveller :=
  if s.pre.pass.map (·.trav) = some i then
    addFault .gaugeAborted
      { v with pretreat := v.pretreat.map fun r => { r with delivered := r.delivered + s.pre.strokes } }
  else if s.gauge.pass.map (·.trav) = some i then addFault .gaugeAborted v
  else v

/-- What stopping the pass in flight does, there being one at most. -/
structure StopFrame (s t : State) : Prop where
  leaves : Leaves s t
  setup : t.setup = s.setup
  ring : t.ring = s.ring
  engines : t.engines = s.engines
  pre : t.pre = { s.pre with pass := none }
  gauge : t.gauge = if s.gauge.pass = none then s.gauge else { s.gauge with
    pass := none, last := s.gauge.last.map fun x => { x with ending := .aborted }, recEdges := s.gauge.edges,
    recTimebase := s.gauge.timebase, rev := s.gauge.rev + 1 }
  raised : s.passInFlight = true → isPending t .prep .passFault
  trav : ∀ i : Fin 32, t.trav? i = (s.trav? i).map (cutShort s i)

theorem ident_pretreat (f : Option Pretreat → Option Pretreat) (v : Traveller) :
    ident { v with pretreat := f v.pretreat } = ident v := rfl

theorem leaves_modPretreat (s : State) (i : Fin 32) (f : Pretreat → Pretreat) : Leaves s (modPretreat i f s) :=
  leaves_modTrav s i (ident_pretreat _)

theorem pre_idle {x : PretreatUnit} (h : x.pass = none) : { x with pass := none } = x := by
  cases x
  simp_all

theorem stopFrame {s : State} (h : s.pre.pass = none ∨ s.gauge.pass = none) : StopFrame s (stopPass s) := by
  cases hp : s.pre.pass with
  | some p =>
    have hg : s.gauge.pass = none := h.resolve_left (by simp [hp])
    have hs : stopPass s = sprayCut .gaugeAborted p s := by rw [stopPass, hp]
    obtain ⟨w, hw⟩ : ∃ w, w = modTrav p.trav (addFault .gaugeAborted)
      (modPretreat p.trav (fun r => { r with delivered := r.delivered + s.pre.strokes }) s) := ⟨_, rfl⟩
    have hcut : stopPass s = raise .prep .passFault (sprayIdle s.pre.strokes w) := by rw [hs, hw]; rfl
    have hwl : Leaves s w :=
      hw ▸ (leaves_modPretreat s _ _).trans (leaves_modTrav _ _ (ident_addFault _))
    rw [hcut]
    refine ⟨hwl.trans ((leaves_setPre w _).trans (leaves_raise _ _ _)), by simp [hw], by simp [hw], by simp [hw], ?_,
      by simp [hw, hg], fun _ => isPending_raise _ (by decide), fun i => ?_⟩
    · simp [hw, sprayIdle]
    · have hwt : (raise .prep .passFault (sprayIdle s.pre.strokes w)).trav? i = w.trav? i := rfl
      rw [hwt, hw, trav?_modTrav, modPretreat, trav?_modTrav, trav?_modTrav]
      unfold cutShort
      by_cases hi : i = p.trav
      · subst hi
        simp [hp, Function.comp_def]
      · simp [hi, Ne.symm hi, hp, hg]
  | none =>
    cases hg : s.gauge.pass with
    | some p =>
      have hs : stopPass s =
          gaugeFail .aborted .gaugeAborted p.trav s.gauge.edges s.gauge.timebase s := by simp only [stopPass, hp, hg]
      obtain ⟨w, hw⟩ : ∃ w, w = modTrav p.trav (addFault .gaugeAborted) s := ⟨_, rfl⟩
      have hcut : stopPass s = raise .prep .passFault (gaugeIdle .aborted s.gauge.edges s.gauge.timebase w) := by
        rw [hs, hw]
        rfl
      have hwl : Leaves s w := hw ▸ leaves_modTrav _ _ (ident_addFault _)
      rw [hcut]
      refine ⟨hwl.trans ((leaves_setGauge w _).trans (leaves_raise _ _ _)), by simp [hw], by simp [hw], by simp [hw], ?_,
        ?_, fun _ => isPending_raise _ (by decide), fun i => ?_⟩
      · rw [pre_idle hp]
        simp [hw]
      · rw [if_neg (by simp [hg])]
        simp [gaugeIdle, hw]
      · have hwt : (raise .prep .passFault (gaugeIdle .aborted s.gauge.edges s.gauge.timebase w)).trav? i = w.trav? i := rfl
        rw [hwt, hw, trav?_modTrav]
        unfold cutShort
        by_cases hi : i = p.trav
        · subst hi
          simp [hp, hg]
        · simp [hi, Ne.symm hi, hp, hg]
    | none =>
      have hnone : s.passInFlight = false := passInFlight_eq_false_iff.mpr ⟨hp, hg⟩
      rw [stopPass_of_none hnone]
      exact ⟨Leaves.refl s, rfl, rfl, rfl, (pre_idle hp).symm, by simp [hg], fun hc => by simp [hnone] at hc,
        fun i => by unfold cutShort; simp [hp, hg]⟩

/-! ### Work undone on one traveller (R59, R107) -/

/-- R59: traveller `v` once its assignment is withdrawn or its print has failed. -/
def undone (v : Traveller) : Traveller :=
  match v.stage, v.print with
  | .assigned, some _ => { v with stage := .readyToPrint, print := none }
  | .printing, some r => { v with stage := .rejectPending, print := some { r with result := .fault, actual := none } }
  | _, _ => v

/-- Traveller `v` is ASSIGNED or PRINTING on engine `e`, with print record `r`. -/
def WorkOf (e : Engine) (r : Print) (v : Traveller) : Prop :=
  (v.stage = .assigned ∨ v.stage = .printing) ∧ v.print = some r ∧ r.engine = e

/-- R107: the record of an engine whose work on a traveller in stage `st`, with print record `r`, is undone. -/
def freed (c : Constants) (st : Stage) (r : Print) (x : EngineRec) : EngineRec :=
  served c (if st = .assigned then freeEngine r.estimate x else { freeEngine r.estimate x with prints := x.prints + 1 })

/-- What undoing a traveller's work can be: nothing when it has none, else the withdrawal or the failure on its engine. -/
theorem undoPrint_cases (i : Fin 32) (s : State) :
    (undoPrint i s = s ∧ ∀ v, s.trav? i = some v → undone v = v ∧ ∀ e r, ¬ WorkOf e r v) ∨
    ∃ (v : Traveller) (r : Print), s.trav? i = some v ∧ v.print = some r ∧
      ((v.stage = .assigned ∧ undoPrint i s = withdrawForced r.engine i s) ∨
        (v.stage = .printing ∧ undoPrint i s = failForced r.engine i s)) := by
  unfold undoPrint
  cases hv : s.trav? i with
  | none => exact .inl ⟨rfl, fun v h => nomatch h⟩
  | some v =>
    dsimp only
    split
    · rename_i r hst hr
      exact .inr ⟨v, r, rfl, hr, .inl ⟨hst, rfl⟩⟩
    · rename_i r hst hr
      exact .inr ⟨v, r, rfl, hr, .inr ⟨hst, rfl⟩⟩
    · rename_i ha hp
      refine .inl ⟨rfl, fun w hw => ?_⟩
      cases hw
      refine ⟨?_, fun e r ⟨hst, hr, _⟩ => hst.elim (fun h => ha r h hr) (fun h => hp r h hr)⟩
      unfold undone
      split
      · rename_i r hst hr
        exact absurd hr (ha r hst)
      · rename_i r hst hr
        exact absurd hr (hp r hst)
      · rfl

/-- What undoing the work of slot `i` does. -/
structure UndoFrame (i : Fin 32) (s t : State) : Prop where
  leaves : Leaves s t
  setup : t.setup = s.setup
  ring : t.ring = s.ring
  pre : t.pre = s.pre
  gauge : t.gauge = s.gauge
  trav : ∀ j : Fin 32, t.trav? j = if j = i then (s.trav? j).map undone else s.trav? j
  other : ∀ e : Engine, (∀ v r, s.trav? i = some v → ¬ WorkOf e r v) → t.engine e = s.engine e
  freed : ∀ e v r, s.trav? i = some v → WorkOf e r v → t.engine e = freed s.constants v.stage r (s.engine e) ∧
    ((t.engine e).state = .cleanDue → isPending t (enginePort e) .cleanDue)

theorem leaves_returnToService (e : Engine) {f : EngineRec → EngineRec} (s : State)
    (hf : (f (s.engine e)).rev = (s.engine e).rev) : Leaves s (returnToService e f s) := by
  rw [returnToService, raiseCleanDue]
  have hm : Leaves s (modEngine e (fun x => { f x with state := serviceState s.constants (f x).prints }) s) :=
    leaves_modEngine s e hf
  split
  · exact hm.trans (leaves_raise _ _ _)
  · exact hm

theorem returnToService_engine (e g : Engine) (f : EngineRec → EngineRec) (s : State) :
    (returnToService e f s).engine g = if g = e then served s.constants (f (s.engine e)) else s.engine g := by
  simp [State.engine, Tab.get_set, engineNo_inj]

theorem isPending_returnToService {e : Engine} {f : EngineRec → EngineRec} {s : State}
    (h : ((returnToService e f s).engine e).state = .cleanDue) :
    isPending (returnToService e f s) (enginePort e) .cleanDue := by
  unfold returnToService raiseCleanDue at h ⊢
  split
  · exact isPending_raise _ (by cases e <;> decide)
  · rename_i hn
    rw [if_neg hn] at h
    exact absurd h hn

@[simp] theorem returnToService_setup (e : Engine) (f : EngineRec → EngineRec) (s : State) :
    (returnToService e f s).setup = s.setup := by rw [returnToService_eq]; rfl
@[simp] theorem returnToService_pre (e : Engine) (f : EngineRec → EngineRec) (s : State) :
    (returnToService e f s).pre = s.pre := by rw [returnToService_eq]; rfl
@[simp] theorem returnToService_gauge (e : Engine) (f : EngineRec → EngineRec) (s : State) :
    (returnToService e f s).gauge = s.gauge := by rw [returnToService_eq]; rfl

/-- The withdrawal and the failure of R107 are one shape: engine `r.engine` returns to service as `y`, the traveller
is rewritten by `f`. -/
theorem undoFrame_of_work {i : Fin 32} {s : State} {v : Traveller} {r : Print} {f : Traveller → Traveller}
    {g : EngineRec → EngineRec} (hv : s.trav? i = some v) (hst : v.stage = .assigned ∨ v.stage = .printing)
    (hr : v.print = some r)
    (hident : ∀ v, ident (f v) = ident v) (hrev : (g (s.engine r.engine)).rev = (s.engine r.engine).rev)
    (hf : f v = undone v) (hg : served s.constants (g (s.engine r.engine)) = freed s.constants v.stage r (s.engine r.engine)) :
    UndoFrame i s (modTrav i f (returnToService r.engine g s)) := by
  have hl := leaves_modTrav (returnToService r.engine g s) i hident
  have heng (e : Engine) : (modTrav i f (returnToService r.engine g s)).engine e = (returnToService r.engine g s).engine e := by
    simp [State.engine]
  have htrav (j : Fin 32) : (returnToService r.engine g s).trav? j = s.trav? j :=
    trav?_congr (returnToService_table _ _ _) j
  refine ⟨(leaves_returnToService _ s hrev).trans hl, by simp, by simp, by simp, by simp, fun j => ?_, fun e he => ?_,
    fun e w r' hw hwork => ?_⟩
  · rw [trav?_modTrav, htrav, htrav]
    by_cases hj : j = i
    · subst hj
      simp [hv, hf]
    · simp [hj]
  · rw [heng, returnToService_engine, if_neg]
    rintro rfl
    exact he v r hv ⟨hst, hr, rfl⟩
  · cases hv.symm.trans hw
    obtain ⟨-, hr', rfl⟩ := hwork
    cases hr.symm.trans hr'
    refine ⟨?_, fun hc => hl.isPending (isPending_returnToService ((heng r.engine) ▸ hc))⟩
    rw [heng, returnToService_engine, if_pos rfl, hg]

theorem undoFrame (i : Fin 32) (s : State) : UndoFrame i s (undoPrint i s) := by
  obtain ⟨h, hn⟩ | ⟨v, r, hv, hr, ⟨hst, h⟩ | ⟨hst, h⟩⟩ := undoPrint_cases i s
  · rw [h]
    refine ⟨Leaves.refl s, rfl, rfl, rfl, rfl, fun j => ?_, fun _ _ => rfl, fun e v r hv hw => absurd hw ((hn v hv).2 e r)⟩
    split
    · rename_i hj
      subst hj
      cases hv : s.trav? j with
      | none => rfl
      | some v => simp [(hn v hv).1]
    · rfl
  · rw [h, withdrawForced, withdrawTraveller, estimateOf_some hv hr]
    refine undoFrame_of_work hv (.inl hst) hr (fun _ => rfl) rfl ?_ ?_
    · simp [undone, hst, hr]
    · simp [freed, hst]
  · rw [h, failForced, failTraveller, estimateOf_some hv hr]
    refine undoFrame_of_work hv (.inr hst) hr (fun _ => rfl) rfl ?_ ?_
    · simp [undone, hst, hr]
    · simp [freed, hst]

/-! ### Work undone on every traveller of a list -/

/-- R59: the work of each slot of the list undone in turn. -/
def undoAll (l : List (Fin 32)) (s : State) : State := l.foldl (fun s i => undoPrint i s) s

/-- A reading that each operation of a sequence keeps is kept by the sequence. -/
theorem foldl_keep {α β : Type} {op : State → α → State} (g : State → β) (h : ∀ s a, g (op s a) = g s) (l : List α)
    (s : State) : g (l.foldl op s) = g s := by
  induction l generalizing s with
  | nil => rfl
  | cons a l ih => exact (ih _).trans (h s a)

theorem leaves_undoAll (l : List (Fin 32)) (s : State) : Leaves s (undoAll l s) :=
  leaves_foldl s (fun s i => (undoFrame i s).leaves) l

theorem undoAll_trav? {l : List (Fin 32)} (hl : l.Nodup) (s : State) (i : Fin 32) :
    (undoAll l s).trav? i = if i ∈ l then (s.trav? i).map undone else s.trav? i := by
  refine foldl_trav? (fun s j i => ?_) hl s i
  exact (undoFrame j s).trav i

theorem undoPrint_trav?_ne {i j : Fin 32} (h : i ≠ j) (s : State) : (undoPrint j s).trav? i = s.trav? i :=
  ((undoFrame j s).trav i).trans (if_neg h)

/-- An engine that works for no traveller of the list stands. -/
theorem undoAll_engine_other {l : List (Fin 32)} (hl : l.Nodup) {e : Engine} {s : State}
    (h : ∀ i ∈ l, ∀ v r, s.trav? i = some v → ¬ WorkOf e r v) : (undoAll l s).engine e = s.engine e := by
  induction l generalizing s with
  | nil => rfl
  | cons j l ih =>
    obtain ⟨hj, hl⟩ := List.nodup_cons.mp hl
    refine (ih hl fun i hi v r hv => ?_).trans ((undoFrame j s).other e (h j (by simp)))
    rw [undoPrint_trav?_ne (ne_of_mem_of_not_mem hi hj)] at hv
    exact h i (by simp [hi]) v r hv

/-- An engine that works for one traveller of the list is freed of it, and reports that it falls due for cleaning. -/
theorem undoAll_engine_freed {l : List (Fin 32)} (hl : l.Nodup) {e : Engine} {s : State} {i : Fin 32} {v : Traveller}
    {r : Print} (hi : i ∈ l) (hv : s.trav? i = some v) (hw : WorkOf e r v)
    (h : ∀ j ∈ l, j ≠ i → ∀ w r, s.trav? j = some w → ¬ WorkOf e r w) :
    (undoAll l s).engine e = freed s.constants v.stage r (s.engine e) ∧
      (((undoAll l s).engine e).state = .cleanDue → isPending (undoAll l s) (enginePort e) .cleanDue) := by
  induction l generalizing s with
  | nil => cases hi
  | cons j l ih =>
    obtain ⟨hj, hnd⟩ := List.nodup_cons.mp hl
    have f := undoFrame j s
    change (undoAll l (undoPrint j s)).engine e = _ ∧
      (((undoAll l (undoPrint j s)).engine e).state = .cleanDue → isPending (undoAll l (undoPrint j s)) _ _)
    by_cases hij : i = j
    · subst hij
      obtain ⟨heng, hdue⟩ := f.freed e v r hv hw
      have hrest : (undoAll l (undoPrint i s)).engine e = (undoPrint i s).engine e := by
        refine undoAll_engine_other (s := undoPrint i s) hnd fun k hk w r' hkw => ?_
        have hki : k ≠ i := ne_of_mem_of_not_mem hk hj
        rw [undoPrint_trav?_ne hki] at hkw
        exact h k (by simp [hk]) hki w r' hkw
      rw [hrest]
      exact ⟨heng, fun hc => (leaves_undoAll l _).isPending (hdue hc)⟩
    · have hil : i ∈ l := (List.mem_cons.mp hi).resolve_left hij
      have hother : (undoPrint j s).engine e = s.engine e :=
        f.other e (h j (by simp) (Ne.symm hij))
      have hrec := ih hnd (s := undoPrint j s) hil ((undoPrint_trav?_ne hij s).trans hv) fun k hk hki w r' hkw => by
        rw [undoPrint_trav?_ne (ne_of_mem_of_not_mem hk hj)] at hkw
        exact h k (by simp [hk]) hki w r' hkw
      rwa [hother, f.leaves.constants] at hrec

/-! ### The travellers touched (R58) -/

theorem mem_allStations (st : Station) : st ∈ allStations := by cases st <;> decide

theorem affected_iff {s : State} {q : Fin 12} : affected s q = true ↔
    (∃ (st : Station) (c : Claim), s.claimAt st = some c ∧ c.platen = q) ∨
      (∃ (e : Engine) (a : Awaiting), s.awaitingAt e = some a ∧ a.platen = q) ∨
      ∃ i, passTraveller s = some i ∧ s.ring.carried.get q = some i := by
  have hclaim : allStations.any (fun st => (s.claimAt st).map (·.platen) = some q) = true ↔
      ∃ (st : Station) (c : Claim), s.claimAt st = some c ∧ c.platen = q := by
    simp [mem_allStations, Option.map_eq_some_iff]
  have hawait : (s.awaitingAt .a).map (·.platen) = some q ∨ (s.awaitingAt .b).map (·.platen) = some q ↔
      ∃ (e : Engine) (a : Awaiting), s.awaitingAt e = some a ∧ a.platen = q := by
    simp only [Option.map_eq_some_iff]
    exact ⟨fun h => h.elim (fun ⟨a, ha⟩ => ⟨.a, a, ha⟩) (fun ⟨a, ha⟩ => ⟨.b, a, ha⟩),
      fun ⟨e, a, ha⟩ => by cases e; exacts [.inl ⟨a, ha⟩, .inr ⟨a, ha⟩]⟩
  have hpass : (passTraveller s).isSome = true ∧ passTraveller s = s.ring.carried.get q ↔
      ∃ i, passTraveller s = some i ∧ s.ring.carried.get q = some i := by
    cases passTraveller s with
    | none => simp
    | some i => simp [eq_comm]
  simp only [affected, Bool.or_eq_true, Bool.and_eq_true, decide_eq_true_eq, hclaim, hpass, or_assoc]
  rw [← or_assoc (a := _ = _), hawait]

theorem passTraveller_iff {s : State} (h : s.pre.pass = none ∨ s.gauge.pass = none) {i : Fin 32} :
    passTraveller s = some i ↔ s.pre.pass.map (·.trav) = some i ∨ s.gauge.pass.map (·.trav) = some i := by
  unfold passTraveller
  cases hp : s.pre.pass with
  | none => simp
  | some p => simp [h.resolve_left (by simp [hp])]

theorem mem_affectedSlots {s : State} (h : s.pre.pass = none ∨ s.gauge.pass = none) {i : Fin 32} :
    i ∈ affectedSlots s ↔ Touched s i := by
  simp only [affectedSlots, List.mem_filterMap, List.mem_finRange, true_and, Option.ite_none_right_eq_some, affected_iff,
    Touched]
  refine exists_congr fun q => ?_
  constructor
  · rintro ⟨hq, hi⟩
    refine ⟨hi, hq.imp_right fun hq => hq.imp_right ?_⟩
    rintro ⟨j, hj, hqj⟩
    cases hi.symm.trans hqj
    exact (passTraveller_iff h).mp hj
  · rintro ⟨hi, hq⟩
    exact ⟨hq.imp_right fun hq => hq.imp_right fun hp => ⟨i, (passTraveller_iff h).mpr hp, hi⟩, hi⟩

theorem affectedSlots_nodup {s : State} (h : CarriedOnce s) : (affectedSlots s).Nodup := by
  refine List.Nodup.filterMap (fun p q i hp hq => ?_) (List.nodup_finRange 12)
  simp only [Option.mem_def, Option.ite_none_right_eq_some] at hp hq
  exact h p q i hp.2 hq.2

end Sys2Proof.PlatenRing
end

