-- ==== Sys2Proof/Proofs/PlatenRing/Floor.lean ====
section
/-! PROOF. Forced handling as a whole: for any part whose passes are guarded, and on a consistent floor, where each engine
works for at most one traveller and that one is touched. -/

namespace Sys2Proof.PlatenRing

open Sys2Proof Sys2Proof.Machine

/-! ### What the handling leaves (R58) -/

/-- R58: every touched traveller has taken FORCED_INDEX. -/
def faulted (s : State) : State := (affectedSlots s).foldl (fun s i => modTrav i (addFault .forcedIndex) s) s

theorem forcedHandling_eq (s : State) : forcedHandling s =
    raiseOn stationPorts .forcedIndex (dropClaims (undoAll (affectedSlots s) (stopPass (faulted s)))) := rfl

theorem leaves_faulted (s : State) : Leaves s (faulted s) :=
  leaves_foldl s (fun s i => leaves_modTrav s i (ident_addFault _)) _

section
variable (s : State)

@[simp] theorem faulted_setup : (faulted s).setup = s.setup := foldl_keep _ (fun s i => modTrav_setup i _ s) _ s
@[simp] theorem faulted_ring : (faulted s).ring = s.ring := foldl_keep _ (fun s i => modTrav_ring i _ s) _ s
@[simp] theorem faulted_pre : (faulted s).pre = s.pre := foldl_keep _ (fun s i => modTrav_pre i _ s) _ s
@[simp] theorem faulted_gauge : (faulted s).gauge = s.gauge := foldl_keep _ (fun s i => modTrav_gauge i _ s) _ s
@[simp] theorem faulted_engines : (faulted s).engines = s.engines := foldl_keep _ (fun s i => modTrav_engines i _ s) _ s

end

section
variable (l : List (Fin 32)) (s : State)

@[simp] theorem undoAll_setup : (undoAll l s).setup = s.setup := foldl_keep _ (fun s i => (undoFrame i s).setup) l s
@[simp] theorem undoAll_ring : (undoAll l s).ring = s.ring := foldl_keep _ (fun s i => (undoFrame i s).ring) l s
@[simp] theorem undoAll_pre : (undoAll l s).pre = s.pre := foldl_keep _ (fun s i => (undoFrame i s).pre) l s
@[simp] theorem undoAll_gauge : (undoAll l s).gauge = s.gauge := foldl_keep _ (fun s i => (undoFrame i s).gauge) l s

end

/-- What forced handling does to the blocks, whatever the travellers do. -/
structure HandledFrame (s t : State) : Prop where
  leaves : Leaves s t
  setup : t.setup = s.setup
  ring : t.ring = { s.ring with claims := .fill none, awaiting := .fill none }
  pre : t.pre = { s.pre with pass := none }
  gauge : t.gauge = if s.gauge.pass = none then s.gauge else { s.gauge with
    pass := none, last := s.gauge.last.map fun x => { x with ending := .aborted }, recEdges := s.gauge.edges,
    recTimebase := s.gauge.timebase, rev := s.gauge.rev + 1 }
  forced : ∀ p ∈ stationPorts, isPending t p .forcedIndex
  passFault : s.passInFlight = true → isPending t .prep .passFault

theorem dropClaims_eq (s : State) :
    dropClaims s = s.setRing { s.ring with claims := .fill none, awaiting := .fill none } := rfl

theorem stopFrame_faulted {s : State} (h : s.pre.pass = none ∨ s.gauge.pass = none) :
    StopFrame (faulted s) (stopPass (faulted s)) := stopFrame (by simpa using h)

theorem handledFrame {s : State} (h : s.pre.pass = none ∨ s.gauge.pass = none) : HandledFrame s (forcedHandling s) := by
  have f := stopFrame_faulted h
  have hu := leaves_undoAll (affectedSlots s) (stopPass (faulted s))
  obtain ⟨u, hu'⟩ : ∃ u, u = undoAll (affectedSlots s) (stopPass (faulted s)) := ⟨_, rfl⟩
  have hlast : Leaves u (raiseOn stationPorts .forcedIndex (dropClaims u)) := by
    rw [dropClaims_eq]
    exact (leaves_setRing u (by rfl) (by rfl)).trans (leaves_raiseOn _ _ _)
  have hsetup : u.setup = s.setup := by rw [hu', undoAll_setup, f.setup, faulted_setup]
  have hring : u.ring = s.ring := by rw [hu', undoAll_ring, f.ring, faulted_ring]
  have hpre : u.pre = { s.pre with pass := none } := by rw [hu', undoAll_pre, f.pre, faulted_pre]
  have hgauge := f.gauge
  rw [faulted_gauge, ← undoAll_gauge (affectedSlots s), ← hu'] at hgauge
  rw [forcedHandling_eq, ← hu']
  rw [← hu'] at hu
  refine ⟨(leaves_faulted s).trans (f.leaves.trans (hu.trans hlast)), by simp [hsetup], ?_, by simp [hpre],
    by simp only [raiseOn_gauge, dropClaims_gauge]; exact hgauge, fun p hp => ?_, fun hp => ?_⟩
  · rw [raiseOn_ring, dropClaims_eq, setRing_ring, hring]
  · refine isPending_raiseOn _ hp ?_
    cases p <;> first | decide | exact absurd hp (by decide)
  · refine (hu.trans hlast).isPending (f.raised ?_)
    simpa [State.passInFlight] using hp

theorem HandledFrame.passInFlight {s t : State} (h : HandledFrame s t) : t.passInFlight = false := by
  refine passInFlight_eq_false_iff.mpr ⟨by rw [h.pre], ?_⟩
  rw [h.gauge]
  split
  · assumption
  · rfl

/-! ### Travellers after the handling -/

theorem cutShort_congr {s t : State} (hp : t.pre = s.pre) (hg : t.gauge = s.gauge) : cutShort t = cutShort s := by
  funext i v
  simp [cutShort, hp, hg]

@[simp] theorem addFault_stage (c : FaultCode) (v : Traveller) : (addFault c v).stage = v.stage := by
  unfold addFault; split <;> rfl
@[simp] theorem addFault_print (c : FaultCode) (v : Traveller) : (addFault c v).print = v.print := by
  unfold addFault; split <;> rfl
@[simp] theorem addFault_pretreat (c : FaultCode) (v : Traveller) : (addFault c v).pretreat = v.pretreat := by
  unfold addFault; split <;> rfl
@[simp] theorem addFault_platen (c : FaultCode) (v : Traveller) : (addFault c v).platen = v.platen := by
  unfold addFault; split <;> rfl

@[simp] theorem cutShort_stage (s : State) (i : Fin 32) (v : Traveller) : (cutShort s i v).stage = v.stage := by
  unfold cutShort; split <;> [skip; split] <;> simp
@[simp] theorem cutShort_print (s : State) (i : Fin 32) (v : Traveller) : (cutShort s i v).print = v.print := by
  unfold cutShort; split <;> [skip; split] <;> simp

theorem undone_of_idle {v : Traveller} (h : v.stage ≠ .assigned ∧ v.stage ≠ .printing) : undone v = v := by
  unfold undone
  split
  · exact absurd ‹_› h.1
  · exact absurd ‹_› h.2
  · rfl

/-- `interrupted` of the statements is the pass stopped and the work undone, in a part where the garment under a pass is
in PRETREAT and one at work has a print record. -/
theorem interrupted_eq {s : State} {i : Fin 32} {v : Traveller}
    (hbooth : (s.pre.pass.map (·.trav) = some i ∨ s.gauge.pass.map (·.trav) = some i) → v.stage = .pretreat)
    (hwork : (v.stage = .assigned ∨ v.stage = .printing) → v.print.isSome = true) :
    interrupted s i v = undone (cutShort s i v) := by
  by_cases hp : s.pre.pass.map (·.trav) = some i
  · rw [undone_of_idle (by simp [hbooth (.inl hp)]), interrupted, cutShort, if_pos hp, if_pos hp]
  · by_cases hg : s.gauge.pass.map (·.trav) = some i
    · rw [undone_of_idle (by simp [hbooth (.inr hg)]), interrupted, cutShort, if_neg hp, if_pos hg, if_neg hp, if_pos hg]
    · rw [interrupted, cutShort, if_neg hp, if_neg hg, if_neg hp, if_neg hg]
      cases hst : v.stage with
      | assigned =>
        obtain ⟨r, hr⟩ := Option.isSome_iff_exists.mp (hwork (.inl hst))
        simp [undone, hst, hr]
      | printing =>
        obtain ⟨r, hr⟩ := Option.isSome_iff_exists.mp (hwork (.inr hst))
        simp [undone, hst, hr]
      | loaded | pretreat | readyToPrint | printed | inTunnel | rejectPending | returnPending =>
        rw [undone_of_idle (by simp [hst])]

/-! ### Who works for whom on a consistent floor (R95, R101, R102) -/

/-- Engine `e` works for garment `v` of slot `i`, with print record `r`, at its position. -/
structure Works (s : State) (e : Engine) (i : Fin 32) (v : Traveller) (r : Print) : Prop where
  current : (s.engine e).current = some i
  slot : s.slotAt (enginePos e) = some i
  trav : s.trav? i = some v
  print : v.print = some r
  engine : r.engine = e
  reserved : (s.engine e).reserved = r.estimate
  stages : ((s.engine e).state = .assigned ∧ v.stage = .assigned) ∨ ((s.engine e).state = .printing ∧ v.stage = .printing)
  touched : Touched s i

theorem Works.work {s : State} {e : Engine} {i : Fin 32} {v : Traveller} {r : Print} (h : Works s e i v r) : WorkOf e r v :=
  ⟨h.stages.imp And.right And.right, h.print, h.engine⟩

section
variable {s : State} (h : FloorConsistent s)
include h

/-- An engine that is ASSIGNED or PRINTING works for one traveller. -/
theorem works_of_engine {e : Engine} (he : (s.engine e).state = .assigned ∨ (s.engine e).state = .printing) :
    ∃ i v r, Works s e i v r := by
  have hc := h.engines e
  unfold EngineConsistent at hc
  obtain he | he := he
  · rw [he] at hc
    obtain ⟨⟨i, v, r, hcur, hslot, hv, hst, hr, hre, hres⟩, -, a, ha, -, haq⟩ := hc
    exact ⟨i, v, r, hcur, hslot, hv, hr, hre, hres, .inl ⟨he, hst⟩, _, hslot, .inr (.inl ⟨e, a, ha, haq⟩)⟩
  · rw [he] at hc
    obtain ⟨⟨i, v, r, hcur, hslot, hv, hst, hr, hre, hres⟩, hclaim, -⟩ := hc
    obtain ⟨c, hcl⟩ := Option.isSome_iff_exists.mp hclaim
    exact ⟨i, v, r, hcur, hslot, hv, hr, hre, hres, .inr ⟨he, hst⟩, _, hslot, .inl ⟨_, c, hcl, (h.claims _ c hcl).2⟩⟩

theorem engine_idle_of {e : Engine} (he : ¬ ((s.engine e).state = .assigned ∨ (s.engine e).state = .printing)) :
    (s.engine e).current = none := by
  have hc := h.engines e
  unfold EngineConsistent at hc
  rw [not_or] at he
  split at hc
  · exact absurd ‹_› he.1
  · exact absurd ‹_› he.2
  all_goals exact hc.1

/-- A traveller that is ASSIGNED or PRINTING has its engine. -/
theorem works_of_trav {i : Fin 32} {v : Traveller} (hv : s.trav? i = some v)
    (hst : v.stage = .assigned ∨ v.stage = .printing) : ∃ e r, Works s e i v r := by
  obtain ⟨e, he⟩ := h.held i v hv hst
  by_cases hb : (s.engine e).state = .assigned ∨ (s.engine e).state = .printing
  · obtain ⟨j, w, r, hw⟩ := works_of_engine h hb
    cases hw.current.symm.trans he
    cases hw.trav.symm.trans hv
    exact ⟨e, r, hw⟩
  · rw [engine_idle_of h hb] at he
    cases he

/-- A traveller at work on engine `e` is the engine's own. -/
theorem works_of_workOf {e : Engine} {i : Fin 32} {v : Traveller} {r : Print} (hv : s.trav? i = some v)
    (hw : WorkOf e r v) : Works s e i v r := by
  obtain ⟨g, r', hg⟩ := works_of_trav h hv hw.1
  obtain ⟨-, hr, rfl⟩ := hw
  cases hg.print.symm.trans hr
  obtain rfl := hg.engine
  exact hg

theorem booth_stage {i : Fin 32} {v : Traveller} (hv : s.trav? i = some v)
    (hp : s.pre.pass.map (·.trav) = some i ∨ s.gauge.pass.map (·.trav) = some i) : v.stage = .pretreat := by
  obtain ⟨-, w, hw, hst, -⟩ := h.booth i hp
  cases hv.symm.trans hw
  exact hst

end

/-- R107: on a consistent floor the engine that is freed ends as the statements say. -/
theorem freed_eq_settledRec {s : State} {e : Engine} {i : Fin 32} {v : Traveller} {r : Print} (h : Works s e i v r) :
    freed s.constants v.stage r (s.engine e) = settledRec s.constants (s.engine e) := by
  obtain ⟨hx, hst⟩ | ⟨hx, hst⟩ := h.stages
  · simp [freed, settledRec, hx, hst, served, serviceState, freeEngine, h.reserved, Inks.zip]
  · simp [freed, settledRec, hx, hst, served, serviceState, freeEngine, h.reserved, Inks.zip]

theorem settledRec_of_idle {c : Constants} {x : EngineRec} (h : ¬ (x.state = .assigned ∨ x.state = .printing)) :
    settledRec c x = x := by
  rw [not_or] at h
  unfold settledRec
  split
  · exact absurd ‹_› h.1
  · exact absurd ‹_› h.2
  all_goals rfl

/-! ### Forced handling on a consistent floor -/

/-- What forced handling does to travellers and engines. -/
structure ForcedFrame (s t : State) : Prop extends HandledFrame s t where
  trav : ∀ (i : Fin 32) (v f : Traveller), s.trav? i = some v → (Touched s i → f = addFault .forcedIndex v) →
    (¬ Touched s i → f = v) → t.trav? i = some (interrupted s i f)
  engine : ∀ e : Engine, t.engine e = settledRec s.constants (s.engine e)
  cleanDue : ∀ e : Engine, ((s.engine e).state = .assigned ∨ (s.engine e).state = .printing) →
    (settledRec s.constants (s.engine e)).state = .cleanDue → isPending t (enginePort e) .cleanDue

theorem faulted_trav? {s : State} (h : (affectedSlots s).Nodup) (i : Fin 32) :
    (faulted s).trav? i = if i ∈ affectedSlots s then (s.trav? i).map (addFault .forcedIndex) else s.trav? i := by
  refine foldl_trav? (fun s j i => ?_) h s i
  rw [trav?_modTrav]
  split
  · rename_i hij
    rw [hij]
  · rfl

/-- A traveller before the work is undone: FORCED_INDEX added when it is touched, and the pass stopped. -/
theorem stopPass_faulted_trav? {s : State} (h : FloorConsistent s) {i : Fin 32} {v f : Traveller} (hv : s.trav? i = some v)
    (ht : Touched s i → f = addFault .forcedIndex v) (hn : ¬ Touched s i → f = v) :
    (stopPass (faulted s)).trav? i = some (cutShort s i f) := by
  have hmem := mem_affectedSlots h.guarded.1 (i := i)
  have hfault : (faulted s).trav? i = some f := by
    rw [faulted_trav? (affectedSlots_nodup (carriedOnce_of_consistent h.carried)), hv]
    by_cases hi : Touched s i
    · rw [if_pos (hmem.mpr hi), ht hi]
      rfl
    · rw [if_neg (mt hmem.mp hi), hn hi]
  rw [(stopFrame_faulted h.guarded.1).trav i, hfault, cutShort_congr (faulted_pre s) (faulted_gauge s)]
  rfl

theorem exists_faulted (s : State) (i : Fin 32) (v : Traveller) :
    ∃ f, (Touched s i → f = addFault .forcedIndex v) ∧ (¬ Touched s i → f = v) := by
  by_cases h : Touched s i
  · exact ⟨_, fun _ => rfl, fun hn => absurd h hn⟩
  · exact ⟨_, fun ht => absurd ht h, fun _ => rfl⟩

theorem faulted_same {s : State} {i : Fin 32} {v f : Traveller} (ht : Touched s i → f = addFault .forcedIndex v)
    (hn : ¬ Touched s i → f = v) : f.stage = v.stage ∧ f.print = v.print := by
  by_cases h : Touched s i
  · simp [ht h]
  · simp [hn h]

/-- Before the work is undone, travellers are at work exactly as they were. -/
theorem works_of_stopPass_faulted {s : State} (h : FloorConsistent s) {i : Fin 32} {e : Engine} {r : Print} {x : Traveller}
    (hx : (stopPass (faulted s)).trav? i = some x) (hw : WorkOf e r x) : ∃ v, Works s e i v r := by
  cases hv : s.trav? i with
  | none =>
    have hleaves := ((leaves_faulted s).trans (stopFrame_faulted h.guarded.1).leaves).ident i
    simp [hx, hv] at hleaves
  | some v =>
    obtain ⟨f, ht, hn⟩ := exists_faulted s i v
    obtain ⟨hst, hpr⟩ := faulted_same ht hn
    cases hx.symm.trans (stopPass_faulted_trav? h hv ht hn)
    refine ⟨v, works_of_workOf h hv ?_⟩
    simpa [WorkOf, hst, hpr] using hw

theorem forcedFrame {s : State} (h : FloorConsistent s) : ForcedFrame s (forcedHandling s) := by
  have hguard := h.guarded.1
  have hnodup := affectedSlots_nodup (carriedOnce_of_consistent h.carried)
  obtain ⟨w, hw⟩ : ∃ w, w = stopPass (faulted s) := ⟨_, rfl⟩
  have hwe (e : Engine) : w.engine e = s.engine e := by
    simp [hw, State.engine, (stopFrame_faulted hguard).engines]
  have hwc : w.constants = s.constants := by
    rw [hw]
    exact ((leaves_faulted s).trans (stopFrame_faulted hguard).leaves).constants
  have htable : (forcedHandling s).table = (undoAll (affectedSlots s) w).table := by simp [forcedHandling_eq, hw]
  have hengine (e : Engine) : (forcedHandling s).engine e = (undoAll (affectedSlots s) w).engine e := by
    simp [forcedHandling_eq, hw, State.engine]
  have hend : Leaves (undoAll (affectedSlots s) w) (forcedHandling s) := by
    rw [forcedHandling_eq, ← hw, dropClaims_eq]
    exact (leaves_setRing _ (by rfl) (by rfl)).trans (leaves_raiseOn _ _ _)
  have hfreed {e : Engine} {i : Fin 32} {v : Traveller} {r : Print} (hwk : Works s e i v r) :
      (forcedHandling s).engine e = settledRec s.constants (s.engine e) ∧
        (((forcedHandling s).engine e).state = .cleanDue → isPending (forcedHandling s) (enginePort e) .cleanDue) := by
    obtain ⟨f, ht, hn⟩ := exists_faulted s i v
    obtain ⟨hst, hpr⟩ := faulted_same ht hn
    have hx := stopPass_faulted_trav? h hwk.trav ht hn
    rw [← hw] at hx
    have hwx : WorkOf e r (cutShort s i f) := by simpa [WorkOf, hst, hpr] using hwk.work
    obtain ⟨he, hdue⟩ := undoAll_engine_freed hnodup ((mem_affectedSlots hguard).mpr hwk.touched) hx hwx
      fun j _ hji y r' hy hwy => by
        rw [hw] at hy
        obtain ⟨v', hv'⟩ := works_of_stopPass_faulted h hy hwy
        exact hji (Option.some.inj (hv'.current.symm.trans hwk.current))
    rw [cutShort_stage, hst, hwc, hwe, freed_eq_settledRec hwk] at he
    rw [hengine]
    exact ⟨he, fun hc => hend.isPending (hdue hc)⟩
  refine ⟨handledFrame hguard, fun i v f hv ht hn => ?_, fun e => ?_, fun e he hc => ?_⟩
  · obtain ⟨hst, hpr⟩ := faulted_same ht hn
    rw [interrupted_eq (fun hp => hst.trans (booth_stage h hv hp)) (fun hwork => by
      obtain ⟨e, r, hwk⟩ := works_of_trav h hv (hst ▸ hwork)
      simp [hpr, hwk.print])]
    rw [trav?_congr htable, undoAll_trav? hnodup, hw, stopPass_faulted_trav? h hv ht hn]
    split
    · rfl
    · rename_i hi
      refine congrArg some (undone_of_idle ?_).symm
      rw [cutShort_stage, hst, ← not_or]
      intro hwork
      obtain ⟨e, r, hwk⟩ := works_of_trav h hv hwork
      exact hi ((mem_affectedSlots hguard).mpr hwk.touched)
  · by_cases he : (s.engine e).state = .assigned ∨ (s.engine e).state = .printing
    · obtain ⟨i, v, r, hwk⟩ := works_of_engine h he
      exact (hfreed hwk).1
    · rw [settledRec_of_idle he, hengine, undoAll_engine_other hnodup, hwe]
      intro i _ x r hx hwx
      rw [hw] at hx
      obtain ⟨v, hwk⟩ := works_of_stopPass_faulted h hx hwx
      exact he (hwk.stages.imp And.left And.left)
  · obtain ⟨i, v, r, hwk⟩ := works_of_engine h he
    obtain ⟨heng, hdue⟩ := hfreed hwk
    exact hdue (heng ▸ hc)

end Sys2Proof.PlatenRing
end

