-- ==== Sys2Proof/Proofs/PlatenRing/ForcedIndex.lean ====
section
/-! PROOF. The ring slip (O29) and the forced index (O30). -/

namespace Sys2Proof.PlatenRing

open Sys2Proof Sys2Proof.Machine

/-! ### The ring slip -/

/-- The part once an index has settled what holds the ring. -/
def settled (s : State) : State := if s.permit then s else forcedHandling s

/-- What both ways of settling have in common. -/
structure SettledFrame (s t : State) : Prop where
  leaves : Leaves s t
  setup : t.setup = s.setup
  load : t.ring.load = s.ring.load
  quiet : t.passInFlight = false

theorem settledFrame {s : State} (h : PassGuarded s) : SettledFrame s (settled s) := by
  unfold settled
  cases hp : s.permit with
  | true =>
    obtain ⟨-, -, -, hpre, hgauge⟩ := permit_iff.mp hp
    exact ⟨Leaves.refl s, rfl, rfl, passInFlight_eq_false_iff.mpr ⟨hpre, hgauge⟩⟩
  | false =>
    have f := handledFrame h.1
    exact ⟨f.leaves, f.setup, by rw [if_neg (by simp), f.ring], f.passInFlight⟩

theorem homeFits_congr {s t : State} (hl : t.lines = s.lines) (hr : t.ring.load = s.ring.load) :
    homeFits t ↔ homeFits s := by rw [homeFits, homeFits, homeLevel_lines hl, hr]

theorem homeFits_indexEdge {s : State} {l : Fin 24} (h : s.lineOf .indexPulse = some l) :
    homeFits (indexEdge l s) ↔ homeFits s := by
  rw [homeFits, homeFits, homeLevel_indexEdge h]
  rfl

theorem ne_config_of {s : State} (h : s.mode = .run ∨ s.mode = .hold) : s.mode ≠ .config := by
  obtain h | h := h <;> simp [h]

/-! The end of an event is read as its effects left it. -/

theorem mode_commit (s u : State) : (commit s u).mode = u.mode := rfl
theorem passInFlight_commit (s u : State) : (commit s u).passInFlight = u.passInFlight := rfl
theorem isPending_commit {s u : State} {p : Port} {x : Source} : isPending (commit s u) p x ↔ isPending u p x := Iff.rfl

theorem takeIndex_eq_settled {s : State} (h : s.mode = .run ∨ s.mode = .hold) : takeIndex s = indexSteps (settled s) :=
  takeIndex_eq (ne_config_of h)

/-- R55: an index whose home check fails, whatever held the ring settled before. -/
theorem slipped_index {s t : State} (h : PassGuarded s) (hm : s.mode = .run ∨ s.mode = .hold) (hslip : ¬ homeFits s)
    (ht : t = takeIndex s) : t.mode = .hold ∧ t.ring.load = s.ring.load + 1 ∧ t.ring.synced = false ∧
      t.ring.carried = s.ring.carried ∧ t.passInFlight = false ∧
      ∀ p : Port, isPending t p .ringSlip ∧ (s.mode = .run → isPending t p .holdEntered) := by
  have f := settledFrame h
  have b := indexBase f.quiet
  rw [← takeIndex_eq_settled hm, ← ht] at b
  obtain ⟨u, hu⟩ : ∃ u, u = settled s := ⟨_, rfl⟩
  rw [← hu] at f b
  have hmode : u.mode = s.mode := congrArg Setup.mode f.setup
  obtain ⟨hhold, hsync, hring, hheld⟩ :=
    b.slipped (by rwa [homeFits_congr f.leaves.lines f.load]) (by rwa [hmode])
  refine ⟨hhold, by rw [b.ring, f.load], hsync, by rw [b.ring, f.leaves.carried], ?_,
    fun p => ⟨hring p, fun hrun => hheld (hmode.trans hrun) p⟩⟩
  have hq := f.quiet
  rw [passInFlight_eq_false_iff] at hq ⊢
  rwa [b.pre, b.gauge]

/-- Settles O29: whatever held the ring is settled, then the home check fails. -/
theorem ringSlipEntersHold : Obligations.RingSlipEntersHold := by
  intro l s hguard hm hof hslip
  obtain ⟨u, hu⟩ : ∃ u, u = indexEdge l s := ⟨_, rfl⟩
  obtain ⟨t, ht⟩ : ∃ t, t = takeIndex u := ⟨_, rfl⟩
  have hring : u.ring = s.ring := by rw [hu]; rfl
  have hmode : u.mode = s.mode := by rw [hu]; rfl
  have hguard' : PassGuarded u := by rw [hu]; exact hguard
  have hend := slipped_index hguard' (hmode ▸ hm) (by rwa [hu, homeFits_indexEdge hof]) ht
  rw [hring, hmode] at hend
  refine ⟨commit s t, by rw [exec_index hof, ← hu, ← ht], ?_⟩
  rw [mode_commit, passInFlight_commit, commit_ring]
  exact hend

/-! ### Where the touched travellers stand -/

section
variable {s : State} (h : FloorConsistent s)
include h

theorem awaiting_platen {e : Engine} {a : Awaiting} (ha : s.awaitingAt e = some a) :
    a.platen = platenAt s.ring (enginePos e) := by
  have hc := h.engines e
  unfold EngineConsistent at hc
  split at hc
  · obtain ⟨-, -, a', ha', -, hq⟩ := hc
    cases ha'.symm.trans ha
    exact hq
  · cases hc.2.2.symm.trans ha
  all_goals cases hc.2.2.2.symm.trans ha

/-- A touched traveller stands at a station. -/
theorem touched_at_station {i : Fin 32} (ht : Touched s i) : ∃ st : Station, s.slotAt (stationPos st) = some i := by
  obtain ⟨q, hq, ⟨st, c, hc, rfl⟩ | ⟨e, a, ha, rfl⟩ | hpass⟩ := ht
  · exact ⟨st, by rw [State.slotAt, ← (h.claims st c hc).2]; exact hq⟩
  · exact ⟨engineStation e, by rw [State.slotAt, ← awaiting_platen h ha]; exact hq⟩
  · exact ⟨.spray, (h.booth i hpass).1⟩

theorem slot_iff_platen {i : Fin 32} {v : Traveller} (hv : s.trav? i = some v) (k : Fin 12) :
    s.slotAt k = some i ↔ v.platen = some (platenAt s.ring k) := by
  refine (h.carried _ i).trans ⟨fun ⟨w, hw, hp⟩ => ?_, fun hp => ⟨v, hv, hp⟩⟩
  cases hv.symm.trans hw
  exact hp

/-- The traveller one position behind an engine is not touched, and forced handling leaves it as it is. -/
theorem behind_engine {e : Engine} {i : Fin 32} {v : Traveller} (hi : s.slotAt (enginePos e - 1) = some i)
    (hv : s.trav? i = some v) : ¬ Touched s i ∧ (forcedHandling s).trav? i = some v := by
  have honce := carriedOnce_of_consistent h.carried
  have hnot : ¬ Touched s i := fun ht => by
    obtain ⟨st, hst⟩ := touched_at_station h ht
    have hpos := honce.pos_inj hi hst
    exact absurd hpos (by cases e <;> cases st <;> decide)
  have hidle : v.stage ≠ .assigned ∧ v.stage ≠ .printing := by
    rw [← not_or]
    intro hwork
    obtain ⟨g, r, hg⟩ := works_of_trav h hv hwork
    exact hnot hg.touched
  have hpass : ¬ (s.pre.pass.map (·.trav) = some i ∨ s.gauge.pass.map (·.trav) = some i) := fun hp =>
    hnot ⟨_, hi, .inr (.inr hp)⟩
  refine ⟨hnot, ?_⟩
  rw [(forcedFrame h).trav i v v hv (fun ht => absurd ht hnot) (fun _ => rfl),
    interrupted_eq (fun hp => absurd hp hpass) (fun hw => absurd hw (not_or.mpr hidle))]
  rw [not_or] at hpass
  rw [cutShort, if_neg hpass.1, if_neg hpass.2, undone_of_idle hidle]

theorem moved_forcedHandling (i : Fin 32) (v : Traveller) : moved (forcedHandling s) i v = moved s i v := by
  have f := forcedFrame h
  have hslot (k : Fin 12) : (forcedHandling s).slotAt k = s.slotAt k :=
    slotAt_congr (by rw [f.ring]) (by rw [f.ring]) k
  rw [moved, moved, hslot, hslot, f.leaves.constants]

/-- R56, R100: what a forced index brings to an engine, read off the part before it. -/
theorem arrivesAt_forced {e : Engine} {i : Fin 32} {v : Traveller} :
    ArrivesAt e (forcedHandling s) i v ↔ s.mode = .run ∧ homeFits s ∧ s.trav? i = some v ∧ v.stage = .readyToPrint ∧
      v.platen = some (platenAt s.ring (enginePos e - 1)) ∧ (settledRec s.constants (s.engine e)).state = .ready := by
  have f := forcedFrame h
  have hmode : (forcedHandling s).mode = s.mode := congrArg Setup.mode f.setup
  have hslot (k : Fin 12) : (forcedHandling s).slotAt k = s.slotAt k :=
    slotAt_congr (by rw [f.ring]) (by rw [f.ring]) k
  have hawait : (forcedHandling s).awaitingAt e = none := by
    rw [State.awaitingAt, f.ring]
    exact Tab.get_fill _ _
  have hfits : homeFits (forcedHandling s) ↔ homeFits s := homeFits_congr f.leaves.lines (by rw [f.ring])
  rw [ArrivesAt, hmode, hfits, hslot, hawait, f.engine]
  constructor
  · rintro ⟨hrun, hfit, hi, hv, hst, -, he⟩
    cases hv' : s.trav? i with
    | none =>
      have hid := f.leaves.ident i
      simp [hv, hv'] at hid
    | some w =>
      cases hv.symm.trans (behind_engine h hi hv').2
      exact ⟨hrun, hfit, rfl, hst, (slot_iff_platen h hv' _).mp hi, he⟩
  · rintro ⟨hrun, hfit, hv, hst, hp, he⟩
    have hi := (slot_iff_platen h hv _).mpr hp
    exact ⟨hrun, hfit, hi, (behind_engine h hi hv).2, hst, rfl, he⟩

end

/-! ### Fault lists and laps -/

theorem count_addFault {c d : FaultCode} (h : c ≠ d) (v : Traveller) :
    (addFault c v).faults.count d = v.faults.count d := by
  unfold addFault
  split
  · simp [List.count_append, h]
  · rfl

theorem count_cutShort (s : State) (i : Fin 32) (v : Traveller) :
    (cutShort s i v).faults.count .forcedIndex = v.faults.count .forcedIndex := by
  unfold cutShort
  split
  · exact count_addFault (by decide) _
  · split
    · exact count_addFault (by decide) _
    · rfl

@[simp] theorem undone_faults (v : Traveller) : (undone v).faults = v.faults := by unfold undone; split <;> rfl

@[simp] theorem leaveLoaded_faults (v : Traveller) : (leaveLoaded v).faults = v.faults := by
  unfold leaveLoaded; split <;> rfl

theorem count_lapped (n : Nat) (v : Traveller) :
    (lapped n v).faults.count .forcedIndex = v.faults.count .forcedIndex := by
  unfold lapped
  split
  · dsimp only
    split
    · exact count_addFault (by decide) _
    · rfl
  · rfl

theorem count_moved (s : State) (i : Fin 32) (v : Traveller) :
    (moved s i v).faults.count .forcedIndex = v.faults.count .forcedIndex := by
  unfold moved
  split
  · rw [leaveLoaded_faults]
  · split
    · exact count_lapped _ _
    · rfl

/-- `movedOn` of the statements is the move of an index, no garment standing twice on the ring. -/
theorem moved_eq_movedOn {s : State} (h : CarriedOnce s) (i : Fin 32) (v : Traveller) : moved s i v = movedOn s i v := by
  unfold moved movedOn
  by_cases h0 : s.slotAt 0 = some i
  · have h10 : s.slotAt 10 ≠ some i := fun h10 => absurd (h.pos_inj h0 h10) (by decide)
    simp [h0, h10, leaveLoaded]
  · by_cases h10 : s.slotAt 10 = some i
    · cases hst : v.stage <;> simp [h0, h10, lapped, lapCounts, hst]
    · simp [h0, h10]

theorem moved_of_rejectPending {s : State} {i : Fin 32} {v : Traveller} (h : v.stage = .rejectPending) :
    moved s i v = v := by
  simp [moved, leaveLoaded, lapped, lapCounts, h]

theorem moved_at_engine {s : State} (h : CarriedOnce s) {e : Engine} {i : Fin 32} (hi : s.slotAt (enginePos e) = some i)
    (v : Traveller) : moved s i v = v := by
  have h0 : s.slotAt 0 ≠ some i := fun h0 => absurd (h.pos_inj hi h0) (by cases e <;> decide)
  have h10 : s.slotAt 10 ≠ some i := fun h10 => absurd (h.pos_inj hi h10) (by cases e <;> decide)
  rw [moved, if_neg h0, if_neg h10]

/-! ### The forced index as a whole -/

section
variable {s t : State} (h : FloorConsistent s) (hm : s.mode = .run ∨ s.mode = .hold) (hp : s.permit = false)
  (ht : t = takeIndex s)
include h hm hp ht

theorem forcedIndex_indexFrame : IndexFrame (forcedHandling s) t := by
  have f := forcedFrame h
  rw [ht, takeIndex_eq_settled hm, settled, if_neg (by simp [hp])]
  refine indexFrame f.passInFlight (carriedOnce_congr f.leaves.carried (carriedOnce_of_consistent h.carried)) ?_
  rwa [show (forcedHandling s).mode = s.mode from congrArg Setup.mode f.setup]

theorem leaves_forcedIndex : Leaves s t :=
  (forcedFrame h).leaves.trans (forcedIndex_indexFrame h hm hp ht).leaves

/-- A traveller that is brought to no engine. -/
theorem forcedIndex_trav? {i : Fin 32} {v f : Traveller} (hv : s.trav? i = some v)
    (hfa : Touched s i → f = addFault .forcedIndex v) (hfn : ¬ Touched s i → f = v)
    (ha : ∀ e w, ¬ ArrivesAt e (forcedHandling s) i w) :
    t.trav? i = some (moved s i (interrupted s i f)) := by
  rw [(forcedIndex_indexFrame h hm hp ht).trav i ha, (forcedFrame h).trav i v f hv hfa hfn, Option.map_some,
    moved_forcedHandling h]

/-- R14, R58: the faults of every traveller, and what becomes of prints and assignments. -/
theorem forcedIndex_faults {i : Fin 32} {v : Traveller} (hv : s.trav? i = some v) (hf : v.faults.length < 4) :
    ∃ w : Traveller, t.trav? i = some w ∧
      (Touched s i → w.faults.count .forcedIndex = v.faults.count .forcedIndex + 1) ∧
      (¬ Touched s i → w.faults.count .forcedIndex = v.faults.count .forcedIndex) ∧
      (v.stage = .printing → w.stage = .rejectPending ∧
        w.print = v.print.map fun r => { r with result := .fault, actual := none }) ∧
      (v.stage = .assigned → w.stage = .readyToPrint ∧ w.print = none) := by
  by_cases harr : ∃ e w, ArrivesAt e (forcedHandling s) i w
  · obtain ⟨e, w, ha⟩ := harr
    obtain ⟨-, -, hw, hst, hpl, -⟩ := (arrivesAt_forced h).mp ha
    cases hv.symm.trans hw
    have hnot := (behind_engine h ((slot_iff_platen h hv _).mpr hpl) hv).1
    obtain ⟨x, hx, hxf⟩ := ((forcedIndex_indexFrame h hm hp ht).tried e i v ha).faults
    exact ⟨x, hx, fun hi => absurd hi hnot, fun _ => by rw [hxf], fun hs => by simp [hst] at hs, fun hs => by simp [hst] at hs⟩
  · have hna : ∀ e w, ¬ ArrivesAt e (forcedHandling s) i w := fun e w ha => harr ⟨e, w, ha⟩
    obtain ⟨f, hfa, hfn⟩ := exists_faulted s i v
    obtain ⟨hst, hpr⟩ := faulted_same hfa hfn
    have heq : interrupted s i f = undone (cutShort s i f) :=
      interrupted_eq (fun hp => hst.trans (booth_stage h hv hp)) fun hwork => by
        obtain ⟨e, r, hwk⟩ := works_of_trav h hv (hst ▸ hwork)
        simp [hpr, hwk.print]
    have hcount : (moved s i (interrupted s i f)).faults.count .forcedIndex = f.faults.count .forcedIndex := by
      rw [count_moved, heq, undone_faults, count_cutShort]
    have honce := carriedOnce_of_consistent h.carried
    refine ⟨_, forcedIndex_trav? h hm hp ht hv hfa hfn hna, fun htouch => ?_, fun hnot => ?_, fun hs => ?_, fun hs => ?_⟩
    · rw [hcount, hfa htouch, addFault_of_lt hf]
      simp
    · rw [hcount, hfn hnot]
    · obtain ⟨e, r, hwk⟩ := works_of_trav h hv (.inr hs)
      have hund : undone (cutShort s i f) =
          { cutShort s i f with stage := .rejectPending, print := some { r with result := .fault, actual := none } } := by
        simp [undone, hst, hs, hpr, hwk.print]
      rw [heq, hund, moved_of_rejectPending rfl, hwk.print]
      exact ⟨rfl, rfl⟩
    · obtain ⟨e, r, hwk⟩ := works_of_trav h hv (.inl hs)
      have hund : undone (cutShort s i f) = { cutShort s i f with stage := .readyToPrint, print := none } := by
        simp [undone, hst, hs, hpr, hwk.print]
      rw [heq, hund, moved_at_engine honce hwk.slot]
      exact ⟨rfl, rfl⟩

/-- R54, R57: a traveller that the index brings to no engine, with its revision. -/
theorem forcedIndex_slot {i : Fin 32} {v f : Traveller} (hv : s.trav? i = some v)
    (hfa : Touched s i → f = addFault .forcedIndex v) (hfn : ¬ Touched s i → f = v) (ha : ¬ arriving s v) :
    (commit s t).table.slots.get i =
      slotAfter (s.table.slots.get i) (some (movedOn s i (interrupted s i f))) := by
  rw [(leaves_forcedIndex h hm hp ht).slot, forcedIndex_trav? h hm hp ht hv hfa hfn fun e w hw => ?_,
    moved_eq_movedOn (carriedOnce_of_consistent h.carried)]
  obtain ⟨-, -, hv', hst, hpl, -⟩ := (arrivesAt_forced h).mp hw
  cases hv.symm.trans hv'
  refine ha ⟨hst, ?_⟩
  cases e
  · exact .inl hpl
  · exact .inr hpl

/-- R107: an engine to which the index brings nothing to assign. -/
theorem forcedIndex_engine_idle {e : Engine}
    (hidle : (settledRec s.constants (s.engine e)).state ≠ .ready ∨ s.mode = .hold ∨ ¬ homeFits s ∨
      ∀ (i : Fin 32) (v : Traveller), s.trav? i = some v →
        v.platen = some (platenAt s.ring (enginePos e - 1)) → v.stage ≠ .readyToPrint) :
    (commit s t).awaitingAt e = none ∧
      (commit s t).engine e = engineAfter (s.engine e) (settledRec s.constants (s.engine e)) := by
  have f := forcedFrame h
  obtain ⟨he, ha⟩ := (forcedIndex_indexFrame h hm hp ht).idle e fun i v hw => by
    obtain ⟨hrun, hfit, hv, hst, hpl, hready⟩ := (arrivesAt_forced h).mp hw
    obtain hx | hx | hx | hx := hidle
    · exact hx hready
    · exact absurd (hrun.symm.trans hx) (by decide)
    · exact hx hfit
    · exact hx i v hv hpl hst
  refine ⟨?_, ?_⟩
  · rw [awaitingAt_commit, ha, State.awaitingAt, f.ring]
    exact Tab.get_fill _ _
  · rw [(leaves_forcedIndex h hm hp ht).engine, he, f.engine]

/-- R56, R100, R101: an engine to which the index brings a garment. -/
theorem forcedIndex_attempted {e : Engine} {i : Fin 32} {v : Traveller} {x : LineItem}
    (hready : (settledRec s.constants (s.engine e)).state = .ready) (hrun : s.mode = .run) (hfit : homeFits s)
    (hv : s.trav? i = some v) (hst : v.stage = .readyToPrint) (hpl : v.platen = some (platenAt s.ring (enginePos e - 1)))
    (hline : s.line? v.slot v.line = some x) :
    Attempted s (commit s t) e (settledRec s.constants (s.engine e)) i v
      (platenAt s.ring (enginePos e - 1)) x := by
  have f := forcedFrame h
  have htried := (forcedIndex_indexFrame h hm hp ht).tried e i v ((arrivesAt_forced h).mpr ⟨hrun, hfit, hv, hst, hpl, hready⟩)
  rw [boundLine_congr f.leaves.book, boundLine_of hline] at htried
  have hq : platenAt (rotated (forcedHandling s)).ring (enginePos e) = platenAt s.ring (enginePos e - 1) := by
    have hload : (rotated (forcedHandling s)).ring.load = s.ring.load + 1 := by
      simp [rotated, f.ring]
    simp only [platenAt, hload]
    omega
  have hatt := attempted_of_tried htried (leaves_forcedIndex h hm hp ht) f.leaves.constants hq
  rwa [show (rotated (forcedHandling s)).engine e = (forcedHandling s).engine e from rfl, f.engine] at hatt

end

/-- The edge touches nothing that the floor is made of. -/
theorem floorConsistent_indexEdge {s : State} (h : FloorConsistent s) (l : Fin 24) : FloorConsistent (indexEdge l s) where
  guarded := h.guarded
  carried := h.carried
  claims := h.claims
  booth := h.booth
  engines := h.engines
  held := h.held
  tunnel := h.tunnel
  quiet := h.quiet

/-- Settles O30: the forced handling, then the steps of the index, clause by clause. -/
theorem forcedIndexFaultsAffected : Obligations.ForcedIndexFaultsAffected := by
  intro l s h hm hp hof
  have h' := floorConsistent_indexEdge h l
  have f := forcedFrame h'
  have hfits := homeFits_indexEdge hof
  obtain ⟨t, ht⟩ : ∃ t, t = takeIndex (indexEdge l s) := ⟨_, rfl⟩
  have x := forcedIndex_indexFrame h' hm hp ht
  refine ⟨commit s t, ?_, ?_, ?_, ?_, ?_, ?_, ?_, ?_, ?_, ?_, ?_, fun e => ⟨?_, ?_, ?_⟩⟩
  · rw [exec_index hof, ht]
  · rw [commit_ring, x.ring, f.ring]
    rfl
  · rw [commit_ring, x.ring, f.ring]
    rfl
  · intro st
    rw [claimAt_commit, State.claimAt, x.ring, f.ring]
    exact Tab.get_fill _ _
  · have hq := f.passInFlight
    rw [passInFlight_commit]
    rw [passInFlight_eq_false_iff] at hq ⊢
    rwa [x.pre, x.gauge]
  · exact fun p hp => x.leaves.isPending (f.forced p hp)
  · intro i v hv hlen
    rw [commit_trav?]
    exact forcedIndex_faults h' hm hp ht hv hlen
  · rw [commit_pre, x.pre, f.pre]
    rfl
  · rw [commit_gauge, x.gauge, f.gauge]
    rfl
  · exact fun hpass => x.leaves.isPending (f.passFault hpass)
  · exact fun i v g hv htouch hnot ha => forcedIndex_slot h' hm hp ht hv htouch hnot ha
  · exact fun hidle => forcedIndex_engine_idle h' hm hp ht (by rwa [hfits])
  · exact fun he hc => x.leaves.isPending (f.cleanDue e he hc)
  · exact fun i v y hready hrun hfit hv hst hplaten hline =>
      forcedIndex_attempted h' hm hp ht hready hrun (hfits.mpr hfit) hv hst hplaten hline

end Sys2Proof.PlatenRing
end

