-- ==== Sys2Proof/Proofs/PlatenRing/Realign.lean ====
section
/-! PROOF. The re-alignment of the ring map (R60): which travellers leave LOADED, what the arrivals then find at the print
positions, and how the revisions of the ring end. -/

namespace Sys2Proof.PlatenRing

open Sys2Proof Sys2Proof.Machine

/-! ### Travellers away from position 0 leave LOADED -/

theorem leaveLoaded_leaveLoaded (v : Traveller) : leaveLoaded (leaveLoaded v) = leaveLoaded v := by
  unfold leaveLoaded
  split
  · split <;> simp
  · rfl

/-- R60, for one platen. -/
def leaveAway (s : State) (q : Fin 12) : State :=
  if q = s.ring.load then s
  else match s.ring.carried.get q with
    | some i => modTrav i leaveLoaded s
    | none => s

theorem leaveLoadedAway_eq (s : State) : leaveLoadedAway s = (List.finRange 12).foldl leaveAway s := rfl

theorem leaveAway_of_some {s : State} {q : Fin 12} {i : Fin 32} (hq : q ≠ s.ring.load)
    (hi : s.ring.carried.get q = some i) : leaveAway s q = modTrav i leaveLoaded s := by
  simp [leaveAway, hq, hi]

theorem leaveAway_of_not {s : State} {q : Fin 12} (h : ∀ i, q ≠ s.ring.load → s.ring.carried.get q ≠ some i) :
    leaveAway s q = s := by
  unfold leaveAway
  split
  · rfl
  · rename_i hq
    rw [Option.eq_none_iff_forall_ne_some.mpr fun i => h i hq]

theorem leaveAway_cases (s : State) (q : Fin 12) :
    ((∀ i, q ≠ s.ring.load → s.ring.carried.get q ≠ some i) ∧ leaveAway s q = s) ∨
      ∃ i, (q ≠ s.ring.load ∧ s.ring.carried.get q = some i) ∧ leaveAway s q = modTrav i leaveLoaded s := by
  by_cases h : ∃ i, q ≠ s.ring.load ∧ s.ring.carried.get q = some i
  · obtain ⟨i, hi⟩ := h
    exact .inr ⟨i, hi, leaveAway_of_some hi.1 hi.2⟩
  · have hn : ∀ i, q ≠ s.ring.load → s.ring.carried.get q ≠ some i := fun i hq hi => h ⟨i, hq, hi⟩
    exact .inl ⟨hn, leaveAway_of_not hn⟩

/-- What the travellers' leaving LOADED touches: nothing but the travellers that the platens in `l` carry away from
position 0. -/
structure AwayFrame (l : List (Fin 12)) (s t : State) : Prop where
  leaves : Leaves s t
  setup : t.setup = s.setup
  ring : t.ring = s.ring
  pre : t.pre = s.pre
  gauge : t.gauge = s.gauge
  engines : t.engines = s.engines
  trav : ∀ i : Fin 32, t.trav? i =
    if ∃ q ∈ l, q ≠ s.ring.load ∧ s.ring.carried.get q = some i then (s.trav? i).map leaveLoaded else s.trav? i

theorem awayFrame_leaveAway (s : State) (q : Fin 12) : AwayFrame [q] s (leaveAway s q) := by
  obtain ⟨hn, he⟩ | ⟨j, hj, he⟩ := leaveAway_cases s q
  · rw [he]
    exact ⟨Leaves.refl s, rfl, rfl, rfl, rfl, rfl, fun i => by rw [if_neg]; simpa using hn i⟩
  · rw [he]
    refine ⟨leaves_modTrav s j ident_leaveLoaded, modTrav_setup _ _ _, modTrav_ring _ _ _, modTrav_pre _ _ _,
      modTrav_gauge _ _ _, modTrav_engines _ _ _, fun i => ?_⟩
    rw [trav?_modTrav]
    by_cases hij : i = j
    · subst hij
      simp [hj]
    · simp [hj, hij, Ne.symm hij]

theorem AwayFrame.cons {q : Fin 12} {l : List (Fin 12)} {s t u : State} (h : AwayFrame [q] s t) (k : AwayFrame l t u) :
    AwayFrame (q :: l) s u := by
  refine ⟨h.leaves.trans k.leaves, k.setup.trans h.setup, k.ring.trans h.ring, k.pre.trans h.pre, k.gauge.trans h.gauge,
    k.engines.trans h.engines, fun i => ?_⟩
  rw [k.trav, h.trav, h.ring]
  by_cases hq : q ≠ s.ring.load ∧ s.ring.carried.get q = some i <;>
    by_cases hl : ∃ p ∈ l, p ≠ s.ring.load ∧ s.ring.carried.get p = some i <;>
    simp [hq, hl, Function.comp_def, leaveLoaded_leaveLoaded]

theorem awayFrame_foldl (l : List (Fin 12)) (s : State) : AwayFrame l s (l.foldl leaveAway s) := by
  induction l generalizing s with
  | nil => exact ⟨Leaves.refl s, rfl, rfl, rfl, rfl, rfl, fun i => by simp⟩
  | cons q l ih => exact (awayFrame_leaveAway s q).cons (ih _)

/-- A ring that carries nothing has nobody to leave LOADED. -/
theorem leaveLoadedAway_of_empty {s : State} (h : ∀ q : Fin 12, s.ring.carried.get q = none) : leaveLoadedAway s = s := by
  have hfold (l : List (Fin 12)) : l.foldl leaveAway s = s := by
    induction l with
    | nil => rfl
    | cons q l ih => rw [List.foldl_cons, leaveAway_of_not fun i _ hi => by simp [h] at hi, ih]
  exact hfold _

/-! ### The map is re-aligned (R60) -/

/-- R60, once what a changed load platen calls for is handled. -/
def aligned (p : Fin 12) (s : State) : State :=
  leaveLoadedAway (s.setRing { s.ring with load := p, synced := true, lapse := .fill none })

theorem realign_eq (p : Fin 12) (s : State) :
    realign p s = aligned p (if p = s.ring.load then s else forcedHandling s) := rfl

/-- What the re-alignment leaves, and the travellers that leave LOADED. -/
structure AlignFrame (p : Fin 12) (s t : State) : Prop where
  leaves : Leaves s t
  setup : t.setup = s.setup
  pre : t.pre = s.pre
  gauge : t.gauge = s.gauge
  engines : t.engines = s.engines
  ring : t.ring = { s.ring with load := p, synced := true, lapse := .fill none }
  trav : ∀ i : Fin 32, t.trav? i =
    if ∃ q, q ≠ p ∧ s.ring.carried.get q = some i then (s.trav? i).map leaveLoaded else s.trav? i

theorem alignFrame (p : Fin 12) (s : State) : AlignFrame p s (aligned p s) := by
  obtain ⟨u, hu⟩ : ∃ u, u = s.setRing { s.ring with load := p, synced := true, lapse := .fill none } := ⟨_, rfl⟩
  have hleaves : Leaves s u := hu ▸ leaves_setRing s (by rfl) (by rfl)
  have f := awayFrame_foldl (List.finRange 12) u
  rw [← leaveLoadedAway_eq] at f
  rw [aligned, ← hu]
  refine ⟨hleaves.trans f.leaves, ?_, ?_, ?_, ?_, ?_, fun i => ?_⟩
  · rw [f.setup, hu, setRing_setup]
  · rw [f.pre, hu, setRing_pre]
  · rw [f.gauge, hu, setRing_gauge]
  · rw [f.engines, hu, setRing_engines]
  · rw [f.ring, hu, setRing_ring]
  · have htrav : u.trav? i = s.trav? i := trav?_congr (by rw [hu, setRing_table]) i
    have hring : u.ring = { s.ring with load := p, synced := true, lapse := .fill none } := by rw [hu, setRing_ring]
    rw [f.trav, htrav, hring]
    simp only [List.mem_finRange, true_and]

/-- On a ring that carries nothing the map alone is re-aligned. -/
theorem aligned_of_empty {s : State} (h : ∀ q : Fin 12, s.ring.carried.get q = none) (p : Fin 12) :
    aligned p s = s.setRing { s.ring with load := p, synced := true, lapse := .fill none } :=
  leaveLoadedAway_of_empty h

/-! ### Forced handling of an empty ring -/

theorem forcedHandling_of_empty {s : State} (h : ∀ q : Fin 12, s.ring.carried.get q = none)
    (hp : s.passInFlight = false) : forcedHandling s = raiseOn stationPorts .forcedIndex (dropClaims s) := by
  have hslots : affectedSlots s = [] := by simp [affectedSlots, h]
  have hfaulted : faulted s = s := by rw [faulted, hslots]; rfl
  rw [forcedHandling_eq, hfaulted, stopPass_of_none hp, hslots]
  rfl

/-! ### Arrivals at stations that stand already (R56, R60) -/

theorem slotAt_of_empty {s : State} (h : ∀ q : Fin 12, s.ring.carried.get q = none) (k : Fin 12) : s.slotAt k = none :=
  h _

theorem arrivals_of_empty {s : State} (h : ∀ q : Fin 12, s.ring.carried.get q = none) :
    arrivals s = raise .prep .loadReady s := by
  have hreports : reports s = raise .prep .loadReady s := by
    simp [reports, reportPress, reportSpray, reportLoad, State.travAt, slotAt_of_empty h]
  have hattempt (e : Engine) : attempt e (raise .prep .loadReady s) = raise .prep .loadReady s :=
    attempt_of_none (Option.eq_none_iff_forall_ne_some.mpr fun x hx => by
      have hslot := (assignable_eq_some_iff.mp hx).1
      simp [slotAt_of_empty h] at hslot)
  change reportUnload (attempt .b (attempt .a (reports s))) = _
  rw [hreports, hattempt, hattempt, reportUnload, if_neg (by simp [slotAt_of_empty h])]

/-- A ring in RUN without lapse marks that agrees with the traveller table. -/
structure Ready (s : State) : Prop where
  run : s.mode = .run
  lapse : s.ring.lapse = .fill none
  carried : CarriedConsistent s

theorem carriedConsistent_of_leaves {s t : State} (h : Leaves s t) (hc : CarriedConsistent s) : CarriedConsistent t := by
  intro p i
  have hplaten : (t.trav? i).map (·.platen) = (s.trav? i).map (·.platen) := by
    simpa [Function.comp_def, ident] using congrArg (Option.map fun x => x.2.2.2) (h.ident i)
  have hread (u : State) : (∃ v : Traveller, u.trav? i = some v ∧ v.platen = some p) ↔
      (u.trav? i).map (·.platen) = some (some p) := by simp
  rw [h.carried, hc, hread, hread, hplaten]

section
variable {s : State} (h : Ready s)
include h

theorem Ready.assignable_iff {e : Engine} {i : Fin 32} {v : Traveller} : assignable e s = some (i, v) ↔
    s.trav? i = some v ∧ v.platen = some (platenAt s.ring (enginePos e)) ∧ v.stage = .readyToPrint ∧
      s.awaitingAt e = none ∧ (s.engine e).state = .ready := by
  have hlapse : s.lapseAt e = none := by
    rw [State.lapseAt, h.lapse]
    exact Tab.get_fill _ _
  have hslot := h.carried (platenAt s.ring (enginePos e)) i
  rw [assignable_eq_some_iff]
  constructor
  · rintro ⟨hi, hv, -, hst, ha, -, he⟩
    obtain ⟨w, hw, hp⟩ := hslot.mp hi
    cases hv.symm.trans hw
    exact ⟨hv, hp, hst, ha, he⟩
  · rintro ⟨hv, hp, hst, ha, he⟩
    exact ⟨hslot.mpr ⟨v, hv, hp⟩, hv, h.run, hst, ha, hlapse, he⟩

theorem Ready.arrivalsFrame : ArrivalsFrame s (arrivals s) :=
  PlatenRing.arrivalsFrame (carriedOnce_of_consistent h.carried)

/-- A traveller that does not stand READY_TO_PRINT at a print position. -/
theorem Ready.trav? {i : Fin 32} {v : Traveller} (hv : s.trav? i = some v) (hat : ¬ atPrint s.ring.load v) :
    (arrivals s).trav? i = some v := by
  rw [h.arrivalsFrame.trav i, hv]
  intro e w he
  obtain ⟨hw, hp, hst, -⟩ := h.assignable_iff.mp he
  cases hv.symm.trans hw
  refine hat ⟨hst, ?_⟩
  cases e
  · exact .inl hp
  · exact .inr hp

/-- An engine that is not READY, awaits a claim, or has no READY_TO_PRINT traveller at its position. -/
theorem Ready.idle {e : Engine} (hidle : (s.awaitingAt e).isSome = true ∨ (s.engine e).state ≠ .ready ∨
    ∀ (i : Fin 32) (v : Traveller), s.trav? i = some v → v.platen = some (platenAt s.ring (enginePos e)) →
      v.stage ≠ .readyToPrint) :
    (arrivals s).engine e = s.engine e ∧ (arrivals s).awaitingAt e = s.awaitingAt e := by
  refine h.arrivalsFrame.idle e (Option.eq_none_iff_forall_ne_some.mpr fun ⟨i, v⟩ hx => ?_)
  obtain ⟨hv, hp, hst, ha, he⟩ := h.assignable_iff.mp hx
  obtain hi | hi | hi := hidle
  · simp [ha] at hi
  · exact hi he
  · exact hi i v hv hp hst

end

/-! ### The revisions of the ring (R45, R60) -/

theorem ringView_advanceUnchangedRing (u w : State) (k : Fin 12) : ringView (advanceUnchangedRing u w) k = ringView w k :=
  rfl

/-- R60: every RING record advances once, whether it changed or not. -/
theorem commit_advanceUnchangedRing {u w : State} (h : w.ring.revs = u.ring.revs) :
    commit u (advanceUnchangedRing u w) =
      (commit u w).setRing { w.ring with revs := .ofFn fun k => u.ring.revs.get k + 1 } := by
  have hrevs : (commit u (advanceUnchangedRing u w)).ring.revs = .ofFn fun k => u.ring.revs.get k + 1 :=
    Tab.ext_get fun k => by
      rw [commit_ring_rev, ringView_advanceUnchangedRing]
      by_cases hk : ringView w k = ringView u k <;> simp [advanceUnchangedRing, hk, h]
  have hring := commit_ring u (advanceUnchangedRing u w)
  rw [hrevs] at hring
  have hrest : commit u (advanceUnchangedRing u w) =
      (commit u w).setRing (commit u (advanceUnchangedRing u w)).ring := rfl
  rw [hrest, hring]
  rfl

end Sys2Proof.PlatenRing
end

