-- ==== Sys2Proof/Proofs/PlatenRing/Resume.lean ====
section
/-! PROOF. RESUME (O20): the end of the command, a ring that carries nothing, and a ring with travellers. -/

namespace Sys2Proof.PlatenRing

open Sys2Proof Sys2Proof.Machine

/-! ### The end of a RESUME (R159) -/

/-- The part at the end of a RESUME whose effects lead from `u` to `w`. -/
def resumeEnd (u w : State) : State :=
  respond .gateway 0x15 .ok [] ((commit u w).setRing { w.ring with revs := .ofFn fun k => u.ring.revs.get k + 1 })

section
variable (u w : State)

theorem resumeEnd_ring : (resumeEnd u w).ring = { w.ring with revs := .ofFn fun k => u.ring.revs.get k + 1 } := rfl
theorem resumeEnd_setup : (resumeEnd u w).setup = w.setup := rfl
theorem resumeEnd_notices : (resumeEnd u w).notices = w.notices := rfl
theorem resumeEnd_permit : (resumeEnd u w).permit = w.permit := rfl
theorem resumeEnd_ports : (resumeEnd u w).ports =
    w.ports.set (portNo .gateway) { w.port .gateway with holder := ⟨0x15, .ok, []⟩ } := rfl
theorem resumeEnd_awaitingAt (e : Engine) : (resumeEnd u w).awaitingAt e = w.awaitingAt e := rfl
theorem resumeEnd_engine (e : Engine) : (resumeEnd u w).engine e = (commit u w).engine e := rfl
theorem resumeEnd_slots : (resumeEnd u w).table.slots = (commit u w).table.slots := rfl
theorem isPending_resumeEnd (p : Port) (x : Source) : isPending (resumeEnd u w) p x ↔ isPending w p x := Iff.rfl

end

theorem resumeEnd_trav? (u w : State) (i : Fin 32) : (resumeEnd u w).trav? i = w.trav? i := commit_trav? u w i

theorem permit_commit (s u : State) : (commit s u).permit = u.permit := rfl

theorem attempted_resumeEnd {s u w : State} {e : Engine} {x : EngineRec} {i : Fin 32} {v : Traveller} {q : Fin 12}
    {l : LineItem} (h : Attempted s (commit u w) e x i v q l) : Attempted s (resumeEnd u w) e x i v q l := by
  simpa only [Attempted, resumeEnd_trav?, resumeEnd_engine, resumeEnd_awaitingAt, resumeEnd_permit, isPending_resumeEnd,
    commit_trav?, awaitingAt_commit, permit_commit, isPending_commit] using h

section
variable {p : Fin 12} {s u w : State} (hu : u = endFrame .gateway 3 false s)
include hu

theorem exec_resume (hm : s.mode = .hold) (hw : w = arrivals (realign p (setMode .run u))) (hl : Leaves u w) :
    exec (.resume .gateway [BitVec.ofNat 8 p.val]) s = .next (resumeEnd u w) := by
  have hbody : resumeBody [BitVec.ofNat 8 p.val] u = .accept (advanceUnchangedRing u w) [] := by
    rw [resumeBody, byteAt_cons_ofNat (by omega), fin?_val, hw]
    rfl
  rw [hu] at hbody
  refine congrArg Host.Outcome.next ((command_taken (by simp) (by simp [hm]) rfl hbody).trans ?_)
  change respond .gateway 0x15 .ok [] (commit (endFrame .gateway 3 false s) _) = _
  rw [← hu, commit_advanceUnchangedRing hl.ringRevs]
  rfl

theorem keeps_resumeEnd {changed : List Block} (hp : Block.ports ∈ changed) (hr : Block.ring ∈ changed)
    (hl : Leaves u w) (h : Keeps changed u w) : Keeps changed s (resumeEnd u w) := by
  have hadvance : Keeps changed w (advanceUnchangedRing u w) :=
    ⟨rfl, rfl, fun b hb => by cases b <;> first | rfl | exact absurd hr hb⟩
  have hserials : SerialsKept u (advanceUnchangedRing u w) := hl.serialsKept
  rw [resumeEnd, ← commit_advanceUnchangedRing hl.ringRevs]
  subst hu
  exact keeps_taken hp (keeps_trans h hadvance) hserials

theorem answered_resumeEnd (hl : Leaves u w) (b : Byte) :
    (resumeEnd u w).ports = answered .gateway 0x15 [b] .ok [] s := by
  have hports : w.ports = s.ports.set (portNo .gateway)
      { s.port .gateway with receiver := .idle, shifted := shiftedOut (s.port .gateway).holder false 3 } := by
    rw [hl.ports, hu, endFrame_ports]
  rw [resumeEnd_ports, State.port, hports]
  simp [answered, answeredWith, State.port]

end

/-! ### A ring that carries nothing -/

/-- R60: with nothing on the ring, the map is re-aligned and LOAD_READY raised. -/
theorem arrivals_aligned_of_empty {p : Fin 12} {z : State} (h : ∀ q : Fin 12, z.ring.carried.get q = none) :
    arrivals (aligned p z) =
      raise .prep .loadReady (z.setRing { z.ring with load := p, synced := true, lapse := .fill none }) := by
  rw [aligned_of_empty h, arrivals_of_empty]
  exact h

/-- The clause of O20 for an empty ring at its own load platen. -/
theorem resume_empty_same {s : State} (hm : s.mode = .hold) (hc : ∀ p : Fin 12, s.ring.carried.get p = none) :
    ∃ t : State, exec (.resume .gateway [BitVec.ofNat 8 s.ring.load.val]) s = .next t ∧
      Keeps [.setup, .ring, .notices, .ports] s t ∧ t.setup = { s.setup with mode := .run } ∧
      t.ring = { s.ring with lapse := .fill none, synced := true, revs := .ofFn fun k => s.ring.revs.get k + 1 } ∧
      t.notices = raisedIn [(.prep, .loadReady)] s.notices ∧
      t.ports = answered .gateway 0x15 [BitVec.ofNat 8 s.ring.load.val] .ok [] s := by
  obtain ⟨u, hu⟩ : ∃ u, u = endFrame .gateway 3 false s := ⟨_, rfl⟩
  have hring : u.ring = s.ring := by rw [hu]; rfl
  obtain ⟨w, hw⟩ : ∃ w, w = raise .prep .loadReady ((setMode .run u).setRing
    { u.ring with load := s.ring.load, synced := true, lapse := .fill none }) := ⟨_, rfl⟩
  have hres : w = arrivals (realign s.ring.load (setMode .run u)) := by
    rw [realign_eq, if_pos (by rw [setMode_ring, hring]), arrivals_aligned_of_empty (by rw [setMode_ring, hring]; exact hc),
      hw, setMode_ring]
  have hl : Leaves u w := by
    rw [hw]
    exact (leaves_setMode u _).trans ((leaves_setRing _ (by rfl) (by rfl)).trans (leaves_raise _ _ _))
  refine ⟨_, exec_resume hu hm hres hl, keeps_resumeEnd hu (by simp) (by simp) hl ?_, ?_, ?_, ?_, answered_resumeEnd hu hl _⟩
  · exact hl.keeps (by simp [Block.same, hw])
  · rw [resumeEnd_setup, hw, hu]
    rfl
  · rw [resumeEnd_ring, hw, raise_ring, setRing_ring, hring]
  · rw [resumeEnd_notices, hw, raise_notices, hu]
    rfl

/-- The clause of O20 for an empty ring at another platen. -/
theorem resume_empty_other {p : Fin 12} {s : State} (hm : s.mode = .hold) (hp : p ≠ s.ring.load)
    (hc : ∀ q : Fin 12, s.ring.carried.get q = none) (hpass : s.passInFlight = false) :
    ∃ t : State, exec (.resume .gateway [BitVec.ofNat 8 p.val]) s = .next t ∧
      Keeps [.setup, .ring, .notices, .ports] s t ∧ t.setup = { s.setup with mode := .run } ∧
      t.ring = { s.ring with load := p, synced := true, claims := .fill none, awaiting := .fill none, lapse := .fill none,
                             revs := .ofFn fun k => s.ring.revs.get k + 1 } ∧
      t.notices = raisedIn [(.prep, .forcedIndex), (.engineA, .forcedIndex), (.engineB, .forcedIndex),
        (.tunnel, .forcedIndex), (.prep, .loadReady)] s.notices ∧ t.permit = true := by
  obtain ⟨u, hu⟩ : ∃ u, u = endFrame .gateway 3 false s := ⟨_, rfl⟩
  have hring : u.ring = s.ring := by rw [hu]; rfl
  have hpassu : (setMode .run u).passInFlight = false := by rw [hu]; exact hpass
  obtain ⟨z, hz⟩ : ∃ z, z = raiseOn stationPorts .forcedIndex (dropClaims (setMode .run u)) := ⟨_, rfl⟩
  have hzring : z.ring = { s.ring with claims := .fill none, awaiting := .fill none } := by
    rw [hz, raiseOn_ring, dropClaims_eq, setRing_ring, setMode_ring, hring]
  obtain ⟨w, hw⟩ : ∃ w, w = raise .prep .loadReady (z.setRing
    { z.ring with load := p, synced := true, lapse := .fill none }) := ⟨_, rfl⟩
  have hres : w = arrivals (realign p (setMode .run u)) := by
    rw [realign_eq, if_neg (by rwa [setMode_ring, hring]),
      forcedHandling_of_empty (by rw [setMode_ring, hring]; exact hc) hpassu, ← hz,
      arrivals_aligned_of_empty (by rw [hzring]; exact hc), hw]
  have hlz : Leaves u z := by
    rw [hz, dropClaims_eq]
    exact (leaves_setMode u _).trans ((leaves_setRing _ (by rfl) (by rfl)).trans (leaves_raiseOn _ _ _))
  have hl : Leaves u w := by
    rw [hw]
    exact hlz.trans ((leaves_setRing _ (by rfl) (by rfl)).trans (leaves_raise _ _ _))
  have hsetup : w.setup = { s.setup with mode := .run } := by
    rw [hw, raise_setup, setRing_setup, hz, raiseOn_setup, dropClaims_setup, hu]
    rfl
  have hwring : w.ring = { s.ring with
      load := p, synced := true, claims := .fill none, awaiting := .fill none, lapse := .fill none } := by
    rw [hw, raise_ring, setRing_ring, hzring]
  refine ⟨_, exec_resume hu hm hres hl, keeps_resumeEnd hu (by simp) (by simp) hl ?_, ?_, ?_, ?_, ?_⟩
  · exact hl.keeps (by simp [Block.same, hw, hz])
  · rw [resumeEnd_setup, hsetup]
  · rw [resumeEnd_ring, hwring, hring]
  · rw [resumeEnd_notices, hw, raise_notices, setRing_notices, hz, raiseOn_notices, dropClaims_notices, hu,
      raisedIn_raisedIn]
    rfl
  · have hwpass : w.passInFlight = false := by
      rw [passInFlight_eq_false_iff] at hpassu ⊢
      simpa [hw, hz] using hpassu
    rw [resumeEnd_permit]
    simp [State.permit, State.mode, hsetup, hwring, hwpass]

/-! ### A ring with travellers -/

/-- A traveller after the re-alignment, `v` before it. -/
theorem AlignFrame.trav_platen {p : Fin 12} {s t : State} (f : AlignFrame p s t) (hc : CarriedConsistent s) {i : Fin 32}
    {v : Traveller} (hv : s.trav? i = some v) :
    t.trav? i = some (if v.platen ≠ none ∧ v.platen ≠ some p then leaveLoaded v else v) := by
  have haway : (∃ q, q ≠ p ∧ s.ring.carried.get q = some i) ↔ v.platen ≠ none ∧ v.platen ≠ some p := by
    have hread (q : Fin 12) : s.ring.carried.get q = some i ↔ v.platen = some q := by
      rw [hc]
      exact ⟨fun ⟨x, hx, hq⟩ => by cases hv.symm.trans hx; exact hq, fun hq => ⟨v, hv, hq⟩⟩
    simp only [hread]
    cases v.platen with
    | none => simp
    | some q => simp
  rw [f.trav, hv]
  simp only [haway]
  split <;> rfl

theorem Leaves.exists_trav {s t : State} (h : Leaves s t) {i : Fin 32} {x : Traveller} (hx : t.trav? i = some x) :
    ∃ v, s.trav? i = some v ∧ PlatenRing.ident x = PlatenRing.ident v := by
  have hid := h.ident i
  rw [hx, Option.map_some, eq_comm, Option.map_eq_some_iff] at hid
  obtain ⟨v, hv, hxv⟩ := hid
  exact ⟨v, hv, hxv.symm⟩

/-- R60: a re-aligned ring that RESUME has put in RUN. -/
theorem AlignFrame.ready {p : Fin 12} {s t : State} (f : AlignFrame p s t) (hm : s.mode = .run) (hc : CarriedConsistent s) :
    Ready t :=
  ⟨(congrArg Setup.mode f.setup).trans hm, by rw [f.ring], carriedConsistent_of_leaves f.leaves hc⟩

/-! What the arrivals of a re-aligned ring leave at the end of the command. -/

section
variable {u y : State} (h : Ready y) (hl : Leaves u y)
include h hl

theorem leaves_arrivals : Leaves u (arrivals y) := hl.trans h.arrivalsFrame.leaves

theorem resumed_slot {i : Fin 32} {x : Traveller} (hx : y.trav? i = some x) (hat : ¬ atPrint y.ring.load x) :
    (resumeEnd u (arrivals y)).table.slots.get i = slotAfter (u.table.slots.get i) (some x) := by
  rw [resumeEnd_slots, (leaves_arrivals h hl).slot, h.trav? hx hat]

theorem resumed_idle {e : Engine} (hidle : (y.awaitingAt e).isSome = true ∨ (y.engine e).state ≠ .ready ∨
    ∀ (i : Fin 32) (v : Traveller), y.trav? i = some v → v.platen = some (platenAt y.ring (enginePos e)) →
      v.stage ≠ .readyToPrint) :
    (resumeEnd u (arrivals y)).awaitingAt e = y.awaitingAt e ∧
      (resumeEnd u (arrivals y)).engine e = engineAfter (u.engine e) (y.engine e) := by
  obtain ⟨he, ha⟩ := h.idle hidle
  exact ⟨by rw [resumeEnd_awaitingAt, ha], by rw [resumeEnd_engine, (leaves_arrivals h hl).engine, he]⟩

theorem resumed_attempted {e : Engine} {i : Fin 32} {x : Traveller} {l : LineItem} (hx : y.trav? i = some x)
    (hst : x.stage = .readyToPrint) (hp : x.platen = some (platenAt y.ring (enginePos e))) (ha : y.awaitingAt e = none)
    (he : (y.engine e).state = .ready) (hline : u.line? x.slot x.line = some l) :
    Attempted u (resumeEnd u (arrivals y)) e (y.engine e) i x (platenAt y.ring (enginePos e)) l := by
  have ht := h.arrivalsFrame.tried e i x (h.assignable_iff.mpr ⟨hx, hp, hst, ha, he⟩)
  rw [boundLine_congr hl.book, boundLine_of hline] at ht
  exact attempted_resumeEnd (attempted_of_tried ht (leaves_arrivals h hl) hl.constants rfl)

end

end Sys2Proof.PlatenRing
end

