-- ==== Sys2Proof/Proofs/PlatenRing/ResumeTravellers.lean ====
section
/-! PROOF. RESUME with travellers on the ring, and O20 as a whole. -/

namespace Sys2Proof.PlatenRing

open Sys2Proof Sys2Proof.Machine

/-! ### At the map's own load platen -/

/-- A traveller that leaves LOADED when its platen is away from position 0, as O20 writes it. -/
theorem leaveLoaded_away (p : Fin 12) (v : Traveller) :
    (if v.platen ≠ none ∧ v.platen ≠ some p then leaveLoaded v else v) =
      if v.stage = .loaded ∧ v.platen ≠ none ∧ v.platen ≠ some p then
        { v with stage := if v.pretreat.isSome then .pretreat else .readyToPrint }
      else v := by
  by_cases hst : v.stage = .loaded <;> simp [leaveLoaded, hst]

theorem leaveLoaded_ne_readyToPrint {v : Traveller} (h : v.stage ≠ .readyToPrint)
    (hl : v.stage = .loaded → v.pretreat.isSome = true) : (leaveLoaded v).stage ≠ .readyToPrint := by
  unfold leaveLoaded
  split
  · rename_i hst
    simp [hl hst]
  · exact h

theorem engineAfter_self (x : EngineRec) : engineAfter x x = x := if_pos rfl

/-- The clause of O20 for travellers on a ring at its own load platen. -/
theorem resume_same {s : State} (hm : s.mode = .hold) (hc : CarriedConsistent s) :
    ∃ t : State, exec (.resume .gateway [BitVec.ofNat 8 s.ring.load.val]) s = .next t ∧
      Keeps [.setup, .ring, .table, .engines, .notices, .ports] s t ∧ t.setup = { s.setup with mode := .run } ∧
      t.ring = { s.ring with lapse := .fill none, synced := true, awaiting := t.ring.awaiting,
                             revs := .ofFn fun k => s.ring.revs.get k + 1 } ∧
      (∀ (i : Fin 32) (v w : Traveller), s.trav? i = some v →
        w = (if v.stage = .loaded ∧ v.platen ≠ none ∧ v.platen ≠ some s.ring.load then
          { v with stage := if v.pretreat.isSome then .pretreat else .readyToPrint } else v) →
        (¬ atPrint s.ring.load w → t.table.slots.get i = slotAfter (s.table.slots.get i) (some w)) ∧
        ∀ (e : Engine) (l : LineItem), w.stage = .readyToPrint →
          w.platen = some (platenAt s.ring (enginePos e)) → s.awaitingAt e = none →
          (s.engine e).state = .ready → s.line? v.slot v.line = some l →
          Attempted s t e (s.engine e) i w (platenAt s.ring (enginePos e)) l) ∧
      ∀ e : Engine, ((s.awaitingAt e).isSome = true ∨ (s.engine e).state ≠ .ready ∨
          ∀ (i : Fin 32) (v : Traveller), s.trav? i = some v → v.platen = some (platenAt s.ring (enginePos e)) →
            v.stage ≠ .readyToPrint ∧ (v.stage = .loaded → v.pretreat.isSome = true)) →
        t.awaitingAt e = s.awaitingAt e ∧ t.engine e = s.engine e := by
  obtain ⟨u, hu⟩ : ∃ u, u = endFrame .gateway 3 false s := ⟨_, rfl⟩
  obtain ⟨r, hr⟩ : ∃ r, r = setMode .run u := ⟨_, rfl⟩
  obtain ⟨y, hy⟩ : ∃ y, y = aligned s.ring.load r := ⟨_, rfl⟩
  have hring : r.ring = s.ring := by rw [hr, hu]; rfl
  have htrav (i : Fin 32) : r.trav? i = s.trav? i := by rw [hr, hu]; rfl
  have hengine (e : Engine) : r.engine e = s.engine e := by rw [hr, hu]; rfl
  have hrc : CarriedConsistent r := by rw [hr, hu]; exact hc
  have f : AlignFrame s.ring.load r y := hy ▸ alignFrame _ _
  have hready : Ready y := f.ready (by rw [hr]; rfl) hrc
  have hl : Leaves u y := Leaves.trans (hr ▸ leaves_setMode u _) f.leaves
  have a := hready.arrivalsFrame
  obtain ⟨w, hw⟩ : ∃ w, w = arrivals y := ⟨_, rfl⟩
  have hres : w = arrivals (realign s.ring.load (setMode .run u)) := by
    rw [hw, hy, realign_eq, ← hr, if_pos (by rw [hring])]
  rw [← hw] at a
  have hyring : y.ring = { s.ring with synced := true, lapse := .fill none } := by rw [f.ring, hring]
  have hyengine (e : Engine) : y.engine e = s.engine e := by rw [State.engine, f.engines, ← hengine]; rfl
  have hyawait (e : Engine) : y.awaitingAt e = s.awaitingAt e := by simp [State.awaitingAt, hyring]
  have hplaten (e : Engine) : platenAt y.ring (enginePos e) = platenAt s.ring (enginePos e) := by simp [platenAt, hyring]
  have hytrav {i : Fin 32} {v : Traveller} (hv : s.trav? i = some v) := f.trav_platen hrc ((htrav i).trans hv)
  have hlw : Leaves u w := hw ▸ leaves_arrivals hready hl
  refine ⟨_, exec_resume hu hm hres hlw, keeps_resumeEnd hu (by simp) (by simp) hlw (hlw.keeps ?_), ?_, ?_,
    fun i v x hv hx => ⟨fun hat => ?_, fun e l hst hp ha he hline => ?_⟩, fun e hidle => ?_⟩
  · simp [Block.same, a.pre, a.gauge, f.pre, f.gauge, hr]
  · rw [resumeEnd_setup, a.setup, f.setup, hr, hu]
    rfl
  · rw [resumeEnd_ring, a.ring, hyring, hu]
    rfl
  · have hslot := resumed_slot hready hl (hytrav hv) (by rwa [leaveLoaded_away, ← hx, hyring])
    rw [leaveLoaded_away, ← hx, ← hw] at hslot
    rw [hslot, hu]
    rfl
  · have hyx := hytrav hv
    rw [leaveLoaded_away, ← hx] at hyx
    have hlx : u.line? x.slot x.line = some l := by
      rw [hu, show x.slot = v.slot by rw [hx]; split <;> rfl, show x.line = v.line by rw [hx]; split <;> rfl]
      exact hline
    have hatt := resumed_attempted hready hl hyx hst (by rw [hplaten, hp]) (by rw [hyawait, ha]) (by rw [hyengine, he]) hlx
    rw [hyengine, hplaten, ← hw, hu] at hatt
    rw [hu]
    exact hatt
  · have hend := resumed_idle (e := e) hready hl ?_
    · rw [hyengine, hyawait, ← hw] at hend
      refine hend.imp_right fun he => he.trans ?_
      rw [hu]
      exact engineAfter_self _
    · rw [hyawait, hyengine, hplaten]
      refine hidle.imp_right (.imp_right fun hnone i x hx hp => ?_)
      obtain ⟨v, hv, hid⟩ := f.leaves.exists_trav hx
      rw [htrav] at hv
      have hvp : v.platen = some (platenAt s.ring (enginePos e)) := (congrArg (fun z => z.2.2.2) hid).symm.trans hp
      obtain ⟨hst, hload⟩ := hnone i v hv hvp
      cases hx.symm.trans (hytrav hv)
      split
      · exact leaveLoaded_ne_readyToPrint hst hload
      · exact hst

/-! ### At another platen -/

/-- In HOLD no pass is in flight, and the mode that RESUME sets changes nothing of the floor. -/
theorem floorConsistent_run {s u : State} (h : FloorConsistent s) (hm : s.mode = .hold)
    (hu : u = endFrame .gateway 3 false s) : FloorConsistent (setMode .run u) ∧ (setMode .run u).passInFlight = false := by
  have hpass : s.passInFlight = false := Bool.eq_false_iff.mpr fun hp => absurd (hm.symm.trans (h.guarded.2 hp).1) (by decide)
  subst hu
  refine ⟨⟨⟨h.guarded.1, fun hp => ?_⟩, h.carried, h.claims, h.booth, h.engines, h.held, h.tunnel, fun hc => ?_⟩, hpass⟩
  · exact absurd (hpass.symm.trans hp) (by decide)
  · cases hc

/-- Table 3-3: the forced handling without a pass in flight, then the leaving of LOADED, is `realigned` of the statement. -/
theorem realigned_eq {s : State} (h : s.passInFlight = false) (p : Fin 12) (i : Fin 32) (v : Traveller) :
    (if (interrupted s i v).platen ≠ none ∧ (interrupted s i v).platen ≠ some p then leaveLoaded (interrupted s i v)
      else interrupted s i v) = realigned p v := by
  obtain ⟨hp, hg⟩ := passInFlight_eq_false_iff.mp h
  cases hst : v.stage with
  | loaded =>
    have hsame : interrupted s i v = v := by simp [interrupted, hp, hg, hst]
    rw [hsame, leaveLoaded_away, realigned]
    simp only [hst, true_and, ne_eq, ← not_or, ite_not]
  | assigned | printing | pretreat | readyToPrint | printed | inTunnel | rejectPending | returnPending =>
    simp [interrupted, realigned, leaveLoaded, hp, hg, hst]

theorem realigned_platen (p : Fin 12) (v : Traveller) : (realigned p v).platen = v.platen := by
  unfold realigned
  split <;> [rfl; rfl; (split <;> rfl); rfl; rfl; rfl; rfl; rfl; rfl]

/-- The fault that a touched traveller takes does not decide its stage. -/
theorem realigned_addFault_stage (p : Fin 12) (c : FaultCode) (v : Traveller) :
    (realigned p (addFault c v)).stage = (realigned p v).stage := by
  cases hst : v.stage with
  | loaded =>
    simp only [realigned, addFault_stage, hst, addFault_platen, addFault_pretreat]
    split
    · rw [addFault_stage]
    · rfl
  | assigned | printing => simp only [realigned, addFault_stage, hst]
  | pretreat | readyToPrint | printed | inTunnel | rejectPending | returnPending =>
    simp only [realigned, addFault_stage, hst]

/-- The clause of O20 for travellers on a ring that is re-aligned to another platen. -/
theorem resume_other {p : Fin 12} {s : State} (hm : s.mode = .hold) (hp : p ≠ s.ring.load) (h : FloorConsistent s) :
    ∃ t : State, exec (.resume .gateway [BitVec.ofNat 8 p.val]) s = .next t ∧
      Keeps [.setup, .ring, .table, .engines, .notices, .ports] s t ∧ t.setup = { s.setup with mode := .run } ∧
      t.ring = { s.ring with load := p, synced := true, claims := .fill none, lapse := .fill none,
                             awaiting := t.ring.awaiting, revs := .ofFn fun k => s.ring.revs.get k + 1 } ∧
      (∀ q ∈ [Port.prep, .engineA, .engineB, .tunnel], isPending t q .forcedIndex) ∧
      (∀ (i : Fin 32) (v f : Traveller), s.trav? i = some v → (Touched s i → f = addFault .forcedIndex v) →
        (¬ Touched s i → f = v) →
        (¬ atPrint p (realigned p f) →
          t.table.slots.get i = slotAfter (s.table.slots.get i) (some (realigned p f))) ∧
        ∀ (e : Engine) (l : LineItem), (realigned p f).stage = .readyToPrint →
          f.platen = some (p - enginePos e) →
          (settledRec s.constants (s.engine e)).state = .ready → s.line? v.slot v.line = some l →
          Attempted s t e (settledRec s.constants (s.engine e)) i (realigned p f) (p - enginePos e) l) ∧
      ∀ e : Engine,
        (((settledRec s.constants (s.engine e)).state ≠ .ready ∨
            ∀ (i : Fin 32) (v : Traveller), s.trav? i = some v → v.platen = some (p - enginePos e) →
              (realigned p v).stage ≠ .readyToPrint) →
          t.awaitingAt e = none ∧ t.engine e = engineAfter (s.engine e) (settledRec s.constants (s.engine e))) ∧
        (((s.engine e).state = .assigned ∨ (s.engine e).state = .printing) →
          (settledRec s.constants (s.engine e)).state = .cleanDue → isPending t (enginePort e) .cleanDue) := by
  obtain ⟨u, hu⟩ : ∃ u, u = endFrame .gateway 3 false s := ⟨_, rfl⟩
  obtain ⟨r, hr⟩ : ∃ r, r = setMode .run u := ⟨_, rfl⟩
  obtain ⟨z, hz⟩ : ∃ z, z = forcedHandling r := ⟨_, rfl⟩
  obtain ⟨y, hy⟩ : ∃ y, y = aligned p z := ⟨_, rfl⟩
  obtain ⟨w, hw⟩ : ∃ w, w = arrivals y := ⟨_, rfl⟩
  obtain ⟨hfloor, hpass⟩ := floorConsistent_run h hm hu
  rw [← hr] at hfloor hpass
  have hring : r.ring = s.ring := by rw [hr, hu]; rfl
  have htrav (i : Fin 32) : r.trav? i = s.trav? i := by rw [hr, hu]; rfl
  have htouched (i : Fin 32) : Touched r i ↔ Touched s i := by rw [hr, hu]; rfl
  have hsettled (e : Engine) : settledRec r.constants (r.engine e) = settledRec s.constants (s.engine e) := by
    rw [hr, hu]; rfl
  have g : ForcedFrame r z := hz ▸ forcedFrame hfloor
  have f : AlignFrame p z y := hy ▸ alignFrame p z
  have hlr : Leaves u r := hr ▸ leaves_setMode u _
  have hlz : Leaves u z := hlr.trans g.leaves
  have hzc : CarriedConsistent z := carriedConsistent_of_leaves g.leaves hfloor.carried
  have hready : Ready y := f.ready (by rw [State.mode, g.setup, hr]; rfl) hzc
  have hl : Leaves u y := hlz.trans f.leaves
  have a := hready.arrivalsFrame
  rw [← hw] at a
  have hlw : Leaves u w := hl.trans a.leaves
  have hres : w = arrivals (realign p (setMode .run u)) := by
    rw [hw, hy, realign_eq, ← hr, if_neg (by rwa [hring]), hz]
  have hyring : y.ring = { s.ring with
      load := p, synced := true, claims := .fill none, lapse := .fill none, awaiting := .fill none } := by
    rw [f.ring, g.ring, hring]
  have hyengine (e : Engine) : y.engine e = settledRec s.constants (s.engine e) := by
    rw [← hsettled, ← g.engine, State.engine, f.engines]
    rfl
  have hyawait (e : Engine) : y.awaitingAt e = none := by
    rw [State.awaitingAt, hyring]
    exact Tab.get_fill _ _
  have hplaten (e : Engine) : platenAt y.ring (enginePos e) = p - enginePos e := by rw [platenAt, hyring]
  have hytrav {i : Fin 32} {v x : Traveller} (hv : s.trav? i = some v) (hfa : Touched s i → x = addFault .forcedIndex v)
      (hfn : ¬ Touched s i → x = v) : y.trav? i = some (realigned p x) := by
    have hzv := g.trav i v x ((htrav i).trans hv) (fun ht => hfa ((htouched i).mp ht))
      (fun ht => hfn (mt (htouched i).mpr ht))
    rw [f.trav_platen hzc hzv, realigned_eq hpass]
  have hpre : w.pre = u.pre := by
    rw [a.pre, f.pre, g.pre, pre_idle (passInFlight_eq_false_iff.mp hpass).1, hr, setMode_pre]
  have hgauge : w.gauge = u.gauge := by
    rw [a.gauge, f.gauge, g.gauge, if_pos (passInFlight_eq_false_iff.mp hpass).2, hr, setMode_gauge]
  refine ⟨_, exec_resume hu hm hres hlw, keeps_resumeEnd hu (by simp) (by simp) hlw (hlw.keeps ?_), ?_, ?_, fun q hq => ?_,
    fun i v x hv hfa hfn => ⟨fun hat => ?_, fun e l hst hpl he hline => ?_⟩, fun e => ⟨fun hidle => ?_, fun he hc => ?_⟩⟩
  · simp [Block.same, hpre, hgauge]
  · rw [resumeEnd_setup, a.setup, f.setup, g.setup, hr, hu]
    rfl
  · rw [resumeEnd_ring, a.ring, hyring, hu]
    rfl
  · rw [isPending_resumeEnd]
    exact (f.leaves.trans a.leaves).isPending (g.forced q hq)
  · have hslot := resumed_slot hready hl (hytrav hv hfa hfn) (by rwa [hyring])
    rw [← hw] at hslot
    rw [hslot, hu]
    rfl
  · have hyx := hytrav hv hfa hfn
    obtain ⟨v', hv', hid⟩ := hl.exists_trav hyx
    have hvv : v' = v := by
      rw [hu] at hv'
      exact Option.some.inj (hv'.symm.trans hv)
    have hlx : u.line? (realigned p x).slot (realigned p x).line = some l := by
      rw [show (realigned p x).slot = v.slot from hvv ▸ congrArg (fun z => z.2.1) hid,
        show (realigned p x).line = v.line from hvv ▸ congrArg (fun z => z.2.2.1) hid, hu]
      exact hline
    have hatt := resumed_attempted hready hl hyx hst (by rw [hplaten, realigned_platen, hpl]) (hyawait e)
      (by rw [hyengine, he]) hlx
    rw [hyengine, hplaten, ← hw, hu] at hatt
    rw [hu]
    exact hatt
  · have hend := resumed_idle (e := e) hready hl ?_
    · rw [hyengine, hyawait, ← hw] at hend
      rw [hu] at hend ⊢
      exact hend
    · rw [hyengine, hplaten]
      refine .inr (hidle.imp_right fun hnone i x hx hxp => ?_)
      obtain ⟨v, hv, hid⟩ := (g.leaves.trans f.leaves).exists_trav hx
      rw [htrav] at hv
      have hvp : v.platen = some (p - enginePos e) := (congrArg (fun z => z.2.2.2) hid).symm.trans hxp
      obtain ⟨faulty, hfa, hfn⟩ := exists_faulted s i v
      cases hx.symm.trans (hytrav hv hfa hfn)
      have hstage : (realigned p faulty).stage = (realigned p v).stage := by
        by_cases ht : Touched s i
        · rw [hfa ht, realigned_addFault_stage]
        · rw [hfn ht]
      rw [hstage]
      exact hnone i v hv hvp
  · rw [isPending_resumeEnd]
    refine (f.leaves.trans a.leaves).isPending (g.cleanDue e ?_ (by rwa [hsettled]))
    rw [hr, hu]
    exact he

/-! ### O20 -/

theorem resume_out_of_range {n : Nat} {s : State} (h : n < 256) (hn : 12 ≤ n) (hm : s.mode = .hold) :
    exec (.resume .gateway [BitVec.ofNat 8 n]) s = .next (refused .gateway 0x15 [BitVec.ofNat 8 n] .arg [] s) := by
  have hbody (u : State) : resumeBody [BitVec.ofNat 8 n] u = .refuse .arg [] := by
    rw [resumeBody, byteAt_cons_ofNat h, fin?_none hn]
  exact congrArg Host.Outcome.next (command_rejected (by simp) (by simp [hm]) rfl (hbody _))

/-- Settles O20: an empty ring at its own and at another platen, a platen out of range, and travellers on the ring at its
own and at another platen. -/
theorem resumeRealignsRing : Obligations.ResumeRealignsRing :=
  ⟨fun _ hm hc => resume_empty_same hm hc, fun _ _ hm hp hc hpass => resume_empty_other hm hp hc hpass,
    fun _ _ h hn hm => resume_out_of_range h hn hm, fun _ hm hc => resume_same hm hc,
    fun _ _ hm hp h => resume_other hm hp h⟩

end Sys2Proof.PlatenRing
end

