-- ==== Sys2Proof/Proofs/Pretreatment/PassView.lean ====
section
/-! PROOF. What the guard of O55 reads of a state, and the operations that leave that reading alone. -/

namespace Sys2Proof.Pretreatment

open Sys2Proof Sys2Proof.Machine Sys2Proof.PlatenRing

/-! ### What the guard reads -/

/-- What `PassGuarded` reads of a state: both passes, the mode, and the claim at the booth. -/
def passView (s : State) : Option SprayPass × Option GaugePass × Mode × Option Claim :=
  (s.pre.pass, s.gauge.pass, s.mode, s.claimAt .spray)

theorem passView_of_eq {s t : State} (hp : t.pre = s.pre) (hg : t.gauge = s.gauge) (hs : t.setup = s.setup)
    (hc : t.ring.claims = s.ring.claims) : passView t = passView s := by
  simp [passView, State.mode, State.claimAt, hp, hg, hs, hc]

/-- A guarded part that keeps mode and booth claim and starts no pass stays guarded. -/
theorem passGuarded_of_fewer {s t : State} (hs : PassGuarded s) (hp : s.pre.pass = none → t.pre.pass = none)
    (hg : s.gauge.pass = none → t.gauge.pass = none) (hm : t.mode = s.mode) (hc : t.claimAt .spray = s.claimAt .spray) :
    PassGuarded t := by
  refine ⟨hs.1.imp hp hg, fun h => ?_⟩
  have hflight : s.passInFlight = true := by
    by_contra hn
    obtain ⟨hsp, hsg⟩ := passInFlight_eq_false_iff.mp (Bool.eq_false_iff.mpr hn)
    simp [State.passInFlight, hp hsp, hg hsg] at h
  obtain ⟨hrun, hclaim⟩ := hs.2 hflight
  exact ⟨hm.trans hrun, by simpa [State.holdsClaim, hc] using hclaim⟩

theorem passGuarded_congr {s t : State} (h : passView t = passView s) (hs : PassGuarded s) : PassGuarded t := by
  simp only [passView, Prod.mk.injEq] at h
  obtain ⟨hp, hg, hm, hc⟩ := h
  exact passGuarded_of_fewer hs (hp.trans ·) (hg.trans ·) hm hc

theorem passGuarded_of_idle {s : State} (h : s.passInFlight = false) : PassGuarded s :=
  ⟨.inl (passInFlight_eq_false_iff.mp h).1, fun ht => by simp [h] at ht⟩

/-- Outside RUN a guarded part has no pass in flight. -/
theorem idle_of_not_run {s : State} (hs : PassGuarded s) (h : s.mode ≠ .run) : s.passInFlight = false :=
  Bool.eq_false_iff.mpr fun hp => h (hs.2 hp).1

theorem idle_of_passView {s t : State} (h : passView t = passView s) (hs : s.passInFlight = false) :
    t.passInFlight = false := by
  simp only [passView, Prod.mk.injEq] at h
  rw [passInFlight_eq_false_iff] at hs ⊢
  exact ⟨h.1.trans hs.1, h.2.1.trans hs.2⟩

/-! ### Operations that leave the reading alone: the shared ones -/

section
variable (s : State)

@[simp] theorem passView_setBook (x : OrderBook) : passView (s.setBook x) = passView s := rfl
@[simp] theorem passView_setExits (x : List ExitEntry) : passView (s.setExits x) = passView s := rfl
@[simp] theorem passView_setTunnel (x : Tunnel) : passView (s.setTunnel x) = passView s := rfl
@[simp] theorem passView_setPending (x : List Instr) : passView (s.setPending x) = passView s := rfl
@[simp] theorem passView_raise (p : Port) (x : Source) : passView (raise p x s) = passView s := rfl
@[simp] theorem passView_modNotice (p : Port) (f : NoticeState → NoticeState) : passView (modNotice p f s) = passView s := rfl
@[simp] theorem passView_setStage (p : Port) (g : Option Staged) : passView (setStage p g s) = passView s := rfl
@[simp] theorem passView_modLine (l : Fin 24) (f : Line → Line) : passView (modLine l f s) = passView s := rfl
@[simp] theorem passView_putOrder (k : Fin 64) (o : Option Order) : passView (putOrder k o s) = passView s := rfl
@[simp] theorem passView_putTrav (i : Fin 32) (v : Option Traveller) : passView (putTrav i v s) = passView s := rfl
@[simp] theorem passView_modEngine (e : Engine) (f : EngineRec → EngineRec) : passView (modEngine e f s) = passView s := rfl
@[simp] theorem passView_setCarried (p : Fin 12) (c : Option (Fin 32)) : passView (setCarried p c s) = passView s := rfl
@[simp] theorem passView_setAwaiting (e : Engine) (a : Option Awaiting) : passView (setAwaiting e a s) = passView s := rfl
@[simp] theorem passView_setLapse (e : Engine) (p : Option (Fin 12)) : passView (setLapse e p s) = passView s := rfl
@[simp] theorem passView_setPumpFault (b : Bool) : passView (setPumpFault b s) = passView s := rfl
@[simp] theorem passView_modTrav (i : Fin 32) (f : Traveller → Traveller) : passView (modTrav i f s) = passView s :=
  passView_of_eq (by simp) (by simp) (by simp) (by simp)

@[simp] theorem passView_modPretreat (i : Fin 32) (f : Pretreat → Pretreat) :
    passView (modPretreat i f s) = passView s := passView_modTrav s i _

@[simp] theorem passView_returnToService (e : Engine) (f : EngineRec → EngineRec) :
    passView (returnToService e f s) = passView s := passView_of_eq (by simp) (by simp) (by simp) (by simp)

@[simp] theorem passView_attempt (e : Engine) : passView (attempt e s) = passView s :=
  have f := attemptFrame e s
  passView_of_eq f.pre f.gauge f.setup (by rw [f.ring])

/-- A claim at another station than the booth. -/
theorem passView_setClaim {st : Station} (h : st ≠ .spray) (c : Option Claim) : passView (setClaim st c s) = passView s := by
  have hc : (setClaim st c s).claimAt .spray = s.claimAt .spray := (claimAt_setClaim _ _ _ _).trans (if_neg (Ne.symm h))
  rw [passView, hc]
  rfl

@[simp] theorem passView_setClaim_engine (e : Engine) (c : Option Claim) :
    passView (setClaim (engineStation e) c s) = passView s := passView_setClaim s (by cases e <;> decide) c

end

/-! ### Operations that leave the reading alone: orders, closures, the tunnel, the engines, the lines -/

section
variable (s : State)

@[simp] theorem passView_raiseInkShort (e : Engine) : passView (raiseInkShort e s) = passView s := rfl

@[simp] theorem passView_placeIn (k : Fin 64) (o : Order) : passView (placeIn k o s) = passView s := rfl

@[simp] theorem passView_markOrphans (k : Fin 64) : passView (markOrphans k s) = passView s :=
  foldl_keep passView (fun s i => passView_modTrav s i _) _ s

@[simp] theorem passView_bindLine (k : Fin 64) (j : Fin 8) : passView (bindLine k j s) = passView s := by
  unfold bindLine; split <;> simp

@[simp] theorem passView_createTraveller (i : Fin 32) (t : Traveller) : passView (createTraveller i t s) = passView s := rfl

@[simp] theorem passView_raiseComplete : passView (raiseComplete s) = passView s := rfl

@[simp] theorem passView_freeIfCancelled (k : Fin 64) : passView (freeIfCancelled k s) = passView s := by
  unfold freeIfCancelled; split
  · rfl
  · split <;> simp

@[simp] theorem passView_countPack (k : Fin 64) (j : Fin 8) : passView (countPack k j s) = passView s := by
  unfold countPack; split
  · rfl
  · dsimp only; split <;> simp

@[simp] theorem passView_countBack (k : Fin 64) (j : Fin 8) : passView (countBack k j s) = passView s := by
  unfold countBack; split <;> simp

@[simp] theorem passView_countScrap (k : Fin 64) (j : Fin 8) : passView (countScrap k j s) = passView s := by
  unfold countScrap; split
  · rfl
  · dsimp only; split <;> simp

@[simp] theorem passView_countSalvaged (k : Fin 64) (j : Fin 8) : passView (countSalvaged k j s) = passView s := by
  unfold countSalvaged; split
  · rfl
  · dsimp only; split <;> simp

@[simp] theorem passView_joinExit (x : ExitEntry) : passView (joinExit x s) = passView s := by
  unfold joinExit; split <;> simp

@[simp] theorem passView_emptyPlaten (t : Traveller) : passView (emptyPlaten t s) = passView s := by
  unfold emptyPlaten; split <;> simp

/-- A closure does to the reading what its counting does. -/
theorem passView_close {i : Fin 32} {t : Traveller} {d : Disposition} {b : Bool} {v : Option CureVerdict}
    {count : State → State} (h : passView (count s) = passView s) : passView (close i t d b v count s) = passView s := by
  simp [close, h]

@[simp] theorem passView_closeScrap (i : Fin 32) (t : Traveller) (v : Option CureVerdict) :
    passView (closeScrap i t v s) = passView s := passView_close s (by simp)

@[simp] theorem passView_closeReturn (i : Fin 32) (t : Traveller) : passView (closeReturn i t s) = passView s :=
  passView_close s (by simp)

@[simp] theorem passView_closeLost (i : Fin 32) (t : Traveller) : passView (closeLost i t s) = passView s :=
  passView_close s (by simp)

@[simp] theorem passView_closeAllLost : passView (closeAllLost s) = passView s :=
  foldl_keep passView (fun s i => by split <;> simp) _ s

@[simp] theorem passView_closeCuredOrphan (i : Fin 32) (t : Traveller) : passView (closeCuredOrphan i t s) = passView s := by
  unfold closeCuredOrphan; split <;> exact passView_close s (by simp)

@[simp] theorem passView_closeAtExit (i : Fin 32) (t : Traveller) (v : CureVerdict) :
    passView (closeAtExit i t v s) = passView s := by
  cases v with
  | cured =>
    unfold closeAtExit; dsimp only; split
    · simp
    · exact passView_close s (by simp)
  | scorched | underCured => simp [closeAtExit]

@[simp] theorem passView_exitHead : passView (exitHead s) = passView s := by
  unfold exitHead; split
  · rfl
  · dsimp only; split
    · rfl
    · split <;> simp

@[simp] theorem passView_pulse : passView (pulse s) = passView s := by
  unfold pulse; dsimp only; split <;> simp

@[simp] theorem passView_enterTunnel (i : Fin 32) (t : Traveller) (f : FabricClass) (r : Nat) :
    passView (enterTunnel i t f r s) = passView s := rfl

@[simp] theorem passView_storeZones (z : Nat × Nat × Nat) : passView (storeZones z s) = passView s := rfl

@[simp] theorem passView_staleExpiry : passView (staleExpiry s) = passView s := by
  unfold staleExpiry; split <;> simp

@[simp] theorem passView_sampleExpiry : passView (sampleExpiry s) = passView s := by
  unfold sampleExpiry; split
  · exact foldl_keep passView (fun s q => passView_modTrav s _ _) _ s
  · rfl

@[simp] theorem passView_printStart (e : Engine) (a : Awaiting) : passView (printStart e a s) = passView s := by
  simp [printStart]

@[simp] theorem passView_claimWindowExpiry (e : Engine) : passView (claimWindowExpiry e s) = passView s := by
  unfold claimWindowExpiry; split <;> simp [withdrawTraveller]

@[simp] theorem passView_inkReported (e : Engine) (levels : Inks) : passView (inkReported e levels s) = passView s := by
  unfold inkReported; dsimp only; split <;> simp

@[simp] theorem passView_settle (e : Engine) (i : Fin 32) (good : Bool) (act : Inks) :
    passView (settle e i good act s) = passView s := by simp [settle]

@[simp] theorem passView_faultPrinting (e : Engine) (i : Fin 32) : passView (faultPrinting e i s) = passView s := by
  simp [faultPrinting, failTraveller]

@[simp] theorem passView_faultAssigned (e : Engine) (i : Fin 32) : passView (faultAssigned e i s) = passView s := by
  simp [faultAssigned, withdrawTraveller]

@[simp] theorem passView_zeroSpray (i : Fin 32) (t : Traveller) (r : Pretreat) : passView (zeroSpray i t r s) = passView s := by
  simp [zeroSpray]

@[simp] theorem passView_assignFunction (l : Fin 24) (f : LineFunction) : passView (assignFunction l f s) = passView s := rfl

@[simp] theorem passView_latchAfterAssign (l : Fin 24) (f : LineFunction) :
    passView (latchAfterAssign l f s) = passView s := by
  unfold latchAfterAssign; split
  · split <;> simp
  · split <;> simp

@[simp] theorem passView_setLevels (sel levels : Nat) : passView (setLevels sel levels s) = passView s := rfl

@[simp] theorem passView_toggleLevels (sel : Nat) : passView (toggleLevels sel s) = passView s := rfl

@[simp] theorem passView_busTick : passView (busTick s) = passView s := rfl

end

end Sys2Proof.Pretreatment
end

