-- ==== Sys2Proof/Proofs/Pretreatment/PassGuard.lean ====
section
/-! PROOF. At most one pass in flight, and that in RUN under the prep claim (O55): the operations that end a pass, those
that start one, and every command in turn. -/

namespace Sys2Proof.Pretreatment

open Sys2Proof Sys2Proof.Machine Sys2Proof.PlatenRing

/-! ### Operations that end a pass (R69, R72, R73, R84 to R90) -/

section
variable {s : State}

theorem idle_stopPass (hs : PassGuarded s) : (stopPass s).passInFlight = false := by
  have f := stopFrame hs.1
  rw [passInFlight_eq_false_iff, f.pre, f.gauge]
  refine ⟨rfl, ?_⟩
  split
  · assumption
  · rfl

theorem idle_enterHold (hs : PassGuarded s) : (enterHold s).passInFlight = false := by
  have h := passInFlight_eq_false_iff.mp (idle_stopPass hs)
  rw [passInFlight_eq_false_iff]
  simpa [enterHold] using h

/-- The spray pass ends, the rest of what the guard reads stands. -/
theorem passGuarded_sprayIdle {u : State} (n : Nat) (h : passView u = passView s) (hs : PassGuarded s) :
    PassGuarded (sprayIdle n u) :=
  passGuarded_of_fewer (passGuarded_congr h hs) (fun _ => rfl) id rfl rfl

/-- The gauge pass ends, the rest of what the guard reads stands. -/
theorem passGuarded_gaugeIdle {u : State} (e : GaugeEnd) (n m : Nat) (h : passView u = passView s) (hs : PassGuarded s) :
    PassGuarded (gaugeIdle e n m u) :=
  passGuarded_of_fewer (passGuarded_congr h hs) id (fun _ => rfl) rfl rfl

theorem passGuarded_sprayEnd (p : SprayPass) (n : Nat) (hs : PassGuarded s) : PassGuarded (sprayEnd p n s) :=
  passGuarded_sprayIdle n (passView_modPretreat s _ _) hs

theorem passGuarded_sprayCut (c : FaultCode) (p : SprayPass) (hs : PassGuarded s) : PassGuarded (sprayCut c p s) :=
  passGuarded_sprayIdle (s := s) _ (by simp) hs

theorem passGuarded_gaugeFail (e : GaugeEnd) (c : FaultCode) (i : Fin 32) (n m : Nat) (hs : PassGuarded s) :
    PassGuarded (gaugeFail e c i n m s) :=
  passGuarded_congr (passView_raise _ _ _) (passGuarded_gaugeIdle _ _ _ (passView_modTrav s _ _) hs)

theorem passGuarded_dryEnd (i : Fin 32) (n : Nat) (hs : PassGuarded s) : PassGuarded (dryEnd i n s) :=
  passGuarded_congr (passView_raise _ _ _) (passGuarded_gaugeIdle _ _ _ (passView_modPretreat s _ _) hs)

theorem passView_setVerdict (v : Option GaugeVerdict) (u : State) :
    passView (u.setGauge { u.gauge with verdict := v }) = passView u := rfl

theorem passGuarded_wetEnd (i : Fin 32) (m : Nat) (hs : PassGuarded s) : PassGuarded (wetEnd i m s) := by
  have hbare : PassGuarded (gaugeIdle .normal m 0 s) := passGuarded_gaugeIdle _ _ _ rfl hs
  unfold wetEnd
  split
  · exact hbare
  · split
    · exact hbare
    · exact passGuarded_congr ((passView_raise _ _ _).trans (passView_setVerdict _ _))
        (passGuarded_gaugeIdle _ _ _ (passView_putTrav s i _) hs)

theorem passGuarded_pumpFaultEdge (hs : PassGuarded s) : PassGuarded (pumpFaultEdge s) := by
  unfold pumpFaultEdge
  split
  · exact passGuarded_sprayCut _ _ hs
  · exact hs

/-! ### Counting (R68, R79, R80) -/

theorem passGuarded_strokeActivePhase (hs : PassGuarded s) : PassGuarded (strokeActivePhase s) := by
  unfold strokeActivePhase
  split
  · rename_i p hp
    split
    · exact passGuarded_of_fewer hs (fun h => by simp [hp] at h) id rfl rfl
    · exact hs
  · exact hs

theorem passGuarded_strokeDelivered (hs : PassGuarded s) : PassGuarded (strokeDelivered s) := by
  unfold strokeDelivered
  split
  · rename_i p hp
    split
    · split
      · exact passGuarded_of_fewer hs (fun h => by simp [hp] at h) id rfl rfl
      · exact passGuarded_sprayEnd _ _ hs
    · exact hs
  · exact hs

theorem passGuarded_oscEdge (e : Side) (hs : PassGuarded s) : PassGuarded (oscEdge e s) := by
  unfold oscEdge
  split
  · exact hs
  · split
    · exact hs
    · split
      · split
        · exact hs
        · exact passGuarded_dryEnd _ _ hs
      · split
        · exact hs
        · exact passGuarded_gaugeFail _ _ _ _ _ hs

theorem passGuarded_tick (hs : PassGuarded s) : PassGuarded (tick s) := by
  unfold tick
  split
  · exact hs
  · split
    · split
      · exact hs
      · exact passGuarded_gaugeFail _ _ _ _ _ hs
    · split
      · exact hs
      · exact passGuarded_wetEnd _ _ hs

/-! ### The ring and the lines (R53 to R60, R135) -/

/-- An index settles what holds the ring, and none of its steps starts a pass. -/
theorem passGuarded_takeIndex (hs : PassGuarded s) : PassGuarded (takeIndex s) := by
  by_cases hm : s.mode = .config
  · rw [takeIndex, if_pos hm]
    exact hs
  · have hq := (settledFrame hs).quiet
    have b := indexBase hq
    rw [takeIndex_eq hm]
    refine passGuarded_of_idle (passInFlight_eq_false_iff.mpr ?_)
    rw [← settled, b.pre, b.gauge]
    exact passInFlight_eq_false_iff.mp hq

theorem passGuarded_deliver (f : LineFunction) (level : Bool) (hs : PassGuarded s) : PassGuarded (deliver f level s) := by
  unfold deliver
  split
  · exact passGuarded_takeIndex hs
  · exact passGuarded_pumpFaultEdge hs
  · exact hs
  · exact passGuarded_congr (passView_pulse s) hs
  · exact passGuarded_oscEdge _ hs
  · exact passGuarded_oscEdge _ hs
  all_goals exact hs

theorem passGuarded_functionEdge (f : LineFunction) (level : Bool) (hs : PassGuarded s) :
    PassGuarded (functionEdge f level s) := by
  unfold functionEdge
  split
  · exact passGuarded_deliver f level (passGuarded_congr (passView_modLine s _ _) hs)
  · exact hs

theorem passGuarded_filteredEdge (l : Fin 24) (level : Bool) (hs : PassGuarded s) : PassGuarded (filteredEdge l level s) :=
  passGuarded_deliver _ _ (passGuarded_congr (passView_modLine s _ _) hs)

theorem passGuarded_filterElapsed (l : Fin 24) (hs : PassGuarded s) : PassGuarded (filterElapsed l s) := by
  unfold filterElapsed
  split
  · exact hs
  · exact passGuarded_filteredEdge _ _ hs

theorem passGuarded_followPin (l : Fin 24) (was : Bool) (hs : PassGuarded s) : PassGuarded (followPin l was s) := by
  unfold followPin
  split
  · exact passGuarded_filteredEdge _ _ hs
  · exact hs

@[simp] theorem passView_arrivals (u : State) : passView (arrivals u) = passView u :=
  have a := arrivalsBase u
  passView_of_eq a.pre a.gauge a.setup (by rw [a.ring])

@[simp] theorem passView_advanceUnchangedRing (u w : State) : passView (advanceUnchangedRing u w) = passView w := rfl

theorem idle_realign (p : Fin 12) (hs : s.passInFlight = false) : (realign p s).passInFlight = false := by
  have hhandled : (if p = s.ring.load then s else forcedHandling s).passInFlight = false := by
    split
    · exact hs
    · exact (handledFrame (.inl (passInFlight_eq_false_iff.mp hs).1)).passInFlight
  have f := alignFrame p (if p = s.ring.load then s else forcedHandling s)
  rw [realign_eq]
  rw [passInFlight_eq_false_iff] at hhandled ⊢
  rwa [f.pre, f.gauge]

theorem passGuarded_resumed (p : Fin 12) (hs : s.passInFlight = false) : PassGuarded (resumed p s) := by
  have hrun : (setMode .run s).passInFlight = false := hs
  rw [resumed]
  exact passGuarded_of_idle
    (idle_of_passView ((passView_advanceUnchangedRing _ _).trans (passView_arrivals _)) (idle_realign p hrun))

theorem passGuarded_lineReset (hs : PassGuarded s) : PassGuarded (lineResetState s) := by
  have hidle := idle_of_passView (passView_closeAllLost (stopPass s)) (idle_stopPass hs)
  refine passGuarded_of_idle ?_
  rw [passInFlight_eq_false_iff] at hidle ⊢
  simpa [lineResetState] using hidle

theorem passGuarded_started (p : Fin 12) (hs : s.passInFlight = false) : PassGuarded (started p s) := by
  refine passGuarded_of_idle (passInFlight_eq_false_iff.mpr ?_)
  have hpre (e : Engine) (u : State) : (startEngine e u).pre = u.pre := by rw [startEngine_eq]; rfl
  have hgauge (e : Engine) (u : State) : (startEngine e u).gauge = u.gauge := by rw [startEngine_eq]; rfl
  rw [started, hpre, hpre, hgauge, hgauge]
  exact passInFlight_eq_false_iff.mp hs

end

/-! ### What a command's own checks take (R144) -/

/-- Every state that an answer leads to satisfies `P`. -/
def Accepts (P : State → Prop) : Answer → Prop
  | .refuse _ _ => True
  | .accept t _ => P t

/-- The answer leaves what the guard reads as it was. -/
abbrev Unseen (s : State) : Answer → Prop := Accepts fun t => passView t = passView s

theorem accepts_refuseIf {P : State → Prop} {c : Prop} [Decidable c] {st : Status} {k : Answer}
    (h : ¬ c → Accepts P k) : Accepts P (refuseIf c st k) := by
  by_cases hc : c
  · rw [refuseIf_pos hc]
    trivial
  · rw [refuseIf_neg hc]
    exact h hc

theorem Accepts.imp {P Q : State → Prop} (h : ∀ t, P t → Q t) {a : Answer} (ha : Accepts P a) : Accepts Q a := by
  cases a with
  | refuse st data => trivial
  | accept t data => exact h t ha

/-- A command frame keeps the guard when the states that its own checks lead to do, in the modes that it is taken in. -/
theorem passGuarded_command {p : Port} {code : Byte} {l : List Byte} {roles : List Port} {modes : List Mode} {ok : Bool}
    {body : State → Answer} {s : State} (hs : PassGuarded s)
    (hb : ∀ u : State, PassGuarded u → u.mode ∈ modes → Accepts PassGuarded (body u)) :
    PassGuarded (command p code l roles modes ok body s) := by
  have hu : PassGuarded (endFrame p (l.length + 2) false s) := hs
  change PassGuarded (conclude p code (endFrame p (l.length + 2) false s)
    (checked p roles modes ok body (endFrame p (l.length + 2) false s)))
  generalize endFrame p (l.length + 2) false s = u at hu
  cases ha : checked p roles modes ok body u with
  | refuse st data => exact hu
  | accept t data =>
    obtain ⟨-, hm, -, hbody⟩ := checked_accept ha
    have ht := hb u hu hm
    rw [hbody] at ht
    exact ht

/-- The same for a command whose effects leave what the guard reads. -/
theorem passGuarded_unseen {p : Port} {code : Byte} {l : List Byte} {roles : List Port} {modes : List Mode} {ok : Bool}
    {body : State → Answer} {s : State} (hs : PassGuarded s) (hb : ∀ u : State, Unseen u (body u)) :
    PassGuarded (command p code l roles modes ok body s) :=
  passGuarded_command hs fun u hu _ => (hb u).imp fun _ ht => passGuarded_congr ht hu

/-! ### The bodies of the commands that leave the reading alone -/

section
variable (p : Port) (l : List Byte) (e : Engine) (s : State)

theorem captureBody_unseen : Unseen s (captureBody p l s) := by
  unfold captureBody; split
  · trivial
  · split
    · trivial
    · exact passView_setStage s _ _

theorem readStageBody_unseen : Unseen s (readStageBody p l s) := by
  unfold readStageBody; split
  · trivial
  · exact accepts_refuseIf fun _ => rfl

theorem editStageBody_unseen : Unseen s (editStageBody p l s) := by
  unfold editStageBody; split
  · trivial
  · exact accepts_refuseIf fun _ => accepts_refuseIf fun _ => passView_setStage s _ _

theorem writeBack_unseen (g : Staged) : Unseen s (writeBack g s) := by
  unfold writeBack; split
  · split
    · trivial
    · dsimp only; split
      · trivial
      · exact passView_setBook s _
  · split
    · trivial
    · exact accepts_refuseIf fun _ => rfl
  · exact accepts_refuseIf fun _ => rfl
  all_goals trivial

theorem refreshStage_unseen (g : Staged) : Unseen s (refreshStage p g s) := by
  unfold refreshStage; split
  · exact passView_setStage s _ _
  · trivial

theorem updateBody_unseen : Unseen s (updateBody p s) := by
  unfold updateBody; split
  · trivial
  · rename_i g _
    refine accepts_refuseIf fun _ => accepts_refuseIf fun _ => accepts_refuseIf fun _ => accepts_refuseIf fun _ => ?_
    have hw := writeBack_unseen s g
    split
    · trivial
    · rename_i u _ hu
      rw [hu] at hw
      exact (refreshStage_unseen p u g).imp fun t ht => ht.trans hw

theorem clearNoticesBody_unseen : Unseen s (clearNoticesBody p l s) := accepts_refuseIf fun _ => passView_modNotice s _ _

theorem setEnablesBody_unseen : Unseen s (setEnablesBody p l s) := by
  refine accepts_refuseIf fun _ => ?_
  split
  · exact passView_modNotice s _ _
  · exact passView_modNotice s _ _
  · trivial

theorem placeOrderBody_unseen : Unseen s (placeOrderBody l s) := by
  unfold placeOrderBody; split
  · trivial
  · refine accepts_refuseIf fun _ => ?_
    split
    · trivial
    · exact passView_placeIn s _ _

theorem cancelOrderBody_unseen : Unseen s (cancelOrderBody l s) := by
  unfold cancelOrderBody; split
  · trivial
  · split
    · trivial
    · split
      · trivial
      · exact passView_putOrder s _ _
      · exact passView_putOrder s _ _
      · exact passView_markOrphans _ _

theorem releaseOrderBody_unseen : Unseen s (releaseOrderBody l s) := by
  unfold releaseOrderBody; split
  · trivial
  · split
    · trivial
    · exact accepts_refuseIf fun _ => (passView_raise _ _ _).trans (passView_putOrder s _ _)

theorem lineAssignBody_unseen : Unseen s (lineAssignBody l s) := by
  unfold lineAssignBody; split
  · exact (passView_latchAfterAssign _ _ _).trans (passView_assignFunction s _ _)
  · trivial

theorem loadGarmentBody_unseen : Unseen s (loadGarmentBody l s) := by
  refine accepts_refuseIf fun _ => accepts_refuseIf fun _ => ?_
  split
  · trivial
  · split
    · trivial
    · exact (passView_bindLine _ _ _).trans (passView_createTraveller s _ _)

theorem pressDoneBody_unseen : Unseen s (pressDoneBody l s) := by
  refine accepts_refuseIf fun _ => accepts_refuseIf fun _ => ?_
  split
  · trivial
  · exact accepts_refuseIf fun _ => accepts_refuseIf fun _ => passView_putTrav s _ _

theorem onEngine_unseen {k : Engine → State → Answer} (h : ∀ e, Unseen s (k e s)) : Unseen s (onEngine p k s) := by
  unfold onEngine; split
  · exact h _
  · trivial

theorem engineOnlineBody_unseen : Unseen s (engineOnlineBody e s) :=
  accepts_refuseIf fun _ => (passView_attempt _ e).trans (passView_returnToService s e id)

theorem engineOfflineBody_unseen : Unseen s (engineOfflineBody e s) := accepts_refuseIf fun _ => passView_modEngine s _ _

theorem engineFaultBody_unseen : Unseen s (engineFaultBody e s) := by
  unfold engineFaultBody; split
  · trivial
  · rfl
  · exact passView_faultPrinting s _ _
  · exact passView_faultAssigned s _ _
  all_goals exact passView_modEngine s _ _

theorem inkReportBody_unseen : Unseen s (inkReportBody l e s) :=
  accepts_refuseIf fun _ => (passView_attempt _ e).trans (passView_inkReported s e _)

theorem printDoneBody_unseen : Unseen s (printDoneBody l e s) := by
  unfold printDoneBody; dsimp only; split
  · trivial
  · refine accepts_refuseIf fun _ => accepts_refuseIf fun _ => ?_
    split
    · trivial
    · exact passView_settle s _ _ _ _

theorem cleanStartBody_unseen : Unseen s (cleanStartBody e s) := accepts_refuseIf fun _ => passView_modEngine s _ _

theorem cleanDoneBody_unseen : Unseen s (cleanDoneBody e s) :=
  accepts_refuseIf fun _ => (passView_attempt _ e).trans (passView_modEngine s e _)

theorem tunnelEntryBody_unseen : Unseen s (tunnelEntryBody s) := by
  refine accepts_refuseIf fun _ => ?_
  split
  · trivial
  · exact accepts_refuseIf fun _ => accepts_refuseIf fun _ => accepts_refuseIf fun _ => passView_enterTunnel s _ _ _ _

theorem unloadDoneBody_unseen : Unseen s (unloadDoneBody s) := by
  refine accepts_refuseIf fun _ => ?_
  split
  · trivial
  · split
    · exact passView_closeScrap s _ _ _
    · exact passView_closeReturn s _ _
    all_goals trivial

theorem zoneTempsBody_unseen : Unseen s (zoneTempsBody l s) := by
  have h : passView (if anyClamped l then raise .tunnel .tempRange (storeZones (clampedTemps l) s)
    else storeZones (clampedTemps l) s) = passView s := by split <;> simp
  exact h

theorem exitPopBody_unseen : Unseen s (exitPopBody s) := by
  unfold exitPopBody; split
  · rfl
  · exact passView_setExits s _

end

/-! ### The bodies of the commands that the guard is about -/

section
variable {s : State}

theorem claimBody_passGuarded (p : Port) (l : List Byte) (hs : PassGuarded s) : Accepts PassGuarded (claimBody p l s) := by
  unfold claimBody; split
  · rename_i st q hst _
    refine accepts_refuseIf fun hfree => accepts_refuseIf fun _ => ?_
    split
    · rename_i e he
      unfold engineClaim; split
      · split
        · have hst' : st ≠ .spray := by rintro rfl; cases he
          exact passGuarded_congr ((passView_setClaim _ hst' _).trans (passView_printStart s _ _)) hs
        · trivial
      · split <;> trivial
    · by_cases hspray : st = .spray
      · subst hspray
        have hnone : s.claimAt .spray = none := by simpa using hfree
        have hidle : s.passInFlight = false := Bool.eq_false_iff.mpr fun hp => by
          simpa [State.holdsClaim, hnone] using (hs.2 hp).2
        exact passGuarded_of_idle (s := setClaim .spray _ s) hidle
      · exact passGuarded_congr (passView_setClaim s hspray _) hs
  · trivial

theorem releaseBody_passGuarded (p : Port) (l : List Byte) (hs : PassGuarded s) :
    Accepts PassGuarded (releaseBody p l s) := by
  unfold releaseBody; split
  · trivial
  · rename_i st _
    refine accepts_refuseIf fun _ => accepts_refuseIf fun hbusy => ?_
    by_cases hspray : st = .spray
    · have hidle : s.passInFlight = false := Bool.eq_false_iff.mpr fun hp => hbusy ⟨hspray, hp⟩
      exact passGuarded_of_idle (s := setClaim st none s) hidle
    · exact passGuarded_congr (passView_setClaim s hspray _) hs

/-- A pass that starts in RUN under the prep claim, with none in flight before. -/
theorem sprayBody_passGuarded (hs : PassGuarded s) (hm : s.mode = .run) : Accepts PassGuarded (sprayBody s) := by
  refine accepts_refuseIf fun hfree => ?_
  have hclaim : s.holdsClaim .prep .spray = true := by simpa using hfree
  split
  · trivial
  · refine accepts_refuseIf fun hbusy => accepts_refuseIf fun _ => accepts_refuseIf fun _ => ?_
    split
    · exact passGuarded_congr (passView_zeroSpray s _ _ _) hs
    · have hidle : s.passInFlight = false := by simpa using hbusy
      exact ⟨.inr (passInFlight_eq_false_iff.mp hidle).2, fun _ => ⟨hm, hclaim⟩⟩

theorem gaugeChecks_passGuarded {k : Fin 32 → Traveller → Pretreat → Answer}
    (h : s.holdsClaim .prep .spray = true → s.passInFlight = false → ∀ i t r, Accepts PassGuarded (k i t r)) :
    Accepts PassGuarded (gaugeChecks s k) := by
  refine accepts_refuseIf fun hclaim => ?_
  split
  · trivial
  · exact accepts_refuseIf fun hidle => accepts_refuseIf fun _ => h (by simpa using hclaim) (by simpa using hidle) _ _ _

theorem startGauge_passGuarded (hm : s.mode = .run) (hc : s.holdsClaim .prep .spray = true) (hidle : s.passInFlight = false)
    (k : PassKind) (i : Fin 32) (t : Traveller) (n : Nat) : PassGuarded (startGauge k i t n s) :=
  ⟨.inl (passInFlight_eq_false_iff.mp hidle).1, fun _ => ⟨hm, hc⟩⟩

theorem gaugeDryBody_passGuarded (hm : s.mode = .run) : Accepts PassGuarded (gaugeDryBody s) :=
  gaugeChecks_passGuarded fun hc hidle _ _ _ => accepts_refuseIf fun _ => startGauge_passGuarded hm hc hidle _ _ _ _

theorem gaugeWetBody_passGuarded (hm : s.mode = .run) : Accepts PassGuarded (gaugeWetBody s) := by
  refine gaugeChecks_passGuarded fun hc hidle _ _ _ => accepts_refuseIf fun _ => ?_
  split
  · trivial
  · exact startGauge_passGuarded hm hc hidle _ _ _ _

theorem gaugeAbortBody_passGuarded (hs : PassGuarded s) : Accepts PassGuarded (gaugeAbortBody s) := by
  have h := passGuarded_of_idle (idle_stopPass hs)
  unfold gaugeAbortBody; split
  · exact h
  · split
    · exact h
    · trivial

theorem startBody_passGuarded (l : List Byte) (hs : PassGuarded s) (hm : s.mode = .config) :
    Accepts PassGuarded (startBody l s) := by
  unfold startBody; split
  · trivial
  · split
    · trivial
    · exact accepts_refuseIf fun _ => passGuarded_started _ (idle_of_not_run hs (by simp [hm]))

theorem stopBody_passGuarded : Accepts PassGuarded (stopBody s) := accepts_refuseIf fun _ => passGuarded_of_idle rfl

theorem holdBody_passGuarded (hs : PassGuarded s) : Accepts PassGuarded (holdBody s) := by
  change PassGuarded (if s.mode = .run then enterHold s else s)
  split
  · exact passGuarded_of_idle (idle_enterHold hs)
  · exact hs

theorem resumeBody_passGuarded (l : List Byte) (hs : PassGuarded s) (hm : s.mode = .hold) :
    Accepts PassGuarded (resumeBody l s) := by
  unfold resumeBody; split
  · trivial
  · exact passGuarded_resumed _ (idle_of_not_run hs (by simp [hm]))

theorem lineConfigBody_passGuarded (l : List Byte) (hs : PassGuarded s) : Accepts PassGuarded (lineConfigBody l s) := by
  unfold lineConfigBody; split
  · exact accepts_refuseIf fun _ => passGuarded_followPin _ _ (passGuarded_congr (passView_modLine s _ _) hs)
  · trivial

end

/-! ### Every command in turn -/

/-- The state that an outcome leads to is guarded. -/
def LeadsGuarded : Host.Outcome State Fault Refusal → Prop
  | .next t => PassGuarded t
  | .fault _ | .refused _ => True

/-- An event that happens under a condition, and nothing when it fails. -/
theorem passGuarded_eventIf {c : Prop} [Decidable c] {f : State → State} {s : State} (hs : PassGuarded s)
    (hf : PassGuarded (f s)) : PassGuarded (if c then event f s else s) := by
  split
  · exact hf
  · exact hs

theorem exec_passGuarded (c : Instr) {s : State} (hs : PassGuarded s) : LeadsGuarded (exec c s) := by
  cases c with
  | powerOn | resetPin => exact passGuarded_of_idle rfl
  | read | linkReset | emptyFrame | frameMalformed | unknownCommand => exact hs
  | ident p l => exact passGuarded_unseen hs fun u => rfl
  | capture p l => exact passGuarded_unseen hs (captureBody_unseen p l)
  | readStage p l => exact passGuarded_unseen hs (readStageBody_unseen p l)
  | editStage p l => exact passGuarded_unseen hs (editStageBody_unseen p l)
  | update p l => exact passGuarded_unseen hs (updateBody_unseen p)
  | service p l => exact passGuarded_unseen hs fun u => passView_modNotice u _ _
  | rearm p l => exact passGuarded_unseen hs fun u => passView_modNotice u _ _
  | clearNotices p l => exact passGuarded_unseen hs (clearNoticesBody_unseen p l)
  | setEnables p l => exact passGuarded_unseen hs (setEnablesBody_unseen p l)
  | placeOrder p l => exact passGuarded_unseen hs (placeOrderBody_unseen l)
  | cancelOrder p l => exact passGuarded_unseen hs (cancelOrderBody_unseen l)
  | releaseOrder p l => exact passGuarded_unseen hs (releaseOrderBody_unseen l)
  | start p l => exact passGuarded_command hs fun u hu hm => startBody_passGuarded l hu (by simpa using hm)
  | stop p l => exact passGuarded_command hs fun u _ _ => stopBody_passGuarded
  | hold p l => exact passGuarded_command hs fun u hu _ => holdBody_passGuarded hu
  | resume p l => exact passGuarded_command hs fun u hu hm => resumeBody_passGuarded l hu (by simpa using hm)
  | lineReset p l => exact passGuarded_command hs fun u hu _ => passGuarded_lineReset hu
  | lineAssign p l => exact passGuarded_unseen hs (lineAssignBody_unseen l)
  | lineConfig p l => exact passGuarded_command hs fun u hu _ => lineConfigBody_passGuarded l hu
  | lineSet p l => exact passGuarded_unseen hs fun u => passView_setLevels u _ _
  | lineToggle p l => exact passGuarded_unseen hs fun u => passView_toggleLevels u _
  | lineRead p l => exact passGuarded_unseen hs fun u => rfl
  | lineFilteredEdge k => exact passGuarded_filterElapsed k hs
  | claim p l => exact passGuarded_command hs fun u hu _ => claimBody_passGuarded p l hu
  | release p l => exact passGuarded_command hs fun u hu _ => releaseBody_passGuarded p l hu
  | loadGarment p l => exact passGuarded_unseen hs (loadGarmentBody_unseen l)
  | index => exact passGuarded_functionEdge .indexPulse true hs
  | claimWindowExpiry e => exact passGuarded_congr (passView_claimWindowExpiry s e) hs
  | spray p l => exact passGuarded_command hs fun u hu hm => sprayBody_passGuarded hu (by simpa using hm)
  | strokeActivePhase => exact passGuarded_strokeActivePhase hs
  | strokeDelivered => exact passGuarded_strokeDelivered hs
  | sprayPassEnd => exact passGuarded_eventIf hs (passGuarded_strokeDelivered hs)
  | pumpFault => exact passGuarded_functionEdge .pumpFault true hs
  | pumpFaultClear => exact passGuarded_functionEdge .pumpFault false hs
  | gaugeDry p l => exact passGuarded_command hs fun u _ hm => gaugeDryBody_passGuarded (by simpa using hm)
  | gaugeWet p l => exact passGuarded_command hs fun u _ hm => gaugeWetBody_passGuarded (by simpa using hm)
  | gaugeOscEdge e => exact passGuarded_functionEdge (oscFunction e) true hs
  | dryPassEnd | gaugeWetOverflow =>
    exact passGuarded_eventIf hs (passGuarded_functionEdge (oscFunction s.gauge.electrode) true hs)
  | gaugeDryTimeout | wetPassEnd => exact passGuarded_eventIf hs (passGuarded_tick hs)
  | gaugeAbort p l => exact passGuarded_command hs fun u hu _ => gaugeAbortBody_passGuarded hu
  | pressDone p l => exact passGuarded_unseen hs (pressDoneBody_unseen l)
  | engineOnline p l => exact passGuarded_unseen hs fun u => onEngine_unseen p u fun e => engineOnlineBody_unseen e u
  | engineOffline p l => exact passGuarded_unseen hs fun u => onEngine_unseen p u fun e => engineOfflineBody_unseen e u
  | engineFault p l => exact passGuarded_unseen hs fun u => onEngine_unseen p u fun e => engineFaultBody_unseen e u
  | inkReport p l => exact passGuarded_unseen hs fun u => onEngine_unseen p u fun e => inkReportBody_unseen l e u
  | printDone p l => exact passGuarded_unseen hs fun u => onEngine_unseen p u fun e => printDoneBody_unseen l e u
  | cleanStart p l => exact passGuarded_unseen hs fun u => onEngine_unseen p u fun e => cleanStartBody_unseen e u
  | cleanDone p l => exact passGuarded_unseen hs fun u => onEngine_unseen p u fun e => cleanDoneBody_unseen e u
  | tunnelEntry p l => exact passGuarded_unseen hs tunnelEntryBody_unseen
  | unloadDone p l => exact passGuarded_unseen hs unloadDoneBody_unseen
  | zoneTemps p l => exact passGuarded_unseen hs (zoneTempsBody_unseen l)
  | staleTimerExpiry => exact passGuarded_congr (passView_staleExpiry s) hs
  | sampleTimerExpiry => exact passGuarded_congr (passView_sampleExpiry s) hs
  | encoderPulse => exact passGuarded_functionEdge .beltEnc true hs
  | tunnelExit => exact passGuarded_eventIf hs (passGuarded_functionEdge .beltEnc true hs)
  | exitPop p l => exact passGuarded_unseen hs exitPopBody_unseen
  | timebaseTick => exact passGuarded_tick hs
  | pinChange k level => exact passGuarded_followPin k _ (passGuarded_congr (passView_modLine s k _) hs)

/-- Settles O55: the front command keeps the guard, and so does a moment of the receivers. -/
theorem stepKeepsPassGuarded : Obligations.StepKeepsPassGuarded := by
  intro s t hs ht
  have hstep : LeadsGuarded (step s) := by
    unfold step
    split
    · exact passGuarded_congr (passView_busTick s) hs
    · exact exec_passGuarded _ (passGuarded_congr (passView_setPending s _) hs)
  rw [ht] at hstep
  exact hstep

end Sys2Proof.Pretreatment
end

