-- ==== Sys2Proof/Proofs/Pretreatment/PassEnds.lean ====
section
/-! PROOF. The ends of a pass: by its last stroke (O33), by a pump fault (O34), by GAUGE_ABORT (O39) and by HOLD (O19). -/

namespace Sys2Proof.Pretreatment

open Sys2Proof Sys2Proof.Machine Sys2Proof.PlatenRing

/-! ### Responses and records -/

/-- A command that is taken without an effect answers as a refused one does: on its own port alone. -/
theorem respond_endFrame (p : Port) (code : Byte) (l : List Byte) (st : Status) (data : List Byte) (s : State) :
    respond p code st data (endFrame p (l.length + 2) false s) = refused p code l st data s := by
  simp [respond, modPort, endFrame, refused, answered, answeredWith, State.port]

/-- One traveller rewritten with its serial kept, the new record read off the table. -/
theorem serialsKept_put {s t : State} {i : Fin 32} {v w : Traveller} (ht : t.table = (putTrav i (some w) s).table)
    (hv : s.trav? i = some v) (hw : w.serial = v.serial) : SerialsKept s t :=
  serialsKept_of_put hv hw ht

/-- R3, for a taken command that wrote one traveller slot. -/
theorem taken_table {p : Port} {code : Byte} {st : Status} {data : List Byte} {n : Nat} {i : Fin 32} {v : Option Traveller}
    {s t : State} (h : t.table = (putTrav i v s).table) :
    (respond p code st data (commit (endFrame p n false s) t)).table = tableAfter i v s :=
  (commit_table_put (old := endFrame p n false s) h).trans rfl

@[simp] theorem addFault_serial (c : FaultCode) (v : Traveller) : (addFault c v).serial = v.serial := by
  unfold addFault; split <;> rfl

/-! ### A pass cut short (R72, R73, R88, R90) -/

/-- R72, R73: the garment of a spray pass that `c` cuts short after `n` strokes. -/
def cutGarment (c : FaultCode) (n : Nat) (r : Pretreat) (v : Traveller) : Traveller :=
  addFault c { v with pretreat := some { r with delivered := r.delivered + n } }

@[simp] theorem cutGarment_serial (c : FaultCode) (n : Nat) (r : Pretreat) (v : Traveller) :
    (cutGarment c n r v).serial = v.serial := addFault_serial c _

theorem cutGarment_of_lt {v : Traveller} (h : v.faults.length < 4) (c : FaultCode) (n : Nat) (r : Pretreat) :
    cutGarment c n r v =
      { v with pretreat := some { r with delivered := r.delivered + n }, faults := v.faults ++ [c] } :=
  addFault_of_lt (by exact h) c

theorem sprayCut_eq {p : SprayPass} {v : Traveller} {r : Pretreat} {s : State} (c : FaultCode)
    (hv : s.trav? p.trav = some v) (hr : v.pretreat = some r) :
    sprayCut c p s = raise .prep .passFault
      ((putTrav p.trav (some (cutGarment c s.pre.strokes r v)) s).setPre { s.pre with pass := none }) := by
  rw [sprayCut, modPretreat_some _ hv, modTrav_some _ (trav?_putTrav_eq _ _ _), putTrav_putTrav, hr]
  rfl

/-- R90: the gauge of a pass that was stopped: the GAUGE record takes its counts. -/
def abortedGauge (x : LastPass) (g : Gauge) : Gauge :=
  { g with pass := none, last := some { x with ending := .aborted }, recEdges := g.edges, recTimebase := g.timebase,
           rev := g.rev + 1 }

theorem stopPass_spray {p : SprayPass} {v : Traveller} {r : Pretreat} {s : State} (hp : s.pre.pass = some p)
    (hv : s.trav? p.trav = some v) (hr : v.pretreat = some r) :
    stopPass s = raise .prep .passFault
      ((putTrav p.trav (some (cutGarment .gaugeAborted s.pre.strokes r v)) s).setPre { s.pre with pass := none }) := by
  rw [stopPass, hp]
  exact sprayCut_eq _ hv hr

theorem stopPass_gauge {p : GaugePass} {v : Traveller} {x : LastPass} {s : State} (hs : s.pre.pass = none)
    (hp : s.gauge.pass = some p) (hx : s.gauge.last = some x) (hv : s.trav? p.trav = some v) :
    stopPass s = raise .prep .passFault
      ((putTrav p.trav (some (addFault .gaugeAborted v)) s).setGauge (abortedGauge x s.gauge)) := by
  simp only [stopPass, hs, hp, gaugeFail, modTrav_some _ hv, gaugeIdle, putTrav_gauge, hx]
  rfl

/-! ### The last stroke (R68 to R70) -/

/-- R69, R70: the pretreat record of a garment whose spray pass ended with `n` strokes counted. -/
def sprayedRecord (p : SprayPass) (n mass : Nat) (r : Pretreat) : Pretreat :=
  if p.ungauged then
    { r with delivered := r.delivered + n, sub := .ungauged, measured := some (min 4095 ((r.delivered + n) * mass / 100)) }
  else { r with delivered := r.delivered + n, sub := .sprayed }

theorem sprayEnd_eq {p : SprayPass} {v : Traveller} {r : Pretreat} {s : State} (n : Nat)
    (hv : s.trav? p.trav = some v) (hr : v.pretreat = some r) :
    sprayEnd p n s = raise .prep .sprayDone
      ((putTrav p.trav (some { v with pretreat := some (sprayedRecord p n s.constants.strokeMass r) }) s).setPre
        { s.pre with pass := none, strokes := n }) := by
  rw [sprayEnd, modPretreat_some _ hv, hr]
  rfl

theorem strokeActivePhase_of_inactive {p : SprayPass} {s : State} (hp : s.pre.pass = some p) (h : p.phase = .inactive) :
    strokeActivePhase s = s.setPre { s.pre with pass := some { p with phase := .active } } := by
  simp [strokeActivePhase, hp, h]

theorem strokeDelivered_of_active {p : SprayPass} {s : State} (hp : s.pre.pass = some p) (h : p.phase = .active) :
    strokeDelivered s = if s.pre.strokes + 1 < p.count then nextStroke p (s.pre.strokes + 1) s
      else sprayEnd p (s.pre.strokes + 1) s := by
  simp [strokeDelivered, hp, h]

theorem lastStroke_of_active {p : SprayPass} {s : State} (hp : s.pre.pass = some p) (h : p.phase = .active) :
    lastStroke s = decide (p.count ≤ s.pre.strokes + 1) := by
  simp [lastStroke, hp, h]

theorem keeps_setPre {changed : List Block} (h : Block.pre ∈ changed) (x : PretreatUnit) (s : State) :
    Keeps changed s (s.setPre x) :=
  ⟨rfl, rfl, fun b hb => by cases b <;> first | rfl | exact absurd h hb⟩

/-- Settles O33: the two halves of a stroke, the stroke below the pass count, and the stroke that reaches it. -/
theorem strokesAndTheirEnd : Obligations.StrokesAndTheirEnd := by
  refine ⟨fun p s hp => ⟨fun hph => ?_, fun hph hlt => ?_⟩, fun p v r s hp hph hcount hv hr => ?_⟩
  · refine ⟨commit s (strokeActivePhase s), rfl, ?_⟩
    rw [strokeActivePhase_of_inactive hp hph]
    exact ⟨keeps_commit (keeps_setPre (by simp) _ s) (serialsKept_of_table rfl), rfl⟩
  · refine ⟨commit s (strokeDelivered s), rfl, ?_⟩
    rw [strokeDelivered_of_active hp hph, if_pos hlt]
    exact ⟨keeps_commit (keeps_setPre (by simp) _ s) (serialsKept_of_table rfl), rfl⟩
  · have hlast : exec .sprayPassEnd s = .next (commit s (strokeDelivered s)) := by
      have hl : lastStroke s = true := by simp [lastStroke_of_active hp hph, hcount]
      exact congrArg Host.Outcome.next (if_pos hl)
    refine ⟨commit s (strokeDelivered s), hlast, rfl, ?_⟩
    rw [strokeDelivered_of_active hp hph, if_neg (by omega), hcount, sprayEnd_eq p.count hv hr]
    refine ⟨keeps_commit ⟨rfl, rfl, fun b hb => ?_⟩ (serialsKept_put rfl hv rfl), rfl, commit_table_put rfl, rfl⟩
    cases b <;> first | rfl | simp at hb

/-! ### The pump fault (R71, R72) -/

theorem functionEdge_of_line {f : LineFunction} {l : Fin 24} {s : State} (h : s.lineOf f = some l) (level : Bool) :
    functionEdge f level s = deliver f level (s.setLines (edged l level s)) := by
  simp only [functionEdge, h]
  rfl

theorem pumpFaultEdge_of_idle {s : State} (h : s.pre.pass = none) : pumpFaultEdge s = setPumpFault true s := by
  rw [pumpFaultEdge, h]

theorem pumpFaultEdge_of_pass {p : SprayPass} {s : State} (h : s.pre.pass = some p) :
    pumpFaultEdge s = setPumpFault true (sprayCut .pumpFault p s) := by rw [pumpFaultEdge, h]

/-- Settles O34: the edge on an idle unit, under a spray pass, and the inactive edge. -/
theorem pumpFaultEndsSpray : Obligations.PumpFaultEndsSpray := by
  intro l s hl
  obtain ⟨u, hu⟩ : ∃ u, u = s.setLines (edged l true s) := ⟨_, rfl⟩
  have hedge : functionEdge .pumpFault true s = pumpFaultEdge u := by rw [functionEdge_of_line hl, ← hu]; rfl
  refine ⟨fun hp => ?_, fun p v r hp hv hr hf => ?_, ?_⟩
  · refine ⟨commit s (functionEdge .pumpFault true s), rfl, ?_⟩
    rw [hedge, pumpFaultEdge_of_idle (by rw [hu]; exact hp), hu]
    refine ⟨keeps_commit ⟨rfl, rfl, fun b hb => ?_⟩ (serialsKept_of_table rfl), rfl, rfl⟩
    cases b <;> first | rfl | simp at hb
  · refine ⟨commit s (functionEdge .pumpFault true s), rfl, ?_⟩
    have hcut : sprayCut .pumpFault p u = _ := sprayCut_eq .pumpFault (by rw [hu]; exact hv) hr
    rw [hedge, pumpFaultEdge_of_pass (by rw [hu]; exact hp), hcut, cutGarment_of_lt hf, hu]
    refine ⟨keeps_commit ⟨rfl, rfl, fun b hb => ?_⟩ (serialsKept_put rfl hv rfl), rfl, rfl, commit_table_put rfl,
      rfl⟩
    cases b <;> first | rfl | simp at hb
  · refine ⟨commit s (functionEdge .pumpFault false s), rfl, ?_⟩
    rw [functionEdge_of_line hl]
    refine ⟨keeps_commit ⟨rfl, rfl, fun b hb => ?_⟩ (serialsKept_of_table rfl), rfl, rfl⟩
    cases b <;> first | rfl | simp at hb

/-! ### GAUGE_ABORT (R89) -/

theorem gaugeAbortBody_of_idle {s : State} (h : s.passInFlight = false) : gaugeAbortBody s = .refuse .state [] := by
  obtain ⟨hp, hg⟩ := passInFlight_eq_false_iff.mp h
  simp [gaugeAbortBody, hp, hg]

theorem gaugeAbortBody_spray {p : SprayPass} {s : State} (h : s.pre.pass = some p) :
    gaugeAbortBody s = .accept (stopPass s) [0] := by
  rw [gaugeAbortBody, h]
  rfl

theorem gaugeAbortBody_gauge {p : GaugePass} {s : State} (h : s.pre.pass = none) (hp : s.gauge.pass = some p) :
    gaugeAbortBody s = .accept (stopPass s) [if p.kind = .dry then 1 else 2] := by
  simp only [gaugeAbortBody, h, hp]
  cases p.kind <;> rfl

/-- Settles O39: no pass in flight, a spray pass, a gauge pass. -/
theorem gaugeAbortStopsPass : Obligations.GaugeAbortStopsPass := by
  intro s hm
  obtain ⟨u, hu⟩ : ∃ u, u = endFrame .prep 2 false s := ⟨_, rfl⟩
  refine ⟨fun hidle => ?_, fun p v r hp hv hr hf => ?_, fun p v x hs hp hx hv hf => ?_⟩
  · exact congrArg Host.Outcome.next
      (command_rejected (by simp) (mem_runHold hm) rfl (gaugeAbortBody_of_idle hidle))
  · have hstop : stopPass u = _ := stopPass_spray (s := u) (p := p) (v := v) (r := r) (by rw [hu]; exact hp)
      (by rw [hu]; exact hv) hr
    have hbody := gaugeAbortBody_spray (s := u) (p := p) (by rw [hu]; exact hp)
    rw [hstop, cutGarment_of_lt hf, hu] at hbody
    refine ⟨_, congrArg Host.Outcome.next (command_taken (by simp) (mem_runHold hm) rfl hbody),
      keeps_taken (by simp) ⟨rfl, rfl, fun b hb => ?_⟩ (serialsKept_put rfl hv rfl), rfl,
      taken_table rfl, rfl, accepted_ports (l := []) rfl⟩
    cases b <;> first | rfl | simp at hb
  · have hstop : stopPass u = _ := stopPass_gauge (s := u) (p := p) (v := v) (x := x) (by rw [hu]; exact hs)
      (by rw [hu]; exact hp) (by rw [hu]; exact hx) (by rw [hu]; exact hv)
    have hbody := gaugeAbortBody_gauge (s := u) (p := p) (by rw [hu]; exact hs) (by rw [hu]; exact hp)
    rw [hstop, addFault_of_lt hf, hu] at hbody
    refine ⟨_, congrArg Host.Outcome.next (command_taken (by simp) (mem_runHold hm) rfl hbody),
      keeps_taken (by simp) ⟨rfl, rfl, fun b hb => ?_⟩ (serialsKept_put rfl hv rfl),
      taken_table rfl, rfl, rfl, accepted_ports (l := []) rfl⟩
    cases b <;> first | rfl | simp at hb

/-! ### HOLD (R158) -/

/-- R158: the notices that entering HOLD raises. -/
def holdNotices : List (Port × Source) := allPorts.map fun p => (p, .holdEntered)

/-- R158: the part that enters HOLD once the pass in flight is stopped. -/
theorem enterHold_eq (s : State) :
    enterHold s = ((stopPass s).setSetup { (stopPass s).setup with mode := .hold }).setNotices
      (raisedIn holdNotices (stopPass s).notices) := by
  have hsetup : (enterHold s).setup = { (stopPass s).setup with mode := .hold } := by rw [enterHold, raiseOn_setup]; rfl
  refine State.ext_fields ?_ ?_ ?_ ?_ ?_ ?_ ?_ ?_ ?_ (raiseOn_notices _ _ _) ?_ hsetup ?_ ?_ <;> simp [enterHold]

theorem exec_hold_run {s : State} (hm : s.mode = .run) :
    exec (.hold .gateway []) s =
      .next (respond .gateway 0x14 .ok [] (commit (endFrame .gateway 2 false s) (enterHold (endFrame .gateway 2 false s)))) := by
  refine congrArg Host.Outcome.next (command_taken (by simp) (mem_runHold (.inl hm)) rfl ?_)
  rw [holdBody, if_pos]
  · rfl
  · exact hm

theorem exec_hold_hold {s : State} (hm : s.mode = .hold) :
    exec (.hold .gateway []) s = .next (refused .gateway 0x14 [] .ok [] s) := by
  have hbody : holdBody (endFrame .gateway 2 false s) = .accept (endFrame .gateway 2 false s) [] := by
    rw [holdBody, if_neg (by simp [hm])]
  refine congrArg Host.Outcome.next ((command_taken (by simp) (mem_runHold (.inr hm)) rfl hbody).trans ?_)
  exact (congrArg (respond .gateway 0x14 .ok []) (commit_self _)).trans (respond_endFrame _ _ [] _ _ s)

/-- R137: the safe levels. -/
theorem outputLevel_of_hold {t : State} (h : t.mode = .hold) :
    t.outputLevel .indexPermit = some false ∧ t.outputLevel .pumpStroke = some false ∧
      t.outputLevel .gaugeExcite = some false ∧ t.outputLevel .faultOut = some true := by
  simp [State.outputLevel, h]

/-- Settles O19: HOLD without a pass, in HOLD, under a spray pass and under a gauge pass. -/
theorem holdEntersHold : Obligations.HoldEntersHold := by
  refine ⟨fun s => ⟨fun hm hidle => ?_, exec_hold_hold⟩, fun p v r s hm hp hv hr => ?_, fun p v x s hm hs hp hx hv => ?_⟩
  · have heff := enterHold_eq (endFrame .gateway 2 false s)
    rw [stopPass_of_none (s := endFrame .gateway 2 false s) hidle] at heff
    refine ⟨_, exec_hold_run hm, ?_⟩
    rw [heff]
    refine ⟨keeps_taken (by simp) ⟨rfl, rfl, fun b hb => ?_⟩ (serialsKept_of_table rfl), rfl, rfl,
      accepted_ports (l := []) rfl, outputLevel_of_hold rfl⟩
    cases b <;> first | rfl | simp at hb
  · have heff := enterHold_eq (endFrame .gateway 2 false s)
    rw [stopPass_spray (s := endFrame .gateway 2 false s) hp hv hr] at heff
    refine ⟨_, exec_hold_run hm, ?_⟩
    rw [heff]
    refine ⟨keeps_taken (by simp) ⟨rfl, rfl, fun b hb => ?_⟩
        (serialsKept_put rfl hv (cutGarment_serial _ _ _ _)), rfl, rfl,
      taken_table rfl, rfl⟩
    cases b <;> first | rfl | simp at hb
  · have heff := enterHold_eq (endFrame .gateway 2 false s)
    rw [stopPass_gauge (s := endFrame .gateway 2 false s) hs hp hx hv] at heff
    refine ⟨_, exec_hold_run hm, ?_⟩
    rw [heff]
    refine ⟨keeps_taken (by simp) ⟨rfl, rfl, fun b hb => ?_⟩
        (serialsKept_put rfl hv (addFault_serial _ _)), rfl,
      taken_table rfl, rfl, rfl, accepted_ports (l := []) rfl⟩
    cases b <;> first | rfl | simp at hb

end Sys2Proof.Pretreatment
end

