-- ==== Sys2Proof/Proofs/Pretreatment/SprayPress.lean ====
section
/-! PROOF. SPRAY (O32) and PRESS_DONE (O35), check by check. -/

namespace Sys2Proof.Pretreatment

open Sys2Proof Sys2Proof.Machine Sys2Proof.PlatenRing

/-! ### The garment at the booth -/

theorem atBooth_of_pretreat {i : Fin 32} {v : Traveller} {r : Pretreat} {s : State} (hat : s.travAt 2 = some (i, v))
    (hst : v.stage = .pretreat) (hr : v.pretreat = some r) : atBooth s = some (i, v, r) := by
  simp [atBooth, hat, hst, hr]

theorem atBooth_of_empty {s : State} (hat : s.travAt 2 = none) : atBooth s = none := by simp [atBooth, hat]

theorem atBooth_of_stage {i : Fin 32} {v : Traveller} {s : State} (hat : s.travAt 2 = some (i, v))
    (hst : v.stage ≠ .pretreat) : atBooth s = none := by simp [atBooth, hat, hst]

/-- R70, as the statements say it. -/
theorem ungauged_eq_decide (s : State) (v : Traveller) :
    ungauged s v = decide ((s.boundLine v).placement = .back ∧ s.assigned .gaugeOscBack = false) := by
  simp [ungauged]

theorem sprayNeeds_ungauged (s : State) (v : Traveller) : sprayNeeds (ungauged s v) =
    if (s.boundLine v).placement = .back ∧ s.assigned .gaugeOscBack = false then .needDry else .dryDone := by
  rw [ungauged_eq_decide, sprayNeeds]
  simp only [decide_eq_true_eq]

/-! ### The checks of SPRAY (R66) -/

theorem sprayBody_unclaimed {s : State} (h : s.holdsClaim .prep .spray = false) : sprayBody s = .refuse .state [] :=
  refuseIf_pos h _ _

/-- Without a PRETREAT garment at the booth SPRAY is refused, the claim held or not. -/
theorem sprayBody_no_garment {s : State} (h : atBooth s = none) : sprayBody s = .refuse .state [] := by
  rw [sprayBody, h]
  by_cases hc : s.holdsClaim .prep .spray = false
  · exact refuseIf_pos hc _ _
  · exact refuseIf_neg hc _ _

/-- R66, from the third check on. -/
theorem sprayBody_at_booth {i : Fin 32} {v : Traveller} {r : Pretreat} {s : State}
    (hc : s.holdsClaim .prep .spray = true) (hb : atBooth s = some (i, v, r)) :
    sprayBody s =
      refuseIf (s.passInFlight = true) .busy
        (refuseIf (r.sub ≠ sprayNeeds (ungauged s v)) .state
          (refuseIf (s.pre.pumpFault = true) .state
            (if r.commanded - r.delivered = 0 then .accept (zeroSpray i v r s) (bytes16 0)
              else .accept (startSpray i (r.commanded - r.delivered) (ungauged s v) s)
                (bytes16 (r.commanded - r.delivered))))) := by
  rw [sprayBody, refuseIf_neg (by simp [hc]), hb]

/-- R66, a SPRAY that passes its checks. -/
theorem sprayBody_passed {i : Fin 32} {v : Traveller} {r : Pretreat} {s : State} (hc : s.holdsClaim .prep .spray = true)
    (hb : atBooth s = some (i, v, r)) (hidle : s.passInFlight = false) (hsub : r.sub = sprayNeeds (ungauged s v))
    (hpump : s.pre.pumpFault = false) :
    sprayBody s =
      if r.commanded - r.delivered = 0 then .accept (zeroSpray i v r s) (bytes16 0)
      else .accept (startSpray i (r.commanded - r.delivered) (ungauged s v) s) (bytes16 (r.commanded - r.delivered)) := by
  rw [sprayBody_at_booth hc hb, refuseIf_neg (by simp [hidle]), refuseIf_neg (not_not_intro hsub),
    refuseIf_neg (by simp [hpump])]

theorem startSpray_pre {i : Fin 32} {n : Nat} {ung : Bool} {s : State} (h : s.pre.pumpFault = false) :
    (startSpray i n ung s).pre = ⟨some ⟨i, n, ung, .inactive, 1000000 / s.constants.strokeRate⟩, 0, false⟩ := by
  simp [startSpray, strokePeriod, h]

/-! ### A SPRAY of no strokes (R75) -/

/-- R92: a deposit of 0 lies in the band of a target of 0. -/
theorem verified_zero {c : Constants} {r : Pretreat} {v : Traveller} (h : r.target = 0) :
    verified c 0 r v = { v with pretreat := some { r with measured := some 0, sub := .verified } } := by
  have hv : verdictOf r.target c.tolerance 0 = .verified := by simp [verdictOf, bandLow, h]
  simp only [verified, hv]

theorem zeroSpray_eq {i : Fin 32} {v : Traveller} {r : Pretreat} {s : State} (h : r.target = 0) :
    zeroSpray i v r s = raise .prep .sprayDone (putTrav i (some { v with
      pretreat := some { r with measured := some 0, sub := if ungauged s v then .ungauged else .verified } }) s) := by
  rw [zeroSpray, verified_zero h]
  by_cases hu : ungauged s v = true
  · simp [hu, strokeDeposit]
  · simp [hu]

/-- A SPRAY whose own checks refuse it. -/
theorem spray_refused {s : State} {st : Status} (hm : s.mode = .run)
    (hb : sprayBody (endFrame .prep 2 false s) = .refuse st []) :
    exec (.spray .prep []) s = .next (refused .prep 0x2A [] st [] s) :=
  congrArg Host.Outcome.next (command_rejected (by simp) (by simp [hm]) rfl hb)

/-- Settles O32: a pass starts, a metering of no strokes completes, or the first check that fails refuses. -/
theorem sprayStartsPass : Obligations.SprayStartsPass := by
  refine ⟨fun i v r s hm hc hat hst hr hidle hsub hpump howed => ?_,
    fun i v r ung s hm hc hat hst hr hidle hung hsub hpump ht hnone => ?_, fun s hm => ⟨fun hc => ?_, fun hat => ?_,
    fun i v hc hat => ⟨fun hst => ?_, fun r hst hr => ⟨fun hfly => ?_, fun hidle hpump => ?_, fun hidle hsub => ?_⟩⟩⟩⟩
  · have hbody := sprayBody_passed (s := endFrame .prep 2 false s) hc (atBooth_of_pretreat hat hst hr) hidle
      (hsub.trans (sprayNeeds_ungauged s v).symm) hpump
    rw [if_neg (by omega)] at hbody
    refine ⟨_, congrArg Host.Outcome.next (command_taken (by simp) (by simp [hm]) rfl hbody),
      keeps_taken (by simp) (keeps_setPre (by simp) _ _) (serialsKept_of_table rfl), ?_, accepted_ports (l := []) rfl⟩
    rw [← ungauged_eq_decide]
    exact startSpray_pre hpump
  · have hsub' : r.sub = sprayNeeds (ungauged s v) := by
      rw [hsub, hung, sprayNeeds_ungauged]
      simp only [decide_eq_true_eq]
    have hbody := sprayBody_passed (s := endFrame .prep 2 false s) hc (atBooth_of_pretreat hat hst hr) hidle hsub' hpump
    have hung' : ungauged (endFrame .prep 2 false s) v = ung := (ungauged_eq_decide s v).trans hung.symm
    rw [if_pos (by omega), zeroSpray_eq ht, hung'] at hbody
    refine ⟨_, congrArg Host.Outcome.next (command_taken (by simp) (by simp [hm]) rfl hbody),
      keeps_taken (by simp) ⟨rfl, rfl, fun b hb => ?_⟩ (serialsKept_put rfl (travAt_eq_some_iff.mp hat).2 rfl),
      taken_table rfl, rfl, accepted_ports (l := []) rfl⟩
    cases b <;> first | rfl | simp at hb
  · exact spray_refused hm (sprayBody_unclaimed hc)
  · exact spray_refused hm (sprayBody_no_garment (atBooth_of_empty hat))
  · exact spray_refused hm (sprayBody_no_garment (atBooth_of_stage hat hst))
  all_goals
    refine spray_refused hm
      ((sprayBody_at_booth (s := endFrame .prep 2 false s) hc (atBooth_of_pretreat hat hst hr)).trans ?_)
  · exact refuseIf_pos hfly _ _
  · rw [refuseIf_neg (by simp [hidle]), refuseIf_pos (show (endFrame .prep 2 false s).pre.pumpFault = true from hpump)]
    by_cases hsub : r.sub ≠ sprayNeeds (ungauged (endFrame .prep 2 false s) v)
    · exact refuseIf_pos hsub _ _
    · exact refuseIf_neg hsub _ _
  · have hother : r.sub ≠ sprayNeeds (ungauged s v) := fun h => hsub (h.trans (sprayNeeds_ungauged s v))
    rw [refuseIf_neg (by simp [hidle])]
    exact refuseIf_pos hother _ _

/-! ### The press (R76, R77) -/

theorem u16At_bytes16 {n : Nat} (h : n < 65536) (l : List Byte) : u16At (bytes16 n ++ l) 0 = n := by
  simp [u16At, byteAt, bytes16]
  omega

theorem u16At_bytes16_snd {m n : Nat} (h : n < 65536) : u16At (bytes16 m ++ bytes16 n) 2 = n := by
  simp [u16At, byteAt, bytes16]
  omega

theorem readyForPress_of {x : SubState} (h : x = .verified ∨ x = .heavy ∨ x = .ungauged) : readyForPress x = true := by
  obtain rfl | rfl | rfl := h <;> rfl

/-- R76: a PRESS_DONE that passes its checks. -/
theorem pressDoneBody_passed {temp secs : Nat} {i : Fin 32} {v : Traveller} {r : Pretreat} {s : State}
    (htemp : temp ≤ 300) (hsecs : secs ≤ 600) (hc : s.holdsClaim .prep .press = true) (hat : s.travAt 4 = some (i, v))
    (hst : v.stage = .pretreat) (hr : v.pretreat = some r) (hsub : readyForPress r.sub = true) :
    pressDoneBody (bytes16 temp ++ bytes16 secs) s =
      .accept (putTrav i (some (pressed temp secs (pressVerdict (s.fabricOf (s.boundLine v)) temp secs) v)) s)
        (bytes8 (pressVerdictCode (pressVerdict (s.fabricOf (s.boundLine v)) temp secs))) := by
  rw [pressDoneBody, u16At_bytes16 (by omega), u16At_bytes16_snd (by omega)]
  dsimp only
  rw [refuseIf_neg (by omega), refuseIf_neg (by simp [hc]), hat]
  dsimp only
  rw [refuseIf_neg (not_not_intro hst), refuseIf_neg (by simp [hr, hsub])]

theorem pressed_serial (temp secs : Nat) (x : PressVerdict) (v : Traveller) : (pressed temp secs x v).serial = v.serial := by
  cases x with
  | pressed => rfl
  | short => exact addFault_serial _ _

/-- A PRESS_DONE whose checks take it, with the garment rewritten as `w` and the verdict's code answered. -/
theorem pressDone_taken {l data : List Byte} {i : Fin 32} {v w : Traveller} {s : State} (hl : l.length = 4)
    (hm : s.mode = .run ∨ s.mode = .hold) (hv : s.trav? i = some v) (hw : w.serial = v.serial)
    (hbody : pressDoneBody l (endFrame .prep (l.length + 2) false s) =
      .accept (putTrav i (some w) (endFrame .prep (l.length + 2) false s)) data) :
    ∃ t : State, exec (.pressDone .prep l) s = .next t ∧ Keeps [.table, .ports] s t ∧
      t.table = tableAfter i (some w) s ∧ t.ports = answered .prep 0x2D l .ok data s := by
  refine ⟨_, congrArg Host.Outcome.next (command_taken (by simp) (mem_runHold hm) (by simp [hl]) hbody),
    keeps_taken (by simp) ⟨rfl, rfl, fun b hb => ?_⟩ (serialsKept_put rfl hv hw),
    taken_table rfl, accepted_ports rfl⟩
  cases b <;> first | rfl | simp at hb

/-- Settles O35: the report is stored, and its verdict decides the stage or adds the fault. -/
theorem pressDoneJudged : Obligations.PressDoneJudged := by
  intro temp secs i v r s hm htemp hsecs hc hat hst hr hsub hf
  have hbody := pressDoneBody_passed (s := endFrame .prep 6 false s) htemp hsecs hc hat hst hr (readyForPress_of hsub)
  obtain ⟨t, hexec, hkeeps, htable, hports⟩ :=
    pressDone_taken (l := bytes16 temp ++ bytes16 secs) rfl hm (travAt_eq_some_iff.mp hat).2 (pressed_serial _ _ _ _) hbody
  refine ⟨t, hexec, hkeeps, ?_⟩
  have hverdict : pressVerdict ((endFrame .prep 6 false s).fabricOf ((endFrame .prep 6 false s).boundLine v)) temp secs =
      if (s.fabricOf (s.boundLine v)).pressTemp ≤ temp ∧ (s.fabricOf (s.boundLine v)).pressTime ≤ secs then .pressed
      else .short := rfl
  rw [hverdict] at htable hports
  split
  · rename_i hmin
    rw [if_pos hmin] at htable hports
    exact ⟨htable, hports⟩
  · rename_i hmin
    rw [if_neg hmin] at htable hports
    have hshort : pressed temp secs .short v =
        { v with press := some ⟨temp, secs, .short⟩, faults := v.faults ++ [.pressShort] } := addFault_of_lt (by exact hf) _
    exact ⟨hshort ▸ htable, hports⟩

end Sys2Proof.Pretreatment
end

