-- ==== Sys2Proof/Proofs/Pretreatment/LineAssign.lean ====
section
/-! PROOF. LINE_ASSIGN and the pump fault latch (O22). -/

namespace Sys2Proof.Pretreatment

open Sys2Proof Sys2Proof.Machine Sys2Proof.PlatenRing

/-! ### The operands (R163) -/

theorem functionOf_functionCode (f : LineFunction) : functionOf (functionCode f) = some f := by cases f <;> rfl

theorem functionCode_lt (f : LineFunction) : functionCode f < 256 := by cases f <;> decide

theorem lineAssignBody_at (n : Fin 24) (f : LineFunction) (s : State) :
    lineAssignBody [BitVec.ofNat 8 n.val, BitVec.ofNat 8 (functionCode f)] s =
      .accept (latchAfterAssign n (s.functionAt n) (assignFunction n f s)) [] := by
  rw [lineAssignBody, byteAt_cons_ofNat (by omega), byteAt_snd_ofNat (functionCode_lt f), fin?_val, functionOf_functionCode]

/-! ### The lines (R132) -/

theorem assignFunction_line (n k : Fin 24) (f : LineFunction) (s : State) :
    (assignFunction n f s).lines.get k = { s.lines.get k with function :=
      if k = n then f else if f ≠ .none ∧ (s.lines.get k).function = f then .none else (s.lines.get k).function } := by
  rw [assignFunction, setLines_lines, Tab.get_ofFn]
  by_cases hk : k = n
  · simp [hk]
  · by_cases hf : f ≠ .none ∧ (s.lines.get k).function = f
    · simp only [if_neg hk, if_pos hf]
    · simp only [if_neg hk, if_neg hf]

theorem functionAt_assignFunction_self (n : Fin 24) (f : LineFunction) (s : State) :
    (assignFunction n f s).functionAt n = f := by
  rw [State.functionAt, assignFunction_line, if_pos rfl]

/-! ### The latch (R71, log entry 24) -/

/-- After an assignment the latch stands, or is written with a new level; nothing else moves. -/
theorem latchAfterAssign_eq (n : Fin 24) (was : LineFunction) (s : State) :
    latchAfterAssign n was s = setPumpFault (latchAfterAssign n was s).pre.pumpFault s := by
  unfold latchAfterAssign
  split
  · split <;> rfl
  · split <;> rfl

theorem latch_gained {n : Fin 24} {was : LineFunction} {s : State} (h : s.functionAt n = .pumpFault)
    (hwas : was ≠ .pumpFault) : (latchAfterAssign n was s).pre.pumpFault = s.filteredLevel n := by
  rw [latchAfterAssign, if_pos h, if_neg hwas]
  rfl

theorem latch_unassigned {n : Fin 24} {was : LineFunction} {s : State} (h : ∀ k : Fin 24, s.functionAt k ≠ .pumpFault) :
    (latchAfterAssign n was s).pre.pumpFault = false := by
  have hnone : ¬ s.assigned .pumpFault = true := fun ha => (assigned_iff.mp ha).elim h
  rw [latchAfterAssign, if_neg (h n), if_neg hnone]
  rfl

theorem latch_elsewhere {n : Fin 24} {was : LineFunction} {s : State} (h : s.functionAt n ≠ .pumpFault)
    (hk : ∃ k : Fin 24, s.functionAt k = .pumpFault) : (latchAfterAssign n was s).pre.pumpFault = s.pre.pumpFault := by
  rw [latchAfterAssign, if_neg h, if_pos (assigned_iff.mpr hk)]

/-- Settles O22: the lines take the assignment one by one, and the latch follows the line that holds PUMP_FAULT then. -/
theorem lineAssignMovesFunction : Obligations.LineAssignMovesFunction := by
  intro n f s hm
  let u := endFrame .gateway 4 false s
  have hline := fun k => assignFunction_line n k f u
  have hself := functionAt_assignFunction_self n f u
  obtain ⟨b, hb⟩ : ∃ b, b = (latchAfterAssign n (s.functionAt n) (assignFunction n f u)).pre.pumpFault := ⟨_, rfl⟩
  have hbody : lineAssignBody [BitVec.ofNat 8 n.val, BitVec.ofNat 8 (functionCode f)] u =
      .accept (setPumpFault b (assignFunction n f u)) [] := by
    rw [hb, ← latchAfterAssign_eq]
    exact lineAssignBody_at n f u
  refine ⟨_, congrArg Host.Outcome.next (command_taken (by simp) (by simp [hm]) rfl hbody),
    keeps_taken (by simp) ⟨rfl, rfl, fun b hb => ?_⟩ (serialsKept_of_table rfl), hline, rfl, rfl, fun hf hwas => ?_,
    fun hnone => ?_, fun hf hk => ?_⟩
  · cases b <;> first | rfl | simp at hb
  · exact hb.trans (latch_gained (hself.trans hf) hwas)
  · exact hb.trans (latch_unassigned hnone)
  · exact hb.trans (latch_elsewhere (hself.symm ▸ hf) hk)

end Sys2Proof.Pretreatment
end

