-- ==== Sys2Proof/Proofs/DepositGauge/Passes.lean ====
section
/-! PROOF. GAUGE_DRY and GAUGE_WET, check by check, and what an edge and a tick count (O36). -/

namespace Sys2Proof.DepositGauge

open Sys2Proof Sys2Proof.Machine Sys2Proof.PlatenRing Sys2Proof.Pretreatment

/-! ### The checks that GAUGE_DRY and GAUGE_WET share (R82, R86) -/

section
variable {k : Fin 32 → Traveller → Pretreat → Answer} {s : State}

theorem ungauged_iff {v : Traveller} :
    ungauged s v = true ↔ (s.boundLine v).placement = .back ∧ s.assigned .gaugeOscBack = false := by
  rw [ungauged_eq_decide, decide_eq_true_iff]

theorem gaugeChecks_unclaimed (h : s.holdsClaim .prep .spray = false) : gaugeChecks s k = .refuse .state [] :=
  refuseIf_pos h _ _

/-- Without a PRETREAT garment at the booth both commands are refused, the claim held or not. -/
theorem gaugeChecks_no_garment (h : atBooth s = none) : gaugeChecks s k = .refuse .state [] := by
  rw [gaugeChecks, h]
  by_cases hc : s.holdsClaim .prep .spray = false
  · exact refuseIf_pos hc _ _
  · exact refuseIf_neg hc _ _

/-- From the third check on. -/
theorem gaugeChecks_at_booth {i : Fin 32} {v : Traveller} {r : Pretreat} (hc : s.holdsClaim .prep .spray = true)
    (hb : atBooth s = some (i, v, r)) :
    gaugeChecks s k =
      refuseIf (s.passInFlight = true) .busy (refuseIf (ungauged s v = true) .noLine (k i v r)) := by
  rw [gaugeChecks, refuseIf_neg (by simp [hc]), hb]

/-- A garment that passes all four comes to the check of its sub-state. -/
theorem gaugeChecks_passed {i : Fin 32} {v : Traveller} {r : Pretreat} (hc : s.holdsClaim .prep .spray = true)
    (hb : atBooth s = some (i, v, r)) (hidle : s.passInFlight = false)
    (hgauged : ¬ ((s.boundLine v).placement = .back ∧ s.assigned .gaugeOscBack = false)) :
    gaugeChecks s k = k i v r := by
  rw [gaugeChecks_at_booth hc hb, refuseIf_neg (by simp [hidle]), refuseIf_neg (mt ungauged_iff.mp hgauged)]

end

/-! ### The two commands under one form -/

/-- R82: the last check of GAUGE_DRY, and the pass it starts. -/
def dryStart (s : State) (i : Fin 32) (v : Traveller) (r : Pretreat) : Answer :=
  refuseIf (r.sub ≠ .needDry ∧ r.sub ≠ .dryDone) .state (.accept (startGauge .dry i v 0 s) [])

/-- R86: the last checks of GAUGE_WET, and the pass it starts. -/
def wetStart (s : State) (i : Fin 32) (v : Traveller) (r : Pretreat) : Answer :=
  refuseIf (r.sub ≠ .sprayed) .state <|
    match r.window with
    | none => .refuse .state []
    | some w => .accept (startGauge .wet i v w s) []

/-- Command `c`, with command byte `code`, makes the shared checks and goes on with `k`. -/
def GaugeCommand (c : Instr) (code : Byte) (k : State → Fin 32 → Traveller → Pretreat → Answer) : Prop :=
  ∀ s : State, exec c s = .next (command .prep code [] [.prep] [.run] true (fun u => gaugeChecks u (k u)) s)

theorem gaugeDry_command : GaugeCommand (.gaugeDry .prep []) 0x29 dryStart := fun _ => rfl

theorem gaugeWet_command : GaugeCommand (.gaugeWet .prep []) 0x2B wetStart := fun _ => rfl

section
variable {s : State} {i : Fin 32} {v : Traveller} {r : Pretreat}

theorem dryStart_taken (h : r.sub = .needDry ∨ r.sub = .dryDone) :
    dryStart s i v r = .accept (startGauge .dry i v 0 s) [] :=
  refuseIf_neg (by rwa [← not_or, not_not]) _ _

theorem dryStart_refused (h : r.sub ≠ .needDry) (h' : r.sub ≠ .dryDone) : dryStart s i v r = .refuse .state [] :=
  refuseIf_pos ⟨h, h'⟩ _ _

theorem wetStart_taken {w : Nat} (h : r.sub = .sprayed) (hw : r.window = some w) :
    wetStart s i v r = .accept (startGauge .wet i v w s) [] := by
  rw [wetStart, refuseIf_neg (not_not_intro h), hw]

theorem wetStart_refused (h : r.sub ≠ .sprayed ∨ r.window = none) : wetStart s i v r = .refuse .state [] := by
  by_cases hsub : r.sub = .sprayed
  · rw [wetStart, refuseIf_neg (not_not_intro hsub), h.resolve_left (not_not_intro hsub)]
  · exact refuseIf_pos hsub _ _

end

theorem keeps_setGauge {changed : List Block} (h : Block.gauge ∈ changed) (g : Gauge) (s : State) :
    Keeps changed s (s.setGauge g) :=
  ⟨rfl, rfl, fun b hb => by cases b <;> first | rfl | exact absurd h hb⟩

theorem keeps_setLines {changed : List Block} (h : Block.lines ∈ changed) (x : Tab Line 24) (s : State) :
    Keeps changed s (s.setLines x) :=
  ⟨rfl, rfl, fun b hb => by cases b <;> first | rfl | exact absurd h hb⟩

namespace GaugeCommand

variable {c : Instr} {code : Byte} {k : State → Fin 32 → Traveller → Pretreat → Answer} {s : State} {i : Fin 32}
  {v : Traveller} {r : Pretreat}

theorem refused_by_checks (h : GaugeCommand c code k) (hm : s.mode = .run) {st : Status}
    (hb : gaugeChecks (endFrame .prep 2 false s) (k (endFrame .prep 2 false s)) = .refuse st []) :
    exec c s = .next (refused .prep code [] st [] s) :=
  (h s).trans (congrArg Host.Outcome.next (command_rejected (by simp) (by simp [hm]) rfl hb))

theorem refused_unclaimed (h : GaugeCommand c code k) (hm : s.mode = .run) (hc : s.holdsClaim .prep .spray = false) :
    exec c s = .next (refused .prep code [] .state [] s) :=
  h.refused_by_checks hm (gaugeChecks_unclaimed hc)

theorem refused_no_garment (h : GaugeCommand c code k) (hm : s.mode = .run) (hb : atBooth s = none) :
    exec c s = .next (refused .prep code [] .state [] s) :=
  h.refused_by_checks hm (gaugeChecks_no_garment hb)

theorem refused_busy (h : GaugeCommand c code k) (hm : s.mode = .run) (hc : s.holdsClaim .prep .spray = true)
    (hb : atBooth s = some (i, v, r)) (hfly : s.passInFlight = true) :
    exec c s = .next (refused .prep code [] .busy [] s) :=
  h.refused_by_checks hm
    ((gaugeChecks_at_booth (s := endFrame .prep 2 false s) hc hb).trans (refuseIf_pos hfly _ _))

theorem refused_noLine (h : GaugeCommand c code k) (hm : s.mode = .run) (hc : s.holdsClaim .prep .spray = true)
    (hb : atBooth s = some (i, v, r)) (hidle : s.passInFlight = false)
    (hung : (s.boundLine v).placement = .back ∧ s.assigned .gaugeOscBack = false) :
    exec c s = .next (refused .prep code [] .noLine [] s) :=
  h.refused_by_checks hm ((gaugeChecks_at_booth (s := endFrame .prep 2 false s) hc hb).trans
    ((refuseIf_neg (by simp [hidle]) _ _).trans (refuseIf_pos (ungauged_iff.mpr hung) _ _)))

/-- Refused by the last check, of the sub-state. -/
theorem refused_last (h : GaugeCommand c code k) (hm : s.mode = .run) (hc : s.holdsClaim .prep .spray = true)
    (hb : atBooth s = some (i, v, r)) (hidle : s.passInFlight = false)
    (hgauged : ¬ ((s.boundLine v).placement = .back ∧ s.assigned .gaugeOscBack = false))
    (hk : k (endFrame .prep 2 false s) i v r = .refuse .state []) :
    exec c s = .next (refused .prep code [] .state [] s) :=
  h.refused_by_checks hm ((gaugeChecks_passed (s := endFrame .prep 2 false s) hc hb hidle hgauged).trans hk)

/-- Taken: the gauge starts the pass and the answer is OK (R81, R83, R86). -/
theorem started (h : GaugeCommand c code k) (hm : s.mode = .run) (hc : s.holdsClaim .prep .spray = true)
    (hb : atBooth s = some (i, v, r)) (hidle : s.passInFlight = false)
    (hgauged : ¬ ((s.boundLine v).placement = .back ∧ s.assigned .gaugeOscBack = false)) {kind : PassKind} {n : Nat}
    (hk : k (endFrame .prep 2 false s) i v r = .accept (startGauge kind i v n (endFrame .prep 2 false s)) []) :
    ∃ t : State, exec c s = .next t ∧ Keeps [.gauge, .ports] s t ∧ t.gauge = (startGauge kind i v n s).gauge ∧
      t.ports = answered .prep code [] .ok [] s := by
  have hbody := (gaugeChecks_passed (s := endFrame .prep 2 false s) hc hb hidle hgauged).trans hk
  exact ⟨_, (h s).trans (congrArg Host.Outcome.next (command_taken (by simp) (by simp [hm]) rfl hbody)),
    keeps_taken (by simp) (keeps_setGauge (by simp) _ _) (serialsKept_of_table rfl), rfl, accepted_ports (l := []) rfl⟩

end GaugeCommand

/-- Either row of the table is such a command, and which one says how it goes on. -/
theorem gaugeCommand_of_mem {c : Instr} {code : Byte}
    (h : (c, code) ∈ [(Instr.gaugeDry .prep [], (0x29 : Byte)), (.gaugeWet .prep [], 0x2B)]) :
    ∃ k, GaugeCommand c code k ∧ (c = .gaugeDry .prep [] → k = dryStart) ∧ (c = .gaugeWet .prep [] → k = wetStart) := by
  simp only [List.mem_cons, Prod.mk.injEq, List.not_mem_nil, or_false] at h
  obtain ⟨rfl, rfl⟩ | ⟨rfl, rfl⟩ := h
  · exact ⟨dryStart, gaugeDry_command, fun _ => rfl, nofun⟩
  · exact ⟨wetStart, gaugeWet_command, nofun, fun _ => rfl⟩

/-! ### What an edge does (R80, R84, R88) -/

section
variable {s : State} {i : Fin 32}

theorem oscEdge_idle {e : Side} (h : s.gauge.pass = none ∨ e ≠ s.gauge.electrode) : oscEdge e s = s := by
  cases hp : s.gauge.pass with
  | none => simp only [oscEdge, hp]
  | some p =>
    have he : e ≠ s.gauge.electrode := h.resolve_left (by simp [hp])
    simp only [oscEdge, hp, if_pos he]

theorem oscEdge_dry (hp : s.gauge.pass = some ⟨.dry, i⟩) :
    oscEdge s.gauge.electrode s =
      if s.gauge.edges + 1 < s.constants.gaugeWindow then s.setGauge { s.gauge with edges := s.gauge.edges + 1 }
      else dryEnd i s.constants.gaugeWindow s := by
  simp only [oscEdge, hp, ne_eq, not_true_eq_false, if_false]

theorem oscEdge_wet (hp : s.gauge.pass = some ⟨.wet, i⟩) :
    oscEdge s.gauge.electrode s =
      if s.gauge.edges < 1048575 then s.setGauge { s.gauge with edges := s.gauge.edges + 1 }
      else gaugeFail .wetOverflow .gaugeWetOverflow i 1048575 s.gauge.timebase s := by
  simp only [oscEdge, hp, ne_eq, not_true_eq_false, if_false]
  rfl

/-- R80: an edge of the selected electrode short of the end of its pass, of either kind, counts one. -/
theorem oscEdge_counts {p : GaugePass} (hp : s.gauge.pass = some p)
    (hdry : p.kind = .dry → s.gauge.edges + 1 < s.constants.gaugeWindow) (hwet : p.kind = .wet → s.gauge.edges < 1048575) :
    oscEdge s.gauge.electrode s = s.setGauge { s.gauge with edges := s.gauge.edges + 1 } := by
  obtain ⟨kind, i⟩ := p
  cases kind with
  | dry => rw [oscEdge_dry hp, if_pos (hdry rfl)]
  | wet => rw [oscEdge_wet hp, if_pos (hwet rfl)]

/-- Log entry 6: the edge row is the edge of the line that holds the oscillator input of the electrode. -/
theorem exec_gaugeOscEdge {e : Side} {l : Fin 24} (h : s.lineOf (oscFunction e) = some l) :
    exec (.gaugeOscEdge e) s = .next (commit s (oscEdge e (s.setLines (edged l true s)))) := by
  have hedge : functionEdge (oscFunction e) true s = oscEdge e (s.setLines (edged l true s)) :=
    (functionEdge_of_line h true).trans (by cases e <;> rfl)
  exact congrArg (fun t => Host.Outcome.next (commit s t)) hedge

end

/-! ### What a tick does (R79, R85, R87) -/

section
variable {s : State} {i : Fin 32}

theorem tick_idle (h : s.gauge.pass = none) : tick s = s := by simp only [tick, h]

theorem tick_dry (hp : s.gauge.pass = some ⟨.dry, i⟩) :
    tick s = if s.gauge.timebase < 1048575 then s.setGauge { s.gauge with timebase := s.gauge.timebase + 1 }
      else gaugeFail .dryTimeout .gaugeDryTimeout i s.gauge.edges 1048575 s := by
  simp only [tick, hp]
  rfl

theorem tick_wet (hp : s.gauge.pass = some ⟨.wet, i⟩) :
    tick s = if 1 < s.gauge.timebase then s.setGauge { s.gauge with timebase := s.gauge.timebase - 1 }
      else wetEnd i s.gauge.edges s := by
  simp only [tick, hp]

/-- A tick that comes to writing the gauge. -/
theorem tick_writes_gauge {g : Gauge} (h : tick s = s.setGauge g) :
    ∃ t : State, exec .timebaseTick s = .next t ∧ Keeps [.gauge] s t ∧ t.gauge = g := by
  refine ⟨commit s (tick s), rfl, ?_⟩
  rw [h]
  exact ⟨keeps_commit (keeps_setGauge (by simp) _ s) (serialsKept_of_table rfl), rfl⟩

end

/-- Settles O36: the passes that start, the first check that fails, and the edge or tick that counts one. -/
theorem gaugePassesStartAndCount : Obligations.GaugePassesStartAndCount := by
  refine ⟨fun i v r s hm hc hat hst hr hidle hgauged => ?_, fun c code s hm hmem => ?_, fun e l s hl =>
    ⟨fun h => ?_, fun p hp he hdry hwet => ?_, fun i hp hlt => ?_, fun i hp hlt => ?_, fun hp => ?_⟩⟩
  · have hb := atBooth_of_pretreat hat hst hr
    exact ⟨fun hsub => gaugeDry_command.started hm hc hb hidle hgauged (dryStart_taken hsub),
      fun w hsub hw => gaugeWet_command.started hm hc hb hidle hgauged (wetStart_taken hsub hw)⟩
  · obtain ⟨k, hcmd, hdry, hwet⟩ := gaugeCommand_of_mem hmem
    refine ⟨hcmd.refused_unclaimed hm, fun hat => hcmd.refused_no_garment hm (atBooth_of_empty hat), fun i v hc hat =>
      ⟨fun hst => hcmd.refused_no_garment hm (atBooth_of_stage hat hst), fun r hst hr => ?_⟩⟩
    have hb := atBooth_of_pretreat hat hst hr
    refine ⟨hcmd.refused_busy hm hc hb, fun hidle => ?_⟩
    split
    · rename_i hung
      exact hcmd.refused_noLine hm hc hb hidle hung
    · rename_i hgauged
      exact ⟨fun hd hsub hsub' => hcmd.refused_last hm hc hb hidle hgauged (hdry hd ▸ dryStart_refused hsub hsub'),
        fun hw hsub => hcmd.refused_last hm hc hb hidle hgauged (hwet hw ▸ wetStart_refused hsub)⟩
  · refine ⟨_, exec_gaugeOscEdge hl, ?_⟩
    rw [oscEdge_idle (s := s.setLines (edged l true s)) h]
    exact ⟨keeps_commit (keeps_setLines (by simp) _ s) (serialsKept_of_table rfl), rfl⟩
  · subst he
    refine ⟨_, exec_gaugeOscEdge hl, ?_⟩
    have hcount := oscEdge_counts (s := s.setLines (edged l true s)) hp hdry hwet
    rw [setLines_gauge] at hcount
    rw [hcount]
    exact ⟨keeps_commit (keeps_trans (keeps_setLines (by simp) _ s) (keeps_setGauge (by simp) _ _))
      (serialsKept_of_table rfl), rfl, rfl⟩
  · exact tick_writes_gauge ((tick_dry hp).trans (if_pos hlt))
  · exact tick_writes_gauge ((tick_wet hp).trans (if_pos hlt))
  · have hstand : event tick s = s := by rw [event, tick_idle hp, commit_self]
    exact congrArg Host.Outcome.next hstand

end Sys2Proof.DepositGauge
end

