-- ==== Sys2Proof/Proofs/DepositGauge/PassEnds.lean ====
section
/-! PROOF. The ends of a gauge pass: the window of a dry pass, timeout and overflow (O37), and the verified deposit of a wet
pass (O38). -/

namespace Sys2Proof.DepositGauge

open Sys2Proof Sys2Proof.Machine Sys2Proof.PlatenRing Sys2Proof.Pretreatment

/-! ### The rows of the ends (log entry 4) -/

section
variable {s : State} {i : Fin 32}

theorem gauging_of_pass {k : PassKind} (hp : s.gauge.pass = some ⟨k, i⟩) : s.gauging k = true := by
  simp [State.gauging, hp]

theorem exec_dryPassEnd (hp : s.gauge.pass = some ⟨.dry, i⟩) (h : s.constants.gaugeWindow ≤ s.gauge.edges + 1) :
    exec .dryPassEnd s = exec (.gaugeOscEdge s.gauge.electrode) s :=
  congrArg Host.Outcome.next (if_pos ⟨gauging_of_pass hp, h⟩)

theorem exec_gaugeWetOverflow (hp : s.gauge.pass = some ⟨.wet, i⟩) (h : 1048575 ≤ s.gauge.edges) :
    exec .gaugeWetOverflow s = exec (.gaugeOscEdge s.gauge.electrode) s :=
  congrArg Host.Outcome.next (if_pos ⟨gauging_of_pass hp, h⟩)

theorem exec_gaugeDryTimeout (hp : s.gauge.pass = some ⟨.dry, i⟩) (h : 1048575 ≤ s.gauge.timebase) :
    exec .gaugeDryTimeout s = exec .timebaseTick s :=
  congrArg Host.Outcome.next (if_pos ⟨gauging_of_pass hp, h⟩)

theorem exec_wetPassEnd (hp : s.gauge.pass = some ⟨.wet, i⟩) (h : s.gauge.timebase ≤ 1) :
    exec .wetPassEnd s = exec .timebaseTick s :=
  congrArg Host.Outcome.next (if_pos ⟨gauging_of_pass hp, h⟩)

end

/-! ### What every end writes (R81, R84, R85, R87, R88) -/

/-- R78, R81: the gauge once its pass ended as `e`, with the counters at `edges` and `ticks`. -/
def endedGauge (e : GaugeEnd) (x : LastPass) (edges ticks : Nat) (g : Gauge) : Gauge :=
  { g with pass := none, edges := edges, timebase := ticks, last := some { x with ending := e }, recEdges := edges,
           recTimebase := ticks, rev := g.rev + 1 }

/-- The part after the end of a gauge pass over slot `i`: the traveller as `w`, the gauge as `g`, source `x` raised. -/
def passEnded (i : Fin 32) (w : Traveller) (g : Gauge) (x : Source) (s : State) : State :=
  raise .prep x ((putTrav i (some w) s).setGauge g)

theorem keeps_passEnded {changed : List Block} (hg : Block.gauge ∈ changed) (ht : Block.table ∈ changed)
    (hn : Block.notices ∈ changed) (i : Fin 32) (w : Traveller) (g : Gauge) (x : Source) (s : State) :
    Keeps changed s (passEnded i w g x s) := by
  have hput : Keeps changed s (putTrav i (some w) s) :=
    ⟨rfl, rfl, fun b hb => by cases b <;> first | rfl | exact absurd ht hb⟩
  exact keeps_trans hput (keeps_trans (keeps_setGauge hg _ _) (keeps_raise hn _ _ _))

section
variable {s : State} {i : Fin 32} {v : Traveller} {x : LastPass}

theorem gaugeIdle_eq {e : GaugeEnd} {n m : Nat} (hx : s.gauge.last = some x) :
    gaugeIdle e n m s = s.setGauge (endedGauge e x n m s.gauge) := by
  rw [gaugeIdle, hx]
  rfl

theorem gaugeFail_eq {e : GaugeEnd} {c : FaultCode} {n m : Nat} (hv : s.trav? i = some v) (hx : s.gauge.last = some x) :
    gaugeFail e c i n m s = passEnded i (addFault c v) (endedGauge e x n m s.gauge) .passFault s := by
  rw [gaugeFail, modTrav_some _ hv, gaugeIdle_eq (s := putTrav i _ s) hx]
  rfl

theorem dryEnd_eq {r : Pretreat} {n : Nat} (hv : s.trav? i = some v) (hr : v.pretreat = some r)
    (hx : s.gauge.last = some x) :
    dryEnd i n s =
      passEnded i { v with pretreat := some { r with window := some (max 1 s.gauge.timebase), sub := .dryDone } }
        (endedGauge .normal x n (max 1 s.gauge.timebase) s.gauge) .dryDone s := by
  rw [dryEnd, modPretreat_some _ hv, hr, gaugeIdle_eq (s := putTrav i _ s) hx]
  rfl

theorem wetEnd_eq {r : Pretreat} {m qm : Nat} (hv : s.trav? i = some v) (hr : v.pretreat = some r)
    (hx : s.gauge.last = some x)
    (hqm : qm = measuredDeposit s.constants.gaugeWindow (s.fabricOf (s.boundLine v)).kg (printArea (s.boundLine v)) m) :
    wetEnd i m s =
      passEnded i (verified s.constants qm { r with wetCount := some m } v)
        { endedGauge .normal x m 0 s.gauge with verdict := some (verdictOf r.target s.constants.tolerance qm) }
        .wetDone s := by
  simp only [wetEnd, hv, hr]
  rw [gaugeIdle_eq (s := putTrav i _ s) hx, hqm]
  rfl

/-- A tick that ends the pass. -/
theorem tick_ends_pass {w : Traveller} {g : Gauge} {y : Source} (h : tick s = passEnded i w g y s)
    (hv : s.trav? i = some v) (hw : w.serial = v.serial) :
    ∃ t : State, exec .timebaseTick s = .next t ∧ Keeps [.gauge, .table, .notices] s t ∧
      t.table = tableAfter i (some w) s ∧ t.gauge = g ∧ t.notices = raisedIn [(.prep, y)] s.notices := by
  refine ⟨commit s (tick s), rfl, ?_⟩
  rw [h]
  exact ⟨keeps_commit (keeps_passEnded (by simp) (by simp) (by simp) ..) (serialsKept_put rfl hv hw),
    commit_table_put rfl, rfl, rfl⟩

/-- An edge of the selected electrode that ends the pass. -/
theorem edge_ends_pass {l : Fin 24} {w : Traveller} {g : Gauge} {y : Source}
    (hl : s.lineOf (oscFunction s.gauge.electrode) = some l)
    (h : oscEdge s.gauge.electrode (s.setLines (edged l true s)) = passEnded i w g y (s.setLines (edged l true s)))
    (hv : s.trav? i = some v) (hw : w.serial = v.serial) :
    ∃ t : State, exec (.gaugeOscEdge s.gauge.electrode) s = .next t ∧ Keeps [.lines, .gauge, .table, .notices] s t ∧
      t.lines = edged l true s ∧ t.table = tableAfter i (some w) s ∧ t.gauge = g ∧
      t.notices = raisedIn [(.prep, y)] s.notices := by
  refine ⟨_, exec_gaugeOscEdge hl, ?_⟩
  rw [h]
  exact ⟨keeps_commit (keeps_trans (keeps_setLines (by simp) _ s) (keeps_passEnded (by simp) (by simp) (by simp) ..))
    (serialsKept_put rfl hv hw), rfl, commit_table_put rfl, rfl, rfl⟩

end

/-- Settles O37: the edge that reaches N, the tick and the edge beyond the maximum, and their rows. -/
theorem dryPassEndsOrRunsOut : Obligations.DryPassEndsOrRunsOut := by
  refine ⟨fun i v r x l s hp hx hn hv hr hl => ?_, fun i v x s hx hv hf => ⟨fun hp htb => ?_, fun l hp he hl => ?_⟩⟩
  · have hedge := (oscEdge_dry (s := s.setLines (edged l true s)) hp).trans
      ((if_neg hn.not_lt).trans (dryEnd_eq (s := s.setLines (edged l true s)) hv hr hx))
    obtain ⟨t, hexec, hrest⟩ := edge_ends_pass hl hedge hv rfl
    exact ⟨t, (exec_dryPassEnd hp hn.ge).trans hexec, hexec, hrest⟩
  · have htick := (tick_dry hp).trans ((if_neg htb.not_lt).trans (gaugeFail_eq hv hx))
    rw [addFault_of_lt hf] at htick
    obtain ⟨t, hexec, hkeeps, htable, hgauge, hnotices⟩ := tick_ends_pass htick hv rfl
    refine ⟨t, (exec_gaugeDryTimeout hp htb.ge).trans hexec, hexec, hkeeps, htable, hgauge.trans ?_, hnotices⟩
    rw [← htb]
    rfl
  · have hedge := (oscEdge_wet (s := s.setLines (edged l true s)) hp).trans
      ((if_neg he.not_lt).trans (gaugeFail_eq (s := s.setLines (edged l true s)) hv hx))
    rw [addFault_of_lt hf] at hedge
    obtain ⟨t, hexec, hkeeps, hlines, htable, hgauge, hnotices⟩ := edge_ends_pass hl hedge hv rfl
    refine ⟨t, (exec_gaugeWetOverflow hp he.ge).trans hexec, hexec, hkeeps, hlines, htable, hgauge.trans ?_, hnotices⟩
    rw [← he]
    rfl

/-! ### The verdict (R92) and what it makes of the garment (R74, R93) -/

section
variable {q t qm : Nat}

theorem verdictOf_verified (h : q * (100 - t) / 100 ≤ qm ∧ qm ≤ q * (100 + t) / 100) : verdictOf q t qm = .verified :=
  if_pos h

theorem verdictOf_light (h : ¬ (q * (100 - t) / 100 ≤ qm ∧ qm ≤ q * (100 + t) / 100)) (hl : qm < q * (100 - t) / 100) :
    verdictOf q t qm = .light := (if_neg h).trans (if_pos hl)

theorem verdictOf_heavy (h : ¬ (q * (100 - t) / 100 ≤ qm ∧ qm ≤ q * (100 + t) / 100)) (hl : ¬ qm < q * (100 - t) / 100)
    (hh : qm ≤ 2 * q) : verdictOf q t qm = .heavy := (if_neg h).trans ((if_neg hl).trans (if_pos hh))

theorem verdictOf_reject (h : ¬ (q * (100 - t) / 100 ≤ qm ∧ qm ≤ q * (100 + t) / 100)) (hl : ¬ qm < q * (100 - t) / 100)
    (hh : ¬ qm ≤ 2 * q) : verdictOf q t qm = .reject := (if_neg h).trans ((if_neg hl).trans (if_neg hh))

end

section
variable {c : Constants} {qm : Nat} {r : Pretreat} {v : Traveller}

theorem verified_of_verified (h : verdictOf r.target c.tolerance qm = .verified) :
    verified c qm r v = { v with pretreat := some { r with measured := some qm, sub := .verified } } := by
  simp only [verified, h]

theorem verified_of_heavy (h : verdictOf r.target c.tolerance qm = .heavy) :
    verified c qm r v = { v with pretreat := some { r with measured := some qm, sub := .heavy } } := by
  simp only [verified, h]

theorem verified_of_reject (h : verdictOf r.target c.tolerance qm = .reject) :
    verified c qm r v =
      { v with stage := .rejectPending, pretreat := some { r with measured := some qm, sub := .reject } } := by
  simp only [verified, h]

/-- R74: a light garment below the top-up limit owes the strokes of what it lacks. -/
theorem verified_of_light (h : verdictOf r.target c.tolerance qm = .light) (hlim : r.topUps < c.topUpLimit) :
    verified c qm r v = { v with pretreat := some { r with
      measured := some qm, sub := .dryDone, topUps := r.topUps + 1,
      commanded := r.commanded + ((r.target - qm) * 100 + c.strokeMass - 1) / c.strokeMass } } := by
  simp only [verified, h, if_pos hlim]
  rfl

theorem verified_of_light_spent (h : verdictOf r.target c.tolerance qm = .light) (hlim : ¬ r.topUps < c.topUpLimit) :
    verified c qm r v =
      { v with stage := .rejectPending, pretreat := some { r with measured := some qm, sub := .reject } } := by
  simp only [verified, h, if_neg hlim]

theorem verified_serial : (verified c qm r v).serial = v.serial := by
  cases h : verdictOf r.target c.tolerance qm with
  | verified => rw [verified_of_verified h]
  | heavy => rw [verified_of_heavy h]
  | reject => rw [verified_of_reject h]
  | light =>
    by_cases hlim : r.topUps < c.topUpLimit
    · rw [verified_of_light h hlim]
    · rw [verified_of_light_spent h hlim]

end

/-- Settles O38: the tick at a timebase of 1 ends the pass, and Table 5-4 is read row by row. -/
theorem wetPassVerifiesDeposit : Obligations.WetPassVerifiesDeposit := by
  rintro i v r x _ _ _ _ _ qm s hp hx htb hv hr rfl rfl rfl rfl rfl hqm
  have htick := (tick_wet hp).trans ((if_neg htb.not_gt).trans (wetEnd_eq hv hr hx hqm))
  obtain ⟨t, hexec, hkeeps, htable, hgauge, hnotices⟩ := tick_ends_pass htick hv verified_serial
  refine ⟨t, _, _, (exec_wetPassEnd hp htb.le).trans hexec, hexec, hkeeps, htable, hgauge, hnotices, ?_⟩
  split
  · rename_i hband
    exact ⟨verdictOf_verified hband, verified_of_verified (verdictOf_verified hband)⟩
  rename_i hband
  split
  · rename_i hlow
    have hlight := verdictOf_light hband hlow
    refine ⟨hlight, ?_⟩
    split
    · rename_i hlim
      exact verified_of_light hlight hlim
    · rename_i hlim
      exact verified_of_light_spent hlight hlim
  rename_i hlow
  split
  · rename_i hhigh
    exact ⟨verdictOf_heavy hband hlow hhigh, verified_of_heavy (verdictOf_heavy hband hlow hhigh)⟩
  · rename_i hhigh
    exact ⟨verdictOf_reject hband hlow hhigh, verified_of_reject (verdictOf_reject hband hlow hhigh)⟩

end Sys2Proof.DepositGauge
end

