-- ==== Sys2Proof/Proofs/PrintDispatch/EngineCommands.lean ====
section
/-! PROOF. What the engine commands share, the service commands (O40), and INK_REPORT to an engine that is not READY (O42). -/

namespace Sys2Proof.PrintDispatch

open Sys2Proof Sys2Proof.Machine Sys2Proof.PlatenRing Sys2Proof.Pretreatment

/-! ### Ink amounts behind other bytes (R163) -/

theorem length_bytes32 (n : Nat) : (bytes32 n).length = 4 := rfl

theorem length_flatMap_bytes32 (a : Inks) : (a.toList.flatMap bytes32).length = 20 := rfl

/-- The five amounts are read back wherever they begin, as long as each fits its four bytes. -/
theorem inksAt_append {a : Inks} (h : ∀ x ∈ a.toList, x < 2 ^ 32) (l : List Byte) :
    inksAt (l ++ a.toList.flatMap bytes32) l.length = a := by
  obtain ⟨w, c, m, y, k⟩ := a
  simp only [Inks.toList, List.mem_cons, List.not_mem_nil, or_false, forall_eq_or_imp, forall_eq] at h
  obtain ⟨hw, hc, hm, hy, hk⟩ := h
  have hw' := u32At_ofNat hw l (bytes32 c ++ bytes32 m ++ bytes32 y ++ bytes32 k)
  have hc' := u32At_ofNat hc (l ++ bytes32 w) (bytes32 m ++ bytes32 y ++ bytes32 k)
  have hm' := u32At_ofNat hm (l ++ bytes32 w ++ bytes32 c) (bytes32 y ++ bytes32 k)
  have hy' := u32At_ofNat hy (l ++ bytes32 w ++ bytes32 c ++ bytes32 m) (bytes32 k)
  have hk' := u32At_ofNat hk (l ++ bytes32 w ++ bytes32 c ++ bytes32 m ++ bytes32 y) []
  simp only [List.append_assoc, List.append_nil, List.length_append, length_bytes32] at hw' hc' hm' hy' hk'
  simp only [inksAt, Inks.toList, List.flatMap_cons, List.flatMap_nil, List.append_nil, Inks.mk.injEq]
  exact ⟨hw', hc', hm', hy', hk'⟩

theorem any_above_maxInk_iff {a : Inks} :
    a.toList.any (Config.maxInk < ·) = true ↔ ∃ x ∈ a.toList, 2000000 < x := by
  simp only [List.any_eq_true, decide_eq_true_eq]
  exact Iff.rfl

theorem not_any_above_maxInk {a : Inks} (h : ∀ x ∈ a.toList, x ≤ 2000000) :
    ¬ a.toList.any (Config.maxInk < ·) = true :=
  fun hc => (any_above_maxInk_iff.mp hc).elim fun x hx => (h x hx.1).not_gt hx.2

/-! ### An engine command from the engine's own port (R144, R96) -/

/-- From the port of engine `e`, command `c` has the byte `code`, a payload `l` of the right length and own checks `k`. -/
def EngineCommand (e : Engine) (c : Instr) (code : Byte) (l : List Byte) (k : Engine → State → Answer) : Prop :=
  ∀ s : State, exec c s =
    .next (command (enginePort e) code l enginePorts runHold true (onEngine (enginePort e) k) s)

section
variable (e : Engine)

theorem engineCommand_engineOnline :
    EngineCommand e (.engineOnline (enginePort e) []) 0x30 [] engineOnlineBody := fun _ => rfl

theorem engineCommand_engineOffline :
    EngineCommand e (.engineOffline (enginePort e) []) 0x31 [] engineOfflineBody := fun _ => rfl

theorem engineCommand_engineFault :
    EngineCommand e (.engineFault (enginePort e) []) 0x32 [] engineFaultBody := fun _ => rfl

theorem engineCommand_cleanStart :
    EngineCommand e (.cleanStart (enginePort e) []) 0x35 [] cleanStartBody := fun _ => rfl

theorem engineCommand_cleanDone :
    EngineCommand e (.cleanDone (enginePort e) []) 0x36 [] cleanDoneBody := fun _ => rfl

theorem engineCommand_inkReport {l : List Byte} (h : l.length = 20) :
    EngineCommand e (.inkReport (enginePort e) l) 0x33 l (inkReportBody l) := fun s => by
  rw [← decide_eq_true h]
  rfl

theorem engineCommand_printDone {l : List Byte} (h : l.length = 21) :
    EngineCommand e (.printDone (enginePort e) l) 0x34 l (printDoneBody l) := fun s => by
  rw [← decide_eq_true h]
  rfl

end

section
variable {e : Engine} {c : Instr} {code : Byte} {l : List Byte} {k : Engine → State → Answer}

theorem EngineCommand.taken (hx : EngineCommand e c code l k) {data : List Byte} {s u : State}
    (hm : s.mode = .run ∨ s.mode = .hold)
    (hk : k e (endFrame (enginePort e) (l.length + 2) false s) = .accept u data) :
    exec c s =
      .next (respond (enginePort e) code .ok data (commit (endFrame (enginePort e) (l.length + 2) false s) u)) :=
  (hx s).trans (congrArg Host.Outcome.next
    (command_taken (mem_enginePorts e) (mem_runHold hm) rfl ((onEngine_enginePort e k _).trans hk)))

theorem EngineCommand.refused (hx : EngineCommand e c code l k) {st : Status} {data : List Byte} {s : State}
    (hm : s.mode = .run ∨ s.mode = .hold)
    (hk : k e (endFrame (enginePort e) (l.length + 2) false s) = .refuse st data) :
    exec c s = .next (Machine.refused (enginePort e) code l st data s) :=
  (hx s).trans (congrArg Host.Outcome.next
    (command_rejected (mem_enginePorts e) (mem_runHold hm) rfl ((onEngine_enginePort e k _).trans hk)))

end

/-! ### Commands that write their engine's record -/

/-- Engine `e` has the record `y`, and the sources `xs` are raised. -/
def recordSet (e : Engine) (y : EngineRec) (xs : List (Port × Source)) (s : State) : State :=
  (withEngine e y s).setNotices (raisedIn xs s.notices)

theorem engine_recordSet (e : Engine) (y : EngineRec) (xs : List (Port × Source)) (s : State) :
    (recordSet e y xs s).engine e = y := engine_withEngine e y s

theorem keeps_recordSet {changed : List Block} {xs : List (Port × Source)} (he : Block.engines ∈ changed)
    (hn : Block.notices ∈ changed ∨ xs = []) (e : Engine) (y : EngineRec) (s : State) :
    Keeps changed s (recordSet e y xs s) := by
  refine ⟨rfl, rfl, fun b hb => ?_⟩
  cases b with
  | engines => exact absurd he hb
  | notices =>
    obtain hn | rfl := hn
    · exact absurd hn hb
    · rfl
  | _ => rfl

section
variable {e : Engine} {c : Instr} {code : Byte} {l : List Byte} {k : Engine → State → Answer} {s : State} {y : EngineRec}

/-- R97: a command that is taken and writes its engine's record, raising `xs`. -/
theorem EngineCommand.records (hx : EngineCommand e c code l k) {xs : List (Port × Source)} {changed : List Block}
    (hm : s.mode = .run ∨ s.mode = .hold)
    (hk : k e (endFrame (enginePort e) (l.length + 2) false s) =
      .accept (recordSet e y xs (endFrame (enginePort e) (l.length + 2) false s)) [])
    (hrev : y.rev = (s.engine e).rev) (he : Block.engines ∈ changed) (hp : Block.ports ∈ changed)
    (hn : Block.notices ∈ changed ∨ xs = []) :
    ∃ t : State, exec c s = .next t ∧ Keeps changed s t ∧ t.ports = answered (enginePort e) code l .ok [] s ∧
      t.engines = enginesAfter e y s ∧ t.notices = raisedIn xs s.notices ∧
      (t.port (enginePort e)).holder = ⟨code, .ok, []⟩ :=
  ⟨_, hx.taken hm hk, keeps_taken hp (keeps_recordSet he hn e y _) (serialsKept_of_table rfl),
    accepted_ports rfl, (commit_engines_put hrev rfl).trans rfl, rfl, holder_taken _ _ _ _ _⟩

/-- The same where nothing is raised. -/
theorem EngineCommand.records_quietly (hx : EngineCommand e c code l k) (hm : s.mode = .run ∨ s.mode = .hold)
    (hk : k e (endFrame (enginePort e) (l.length + 2) false s) =
      .accept (recordSet e y [] (endFrame (enginePort e) (l.length + 2) false s)) [])
    (hrev : y.rev = (s.engine e).rev) :
    ∃ t : State, exec c s = .next t ∧ Keeps [.engines, .ports] s t ∧
      t.ports = answered (enginePort e) code l .ok [] s ∧ t.engines = enginesAfter e y s := by
  obtain ⟨t, ht, hkeeps, hports, hengines, -⟩ :=
    hx.records (changed := [.engines, .ports]) hm hk hrev (by simp) (by simp) (.inr rfl)
  exact ⟨t, ht, hkeeps, hports, hengines⟩

end

/-! ### No attempt follows (R100) -/

theorem attempt_of_no_garment {e : Engine} {s : State}
    (h : (s.travAt (enginePos e)).all (fun y => y.2.stage ≠ .readyToPrint) = true) : attempt e s = s := by
  refine attempt_of_none (Option.eq_none_iff_forall_ne_some.mpr fun ⟨i, v⟩ ha => ?_)
  obtain ⟨hslot, hv, -, hst, -⟩ := assignable_eq_some_iff.mp ha
  simp [travAt_eq_some_iff.mpr ⟨hslot, hv⟩, hst] at h

theorem attempt_of_not_ready {e : Engine} {s : State} (h : (s.engine e).state ≠ .ready) : attempt e s = s := by
  refine attempt_of_none (Option.eq_none_iff_forall_ne_some.mpr fun ⟨i, v⟩ ha => ?_)
  obtain ⟨-, -, -, -, -, -, hready⟩ := assignable_eq_some_iff.mp ha
  exact h hready

/-! ### Service (R96, R106, R108 to R110) -/

theorem served_of_lt {c : Constants} {x : EngineRec} (h : x.prints < c.cleanInterval) :
    served c x = { x with state := .ready } := by rw [served, serviceState, if_pos h]

theorem served_of_not_lt {c : Constants} {x : EngineRec} (h : ¬ x.prints < c.cleanInterval) :
    served c x = { x with state := .cleanDue } := by rw [served, serviceState, if_neg h]

section
variable {e : Engine} {s : State}

theorem engineOnlineBody_of_no_garment (h : (s.engine e).state = .offline ∨ (s.engine e).state = .fault)
    (hv : (s.travAt (enginePos e)).all (fun y => y.2.stage ≠ .readyToPrint) = true) :
    engineOnlineBody e s = .accept (recordSet e (served s.constants (s.engine e))
      (serviceNotices s.constants e (s.engine e).prints) s) [] := by
  rw [engineOnlineBody, refuseIf_neg (by simpa [imp_iff_not_or] using h), returnToService_eq]
  exact congrArg (Answer.accept · []) (attempt_of_no_garment hv)

theorem cleanDoneBody_of_no_garment (h : (s.engine e).state = .cleaning)
    (hv : (s.travAt (enginePos e)).all (fun y => y.2.stage ≠ .readyToPrint) = true) :
    cleanDoneBody e s = .accept (recordSet e { s.engine e with state := .ready, prints := 0 } [] s) [] := by
  rw [cleanDoneBody_of h]
  exact congrArg (Answer.accept · []) (attempt_of_no_garment hv)

theorem cleanStartBody_of (h : (s.engine e).state = .ready ∨ (s.engine e).state = .cleanDue) :
    cleanStartBody e s = .accept (recordSet e { s.engine e with state := .cleaning } [] s) [] :=
  refuseIf_neg (by simpa [imp_iff_not_or] using h) _ _

theorem engineOfflineBody_of_idle (ha : (s.engine e).state ≠ .assigned) (hp : (s.engine e).state ≠ .printing) :
    engineOfflineBody e s = .accept (recordSet e { s.engine e with state := .offline } [] s) [] :=
  refuseIf_neg (by simp [ha, hp]) _ _

theorem engineOfflineBody_of_busy (h : (s.engine e).state = .assigned ∨ (s.engine e).state = .printing) :
    engineOfflineBody e s = .refuse .busy [] := refuseIf_pos h _ _

/-! ### ENGINE_FAULT, state by state (R106) -/

theorem engineFaultBody_of_offline (h : (s.engine e).state = .offline) : engineFaultBody e s = .refuse .state [] := by
  simp only [engineFaultBody, h]

theorem engineFaultBody_of_fault (h : (s.engine e).state = .fault) : engineFaultBody e s = .accept s [] := by
  simp only [engineFaultBody, h]

theorem engineFaultBody_of_idle
    (h : (s.engine e).state = .ready ∨ (s.engine e).state = .cleanDue ∨ (s.engine e).state = .cleaning)
    (hc : (s.engine e).current = none) :
    engineFaultBody e s = .accept (recordSet e { s.engine e with state := .fault } [] s) [] := by
  have hrec : { s.engine e with state := .fault, current := none } = { s.engine e with state := .fault } := by rw [← hc]
  have hbody : engineFaultBody e s =
      .accept (recordSet e { s.engine e with state := .fault, current := none } [] s) [] := by
    obtain h | h | h := h <;> (simp only [engineFaultBody, h]; rfl)
  rw [hbody, hrec]

theorem engineFaultBody_of_printing {i : Fin 32} (h : (s.engine e).state = .printing)
    (hc : (s.engine e).current = some i) : engineFaultBody e s = .accept (faultPrinting e i s) [] := by
  simp only [engineFaultBody, h, hc]

theorem engineFaultBody_of_assigned {i : Fin 32} (h : (s.engine e).state = .assigned)
    (hc : (s.engine e).current = some i) : engineFaultBody e s = .accept (faultAssigned e i s) [] := by
  simp only [engineFaultBody, h, hc]

end

/-- Settles O40: each command writes one field of the record, and where an attempt follows it finds no garment. -/
theorem engineServiceCommands : Obligations.EngineServiceCommands := by
  refine ⟨fun e s hm hv => ⟨fun h => ?_, fun h => ?_, fun h => ?_⟩,
    fun e s hm => ⟨fun ha hp => ?_, fun h => ?_, fun h => ?_, fun h => ?_, fun h hc => ?_⟩⟩
  · obtain ⟨t, ht, hkeeps, hports, hengines, hnotices, -⟩ :=
      (engineCommand_engineOnline e).records (changed := [.engines, .notices, .ports]) hm
        (engineOnlineBody_of_no_garment h hv) rfl (by simp) (by simp) (by simp)
    refine ⟨t, ht, hkeeps, hports, ?_⟩
    rw [engine_endFrame, constants_endFrame] at hengines hnotices
    rw [serviceNotices] at hnotices
    split
    · rename_i hlt
      rw [served_of_lt hlt] at hengines
      rw [if_pos hlt] at hnotices
      exact ⟨hengines, hnotices⟩
    · rename_i hlt
      rw [served_of_not_lt hlt] at hengines
      rw [if_neg hlt] at hnotices
      exact ⟨hengines, hnotices⟩
  · exact (engineCommand_cleanStart e).records_quietly hm (cleanStartBody_of h) rfl
  · exact (engineCommand_cleanDone e).records_quietly hm (cleanDoneBody_of_no_garment h hv) rfl
  · exact (engineCommand_engineOffline e).records_quietly hm (engineOfflineBody_of_idle ha hp) rfl
  · exact (engineCommand_engineOffline e).refused hm (engineOfflineBody_of_busy h)
  · exact (engineCommand_engineFault e).refused hm (engineFaultBody_of_offline h)
  · exact ⟨_, (engineCommand_engineFault e).taken hm (engineFaultBody_of_fault h),
      keeps_taken (by simp) ⟨rfl, rfl, fun b _ => by cases b <;> rfl⟩ (serialsKept_of_table rfl),
      accepted_ports (l := []) rfl⟩
  · exact (engineCommand_engineFault e).records_quietly hm (engineFaultBody_of_idle h hc) rfl

/-! ### INK_REPORT (R111) -/

theorem belowReserved_iff {x : EngineRec} : belowReserved x = true ↔
    x.level.w < x.reserved.w ∨ x.level.c < x.reserved.c ∨ x.level.m < x.reserved.m ∨ x.level.y < x.reserved.y ∨
      x.level.k < x.reserved.k := by
  simp only [belowReserved, Inks.all, Bool.not_eq_true', Bool.and_eq_false_iff, decide_eq_false_iff_not, not_le, or_assoc]

/-- R111: what the new levels raise. -/
def inkNotices (e : Engine) (x : EngineRec) : List (Port × Source) :=
  if belowReserved x then [(enginePort e, .inkShort), (.gateway, gatewayInkShort e)] else []

theorem inkReported_eq (e : Engine) (a : Inks) (s : State) :
    inkReported e a s = recordSet e { s.engine e with level := a } (inkNotices e { s.engine e with level := a }) s := by
  rw [inkReported, modEngine_eq_withEngine, engine_withEngine, inkNotices]
  split
  · rw [raiseInkShort_eq]
    rfl
  · rfl

theorem inkReportBody_of_above {l : List Byte} {a : Inks} {e : Engine} {s : State} (hl : inksAt l 0 = a)
    (ha : ∃ x ∈ a.toList, 2000000 < x) : inkReportBody l e s = .refuse .arg [] := by
  rw [inkReportBody, hl]
  exact refuseIf_pos (any_above_maxInk_iff.mpr ha) _ _

theorem inkReportBody_of_not_ready {l : List Byte} {a : Inks} {e : Engine} {s : State} (hl : inksAt l 0 = a)
    (ha : ∀ x ∈ a.toList, x ≤ 2000000) (hs : (s.engine e).state ≠ .ready) :
    inkReportBody l e s = .accept
      (recordSet e { s.engine e with level := a } (inkNotices e { s.engine e with level := a }) s) [] := by
  have hstill : ((recordSet e { s.engine e with level := a }
      (inkNotices e { s.engine e with level := a }) s).engine e).state ≠ .ready := by
    rw [engine_recordSet]
    exact hs
  rw [inkReportBody, hl, inkReported_eq, attempt_of_not_ready hstill]
  exact refuseIf_neg (not_any_above_maxInk ha) _ _

/-- Settles O42: the bytes are the five amounts; one too large refuses them all, and else they become the levels. -/
theorem inkReportReplacesLevels : Obligations.InkReportReplacesLevels := by
  intro e a s hm hfit
  have hx := engineCommand_inkReport e (length_flatMap_bytes32 a)
  have hl : inksAt (a.toList.flatMap bytes32) 0 = a := inksAt_append hfit []
  refine ⟨fun ha => hx.refused hm (inkReportBody_of_above hl ha), fun ha hs => ?_⟩
  obtain ⟨t, ht, hkeeps, -, hengines, hnotices, hholder⟩ :=
    hx.records (changed := [.engines, .notices, .ports]) hm (inkReportBody_of_not_ready hl ha hs) rfl (by simp) (by simp)
      (by simp)
  refine ⟨t, ht, hkeeps, hengines, hholder, hnotices.trans ?_⟩
  simp only [inkNotices, belowReserved_iff, engine_endFrame]
  split
  · cases e <;> rfl
  · rfl

end Sys2Proof.PrintDispatch
end

