-- ==== Sys2Proof/Proofs/PrintDispatch/PrintEnds.lean ====
section
/-! PROOF. The ends of an engine's work on a garment: ENGINE_FAULT (O41) and PRINT_DONE (O44). -/

namespace Sys2Proof.PrintDispatch

open Sys2Proof Sys2Proof.Machine Sys2Proof.PlatenRing Sys2Proof.Pretreatment

/-! ### The end of an engine's work on a garment (R105, R106) -/

/-- Engine `e` has the record `y`, the garment in slot `i` is `w`, the ring is `g`, and the sources `xs` are raised. -/
def workEnded (e : Engine) (y : EngineRec) (i : Fin 32) (w : Traveller) (g : Ring) (xs : List (Port × Source))
    (s : State) : State :=
  recordSet e y xs ((putTrav i (some w) s).setRing g)

theorem keeps_workEnded {changed : List Block} {xs : List (Port × Source)} (he : Block.engines ∈ changed)
    (hr : Block.ring ∈ changed) (ht : Block.table ∈ changed) (hn : Block.notices ∈ changed ∨ xs = [])
    (e : Engine) (y : EngineRec) (i : Fin 32) (w : Traveller) (g : Ring) (s : State) :
    Keeps changed s (workEnded e y i w g xs s) := by
  have hput : Keeps changed s ((putTrav i (some w) s).setRing g) :=
    ⟨rfl, rfl, fun b hb => by cases b <;> first | rfl | exact absurd ht hb | exact absurd hr hb⟩
  exact keeps_trans hput (keeps_recordSet he hn e y _)

/-- A command that is taken and ends its engine's work on the garment `v` of slot `i`. -/
theorem EngineCommand.ends_work {e : Engine} {c : Instr} {code : Byte} {l : List Byte} {k : Engine → State → Answer}
    (hx : EngineCommand e c code l k) {i : Fin 32} {v w : Traveller} {s : State} {y : EngineRec} {g : Ring}
    {xs : List (Port × Source)} {changed : List Block} (hm : s.mode = .run ∨ s.mode = .hold)
    (hk : k e (endFrame (enginePort e) (l.length + 2) false s) =
      .accept (workEnded e y i w g xs (endFrame (enginePort e) (l.length + 2) false s)) [])
    (hv : s.trav? i = some v) (hw : w.serial = v.serial) (hrev : y.rev = (s.engine e).rev)
    (hc : ∀ b ∈ [Block.engines, .ring, .table, .ports], b ∈ changed) (hn : Block.notices ∈ changed ∨ xs = []) :
    ∃ t : State, exec c s = .next t ∧ Keeps changed s t ∧ t.engines = enginesAfter e y s ∧
      t.ring = { g with revs := t.ring.revs } ∧ t.table = tableAfter i (some w) s ∧ t.notices = raisedIn xs s.notices ∧
      (t.port (enginePort e)).holder = ⟨code, .ok, []⟩ :=
  ⟨_, hx.taken hm hk,
    keeps_taken (hc _ (by simp)) (keeps_workEnded (hc _ (by simp)) (hc _ (by simp)) (hc _ (by simp)) hn e y i w g _)
      (serialsKept_put rfl hv hw),
    (commit_engines_put hrev rfl).trans rfl, rfl, taken_table rfl, rfl, holder_taken _ _ _ _ _⟩

section
variable {e : Engine} {i : Fin 32} {v : Traveller} {r : Print} {s : State}

/-- R106: a print that fails. -/
theorem faultPrinting_eq (hv : s.trav? i = some v) (hr : v.print = some r) :
    faultPrinting e i s = workEnded e (toFault r.estimate 1 (s.engine e)) i
      (addFault .engineFault { v with
        stage := .rejectPending, print := some { r with result := .fault, actual := none } })
      { s.ring with claims := s.ring.claims.set (stationNo (engineStation e)) none } [] s := by
  have hu : (setClaim (engineStation e) none (modEngine e (toFault r.estimate 1) s)).trav? i = some v := hv
  rw [faultPrinting, failTraveller, estimateOf_some hv hr, modTrav_some _ hu,
    modTrav_some _ (trav?_putTrav_eq _ _ _), putTrav_putTrav, hr]
  rfl

/-- R106: an assignment that is withdrawn. -/
theorem faultAssigned_eq (hv : s.trav? i = some v) (hr : v.print = some r) :
    faultAssigned e i s = workEnded e (toFault r.estimate 0 (s.engine e)) i
      { v with stage := .readyToPrint, print := none }
      { s.ring with awaiting := s.ring.awaiting.set (engineNo e) none } [] s := by
  rw [faultAssigned, withdrawTraveller, estimateOf_some hv hr]
  exact modTrav_some _ hv

end

/-- Settles O41: PRINTING and ASSIGNED, each as the end of the engine's work. -/
theorem engineFaultUndoesWork : Obligations.EngineFaultUndoesWork := by
  refine fun e i v r s hm hc hv hr hf => ⟨fun h => ?_, fun h => ?_⟩
  · have hbody := engineFaultBody_of_printing (s := endFrame (enginePort e) 2 false s) h hc
    rw [faultPrinting_eq (s := endFrame (enginePort e) 2 false s) hv hr, addFault_of_lt (by exact hf)] at hbody
    obtain ⟨t, ht, hkeeps, hengines, hring, htable, -⟩ :=
      (engineCommand_engineFault e).ends_work (changed := [.engines, .ring, .table, .ports]) hm hbody hv rfl rfl
        (by simp) (.inr rfl)
    exact ⟨t, ht, hkeeps, hengines, hring, htable⟩
  · have hbody := engineFaultBody_of_assigned (s := endFrame (enginePort e) 2 false s) h hc
    rw [faultAssigned_eq (s := endFrame (enginePort e) 2 false s) hv hr] at hbody
    obtain ⟨t, ht, hkeeps, hengines, hring, htable, -⟩ :=
      (engineCommand_engineFault e).ends_work (changed := [.engines, .ring, .table, .ports]) hm hbody hv rfl rfl
        (by simp) (.inr rfl)
    exact ⟨t, ht, hkeeps, hengines, hring, htable⟩

/-! ### PRINT_DONE (R104, R105) -/

/-- R105: the engine's record when its print ends with the actuals `a`, before it returns to service. -/
def settledEngine (est a : Inks) (x : EngineRec) : EngineRec :=
  { freeEngine est x with level := Inks.zip (· - ·) x.level a, prints := x.prints + 1 }

theorem printSettled_serial (good : Bool) (a : Inks) (v : Traveller) : (printSettled good a v).serial = v.serial := by
  cases good with
  | true => rfl
  | false => exact addFault_serial _ _

theorem printSettled_of_lt {v : Traveller} {r : Print} (hr : v.print = some r) (hf : v.faults.length < 4) (good : Bool)
    (a : Inks) : printSettled good a v = if good then
        { v with stage := .printed, print := some { r with actual := some a, result := .good } }
      else { v with stage := .rejectPending, print := some { r with actual := some a, result := .defect },
                    faults := v.faults ++ [.printDefect] } := by
  cases good with
  | true => simp [printSettled, hr]
  | false =>
    simp only [printSettled, hr]
    exact addFault_of_lt (by exact hf) _

section
variable {e : Engine} {i : Fin 32} {v : Traveller} {r : Print} {a : Inks} {s : State}

theorem settle_eq (hv : s.trav? i = some v) (hr : v.print = some r) (good : Bool) :
    settle e i good a s = workEnded e (served s.constants (settledEngine r.estimate a (s.engine e))) i
      (printSettled good a v) { s.ring with claims := s.ring.claims.set (stationNo (engineStation e)) none }
      (serviceNotices s.constants e ((s.engine e).prints + 1)) s := by
  rw [settle, estimateOf_some hv hr, returnToService_eq]
  exact modTrav_some _ hv

theorem printDoneBody_of {l : List Byte} {good : Bool} (hres : resultOf (byteAt l 0) = some good) (hl : inksAt l 1 = a)
    (ha : ∀ x ∈ a.toList, x ≤ 2000000) (hs : (s.engine e).state = .printing) (hc : (s.engine e).current = some i) :
    printDoneBody l e s = .accept (settle e i good a s) [] := by
  simp only [printDoneBody, hres, hl]
  rw [refuseIf_neg (not_any_above_maxInk ha), refuseIf_neg (not_not_intro hs), hc]

end

/-- Settles O44: the payload is read back, and the settlement is the end of the engine's work. -/
theorem printDoneSettles : Obligations.PrintDoneSettles := by
  intro e good a i v r s hm ha hs hc hv hr hf
  obtain ⟨l, hl⟩ : ∃ l : List Byte, l = (if good then 1 else 2) :: a.toList.flatMap bytes32 := ⟨_, rfl⟩
  have hres : resultOf (byteAt l 0) = some good := by rw [hl]; cases good <;> rfl
  have hinks : inksAt l 1 = a := by
    rw [hl]
    exact inksAt_append (fun x hx => (ha x hx).trans_lt (by decide)) [_]
  have hlen : l.length = 21 := by rw [hl, List.length_cons, length_flatMap_bytes32]
  have hbody := printDoneBody_of (s := endFrame (enginePort e) (l.length + 2) false s) hres hinks ha hs hc
  rw [settle_eq (s := endFrame (enginePort e) (l.length + 2) false s) hv hr] at hbody
  obtain ⟨t, ht, hkeeps, hengines, hring, htable, hnotices, hholder⟩ :=
    (engineCommand_printDone e hlen).ends_work (changed := [.engines, .ring, .table, .notices, .ports]) hm hbody hv
      (printSettled_serial good a v) rfl (by simp) (by simp)
  rw [printSettled_of_lt hr hf] at htable
  rw [← hl]
  refine ⟨t, ht, hkeeps, hengines, hring, htable, hnotices.trans ?_, hholder⟩
  rw [engine_endFrame, constants_endFrame, serviceNotices]
  split <;> rfl

end Sys2Proof.PrintDispatch
end

