-- ==== Sys2Proof/Proofs/CuringTunnel/EntryAndZones.lean ====
section
/-! PROOF. How the TUNNEL record's revision moves, TUNNEL_ENTRY (O45), and the zone temperatures with their stale timer
(O46). -/

namespace Sys2Proof.CuringTunnel

open Sys2Proof Sys2Proof.Machine Sys2Proof.PlatenRing Sys2Proof.Pretreatment

/-! ### The tunnel at the end of an event (R121) -/

theorem keeps_setTunnel {changed : List Block} (h : Block.tunnel ∈ changed) (x : Tunnel) (s : State) :
    Keeps changed s (s.setTunnel x) :=
  ⟨rfl, rfl, fun b hb => by cases b <;> first | rfl | exact absurd h hb⟩

theorem commit_tunnel_of_changed {s t : State} (h : tunnelChanged s t = true) :
    (commit s t).tunnel = { t.tunnel with rev := t.tunnel.rev + 1 } := by
  rw [commit_tunnel, if_pos h]

theorem commit_tunnel_of_unchanged {s t : State} (h : tunnelChanged s t = false) : (commit s t).tunnel = t.tunnel := by
  rw [commit_tunnel, if_neg (by simp [h])]

/-- A queue of another length is another queue of the TUNNEL record. -/
theorem tunnelChanged_of_length {s t : State} (h : t.tunnel.queue.length ≠ s.tunnel.queue.length) :
    tunnelChanged s t = true := by
  have hview : queueView t ≠ queueView s := fun hq => h (by simpa [queueView] using congrArg List.length hq)
  simp [tunnelChanged, hview]

theorem tunnelChanged_of_staleTimer {s t : State}
    (h : t.tunnel.staleTimer.isSome ≠ s.tunnel.staleTimer.isSome) : tunnelChanged s t = true := by
  simp [tunnelChanged, h]

/-! ### The checks of TUNNEL_ENTRY (R118) -/

theorem entryCountOf_of_cure {i : Fin 32} {v : Traveller} {c : Cure} {s : State} (hv : s.trav? i = some v)
    (hc : v.cure = some c) : entryCountOf s i = c.entryCount := by simp [entryCountOf, hv, hc]

theorem tailTooNear_of_tail {front : List QueueEntry} {q : QueueEntry} {v : Traveller} {c : Cure} {s : State}
    (hq : s.tunnel.queue = front ++ [q]) (hv : s.trav? q.trav = some v) (hc : v.cure = some c)
    (hd : (s.tunnel.encoder - c.entryCount).toNat / 2 < s.constants.spacing) : tailTooNear s = true := by
  simpa [tailTooNear, hq, entryCountOf_of_cure hv hc, distance] using hd

section
variable {i : Fin 32} {v : Traveller} {s : State} (hc : s.holdsClaim .tunnel .unload = true)
  (hat : s.travAt 10 = some (i, v)) (hst : v.stage = .printed)
include hc hat hst

/-- R118 with a PRINTED garment on the claimed platen: FULL comes before BUSY. -/
theorem tunnelEntryBody_printed {f : FabricClass} {r : Nat} (hf : f = s.fabricOf (s.boundLine v))
    (hr : r = requiredDose s.constants f (s.boundLine v) v) :
    tunnelEntryBody s =
      refuseIf (16 ≤ s.tunnel.queue.length) .full
        (refuseIf (tailTooNear s = true) .busy (.accept (enterTunnel i v f r s) (entryResponse s i v f r))) := by
  subst hr hf
  rw [tunnelEntryBody, refuseIf_neg (by simp [hc]), hat]
  exact refuseIf_neg (not_not_intro hst) _ _

theorem tunnelEntryBody_full (h : s.tunnel.queue.length = 16) : tunnelEntryBody s = .refuse .full [] := by
  rw [tunnelEntryBody_printed hc hat hst rfl rfl]
  exact refuseIf_pos h.ge _ _

theorem tunnelEntryBody_busy (hlen : s.tunnel.queue.length < 16) (h : tailTooNear s = true) :
    tunnelEntryBody s = .refuse .busy [] := by
  rw [tunnelEntryBody_printed hc hat hst rfl rfl, refuseIf_neg hlen.not_ge]
  exact refuseIf_pos h _ _

theorem tunnelEntryBody_passed {f : FabricClass} {r : Nat} (hlen : s.tunnel.queue.length < 16)
    (hnear : tailTooNear s = false) (hf : f = s.fabricOf (s.boundLine v))
    (hr : r = requiredDose s.constants f (s.boundLine v) v) :
    tunnelEntryBody s = .accept (enterTunnel i v f r s) (entryResponse s i v f r) := by
  rw [tunnelEntryBody_printed hc hat hst hf hr, refuseIf_neg hlen.not_ge]
  exact refuseIf_neg (by simp [hnear]) _ _

end

/-! ### The entry itself (R119, R120) -/

/-- R120: the garment as it enters, with required dose `r` and its scorch limit. -/
def entering (s : State) (v : Traveller) (f : FabricClass) (r : Nat) : Traveller :=
  { v with platen := none, stage := .inTunnel, cure := some ⟨s.tunnel.encoder, r, scorchLimit f r, 0, 0, false, none⟩ }

theorem enterTunnel_eq (i : Fin 32) (v : Traveller) (f : FabricClass) (r : Nat) (s : State) :
    enterTunnel i v f r s =
      (setCarried (platenAt s.ring 10) none (putTrav i (some (entering s v f r)) s)).setTunnel
        { s.tunnel with queue := s.tunnel.queue ++ [⟨i, f.tmax⟩], sampled := s.tunnel.encoder } := rfl

theorem keeps_enterTunnel (i : Fin 32) (v : Traveller) (f : FabricClass) (r : Nat) (s : State) :
    Keeps [.ring, .table, .tunnel, .ports] s (enterTunnel i v f r s) :=
  ⟨rfl, rfl, fun b hb => by cases b <;> first | rfl | simp at hb⟩

theorem tunnelChanged_enterTunnel (i : Fin 32) (v : Traveller) (f : FabricClass) (r : Nat) (s : State) :
    tunnelChanged s (enterTunnel i v f r s) = true :=
  tunnelChanged_of_length (by simp [enterTunnel_eq])

theorem tunnelEntry_refused {s : State} {st : Status} (hm : s.mode = .run ∨ s.mode = .hold)
    (hb : tunnelEntryBody (endFrame .tunnel 2 false s) = .refuse st []) :
    exec (.tunnelEntry .tunnel []) s = .next (refused .tunnel 0x38 [] st [] s) :=
  congrArg Host.Outcome.next (command_rejected (by simp) (mem_runHold hm) rfl hb)

/-- Settles O45: the body of a taken entry read block by block, and the two refusals by the check that makes them. -/
theorem tunnelEntryTaken : Obligations.TunnelEntryTaken := by
  refine ⟨fun i v l area qm dose limit s hm hc hat hst hlen hnear hline harea hqm hdose hlimit => ?_,
    fun i v s hm hc hat hst => ⟨fun hfull => ?_, fun front q w c hq hlen hw hcure hd => ?_⟩⟩
  · have hdose' : dose = requiredDose s.constants (s.fabricOf l) l v := by rw [hdose, harea, hqm]; rfl
    subst hlimit
    have hl : (endFrame .tunnel 2 false s).boundLine v = l := boundLine_of hline
    have hbody := tunnelEntryBody_passed (s := endFrame .tunnel 2 false s) (f := s.fabricOf l) (r := dose)
      hc hat hst hlen hnear (by rw [hl]; rfl) (by rw [hl]; exact hdose')
    exact ⟨_, congrArg Host.Outcome.next (command_taken (by simp) (mem_runHold hm) rfl hbody),
      keeps_taken (by simp) (keeps_enterTunnel _ _ _ _ _) (serialsKept_put rfl (travAt_eq_some_iff.mp hat).2 rfl),
      taken_table rfl, rfl, commit_tunnel_of_changed (tunnelChanged_enterTunnel _ _ _ _ _),
      accepted_ports (l := []) rfl⟩
  · exact tunnelEntry_refused hm (tunnelEntryBody_full (s := endFrame .tunnel 2 false s) hc hat hst hfull)
  · exact tunnelEntry_refused hm
      (tunnelEntryBody_busy (s := endFrame .tunnel 2 false s) hc hat hst hlen (tailTooNear_of_tail hq hw hcure hd))

/-! ### Zone temperatures (R122) -/

theorem u16At_behind_bytes16 (m : Nat) (l : List Byte) (k : Nat) : u16At (bytes16 m ++ l) (k + 2) = u16At l k := rfl

/-- The three temperatures of a ZONE_TEMPS, read back from its bytes. -/
theorem u16At_zoneTemps (z1 z2 z3 : BitVec 16) :
    u16At (bytes16 z1.toNat ++ bytes16 z2.toNat ++ bytes16 z3.toNat) 0 = z1.toNat ∧
      u16At (bytes16 z1.toNat ++ bytes16 z2.toNat ++ bytes16 z3.toNat) 2 = z2.toNat ∧
      u16At (bytes16 z1.toNat ++ bytes16 z2.toNat ++ bytes16 z3.toNat) 4 = z3.toNat := by
  rw [List.append_assoc]
  exact ⟨u16At_bytes16 z1.isLt _, (u16At_behind_bytes16 _ _ 0).trans (u16At_bytes16 z2.isLt _),
    (u16At_behind_bytes16 _ _ 2).trans (u16At_bytes16_snd z3.isLt)⟩

theorem clampedTemps_zoneTemps (z1 z2 z3 : BitVec 16) :
    clampedTemps (bytes16 z1.toNat ++ bytes16 z2.toNat ++ bytes16 z3.toNat) =
      (min 300 z1.toNat, min 300 z2.toNat, min 300 z3.toNat) := by
  obtain ⟨h1, h2, h3⟩ := u16At_zoneTemps z1 z2 z3
  rw [clampedTemps, h1, h2, h3]
  rfl

theorem anyClamped_zoneTemps (z1 z2 z3 : BitVec 16) :
    anyClamped (bytes16 z1.toNat ++ bytes16 z2.toNat ++ bytes16 z3.toNat) = true ↔
      300 < z1.toNat ∨ 300 < z2.toNat ∨ 300 < z3.toNat := by
  obtain ⟨h1, h2, h3⟩ := u16At_zoneTemps z1 z2 z3
  simp only [anyClamped, h1, h2, h3, Bool.or_eq_true, decide_eq_true_eq, or_assoc]
  exact Iff.rfl

/-- R122: what clamped values raise. -/
def rangeNotices (l : List Byte) : List (Port × Source) := if anyClamped l then [(.tunnel, .tempRange)] else []

theorem zoneTempsBody_eq (l : List Byte) (s : State) :
    zoneTempsBody l s =
      .accept ((storeZones (clampedTemps l) s).setNotices (raisedIn (rangeNotices l) s.notices))
        (bytes16 (clampedTemps l).1 ++ bytes16 (clampedTemps l).2.1 ++ bytes16 (clampedTemps l).2.2) := by
  rw [zoneTempsBody, rangeNotices]
  split <;> rfl

/-- R122: the three zones after a ZONE_TEMPS. -/
theorem storeZones_zones (z : Nat × Nat × Nat) (s : State) :
    (storeZones z s).tunnel.zones.get 0 = some z.1 ∧ (storeZones z s).tunnel.zones.get 1 = some z.2.1 ∧
      (storeZones z s).tunnel.zones.get 2 = some z.2.2 := by
  simp [storeZones, Tab.get_set]

/-! ### The stale timer (R123) -/

theorem staleExpiry_of_running {s : State} (h : s.tunnel.staleTimer.isSome = true) :
    staleExpiry s =
      raise .tunnel .tempStale (s.setTunnel { s.tunnel with zones := .fill none, staleTimer := none }) := if_pos h

theorem staleExpiry_of_stopped {s : State} (h : s.tunnel.staleTimer = none) : staleExpiry s = s :=
  if_neg (by simp [h])

/-- Settles O46: the temperatures are read back, clamped and stored; the timer expires only where it runs. -/
theorem zoneTempsAndStaleTimer : Obligations.ZoneTempsAndStaleTimer := by
  refine fun z1 z2 z3 s => ⟨fun hm => ?_, fun hrun => ?_, fun hstop => ?_⟩
  · obtain ⟨l, hl⟩ : ∃ l, l = bytes16 z1.toNat ++ bytes16 z2.toNat ++ bytes16 z3.toNat := ⟨_, rfl⟩
    have hlen : l.length = 6 := by rw [hl]; rfl
    have hclamped := clampedTemps_zoneTemps z1 z2 z3
    have hany := anyClamped_zoneTemps z1 z2 z3
    rw [← hl] at hclamped hany ⊢
    have hbody := zoneTempsBody_eq l (endFrame .tunnel (l.length + 2) false s)
    rw [hclamped] at hbody
    obtain ⟨hz0, hz1, hz2⟩ := storeZones_zones (min 300 z1.toNat, min 300 z2.toNat, min 300 z3.toNat) s
    refine ⟨_, congrArg Host.Outcome.next (command_taken (by simp) (mem_runHold hm) (by simp [hlen]) hbody),
      keeps_taken (by simp) ⟨rfl, rfl, fun b hb => ?_⟩ (serialsKept_of_table rfl), hz0, hz1, hz2, rfl, ?_,
      holder_taken _ _ _ _ _⟩
    · cases b <;> first | rfl | simp at hb
    · change raisedIn (rangeNotices l) s.notices = _
      rw [rangeNotices]
      simp only [hany]
      split <;> rfl
  · refine ⟨commit s (staleExpiry s), rfl, ?_⟩
    rw [staleExpiry_of_running hrun]
    exact ⟨keeps_commit (keeps_trans (keeps_setTunnel (by simp) _ s) (keeps_raise (by simp) _ _ _))
      (serialsKept_of_table rfl), commit_tunnel_of_changed (tunnelChanged_of_staleTimer (by simp [hrun])), rfl⟩
  · have hstand : event staleExpiry s = s := by rw [event, staleExpiry_of_stopped hstop, commit_self]
    exact congrArg Host.Outcome.next hstand

end Sys2Proof.CuringTunnel
end

