-- ==== Sys2Proof/Proofs/CuringTunnel/SampleAndPulse.lean ====
section
/-! PROOF. A sample of every garment in the tunnel (O47), and an encoder pulse short of an exit (O48). -/

namespace Sys2Proof.CuringTunnel

open Sys2Proof Sys2Proof.Machine Sys2Proof.PlatenRing Sys2Proof.Pretreatment

/-! ### What a sample makes of one garment (R117, R125) -/

/-- R125: traveller `v` after a sample; what it reads of the part is the tunnel and the constants alone. -/
def heated (x : Tunnel) (c : Constants) (v : Traveller) : Traveller :=
  match v.cure with
  | some r => sampled c (x.zones.get (zoneOf c (distance x.encoder r.entryCount))) r v
  | none => v

theorem sampleOne_eq (i : Fin 32) (s : State) : sampleOne i s = modTrav i (heated s.tunnel s.constants) s := rfl

@[simp] theorem sampleOne_tunnel (i : Fin 32) (s : State) : (sampleOne i s).tunnel = s.tunnel := modTrav_tunnel _ _ _

@[simp] theorem sampleOne_constants (i : Fin 32) (s : State) : (sampleOne i s).constants = s.constants :=
  congrArg Setup.constants (modTrav_setup _ _ _)

theorem ident_sampled (c : Constants) (z : Option Nat) (r : Cure) (v : Traveller) :
    ident (sampled c z r v) = ident v := by
  cases z with
  | some tz => rfl
  | none =>
    simp only [sampled]
    split
    · rfl
    · exact ident_addFault _ _

theorem ident_heated (x : Tunnel) (c : Constants) (v : Traveller) : ident (heated x c v) = ident v := by
  unfold heated
  split
  · exact ident_sampled _ _ _ _
  · rfl

theorem leaves_sampleOne (i : Fin 32) (s : State) : Leaves s (sampleOne i s) :=
  leaves_modTrav s i (ident_heated _ _)

/-- The increment and the stale mark written out. -/
theorem sampled_of_lt {v : Traveller} (hf : v.faults.length < 4) (c : Constants) (z : Option Nat) (r : Cure) :
    sampled c z r v =
      match z with
      | some tz => { v with cure := some { r with
          dose := min 65535 (r.dose + min 100 (tz - c.onset)), peak := max r.peak tz } }
      | none => if r.stale = true then v else
          { v with cure := some { r with stale := true }, faults := v.faults ++ [.staleTemp] } := by
  cases z with
  | some tz => rfl
  | none =>
    simp only [sampled]
    rw [addFault_of_lt (by exact hf)]

/-! ### The whole queue (R125) -/

/-- R125: the travellers of the queue entries `l` sampled in turn. -/
def sampleAll (l : List QueueEntry) (s : State) : State := l.foldl (fun s q => sampleOne q.trav s) s

@[simp] theorem sampleAll_tunnel (l : List QueueEntry) (s : State) : (sampleAll l s).tunnel = s.tunnel :=
  foldl_keep _ (fun s (q : QueueEntry) => sampleOne_tunnel q.trav s) l s

theorem leaves_sampleAll (l : List QueueEntry) (s : State) : Leaves s (sampleAll l s) :=
  leaves_foldl s (fun s (q : QueueEntry) => leaves_sampleOne q.trav s) l

theorem keeps_sampleAll {changed : List Block} (h : Block.table ∈ changed) (l : List QueueEntry) (s : State) :
    Keeps changed s (sampleAll l s) := by
  induction l generalizing s with
  | nil => exact ⟨rfl, rfl, fun b _ => by cases b <;> rfl⟩
  | cons q l ih => exact keeps_trans (keeps_modTrav h q.trav _ s) (ih _)

/-- Each traveller of the queue is sampled once, and no other is. -/
theorem trav?_sampleAll {l : List QueueEntry} (hl : (l.map (·.trav)).Nodup) (s : State) (i : Fin 32) :
    (sampleAll l s).trav? i =
      if i ∈ l.map (·.trav) then (s.trav? i).map (heated s.tunnel s.constants) else s.trav? i := by
  induction l generalizing s with
  | nil => rfl
  | cons q l ih =>
    obtain ⟨hq, hrest⟩ := List.nodup_cons.mp hl
    have hstep : sampleAll (q :: l) s = sampleAll l (sampleOne q.trav s) := rfl
    rw [hstep, ih hrest, sampleOne_tunnel, sampleOne_constants, sampleOne_eq, trav?_modTrav]
    by_cases hi : i = q.trav
    · subst hi
      simp [hq]
    · simp [hi]

/-! ### The sample (R121, R124, R125) -/

theorem sampleExpiry_of_running {s : State} (h : s.tunnel.sampleTimer.isSome = true) :
    sampleExpiry s =
      (sampleAll s.tunnel.queue s).setTunnel { s.tunnel with sampled := s.tunnel.encoder } := by
  have hmodel : sampleExpiry s = (sampleAll s.tunnel.queue s).setTunnel { (sampleAll s.tunnel.queue s).tunnel with
      sampled := (sampleAll s.tunnel.queue s).tunnel.encoder } := if_pos h
  rw [hmodel, sampleAll_tunnel]

/-- R3: a traveller slot at the end of the sample. -/
theorem slot_sampled (s : State) (l : List QueueEntry) (x : Tunnel) (i : Fin 32) :
    (commit s ((sampleAll l s).setTunnel x)).table.slots.get i =
      slotAfter (s.table.slots.get i) ((sampleAll l s).trav? i) := by
  rw [← (leaves_sampleAll l s).slot i, commit_table_slot, commit_table_slot]
  rfl

/-- Settles O47: slot by slot, what the queue's samples make of its traveller. -/
theorem sampleAddsHeat : Obligations.SampleAddsHeat := by
  intro s hrun hnodup
  have hleaves := leaves_sampleAll s.tunnel.queue s
  refine ⟨commit s (sampleExpiry s), rfl, ?_⟩
  rw [sampleExpiry_of_running hrun]
  refine ⟨keeps_commit (keeps_trans (keeps_sampleAll (by simp) _ s) (keeps_setTunnel (by simp) _ _)) hleaves.serialsKept,
    rfl, hleaves.serial, fun i hi => ?_, fun i v c d z hi hv hc hf hd hz => ?_⟩
  · rw [slot_sampled, trav?_sampleAll hnodup, if_neg hi]
    exact if_pos rfl
  · have hheated : heated s.tunnel s.constants v = sampled s.constants (s.tunnel.zones.get z) c v := by
      rw [hz, hd]
      simp only [heated, hc]
      rfl
    rw [slot_sampled, trav?_sampleAll hnodup, if_pos hi, hv, Option.map_some, hheated]
    exact congrArg (fun w => slotAfter (s.table.slots.get i) (some w)) (sampled_of_lt hf _ _ _)

/-! ### An encoder pulse (R116, R126) -/

/-- The head of the queue is short of the belt length at encoder count `n`, or there is no head. -/
theorem headAtEnd_of_short {s : State} {n : BitVec 32}
    (h : ∀ (q : QueueEntry) (rest : List QueueEntry), s.tunnel.queue = q :: rest → ∃ (v : Traveller) (c : Cure),
      s.trav? q.trav = some v ∧ v.cure = some c ∧ (n - c.entryCount).toNat / 2 < s.constants.beltLength) :
    headAtEnd s n = false := by
  cases hq : s.tunnel.queue with
  | nil => simp only [headAtEnd, hq]
  | cons q rest =>
    obtain ⟨v, c, hv, hc, hd⟩ := h q rest hq
    simpa only [headAtEnd, hq, entryCountOf_of_cure hv hc, distance, decide_eq_false_iff_not, not_le] using hd

/-- The part after an encoder pulse that no exit follows. -/
def counted (s : State) : State := s.setTunnel { s.tunnel with encoder := s.tunnel.encoder + 1 }

theorem pulse_of_short {s : State} (h : headAtEnd (counted s) (s.tunnel.encoder + 1) = false) : pulse s = counted s :=
  if_neg (Bool.eq_false_iff.mp h)

/-- The encoder count is no field of the TUNNEL record. -/
theorem tunnelChanged_counted {s t : State} (htunnel : t.tunnel = s.tunnel) (htable : t.table = s.table) :
    tunnelChanged s (counted t) = false := by
  have hcount : (counted t).tunnel = { s.tunnel with encoder := s.tunnel.encoder + 1 } := by
    rw [counted, setTunnel_tunnel, htunnel]
  have hview : queueView (counted t) = queueView s := by
    simp only [queueView, hcount, trav?_congr (show (counted t).table = s.table from htable)]
  simp [tunnelChanged, hcount, hview]

theorem exec_encoderPulse {s : State} {l : Fin 24} (h : s.lineOf .beltEnc = some l) :
    exec .encoderPulse s = .next (commit s (pulse (s.setLines (edged l true s)))) :=
  congrArg (fun t => Host.Outcome.next (commit s t)) (functionEdge_of_line h true)

/-- Settles O48: the pulse is the edge of its line, and short of an exit it counts and ends. -/
theorem pulseCounts : Obligations.PulseCounts := by
  intro l s hl hshort
  have hpulse : pulse (s.setLines (edged l true s)) = counted (s.setLines (edged l true s)) :=
    pulse_of_short (headAtEnd_of_short hshort)
  refine ⟨_, exec_encoderPulse hl, ?_⟩
  rw [hpulse]
  exact ⟨keeps_commit (keeps_trans (DepositGauge.keeps_setLines (by simp) _ s) (keeps_setTunnel (by simp) _ _))
    (serialsKept_of_table rfl), rfl, commit_tunnel_of_unchanged (tunnelChanged_counted rfl rfl)⟩

end Sys2Proof.CuringTunnel
end

