-- ==== Sys2Proof/Proofs/DiscreteLines/FilteredEdges.lean ====
section
/-! PROOF. The levels of a line after a write to it, and the edges that a filter lets through (O24). -/

namespace Sys2Proof.DiscreteLines

open Sys2Proof Sys2Proof.Machine Sys2Proof.PlatenRing Sys2Proof.Pretreatment Sys2Proof.DepositGauge

/-! ### One line written (R131) -/

@[simp] theorem modLine_line (l : Fin 24) (g : Line → Line) (s : State) :
    (modLine l g s).lines.get l = g (s.lines.get l) := Tab.get_set_eq _ _ _

theorem modLine_lines (l : Fin 24) (g : Line → Line) (s : State) :
    (modLine l g s).lines = s.lines.set l (g (s.lines.get l)) := rfl

theorem modLine_modLine (l : Fin 24) (g h : Line → Line) (s : State) :
    modLine l h (modLine l g s) = modLine l (fun x => h (g x)) s := by
  simp only [modLine, setLines_lines, setLines_setLines, Tab.get_set_eq, Tab.set_set]

theorem modLine_self {l : Fin 24} {g : Line → Line} {s : State} (h : g (s.lines.get l) = s.lines.get l) :
    modLine l g s = s := by rw [modLine, h, Tab.set_get_self, setLines_self]

theorem keeps_modLine {changed : List Block} (h : Block.lines ∈ changed) (l : Fin 24) (g : Line → Line) (s : State) :
    Keeps changed s (modLine l g s) := keeps_setLines h _ s

/-! ### Pin level and filtered level (R135) -/

/-! The end of an event, the response, the tunnel and the latch touch no level. -/

theorem filteredLevel_commit (s u : State) (l : Fin 24) : (commit s u).filteredLevel l = u.filteredLevel l := rfl

theorem filteredLevel_respond (p : Port) (code : Byte) (st : Status) (data : List Byte) (s : State) (l : Fin 24) :
    (respond p code st data s).filteredLevel l = s.filteredLevel l := rfl

theorem filteredLevel_setTunnel (s : State) (x : Tunnel) (l : Fin 24) :
    (s.setTunnel x).filteredLevel l = s.filteredLevel l := rfl

theorem filteredLevel_setPumpFault (b : Bool) (s : State) (l : Fin 24) :
    (setPumpFault b s).filteredLevel l = s.filteredLevel l := rfl

section
variable {l : Fin 24} {s : State}

theorem pinLevel_of_input (h : isInput (s.lines.get l).function = true) : s.pinLevel l = (s.lines.get l).outside := by
  simp [State.pinLevel, driven_input h]

/-- On a line with a function, the pin level is read off the function and the level outside alone. -/
theorem pinLevel_modLine_of_function {g : Line → Line} (h : (s.lines.get l).function ≠ .none)
    (hf : (g (s.lines.get l)).function = (s.lines.get l).function)
    (ho : (g (s.lines.get l)).outside = (s.lines.get l).outside) : (modLine l g s).pinLevel l = s.pinLevel l := by
  have hdriven : (modLine l g s).driven l = s.driven l := by
    rw [driven_function (s := modLine l g s) ((congrArg Line.function (modLine_line l g s)).trans hf) h,
      driven_function (s := s) rfl h]
    rfl
  rw [State.pinLevel, State.pinLevel, hdriven, modLine_line, ho]

/-- The pin level does not hang on what the filter holds. -/
theorem pinLevel_modLine_filtered (b : Bool) :
    (modLine l (fun x => { x with filtered := b }) s).pinLevel l = s.pinLevel l := by
  simp only [State.pinLevel, State.driven, modLine_line]
  rfl

theorem filteredLevel_of_us0 (h : (s.lines.get l).filter = .us0) : s.filteredLevel l = s.pinLevel l := if_pos h

theorem filteredLevel_of_filter (h : (s.lines.get l).filter ≠ .us0) : s.filteredLevel l = (s.lines.get l).filtered :=
  if_neg h

/-! ### When the filtered level has an edge (R135, log entries 7 and 8) -/

theorem followPin_of_filter (h : (s.lines.get l).filter ≠ .us0) (was : Bool) : followPin l was s = s :=
  if_neg fun hc => h hc.1

theorem followPin_of_edge {was : Bool} (h : (s.lines.get l).filter = .us0) (hpin : s.pinLevel l ≠ was) :
    followPin l was s = filteredEdge l (s.pinLevel l) s := if_pos ⟨h, hpin⟩

theorem followPin_of_level {was : Bool} (hpin : s.pinLevel l = was) : followPin l was s = s :=
  if_neg fun hc => hc.2 hpin

theorem filterElapsed_of_edge (h : s.pinLevel l ≠ s.filteredLevel l) :
    filterElapsed l s = filteredEdge l (s.pinLevel l) s := if_neg h

theorem filterElapsed_of_level (h : s.pinLevel l = s.filteredLevel l) : filterElapsed l s = s := if_pos h

/-- A filtered edge is the new filtered level, then the event of the owner. -/
theorem filteredEdge_eq {f : LineFunction} (h : (s.lines.get l).function = f) (level : Bool) :
    filteredEdge l level s = deliver f level (modLine l (fun x => { x with filtered := level }) s) := by
  rw [filteredEdge, State.functionAt, h]

end

/-! ### The edge rows of the blocks (log entry 6) -/

/-- The input functions whose edge is an event of a block, with the level of the edge and the row of that event. -/
def edgeRows : List (LineFunction × Bool × Instr) :=
  [(.indexPulse, true, .index), (.pumpFault, true, .pumpFault), (.pumpFault, false, .pumpFaultClear),
    (.beltEnc, true, .encoderPulse), (.gaugeOscFront, true, .gaugeOscEdge .front),
    (.gaugeOscBack, true, .gaugeOscEdge .back)]

theorem exec_edgeRow {f : LineFunction} {level : Bool} {c : Instr} (h : (f, level, c) ∈ edgeRows) (s : State) :
    exec c s = .next (event (functionEdge f level) s) := by
  simp only [edgeRows, List.mem_cons, Prod.mk.injEq, List.not_mem_nil, or_false] at h
  obtain ⟨rfl, rfl, rfl⟩ | ⟨rfl, rfl, rfl⟩ | ⟨rfl, rfl, rfl⟩ | ⟨rfl, rfl, rfl⟩ | ⟨rfl, rfl, rfl⟩ | ⟨rfl, rfl, rfl⟩ := h
  all_goals rfl

theorem isInput_of_edgeRow {f : LineFunction} {level : Bool} {c : Instr} (h : (f, level, c) ∈ edgeRows) :
    isInput f = true :=
  (by decide : ∀ r ∈ edgeRows, isInput r.1 = true) _ h

/-! ### A pin taken to a level, and the edge that follows (R135) -/

/-- The machinery has put `level` on the pin of line `l`. -/
def pinned (l : Fin 24) (level : Bool) (s : State) : State := modLine l (fun x => { x with outside := level }) s

section
variable {l : Fin 24} {f : LineFunction} {level : Bool} {s : State}

theorem pinned_self (h : (s.lines.get l).outside = level) : pinned l level s = s := modLine_self (by rw [← h])

/-- The edge of the line with its pin at the level is the edge of the function. -/
theorem filteredEdge_pinned (h : s.lineOf f = some l) :
    filteredEdge l level (pinned l level s) = functionEdge f level s := by
  have hfun : ((pinned l level s).lines.get l).function = f :=
    (congrArg Line.function (modLine_line _ _ _)).trans (lineOf_eq_some h)
  rw [filteredEdge_eq hfun, pinned, modLine_modLine, functionEdge_of_line h]
  rfl

theorem filterElapsed_eq_functionEdge (hl : s.lineOf f = some l) (hin : isInput f = true)
    (hfilter : (s.lines.get l).filter ≠ .us0) (hout : (s.lines.get l).outside = level)
    (hwas : (s.lines.get l).filtered = !level) : filterElapsed l s = functionEdge f level s := by
  have hpin : s.pinLevel l = level := (pinLevel_of_input (by rw [lineOf_eq_some hl, hin])).trans hout
  have hedge : s.pinLevel l ≠ s.filteredLevel l := by simp [hpin, filteredLevel_of_filter hfilter, hwas]
  rw [filterElapsed_of_edge hedge, hpin, ← filteredEdge_pinned hl, pinned_self hout]

theorem pinChange_eq_functionEdge (hl : s.lineOf f = some l) (hin : isInput f = true)
    (hfilter : (s.lines.get l).filter = .us0) (hout : (s.lines.get l).outside = !level) :
    pinChange l level s = functionEdge f level s := by
  have hfun : isInput (s.lines.get l).function = true := by rw [lineOf_eq_some hl, hin]
  have hline : (pinned l level s).lines.get l = { s.lines.get l with outside := level } := modLine_line _ _ _
  have hwas : s.filteredLevel l = !level := by rw [filteredLevel_of_us0 hfilter, pinLevel_of_input hfun, hout]
  have hpin : (pinned l level s).pinLevel l = level := by
    rw [pinLevel_of_input (by rw [hline]; exact hfun), hline]
  calc pinChange l level s
    _ = followPin l (s.filteredLevel l) (pinned l level s) := rfl
    _ = filteredEdge l ((pinned l level s).pinLevel l) (pinned l level s) :=
        followPin_of_edge (by rw [hline]; exact hfilter) (by simp [hpin, hwas])
    _ = functionEdge f level s := by rw [hpin, filteredEdge_pinned hl]

/-- With a filter, the new level on the pin waits. -/
theorem pinChange_of_filter (hfilter : (s.lines.get l).filter ≠ .us0) : pinChange l level s = pinned l level s :=
  followPin_of_filter (by rw [modLine_line]; exact hfilter) _

theorem filteredLevel_pinned (hfilter : (s.lines.get l).filter ≠ .us0) :
    (pinned l level s).filteredLevel l = s.filteredLevel l := by
  rw [filteredLevel_of_filter (by rw [pinned, modLine_line]; exact hfilter), filteredLevel_of_filter hfilter, pinned,
    modLine_line]

/-! ### Lines whose edge reaches no block (R135) -/

/-- The filtered level follows the pin, and nothing else moves. -/
theorem filterElapsed_unowned (h : (s.lines.get l).function = .none ∨ (s.lines.get l).function = .home)
    (hfilter : (s.lines.get l).filter ≠ .us0) :
    filterElapsed l s = modLine l (fun x => { x with filtered := s.pinLevel l }) s := by
  by_cases hpin : s.pinLevel l = s.filteredLevel l
  · rw [filterElapsed_of_level hpin, hpin, filteredLevel_of_filter hfilter, modLine_self rfl]
  · rw [filterElapsed_of_edge hpin]
    obtain h | h := h <;> rw [filteredEdge_eq h] <;> rfl

end

/-- Settles O24: the edge of the line is the edge of its function, through a filter and without one; a pin change behind
a filter waits, and the edge of an unowned line moves its filtered level alone. -/
theorem filteredEdgesReachTheirBlock : Obligations.FilteredEdgesReachTheirBlock := by
  refine ⟨fun l f level c s hrow hl => ?_, fun l level s => ⟨fun hfilter => ?_, fun hfun hfilter => ?_⟩⟩
  · rw [exec_edgeRow hrow]
    have hin := isInput_of_edgeRow hrow
    refine ⟨fun hfilter hout hwas => ?_, fun hfilter hout => ?_⟩
    · exact congrArg (fun t => Host.Outcome.next (commit s t)) (filterElapsed_eq_functionEdge hl hin hfilter hout hwas)
    · exact congrArg (fun t => Host.Outcome.next (commit s t)) (pinChange_eq_functionEdge hl hin hfilter hout)
  · refine ⟨commit s (pinChange l level s), rfl, ?_⟩
    rw [pinChange_of_filter hfilter]
    exact ⟨keeps_commit (keeps_modLine (by simp) _ _ s) (serialsKept_of_table rfl), rfl, filteredLevel_pinned hfilter⟩
  · refine ⟨commit s (filterElapsed l s), rfl, ?_⟩
    rw [filterElapsed_unowned hfun hfilter]
    refine ⟨keeps_commit (keeps_modLine (by simp) _ _ s) (serialsKept_of_table rfl), rfl, ?_⟩
    have hline := modLine_line l (fun x => { x with filtered := s.pinLevel l }) s
    rw [filteredLevel_commit, filteredLevel_of_filter (by rw [hline]; exact hfilter), hline]

end Sys2Proof.DiscreteLines
end

