-- ==== Sys2Proof/Proofs/DiscreteLines/Settings.lean ====
section
/-! PROOF. LINE_CONFIG, LINE_SET, LINE_TOGGLE and LINE_READ (O23). -/

namespace Sys2Proof.DiscreteLines

open Sys2Proof Sys2Proof.Machine Sys2Proof.PlatenRing Sys2Proof.Pretreatment Sys2Proof.DepositGauge
  Sys2Proof.CuringTunnel

/-! ### What the four commands share (R144) -/

theorem mem_anyMode (s : State) : s.mode ∈ anyMode := by cases h : s.mode <;> decide

/-- A line command of the right length is taken from the gateway in every mode, unless its own checks refuse it. -/
theorem lineCommand_taken {code : Byte} {l data : List Byte} {ok : Bool} {body : State → Answer} {s u : State}
    (hl : ok = true) (hb : body (endFrame .gateway (l.length + 2) false s) = .accept u data) :
    command .gateway code l [.gateway] anyMode ok body s =
      respond .gateway code .ok data (commit (endFrame .gateway (l.length + 2) false s) u) :=
  command_taken (by simp) (mem_anyMode s) hl hb

/-! ### The payload of LINE_CONFIG (R133, R163) -/

/-- The four bytes that configure line `n`: outward when `d`, strong when `v`, with a filter of `k` µs. -/
def configBytes (n : Fin 24) (d v : Bool) (k : Nat) : List Byte :=
  [BitVec.ofNat 8 n.val, if d then 1 else 0, if v then 1 else 0, BitVec.ofNat 8 k]

def directionFor (d : Bool) : Direction := if d then .outward else .inward

def driveFor (v : Bool) : Drive := if v then .strong else .standard

theorem directionOf_flag (d : Bool) : directionOf (if d then 1 else 0 : Byte).toNat = some (directionFor d) := by
  cases d <;> rfl

theorem driveOf_flag (v : Bool) : driveOf (if v then 1 else 0 : Byte).toNat = some (driveFor v) := by cases v <;> rfl

/-- R133: the payload read back, and the one check that is left to LINE_CONFIG itself. -/
theorem lineConfigBody_at {k : Nat} {f : Filter} (hk : k < 256) (hf : filterOf k = some f) (n : Fin 24) (d v : Bool)
    (s : State) : lineConfigBody (configBytes n d v k) s =
      refuseIf (s.functionAt n ≠ .none ∧ s.mode ≠ .config) .mode
        (.accept (configureLine n (directionFor d) (driveFor v) f s) []) := by
  have hn : fin? 24 (byteAt (configBytes n d v k) 0) = some n := by
    rw [configBytes, byteAt_cons_ofNat (by omega), fin?_val]
  have hd : directionOf (byteAt (configBytes n d v k) 1) = some (directionFor d) := directionOf_flag d
  have hv : driveOf (byteAt (configBytes n d v k) 2) = some (driveFor v) := driveOf_flag v
  have hfilter : filterOf (byteAt (configBytes n d v k) 3) = some f := by
    have hbyte : byteAt (configBytes n d v k) 3 = (BitVec.ofNat 8 k).toNat := rfl
    rw [hbyte, BitVec.toNat_ofNat, Nat.mod_eq_of_lt hk, hf]
  rw [lineConfigBody, hn, hd, hv, hfilter]

/-- The part after LINE_CONFIG was taken. -/
def configured (n : Fin 24) (d v : Bool) (k : Nat) (f : Filter) (s : State) : State :=
  respond .gateway 0x19 .ok [] (commit (endFrame .gateway ((configBytes n d v k).length + 2) false s)
    (configureLine n (directionFor d) (driveFor v) f (endFrame .gateway ((configBytes n d v k).length + 2) false s)))

section
variable {n : Fin 24} {d v : Bool} {k : Nat} {f : Filter} {s : State}

theorem exec_lineConfig_taken (hk : k < 256) (hf : filterOf k = some f)
    (h : (s.lines.get n).function = .none ∨ s.mode = .config) :
    exec (.lineConfig .gateway (configBytes n d v k)) s = .next (configured n d v k f s) := by
  refine congrArg Host.Outcome.next (lineCommand_taken rfl ((lineConfigBody_at hk hf n d v _).trans (refuseIf_neg ?_ _ _)))
  exact fun hc => h.elim hc.1 hc.2

theorem exec_lineConfig_refused (hk : k < 256) (hf : filterOf k = some f) (hfun : (s.lines.get n).function ≠ .none)
    (hmode : s.mode ≠ .config) :
    exec (.lineConfig .gateway (configBytes n d v k)) s =
      .next (refused .gateway 0x19 (configBytes n d v k) .mode [] s) :=
  congrArg Host.Outcome.next (command_rejected (by simp) (mem_anyMode s) rfl
    ((lineConfigBody_at hk hf n d v _).trans (refuseIf_pos ⟨hfun, hmode⟩ _ _)))

end

/-! ### The line that is configured (R133, R135, log entry 8) -/

/-- Line `x` with a new direction, drive and filter, its filtered level `b`. -/
def withSettings (d v : Bool) (f : Filter) (b : Bool) (x : Line) : Line :=
  { x with direction := directionFor d, drive := driveFor v, filter := f, filtered := b }

section
variable {n : Fin 24} {d v : Bool} {f : Filter} {s : State}

/-- Behind a filter the filtered level stands. -/
theorem configureLine_of_filter (hf : f ≠ .us0) :
    configureLine n (directionFor d) (driveFor v) f s = modLine n (withSettings d v f (s.filteredLevel n)) s :=
  followPin_of_filter (by rw [modLine_line]; exact hf) _

theorem filteredLevel_withSettings (hf : f ≠ .us0) (b : Bool) :
    (modLine n (withSettings d v f b) s).filteredLevel n = b := by
  rw [filteredLevel_of_filter (by rw [modLine_line]; exact hf), modLine_line]
  rfl

theorem filteredLevel_withSettings_us0 (b : Bool) : (modLine n (withSettings d v .us0 b) s).filteredLevel n =
    (modLine n (withSettings d v .us0 b) s).pinLevel n :=
  filteredLevel_of_us0 (by rw [modLine_line]; rfl)

theorem pinLevel_withSettings_congr (b c : Bool) : (modLine n (withSettings d v f b) s).pinLevel n =
    (modLine n (withSettings d v f c) s).pinLevel n := by
  rw [← pinLevel_modLine_filtered (s := modLine n (withSettings d v f b) s) c, modLine_modLine]
  rfl

theorem pinLevel_withSettings_owned (h : (s.lines.get n).function ≠ .none) (b : Bool) :
    (modLine n (withSettings d v f b) s).pinLevel n = s.pinLevel n :=
  pinLevel_modLine_of_function h rfl rfl

/-- Without a filter the filtered level becomes that of the pin, and a change of it is an edge of the function. -/
theorem configureLine_us0 {p : Bool}
    (hp : (modLine n (withSettings d v .us0 (s.filteredLevel n)) s).pinLevel n = p) :
    configureLine n (directionFor d) (driveFor v) .us0 s =
      if p = s.filteredLevel n then modLine n (withSettings d v .us0 p) s
      else deliver (s.lines.get n).function p (modLine n (withSettings d v .us0 p) s) := by
  have hmodel : configureLine n (directionFor d) (driveFor v) .us0 s =
      followPin n (s.filteredLevel n) (modLine n (withSettings d v .us0 (s.filteredLevel n)) s) := rfl
  have hfun : ((modLine n (withSettings d v .us0 (s.filteredLevel n)) s).lines.get n).function =
    (s.lines.get n).function := (congrArg Line.function (modLine_line _ _ _)).trans rfl
  rw [hmodel]
  split
  · rename_i hstands
    rw [followPin_of_level (hp.trans hstands), hstands]
  · rename_i hmoves
    rw [followPin_of_edge (by rw [modLine_line]; rfl) (by rw [hp]; exact hmoves), hp, filteredEdge_eq hfun,
      modLine_modLine]
    rfl

/-- On a general line no block hears of the change. -/
theorem configureLine_general (h : (s.lines.get n).function = .none) : ∃ p : Bool,
    configureLine n (directionFor d) (driveFor v) .us0 s = modLine n (withSettings d v .us0 p) s ∧
      (modLine n (withSettings d v .us0 p) s).pinLevel n = p := by
  refine ⟨_, ?_, pinLevel_withSettings_congr _ (s.filteredLevel n)⟩
  rw [configureLine_us0 rfl, h]
  exact ite_self _

/-! ### An edge that finds the part at rest (R53, R71, R80, R116) -/

/-- In CONFIG, with no pass and nothing in the tunnel, an edge can move the pump fault latch and the encoder count. -/
theorem deliver_at_rest (hmode : s.mode = .config) (hpass : s.passInFlight = false) (hqueue : s.tunnel.queue = [])
    (g : LineFunction) (level : Bool) :
    deliver g level s = (setPumpFault (if g = .pumpFault then level else s.pre.pumpFault) s).setTunnel
      { s.tunnel with encoder := if g = .beltEnc ∧ level = true then s.tunnel.encoder + 1 else s.tunnel.encoder } := by
  obtain ⟨hpre, hgauge⟩ := passInFlight_eq_false_iff.mp hpass
  have hindex : takeIndex s = s := if_pos hmode
  have hpulse : pulse s = counted s := 
    pulse_of_short (headAtEnd_of_short fun q rest h => absurd (hqueue.symm.trans h) (by simp))
  cases g with
  | indexPulse => cases level <;> [rfl; exact hindex]
  | pumpFault => cases level <;> [rfl; exact pumpFaultEdge_of_idle hpre]
  | beltEnc => cases level <;> [rfl; exact hpulse]
  | gaugeOscFront | gaugeOscBack => cases level <;> [rfl; exact oscEdge_idle (.inl hgauge)]
  | none | indexPermit | home | pumpStroke | gaugeExcite | faultOut => rfl

/-- On a line with a function, the change is taken by the latch or counted by the encoder. -/
theorem configureLine_owned (hfun : (s.lines.get n).function ≠ .none) (hmode : s.mode = .config)
    (hpass : s.passInFlight = false) (hqueue : s.tunnel.queue = []) :
    configureLine n (directionFor d) (driveFor v) .us0 s =
      (setPumpFault
        (if (s.lines.get n).function = .pumpFault ∧ s.pinLevel n ≠ s.filteredLevel n then s.pinLevel n
          else s.pre.pumpFault) (modLine n (withSettings d v .us0 (s.pinLevel n)) s)).setTunnel
        { s.tunnel with encoder :=
            if (s.lines.get n).function = .beltEnc ∧ s.filteredLevel n = false ∧ s.pinLevel n = true then
              s.tunnel.encoder + 1 else s.tunnel.encoder } := by
  rw [configureLine_us0 (pinLevel_withSettings_owned hfun _)]
  split
  · rename_i hstands
    have hrise : ¬ (s.filteredLevel n = false ∧ s.pinLevel n = true) := by simp [hstands]
    rw [if_neg (fun hc => hc.2 hstands), if_neg (fun hc => hrise hc.2)]
    rfl
  · rename_i hmoves
    have hrise : (s.filteredLevel n = false ∧ s.pinLevel n = true) ↔ s.pinLevel n = true :=
      ⟨And.right, fun hp => ⟨by simpa [hp] using hmoves, hp⟩⟩
    rw [deliver_at_rest (by exact hmode) (by exact hpass) (by exact hqueue)]
    simp only [hrise, ne_eq, hmoves, not_false_eq_true, and_true]
    rfl

/-- The encoder count is no field of the TUNNEL record (R121). -/
theorem tunnelChanged_of_encoder {t : State} {e : BitVec 32} (htunnel : t.tunnel = { s.tunnel with encoder := e })
    (htable : t.table = s.table) : tunnelChanged s t = false := by
  have hview : queueView t = queueView s := by simp only [queueView, htunnel, trav?_congr htable]
  simp [tunnelChanged, htunnel, hview]

end

/-! ### 24-bit selections (R163) -/

theorem u24At_bytes24 {n : Nat} (h : n < 16777216) (l : List Byte) : u24At (bytes24 n ++ l) 0 = n := by
  have h0 : byteAt (bytes24 n ++ l) 0 = n / 65536 := byteAt_cons_ofNat (by omega) _
  have h1 : byteAt (bytes24 n ++ l) 1 = n / 256 % 256 := BitVec.toNat_ofNat _ _
  have h2 : byteAt (bytes24 n ++ l) 2 = n % 256 := BitVec.toNat_ofNat _ _
  rw [u24At, u16At, h0, h1, h2]
  omega

theorem u24At_behind_bytes24 (m : Nat) (l : List Byte) (k : Nat) : u24At (bytes24 m ++ l) (k + 3) = u24At l k := rfl

theorem bitOf_toNat (b : BitVec 24) (k : Nat) : bitOf b.toNat k = b.getLsbD k :=
  Nat.testBit_eq_decide_div_mod_eq.symm

/-- The selection of the numbers below `n` for which `f` holds. -/
def selectionOf (n : Nat) (f : Fin n → Bool) : Nat :=
  (List.finRange n).foldl (fun m l => m + if f l then 2 ^ l.val else 0) 0

theorem selection24_eq (f : Fin 24 → Bool) : selection24 f = selectionOf 24 f := rfl

theorem selectionOf_succ (n : Nat) (f : Fin (n + 1) → Bool) :
    selectionOf (n + 1) f = selectionOf n (fun l => f l.castSucc) + if f (Fin.last n) then 2 ^ n else 0 := by
  rw [selectionOf, List.finRange_succ_last, List.foldl_append, List.foldl_map]
  rfl

theorem selectionOf_lt (n : Nat) (f : Fin n → Bool) : selectionOf n f < 2 ^ n := by
  induction n with
  | zero => exact Nat.one_pos
  | succ n ih =>
    have hlow := ih fun l => f l.castSucc
    rw [selectionOf_succ, pow_succ]
    split <;> omega

theorem testBit_selectionOf (n : Nat) (f : Fin n → Bool) (k : Fin n) : (selectionOf n f).testBit k = f k := by
  induction n with
  | zero => exact k.elim0
  | succ n ih =>
    have hlow := selectionOf_lt n fun l => f l.castSucc
    rw [selectionOf_succ, Nat.add_comm]
    induction k using Fin.lastCases with
    | last =>
      rw [Fin.val_last]
      split
      · rename_i hf
        rw [Nat.testBit_two_pow_add_eq, Nat.testBit_lt_two_pow hlow, hf]
        rfl
      · rename_i hf
        rw [Nat.zero_add, Nat.testBit_lt_two_pow hlow, Bool.eq_false_iff.mpr hf]
    | cast k =>
      have hbit := ih (fun l => f l.castSucc) k
      rw [Fin.val_castSucc]
      split
      · rw [Nat.testBit_two_pow_add_gt k.isLt]
        exact hbit
      · rw [Nat.zero_add]
        exact hbit

/-! ### LINE_SET, LINE_TOGGLE and LINE_READ (R134, R136) -/

theorem setLevels_line (sel levels : BitVec 24) (s : State) (k : Fin 24) :
    (setLevels sel.toNat levels.toNat s).lines.get k =
      { s.lines.get k with level := if sel.getLsbD k.val then levels.getLsbD k.val else (s.lines.get k).level } := by
  rw [setLevels, setLines_lines, Tab.get_ofFn, bitOf_toNat, bitOf_toNat]
  split <;> rfl

theorem toggleLevels_line (sel : BitVec 24) (s : State) (k : Fin 24) :
    (toggleLevels sel.toNat s).lines.get k =
      { s.lines.get k with level :=
          (if sel.getLsbD k.val = true ∧ (s.lines.get k).function = .none ∧ (s.lines.get k).direction = .outward then
            !(s.lines.get k).level else (s.lines.get k).level) } := by
  rw [toggleLevels, setLines_lines, Tab.get_ofFn, bitOf_toNat]
  by_cases h : sel.getLsbD k.val = true ∧ (s.lines.get k).function = .none ∧ (s.lines.get k).direction = .outward
  · simp only [if_pos h]
  · simp only [if_neg h]

/-- The levels as a 24-bit selection, and the report with one byte per line. -/
theorem lineReport_eq (s : State) : ∃ levels : BitVec 24, (∀ k : Fin 24, levels.getLsbD k.val = s.filteredLevel k) ∧
    lineReport s = bytes24 levels.toNat ++
      (List.finRange 24).map fun k => BitVec.ofNat 8 (functionCode (s.functionAt k)) := by
  have hnat : (BitVec.ofNatLT _ (selectionOf_lt 24 s.filteredLevel)).toNat = selectionOf 24 s.filteredLevel := rfl
  refine ⟨BitVec.ofNatLT _ (selectionOf_lt 24 s.filteredLevel), testBit_selectionOf 24 _, ?_⟩
  rw [lineReport, selection24_eq, hnat]
  exact congrArg (bytes24 (selectionOf 24 s.filteredLevel) ++ ·) (List.flatMap_pure_eq_map _ _)

/-! ### The statement, command by command -/

section
variable (n : Fin 24) (d v : Bool) (s : State)

/-- LINE_CONFIG with a filter other than 0. -/
theorem lineConfig_filter {k : Nat} {f : Filter} (hk : k < 256) (hf : filterOf k = some f) (hne : f ≠ .us0)
    (h : (s.lines.get n).function = .none ∨ s.mode = .config) : ∃ t : State,
    exec (.lineConfig .gateway (configBytes n d v k)) s = .next t ∧ Keeps [.lines, .ports] s t ∧
      t.lines = s.lines.set n (withSettings d v f (s.filteredLevel n) (s.lines.get n)) ∧
      t.filteredLevel n = s.filteredLevel n ∧ t.ports = answered .gateway 0x19 (configBytes n d v k) .ok [] s := by
  refine ⟨_, exec_lineConfig_taken hk hf h, ?_⟩
  rw [configured, configureLine_of_filter hne]
  exact ⟨keeps_taken (by simp) (keeps_modLine (by simp) _ _ _) (serialsKept_of_table rfl), rfl,
    filteredLevel_withSettings hne _, accepted_ports rfl⟩

/-- LINE_CONFIG with a filter of 0 on a general line. -/
theorem lineConfig_us0_general (h : (s.lines.get n).function = .none) : ∃ t : State,
    exec (.lineConfig .gateway (configBytes n d v 0)) s = .next t ∧ Keeps [.lines, .ports] s t ∧
      t.lines = s.lines.set n (withSettings d v .us0 (t.filteredLevel n) (s.lines.get n)) ∧
      t.filteredLevel n = t.pinLevel n ∧ t.ports = answered .gateway 0x19 (configBytes n d v 0) .ok [] s := by
  refine ⟨_, exec_lineConfig_taken (by decide) rfl (.inl h), ?_⟩
  obtain ⟨p, hline, hpin⟩ := configureLine_general (n := n) (d := d) (v := v)
    (s := endFrame .gateway ((configBytes n d v 0).length + 2) false s) h
  rw [configured, hline]
  have hlevel := filteredLevel_withSettings_us0 (n := n) (d := d) (v := v)
    (s := endFrame .gateway ((configBytes n d v 0).length + 2) false s) p
  refine ⟨keeps_taken (by simp) (keeps_modLine (by simp) _ _ _) (serialsKept_of_table rfl), ?_, hlevel, accepted_ports rfl⟩
  exact congrArg (fun b => s.lines.set n (withSettings d v .us0 b (s.lines.get n))) (hlevel.trans hpin).symm

/-- LINE_CONFIG with a filter of 0 on a line with a function, the part at rest. -/
theorem lineConfig_us0_owned (hfun : (s.lines.get n).function ≠ .none) (hmode : s.mode = .config)
    (hpass : s.passInFlight = false) (hqueue : s.tunnel.queue = []) : ∃ t : State,
    exec (.lineConfig .gateway (configBytes n d v 0)) s = .next t ∧ Keeps [.lines, .pre, .tunnel, .ports] s t ∧
      t.lines = s.lines.set n (withSettings d v .us0 (s.pinLevel n) (s.lines.get n)) ∧
      t.filteredLevel n = s.pinLevel n ∧
      t.pre = (if (s.lines.get n).function = .pumpFault ∧ s.pinLevel n ≠ s.filteredLevel n then
        { s.pre with pumpFault := s.pinLevel n } else s.pre) ∧
      t.tunnel = (if (s.lines.get n).function = .beltEnc ∧ s.filteredLevel n = false ∧ s.pinLevel n = true then
        { s.tunnel with encoder := s.tunnel.encoder + 1 } else s.tunnel) ∧
      t.ports = answered .gateway 0x19 (configBytes n d v 0) .ok [] s := by
  refine ⟨_, exec_lineConfig_taken (by decide) rfl (.inr hmode), ?_⟩
  rw [configured, configureLine_owned (by exact hfun) (by exact hmode) (by exact hpass) (by exact hqueue)]
  refine ⟨keeps_taken (by simp) (keeps_trans (keeps_modLine (by simp) _ _ _)
      (keeps_trans (keeps_setPre (by simp) _ _) (keeps_setTunnel (by simp) _ _))) (serialsKept_of_table rfl),
    rfl, ?_, ?_, (commit_tunnel_of_unchanged (tunnelChanged_of_encoder rfl rfl)).trans ?_, accepted_ports rfl⟩
  · rw [filteredLevel_respond, filteredLevel_commit, filteredLevel_setTunnel, filteredLevel_setPumpFault,
      filteredLevel_withSettings_us0, pinLevel_withSettings_owned (by exact hfun)]
    rfl
  · exact apply_ite (fun b => { s.pre with pumpFault := b })
      ((s.lines.get n).function = .pumpFault ∧ s.pinLevel n ≠ s.filteredLevel n) _ _
  · exact apply_ite (fun e => { s.tunnel with encoder := e })
      ((s.lines.get n).function = .beltEnc ∧ s.filteredLevel n = false ∧ s.pinLevel n = true) _ _

end

/-- Settles O23: LINE_CONFIG by its filter and the line's function, or refused; then the three commands on every line. -/
theorem lineSettings : Obligations.LineSettings := by
  refine ⟨fun n d v s => ⟨fun h => ⟨fun f hf => ?_, lineConfig_us0_general n d v s⟩, lineConfig_us0_owned n d v s,
    fun hfun hmode f hf => ?_⟩, fun sel levels s => ⟨?_, ?_, ?_⟩⟩
  · simp only [List.mem_cons, List.not_mem_nil, or_false] at hf
    obtain rfl | rfl | rfl := hf <;> exact lineConfig_filter n d v s (by decide) rfl (by decide) h
  · simp only [List.mem_cons, List.not_mem_nil, or_false] at hf
    obtain rfl | rfl | rfl | rfl := hf <;> exact exec_lineConfig_refused (by decide) rfl hfun hmode
  · have hsel : u24At (bytes24 sel.toNat ++ bytes24 levels.toNat) 0 = sel.toNat := u24At_bytes24 sel.isLt _
    have hlevels : u24At (bytes24 sel.toNat ++ bytes24 levels.toNat) 3 = levels.toNat := u24At_bytes24 levels.isLt []
    refine ⟨_, congrArg Host.Outcome.next (lineCommand_taken rfl rfl), ?_⟩
    rw [hsel, hlevels]
    exact ⟨keeps_taken (by simp) (keeps_setLines (by simp) _ _) (serialsKept_of_table rfl), accepted_ports rfl,
      setLevels_line sel levels s⟩
  · have hsel : u24At (bytes24 sel.toNat) 0 = sel.toNat := u24At_bytes24 sel.isLt []
    refine ⟨_, congrArg Host.Outcome.next (lineCommand_taken rfl rfl), ?_⟩
    rw [hsel]
    exact ⟨keeps_taken (by simp) (keeps_setLines (by simp) _ _) (serialsKept_of_table rfl), accepted_ports rfl,
      toggleLevels_line sel s⟩
  · obtain ⟨levels', hbits, hreport⟩ := lineReport_eq s
    refine ⟨_, levels', congrArg Host.Outcome.next (lineCommand_taken rfl rfl), ?_, hbits, ?_⟩
    · exact keeps_taken (by simp) ⟨rfl, rfl, fun b _ => by cases b <;> rfl⟩ (serialsKept_of_table rfl)
    · rw [← hreport]
      exact accepted_ports (l := []) rfl

end Sys2Proof.DiscreteLines
end

