-- ==== Sys2Proof/Proofs/StationPorts/Frames.lean ====
section
/-! PROOF. Frames: what the end of a frame and a response leave of the ports, the frame that reads back (O3), the checks of
R144 and its refusals (O6), READ and link reset (O4). -/

namespace Sys2Proof.StationPorts

open Sys2Proof Sys2Proof.Machine Sys2Proof.PlatenRing

/-! ### One port (R139) -/

theorem keeps_refl (changed : List Block) (s : State) : Keeps changed s s :=
  ⟨rfl, rfl, fun b _ => by cases b <;> rfl⟩

theorem keeps_modPort (p : Port) (f : PortState → PortState) (s : State) : Keeps [.ports] s (modPort p f s) :=
  ⟨rfl, rfl, fun b hb => by cases b <;> first | rfl | exact absurd (List.mem_singleton_self _) hb⟩

@[simp] theorem port_modPort_eq (p : Port) (f : PortState → PortState) (s : State) :
    (modPort p f s).port p = f (s.port p) := by simp [port_modPort]

theorem port_modPort_ne {p q : Port} (h : q ≠ p) (f : PortState → PortState) (s : State) :
    (modPort p f s).port q = s.port q := by simp [port_modPort, h]

/-- R141: the port whose frame has ended. -/
@[simp] theorem port_endFrame_eq (p : Port) (n : Nat) (b : Bool) (s : State) :
    (endFrame p n b s).port p =
      { s.port p with receiver := .idle, shifted := shiftedOut (s.port p).holder b n } := port_modPort_eq _ _ _

theorem port_endFrame_ne {p q : Port} (h : q ≠ p) (n : Nat) (b : Bool) (s : State) :
    (endFrame p n b s).port q = s.port q := port_modPort_ne h _ _

/-- R144: a response in place of a command's effects is a refusal. -/
theorem respond_endFrame (p : Port) (code : Byte) (l : List Byte) (st : Status) (data : List Byte) (s : State) :
    respond p code st data (endFrame p (l.length + 2) false s) = refused p code l st data s := by
  simp [respond, modPort, endFrame, refused, answered, answeredWith, State.port]

/-! ### Command frames (R140, R141, Table 12-2) -/

/-- R144 with Table 12-2, for every command at once. -/
theorem commandNamed (i : Instr) : Laws.CommandNamed.Statement i := by
  cases i with
  | unknownCommand p code l => exact Laws.CommandNamed.unknownCommand p code l
  | _ => intro p code l _ h; cases h <;> rfl

/-- R140: a command frame carries at most 200 payload bytes. -/
theorem payload_le_of_wellFormed {i : Instr} {p : Port} {code : Byte} {l : List Byte} (hw : wellFormed i = true)
    (h : commandParts i = some (p, code, l)) : l.length ≤ 200 := by
  cases i with
  | unknownCommand q c m =>
    cases h
    simpa [payloadFits] using (Bool.and_eq_true_iff.mp hw).2
  | _ => cases h <;> simpa [wellFormed, commandParts, payloadFits] using hw

/-- R141: no command frame begins with the byte of a READ. -/
theorem code_ne_zero_of_wellFormed {i : Instr} {p : Port} {code : Byte} {l : List Byte} (hw : wellFormed i = true)
    (h : commandParts i = some (p, code, l)) : code ≠ 0 := by
  cases i with
  | unknownCommand q c m =>
    cases h
    simpa using (Bool.and_eq_true_iff.mp (Bool.and_eq_true_iff.mp hw).1).1
  | _ => cases h <;> decide

/-- R141: a command frame is no link reset, as its length byte is not 0xFF; it is no READ; and its length is right. -/
theorem decodeFrame_command {p : Port} {code : Byte} {l : List Byte} (hcode : code ≠ 0) (hl : l.length ≤ 200) :
    decodeFrame p (code :: BitVec.ofNat 8 l.length :: l) false =
      (commandOf p code l).getD (.unknownCommand p code l) := by
  have hn : (BitVec.ofNat 8 l.length).toNat = l.length := by simp; omega
  have hmark : (code :: BitVec.ofNat 8 l.length :: l).take 4 ≠ linkResetMark := fun h => by
    have hlen : BitVec.ofNat 8 l.length = 0xFF := (List.cons.inj (List.cons.inj h).2).1
    rw [hlen] at hn
    have h255 : 255 = l.length := hn
    omega
  have hlength : lengthWrong (code :: BitVec.ofNat 8 l.length :: l) false = false := by
    simp only [lengthWrong, hn]
    simp [hl]
  rw [decodeFrame, if_neg hmark, if_neg hcode, if_neg (by simp [hlength])]
  rfl

/-- R141, case 4. -/
theorem decodeFrame_malformed {p : Port} {frame : List Byte} {midByte : Bool} (h : isMalformed frame midByte = true) :
    decodeFrame p frame midByte = .frameMalformed p frame midByte := by
  simp only [isMalformed, Bool.and_eq_true, decide_eq_true_eq] at h
  obtain ⟨⟨⟨hne, hmark⟩, hhead⟩, hlength⟩ := h
  cases frame with
  | nil => exact absurd rfl hne
  | cons code rest =>
    have hcode : code ≠ 0 := fun hc => hhead (by rw [hc]; rfl)
    rw [decodeFrame, if_neg hmark, if_neg hcode, if_pos hlength]

/-- Settles O3: the frames that carry no command one by one, the command frames by `decodeFrame_command`. -/
theorem frameReadsBack : Obligations.FrameReadsBack := by
  intro i p frame midByte hw henc
  have hcommand {code : Byte} {l : List Byte} (hparts : commandParts i = some (p, code, l)) :
      decodeFrame p (code :: BitVec.ofNat 8 l.length :: l) false = i :=
    (decodeFrame_command (code_ne_zero_of_wellFormed hw hparts) (payload_le_of_wellFormed hw hparts)).trans
      (commandNamed i p code l hw hparts)
  cases i with
  | emptyFrame q | read q rest | linkReset q rest => cases henc; rfl
  | frameMalformed q f m => cases henc; exact decodeFrame_malformed hw
  | _ => cases henc <;> exact hcommand rfl

/-! ### The checks of R144 -/

/-- Table 12-2: a byte with a rule names a command. -/
theorem commandOf_isSome_of_rule {code : Byte} {r : CommandRule} (h : ruleOf code.toNat = some r) (p : Port)
    (l : List Byte) : (commandOf p code l).isSome = true := by
  unfold commandOf
  generalize code.toNat = n at h ⊢
  unfold ruleOf at h
  split at h <;> first | rfl | cases h

/-- Tables 9-2 and 12-2: a byte with a rule is executed under that rule's ports, modes and length. -/
theorem exec_eq_command {i : Instr} {p : Port} {code : Byte} {l : List Byte} {r : CommandRule} (hw : wellFormed i = true)
    (hparts : commandParts i = some (p, code, l)) (hrule : ruleOf code.toNat = some r) :
    ∃ body : State → Answer, ∀ s : State, exec i s = .next (command p code l r.roles r.modes (r.length l) body s) := by
  cases i with
  | unknownCommand q c m =>
    cases hparts
    have hnone : (commandOf p code []).isNone = true := (Bool.and_eq_true_iff.mp (Bool.and_eq_true_iff.mp hw).1).2
    have hsome := commandOf_isSome_of_rule hrule p []
    rw [Option.isNone_iff_eq_none.mp hnone] at hsome
    cases hsome
  | _ => cases hparts <;> cases hrule <;> exact ⟨_, fun _ => rfl⟩

/-- R144: every command frame is executed as one event, or names no command and is refused. -/
theorem exec_commandParts {i : Instr} {p : Port} {code : Byte} {l : List Byte} (h : commandParts i = some (p, code, l)) :
    (∃ (roles : List Port) (modes : List Mode) (ok : Bool) (body : State → Answer),
      ∀ s : State, exec i s = .next (command p code l roles modes ok body s)) ∨
    ∀ s : State, exec i s = .next (refused p code l .arg [] s) := by
  cases i with
  | unknownCommand q c m =>
    cases h
    exact .inr fun s => congrArg Host.Outcome.next (respond_endFrame p code l .arg [] s)
  | _ => cases h <;> exact .inl ⟨_, _, _, _, fun _ => rfl⟩

/-- R144: a command that does not end in OK changed its own port's response and nothing else. -/
theorem command_not_ok {p : Port} {code : Byte} {l : List Byte} {roles : List Port} {modes : List Mode} {ok : Bool}
    {body : State → Answer} {s : State} (h : ((command p code l roles modes ok body s).port p).holder.status ≠ .ok) :
    ∃ (st : Status) (data : List Byte), command p code l roles modes ok body s = refused p code l st data s := by
  cases ha : checked p roles modes ok body (endFrame p (l.length + 2) false s) with
  | refuse st data => exact ⟨st, data, command_refused ha⟩
  | accept t data => exact absurd (by rw [command_accepted ha, holder_taken]) h

section
variable {p : Port} {code : Byte} {l : List Byte} {roles : List Port} {modes : List Mode} {ok : Bool}
  {body : State → Answer} {s : State}

/-- R144, check 2. -/
theorem command_wrong_role (hp : p ∉ roles) : command p code l roles modes ok body s = refused p code l .role [] s :=
  command_refused (by simp [checked, hp])

/-- R144, check 3. -/
theorem command_wrong_mode (hp : p ∈ roles) (hm : s.mode ∉ modes) :
    command p code l roles modes ok body s = refused p code l .mode [] s :=
  command_refused (by simp [checked, refuseIf, hp, hm])

/-- R144, R164: the length of the payload. -/
theorem command_wrong_length (hp : p ∈ roles) (hm : s.mode ∈ modes) (hl : ok = false) :
    command p code l roles modes ok body s = refused p code l .arg [] s :=
  command_refused (by simp [checked, refuseIf, hp, hm, hl])

end

/-- Settles O6: the three checks in the order of `checked`; a refusal is all that a status other than OK can come from. -/
theorem commandChecksAndRefusals : Obligations.CommandChecksAndRefusals := by
  refine ⟨fun i p code l r s hw hparts hrule => ?_, fun i p code l s t hparts hexec hst => ?_⟩
  · obtain ⟨body, hbody⟩ := exec_eq_command hw hparts hrule
    rw [hbody]
    exact ⟨fun hp => congrArg Host.Outcome.next (command_wrong_role hp),
      fun hp hm => congrArg Host.Outcome.next (command_wrong_mode hp hm),
      fun hp hm hl => congrArg Host.Outcome.next (command_wrong_length hp hm hl)⟩
  · obtain ⟨roles, modes, ok, body, hcommand⟩ | hunknown := exec_commandParts hparts
    · cases (hcommand s).symm.trans hexec
      exact command_not_ok hst
    · cases (hunknown s).symm.trans hexec
      exact ⟨_, _, rfl⟩

/-! ### READ and link reset (R142, R143) -/

/-- Settles O4: either frame writes its own port alone, and READ neither holder nor stage of it. -/
theorem readAndLinkReset : Obligations.ReadAndLinkReset := by
  refine ⟨fun p rest s => ⟨_, rfl, keeps_modPort p _ s, fun q hq => port_endFrame_ne hq _ _ s, ?_⟩, fun p rest s =>
    ⟨_, rfl, keeps_trans (keeps_modPort p _ s) (keeps_modPort p _ _),
      fun q hq => (port_modPort_ne hq _ _).trans (port_endFrame_ne hq _ _ s), ?_⟩⟩
  · simp
  · simp [linkResetPort, Receiver.idle]

end Sys2Proof.StationPorts
end

