-- ==== Sys2Proof/Proofs/StationPorts/Receiver.lean ====
section
/-! PROOF. The queue and the receivers (O2); the frames that carry no command, and a frame clocked in byte by byte (O5). -/

namespace Sys2Proof.StationPorts

open Sys2Proof Sys2Proof.Machine Sys2Proof.PlatenRing

/-! ### One moment of the receivers (R139 to R141) -/

theorem portNo_surjective : ∀ k : Fin 5, ∃ p : Port, portNo p = k
  | 0 => ⟨.gateway, rfl⟩
  | 1 => ⟨.prep, rfl⟩
  | 2 => ⟨.engineA, rfl⟩
  | 3 => ⟨.engineB, rfl⟩
  | 4 => ⟨.tunnel, rfl⟩

theorem step_of_idle {s : State} (h : s.pending = []) : step s = .next (busTick s) := by rw [step, h]

theorem busTick_of_silent {s : State} (h : ∀ p : Port, s.busOf p = []) : busTick s = s :=
  busTick_idle fun k => by
    obtain ⟨p, rfl⟩ := portNo_surjective k
    exact h p

/-- R141: what a port whose chip select is released adds to the queue, written out. -/
theorem released_eq (p : Port) (l : List Transfer) (q : PortState) : released p l q =
    match l with
    | ⟨[], midByte⟩ :: _ =>
      [decodeFrame p (q.receiver.bytes ++ List.replicate (q.receiver.count - q.receiver.bytes.length) 0) midByte]
    | _ => [] := by
  unfold released
  split <;> rfl

/-- R139: the receiver takes a byte, stored up to the 202nd. -/
theorem storeByte_bytes (b : Byte) (r : Receiver) :
    (storeByte b r).bytes = if r.bytes.length < 202 then r.bytes ++ [b] else r.bytes := rfl

/-- R140: the first byte of a frame shifts out the size of the holder. -/
theorem clockByte_shifted_first {q : PortState} (h : q.receiver.count = 0) (b : Byte) :
    (clockByte b q).shifted = [BitVec.ofNat 8 (holderBytes q.holder).length] := by
  simp [shiftByte, h]

/-- R140: every later byte shifts out a byte of the holder in a READ, and 0x00 else. -/
theorem clockByte_shifted_later {q : PortState} {k : Nat} (h : q.receiver.count = k + 1) (b : Byte) :
    (clockByte b q).shifted =
      q.shifted ++ [if q.receiver.bytes.head? = some 0 then (holderBytes q.holder).getD k 0 else 0] := by
  simp [shiftByte, h]

/-- Settles O2: the front command; nothing to do; and a moment of the receivers, port by port. -/
theorem stepRunsFrontCommand : Obligations.StepRunsFrontCommand := by
  refine ⟨fun c q s => rfl, fun s hq hb => ?_, fun s hq => ⟨_, step_of_idle hq, busTick_same s, ?_, fun p => ?_⟩⟩
  · rw [step_of_idle hq, busTick_of_silent hb]
  · rw [busTick_pending, hq]
    simp only [released_eq]
    rfl
  · rw [busTick_port, busTick_busOf]
    refine ⟨movedPort_holder _ _, movedPort_stage _ _, ?_⟩
    split
    · rename_i hbus
      simp [hbus]
    · rename_i b bytes midByte later hbus
      rw [hbus]
      exact ⟨rfl, rfl, storeByte_bytes b _, fun h => clockByte_shifted_first h b, fun k h => clockByte_shifted_later h b⟩
    · rename_i midByte later hbus
      rw [hbus]
      exact ⟨rfl, rfl, rfl⟩

/-! ### What a frame shifts out (R140) -/

/-- R140: byte number `k` that a frame shifts out: the size of the holder first, then, in a READ, the holder's bytes. -/
def shiftedByte (h : Holder) (isRead : Bool) : Nat → Byte
  | 0 => BitVec.ofNat 8 (holderBytes h).length
  | k + 1 => if isRead then (holderBytes h).getD k 0 else 0

theorem getElem?_append_replicate {l : List Byte} {n k : Nat} (h : k < n) :
    (l ++ List.replicate n 0)[k]? = some (l.getD k 0) := by
  by_cases hk : k < l.length
  · simp [List.getElem?_append_left, hk]
  · have hl : k - l.length < n := by omega
    simp [List.getElem?_append_right, not_lt.mp hk, hl]

theorem shiftedOut_eq_map (h : Holder) (isRead : Bool) (n : Nat) :
    shiftedOut h isRead n = (List.range n).map (shiftedByte h isRead) := by
  refine List.ext_getElem? fun k => ?_
  by_cases hk : k < n
  · rw [shiftedOut, List.getElem?_take_of_lt hk, List.getElem?_map, List.getElem?_range hk]
    cases k with
    | zero => rfl
    | succ k =>
      rw [List.getElem?_cons_succ, getElem?_append_replicate (by omega)]
      cases isRead <;> rfl
  · simp [shiftedOut, not_lt.mp hk]

theorem shiftedOut_succ (h : Holder) (isRead : Bool) (n : Nat) :
    shiftedOut h isRead (n + 1) = shiftedOut h isRead n ++ [shiftedByte h isRead n] := by
  simp [shiftedOut_eq_map, List.range_succ]

/-! ### A frame clocked in, byte by byte (R139 to R141) -/

/-- Port `p` has taken the bytes `got` of a frame while the others were silent, its receiver storing every one of them. -/
structure Taking (p : Port) (got : List Byte) (s t : State) : Prop where
  pending : t.pending = []
  same : ∀ b : Block, b ≠ .ports → b.same s t
  others : ∀ q : Port, q ≠ p → t.port q = s.port q
  silent : ∀ q : Port, q ≠ p → t.busOf q = []
  receiver : (t.port p).receiver = ⟨got, got.length⟩
  holder : (t.port p).holder = (s.port p).holder
  stage : (t.port p).stage = (s.port p).stage
  shifted : got ≠ [] → (t.port p).shifted = shiftedOut (s.port p).holder (got.head? = some 0) got.length

/-- R139: a byte stored. -/
theorem storeByte_of_short {got : List Byte} (h : got.length < 202) (b : Byte) :
    storeByte b ⟨got, got.length⟩ = ⟨got ++ [b], (got ++ [b]).length⟩ := by
  simp [storeByte, Config.receiverBytes, h]

/-- R140: what a frame has shifted out once its next byte is taken. -/
theorem shifted_of_taken {q : PortState} {got : List Byte} {b : Byte} (hr : q.receiver = ⟨got, got.length⟩)
    (hs : got ≠ [] → q.shifted = shiftedOut q.holder (got.head? = some 0) got.length) :
    (clockByte b q).shifted = shiftedOut q.holder ((got ++ [b]).head? = some 0) (got ++ [b]).length := by
  cases got with
  | nil => rw [clockByte_shifted_first (by rw [hr]; rfl)]; rfl
  | cons a got =>
    rw [clockByte_shifted_later (k := got.length) (by rw [hr]; rfl), hs (List.cons_ne_nil _ _), hr]
    simp [shiftedOut_succ _ _ (got.length + 1), shiftedByte]

theorem busTick_silent_port {s : State} {p : Port} (h : s.busOf p = []) :
    (busTick s).port p = s.port p ∧ (busTick s).busOf p = [] := by simp [h]

/-- A moment in which port `p` takes byte `b`. -/
theorem taking_busTick {p : Port} {got bytes : List Byte} {b : Byte} {midByte : Bool} {s t : State}
    (h : Taking p got s t) (hlen : got.length < 202) (hbus : t.busOf p = [⟨b :: bytes, midByte⟩]) :
    Taking p (got ++ [b]) s (busTick t) ∧ (busTick t).busOf p = [⟨bytes, midByte⟩] := by
  have hport : (busTick t).port p = clockByte b (t.port p) := by rw [busTick_port, hbus]; rfl
  have hreleased : (allPorts.flatMap fun q => released q (t.busOf q) (t.port q)) = [] := by
    refine List.flatMap_eq_nil_iff.mpr fun q _ => ?_
    by_cases hq : q = p
    · rw [hq, hbus]; rfl
    · rw [h.silent q hq]; rfl
  exact ⟨{
    pending := by rw [busTick_pending, h.pending, hreleased]; rfl
    same := fun c hc => Block.same_trans (h.same c hc) (busTick_same t c hc)
    others := fun q hq => (busTick_silent_port (h.silent q hq)).1.trans (h.others q hq)
    silent := fun q hq => (busTick_silent_port (h.silent q hq)).2
    receiver := by rw [hport, clockByte_receiver, h.receiver, storeByte_of_short hlen]
    holder := by rw [hport, clockByte_holder, h.holder]
    stage := by rw [hport, clockByte_stage, h.stage]
    shifted := fun _ => by
      rw [hport, ← h.holder]
      exact shifted_of_taken h.receiver (h.holder ▸ h.shifted) }, by rw [busTick_busOf, hbus]; rfl⟩

/-- The moment in which chip select is released: the frame comes to wait as the command it spells. -/
theorem taking_release {p : Port} {got : List Byte} {midByte : Bool} {s t : State} (h : Taking p got s t)
    (hbus : t.busOf p = [⟨[], midByte⟩]) : (busTick t).pending = [decodeFrame p got midByte] ∧
      (∀ b : Block, b ≠ .ports → b.same s (busTick t)) ∧
      (∀ q : Port, q ≠ p → (busTick t).port q = s.port q) ∧ (∀ q : Port, (busTick t).busOf q = []) ∧
      (busTick t).port p = { t.port p with receiver := .idle } := by
  have hreleased (q : Port) : released q (t.busOf q) (t.port q) = if q = p then [decodeFrame p got midByte] else [] := by
    by_cases hq : q = p
    · rw [hq, hbus, if_pos rfl, released_release, receivedFrame_short (by rw [h.receiver]), h.receiver]
    · rw [h.silent q hq, if_neg hq, released_nil]
  refine ⟨?_, fun b hb => Block.same_trans (h.same b hb) (busTick_same t b hb), fun q hq => ?_, fun q => ?_, ?_⟩
  · rw [busTick_pending, h.pending]
    simp only [hreleased]
    cases p <;> rfl
  · rw [(busTick_silent_port (h.silent q hq)).1, h.others q hq]
  · by_cases hq : q = p
    · rw [busTick_busOf, hq, hbus]; rfl
    · exact (busTick_silent_port (h.silent q hq)).2
  · rw [busTick_port, hbus]; rfl

/-- The bytes still to come are taken one moment each, and one moment more releases chip select. -/
theorem taking_stepsTo {p : Port} {s : State} {midByte : Bool} : ∀ {bytes got : List Byte} {t : State},
    Taking p got s t → got.length + bytes.length ≤ 202 → t.busOf p = [⟨bytes, midByte⟩] →
    ∃ u : State, Taking p (got ++ bytes) s u ∧ u.busOf p = [⟨[], midByte⟩] ∧
      stepsTo (bytes.length + 1) t (busTick u)
  | [], got, t, h, _, hbus =>
    ⟨t, by simpa using h, hbus, _, step_of_idle h.pending, rfl⟩
  | b :: bytes, got, t, h, hlen, hbus => by
    obtain ⟨hnext, hrest⟩ := taking_busTick h (by simp at hlen; omega) hbus
    obtain ⟨u, hu, hbusu, hsteps⟩ := taking_stepsTo hnext (by simp at hlen ⊢; omega) hrest
    exact ⟨u, by simpa using hu, hbusu, _, step_of_idle h.pending, hsteps⟩

/-- R139 to R141: a frame of at most 202 bytes clocked into an idle port. -/
theorem frame_clocked_in {p : Port} {frame : List Byte} {midByte : Bool} {s : State} (hq : s.pending = [])
    (hlen : frame.length ≤ 202) (hr : (s.port p).receiver = ⟨[], 0⟩) (hbus : s.busOf p = [⟨frame, midByte⟩])
    (hsilent : ∀ q : Port, q ≠ p → s.busOf q = []) :
    ∃ t : State, stepsTo (frame.length + 1) s t ∧ t.pending = [decodeFrame p frame midByte] ∧
      (∀ b : Block, b ≠ .ports → b.same s t) ∧ (∀ q : Port, q ≠ p → t.port q = s.port q) ∧
      (∀ q : Port, t.busOf q = []) ∧ (t.port p).receiver = ⟨[], 0⟩ ∧ (t.port p).holder = (s.port p).holder ∧
      (t.port p).stage = (s.port p).stage ∧
      (frame ≠ [] → (t.port p).shifted = shiftedOut (s.port p).holder (frame.head? = some 0) frame.length) := by
  have hstart : Taking p [] s s :=
    ⟨hq, fun b _ => by cases b <;> rfl, fun _ _ => rfl, hsilent, hr, rfl, rfl, fun h => absurd rfl h⟩
  obtain ⟨u, hu, hbusu, hsteps⟩ := taking_stepsTo hstart (by simpa using hlen) hbus
  obtain ⟨hpending, hsame, hothers, hsent, hport⟩ := taking_release hu hbusu
  refine ⟨_, hsteps, hpending, hsame, hothers, hsent, ?_⟩
  rw [hport]
  exact ⟨rfl, hu.holder, hu.stage, hu.shifted⟩

/-! ### Frames that carry no command of a block (R140 to R144) -/

/-- R142: what a READ shifts out. -/
theorem read_shifted (h : Holder) (n : Nat) : (shiftedOut h true (n + 1)).length = n + 1 ∧
    (shiftedOut h true (n + 1))[0]? = some (BitVec.ofNat 8 (holderBytes h).length) ∧
    ∀ k : Nat, k < n → (shiftedOut h true (n + 1))[k + 1]? = some ((holderBytes h).getD k 0) := by
  refine ⟨by simp [shiftedOut_eq_map], rfl, fun k hk => ?_⟩
  rw [shiftedOut_eq_map, List.getElem?_map, List.getElem?_range (by omega)]
  rfl

/-- IDENT on every port in every mode. -/
theorem exec_ident (p : Port) (s : State) : ∃ t : State, exec (.ident p []) s = .next t ∧ Keeps [.ports] s t ∧
    t.ports = answered p 0x01 [] .ok (identity p) s :=
  ⟨_, congrArg Host.Outcome.next (command_taken (mem_allPorts p) (DiscreteLines.mem_anyMode s) rfl rfl),
    keeps_taken (by simp) (keeps_refl _ _) (serialsKept_of_table rfl), accepted_ports (l := []) rfl⟩

/-- Settles O5: each frame form by the port it writes, and the frame clocked in by `frame_clocked_in`. -/
theorem framesWithoutCommand : Obligations.FramesWithoutCommand := by
  refine ⟨fun p rest s => ⟨_, rfl, ?_⟩, fun p s => ⟨⟨_, rfl, keeps_modPort p _ s, fun q hq => port_endFrame_ne hq _ _ s, ?_⟩,
    fun b rest midByte => ⟨_, rfl, keeps_trans (keeps_modPort p _ s) (keeps_modPort p _ _), fun q hq =>
      (port_modPort_ne hq _ _).trans (port_endFrame_ne hq _ _ s), ?_⟩⟩,
    fun p s => ⟨fun code l => congrArg Host.Outcome.next (respond_endFrame p code l .arg [] s), exec_ident p s⟩,
    fun p frame midByte s hq hlen hr hbus hsilent => frame_clocked_in hq hlen hr hbus hsilent⟩
  · rw [port_endFrame_eq]
    exact ⟨rfl, read_shifted _ _⟩
  · simp
  · simp [respond]

end Sys2Proof.StationPorts
end

