-- ==== Sys2Proof/Proofs/StationPorts/Window.lean ====
section
/-! PROOF. The record window: CAPTURE (O7), READ_STAGE and EDIT_STAGE (O8). -/

namespace Sys2Proof.StationPorts

open Sys2Proof Sys2Proof.Machine Sys2Proof.PlatenRing

/-! ### Commands of every port in every mode that write their own stage (Table 9-2) -/

/-- R144: such a command, taken with `g` as the stage of its port, writes that port alone. -/
theorem command_staged {p : Port} {code : Byte} {l : List Byte} {ok : Bool} {body : State → Answer} {data : List Byte}
    {g : Option Staged} {s : State} (hl : ok = true)
    (hb : body (endFrame p (l.length + 2) false s) = .accept (setStage p g (endFrame p (l.length + 2) false s)) data) :
    Keeps [.ports] s (command p code l allPorts anyMode ok body s) ∧
      (command p code l allPorts anyMode ok body s).ports = answeredWith p code l .ok data g s := by
  rw [command_taken (mem_allPorts p) (DiscreteLines.mem_anyMode s) hl hb]
  refine ⟨keeps_taken (by simp) (keeps_modPort p _ _) (serialsKept_of_table rfl), ?_⟩
  rw [respond_ports, State.port, commit_ports]
  simp [setStage, modPort, endFrame, answeredWith, State.port]

section
variable {p : Port} {code : Byte} {l : List Byte} {st : Status} {data : List Byte} {g : Option Staged} {s t : State}
  (h : t.ports = answeredWith p code l st data g s)
include h

/-- The port that a command was sent on, as its answer leaves it. -/
theorem port_of_answered :
    t.port p = ⟨.idle, ⟨code, st, data⟩, g, shiftedOut (s.port p).holder false (l.length + 2)⟩ := by
  rw [State.port, h, answeredWith, Tab.get_set_eq]

theorem port_of_answered_ne {q : Port} (hq : q ≠ p) : t.port q = s.port q := by
  rw [State.port, h, answeredWith, Tab.get_set_ne _ _ (portNo_inj.not.mpr hq)]
  rfl

end

/-! ### Reading a capture -/

theorem kindOf_kindCode (k : Kind) : kindOf (kindCode k) = some k := by cases k <;> rfl

theorem kindCode_lt (k : Kind) : kindCode k < 256 := by cases k <;> decide

/-- The window reads no port. -/
theorem liveRecord_endFrame (p : Port) (n : Nat) (b : Bool) (s : State) (k : Kind) (i j : Nat) :
    liveRecord (endFrame p n b s) k i j = liveRecord s k i j := by cases k <;> rfl

theorem byteAt_third_ofNat {n : Nat} (h : n < 256) (a b : Byte) (l : List Byte) :
    byteAt (a :: b :: BitVec.ofNat 8 n :: l) 2 = n := byteAt_snd_ofNat h b l

section
variable {k : Kind} {i j : Nat} {s : State} (hi : i < 256) (hj : j < 256)
include hi hj

/-- R145: CAPTURE of a record within its range. -/
theorem captureBody_some {r : LiveRecord} (h : liveRecord s k i j = some r) (p : Port) :
    captureBody p [BitVec.ofNat 8 (kindCode k), BitVec.ofNat 8 i, BitVec.ofNat 8 j] s =
      .accept (setStage p (some (stageOf k i j r)) s)
        (bytes8 (kindCode k) ++ bytes8 i ++ bytes8 j ++ bytes16 r.rev.toNat ++ bytes8 (flagCode r.occupied)) := by
  simp only [captureBody, byteAt_cons_ofNat (kindCode_lt k), kindOf_kindCode, byteAt_snd_ofNat hi, byteAt_third_ofNat hj, h]

/-- R145: CAPTURE of a record out of its range. -/
theorem captureBody_none (h : liveRecord s k i j = none) (p : Port) :
    captureBody p [BitVec.ofNat 8 (kindCode k), BitVec.ofNat 8 i, BitVec.ofNat 8 j] s = .refuse .arg [] := by
  simp only [captureBody, byteAt_cons_ofNat (kindCode_lt k), kindOf_kindCode, byteAt_snd_ofNat hi, byteAt_third_ofNat hj, h]

end

/-! ### The fields of a live record bear no edit mark (R145) -/

/-- No field of the list bears an edit mark. -/
def Unedited (l : List StagedField) : Prop := ∀ f ∈ l, f.edited = false

theorem unedited_append {l m : List StagedField} : Unedited (l ++ m) ↔ Unedited l ∧ Unedited m := List.forall_mem_append

theorem unedited_one (id : Nat) (v : Option Nat) : Unedited (one id v) := by simp [Unedited, one]

theorem unedited_many (id : Nat) (vs : List (Option Nat)) : Unedited (many id vs) := by
  intro f hf
  obtain ⟨v, -, rfl⟩ := List.mem_map.mp hf
  rfl

theorem unedited_inks (id : Nat) (a : Inks) : Unedited (inks id a) := unedited_many _ _

theorem unedited_inks? (id : Nat) (a : Option Inks) : Unedited (inks? id a) := by
  cases a <;> exact unedited_many _ _

theorem unedited_orderFields (o : Option Order) : Unedited (orderFields o) := by
  simp [orderFields, unedited_append, unedited_one]

theorem unedited_lineFields (o : Option Order) (j : Nat) : Unedited (lineFields o j) := by
  simp [lineFields, unedited_append, unedited_one, unedited_inks?]

theorem unedited_travellerFields (t : Option Traveller) : Unedited (travellerFields t) := by
  simp [travellerFields, pretreatFields, pressFields, printFields, cureFields, unedited_append, unedited_one,
    unedited_many, unedited_inks?]

theorem unedited_engineFields (x : EngineRec) : Unedited (engineFields x) := by
  simp [engineFields, unedited_append, unedited_one, unedited_inks]

theorem unedited_ringFields (s : State) (k : Fin 12) : Unedited (ringFields s k) := by
  simp [ringFields, unedited_append, unedited_one]

theorem unedited_gaugeFields (g : Gauge) : Unedited (gaugeFields g) := by
  simp [gaugeFields, unedited_append, unedited_one]

theorem unedited_tunnelFields (s : State) : Unedited (tunnelFields s) := by
  simp [tunnelFields, unedited_append, unedited_one, unedited_many]

theorem unedited_fabricFields (f : FabricClass) : Unedited (fabricFields f) := by
  simp [fabricFields, unedited_append, unedited_one]

theorem unedited_constantsFields (c : Constants) : Unedited (constantsFields c) := by
  unfold constantsFields
  simp only [unedited_append, unedited_one, unedited_inks, and_self]

/-- No field of the record, if there is one, bears an edit mark. -/
def RecordUnedited (o : Option LiveRecord) : Prop := ∀ r : LiveRecord, o = some r → Unedited r.fields

theorem recordUnedited_some {r : LiveRecord} (h : Unedited r.fields) : RecordUnedited (some r) := fun _ hr => by
  cases hr
  exact h

theorem recordUnedited_if {c : Prop} [Decidable c] {a b : Option LiveRecord} (ha : RecordUnedited a)
    (hb : RecordUnedited b) : RecordUnedited (if c then a else b) := by split <;> assumption

theorem recordUnedited_none : RecordUnedited none := fun _ h => nomatch h

theorem recordUnedited_map {n i : Nat} {f : Fin n → LiveRecord} (h : ∀ x, Unedited (f x).fields) :
    RecordUnedited ((fin? n i).map f) := by
  cases fin? n i with
  | none => exact recordUnedited_none
  | some x => exact recordUnedited_some (h x)

theorem recordUnedited_liveRecord (s : State) (k : Kind) (i j : Nat) : RecordUnedited (liveRecord s k i j) := by
  cases k with
  | order => exact recordUnedited_if recordUnedited_none (recordUnedited_map fun _ => unedited_orderFields _)
  | line => exact recordUnedited_if (recordUnedited_map fun _ => unedited_lineFields _ _) recordUnedited_none
  | traveller => exact recordUnedited_if recordUnedited_none (recordUnedited_map fun _ => unedited_travellerFields _)
  | engine => exact recordUnedited_if recordUnedited_none (recordUnedited_map fun _ => unedited_engineFields _)
  | ring => exact recordUnedited_if recordUnedited_none (recordUnedited_map fun _ => unedited_ringFields _ _)
  | gauge =>
    exact recordUnedited_if recordUnedited_none
      (recordUnedited_if (recordUnedited_some (unedited_gaugeFields _)) recordUnedited_none)
  | tunnel =>
    exact recordUnedited_if recordUnedited_none
      (recordUnedited_if (recordUnedited_some (unedited_tunnelFields _)) recordUnedited_none)
  | fabric => exact recordUnedited_if recordUnedited_none (recordUnedited_map fun _ => unedited_fabricFields _)
  | constants =>
    exact recordUnedited_if recordUnedited_none
      (recordUnedited_if (recordUnedited_some (unedited_constantsFields _)) recordUnedited_none)

/-- Settles O7: by whether the record lies within its range. -/
theorem captureFillsStage : Obligations.CaptureFillsStage := by
  intro p k i j s hi hj
  split
  · rename_i r hr
    obtain ⟨hkeeps, hports⟩ := command_staged rfl
      (captureBody_some hi hj ((liveRecord_endFrame p _ _ s k i j).trans hr) p)
    exact ⟨_, rfl, hkeeps, hports, recordUnedited_liveRecord s k i j r hr⟩
  · rename_i hr
    exact congrArg Host.Outcome.next (command_rejected (mem_allPorts p) (DiscreteLines.mem_anyMode s) rfl
      (captureBody_none hi hj ((liveRecord_endFrame p _ _ s k i j).trans hr) p))

/-! ### An element of a stage (R146, R147) -/

/-- R147: one field after an edit of an element. -/
def markEdited (id element v : Nat) (f : StagedField) : StagedField :=
  if f.id = id ∧ f.element = element then { f with value := some v, edited := true } else f

/-- An edit moves no field to another place, so the search for an element finds the same one. -/
theorem find?_editField (id element v id' e' : Nat) (g : Staged) :
    ((editField id element v g).fields.find? fun f => f.id = id' && f.element = e') =
      (g.fields.find? fun f => f.id = id' && f.element = e').map (markEdited id element v) := by
  have hplace : (fun f : StagedField => decide (f.id = id') && decide (f.element = e')) ∘ markEdited id element v =
      fun f => decide (f.id = id') && decide (f.element = e') := by
    funext f
    simp only [Function.comp_apply, markEdited]
    split <;> rfl
  have hfields : (editField id element v g).fields = g.fields.map (markEdited id element v) := rfl
  rw [hfields, List.find?_map, hplace]

theorem stagedField_editField_same {g : Staged} {id element v : Nat} (h : ∃ f ∈ g.fields, f.id = id ∧ f.element = element) :
    stagedField (editField id element v g) id element = ⟨id, element, some v, true⟩ := by
  obtain ⟨f, hf⟩ : ∃ f, (g.fields.find? fun f => f.id = id && f.element = element) = some f :=
    Option.isSome_iff_exists.mp (List.find?_isSome.mpr (by simpa using h))
  obtain ⟨rfl, rfl⟩ : f.id = id ∧ f.element = element := by simpa using List.find?_some hf
  rw [stagedField, find?_editField, hf]
  simp [markEdited]

theorem stagedField_editField_ne {g : Staged} {id element v id' e' : Nat} (h : (id', e') ≠ (id, element)) :
    stagedField (editField id element v g) id' e' = stagedField g id' e' := by
  rw [stagedField, stagedField, find?_editField]
  cases hf : (g.fields.find? fun f => f.id = id' && f.element = e') with
  | none => rfl
  | some f =>
    obtain ⟨rfl, rfl⟩ : f.id = id' ∧ f.element = e' := by simpa using List.find?_some hf
    exact if_neg fun hplace => h (Prod.ext hplace.1 hplace.2)

/-- R163: the marks byte. -/
theorem marksOf_eq (f : StagedField) :
    marksOf f = (if f.value = none then 1 else 0) + (if f.edited = true then 2 else 0) := by
  obtain ⟨id, element, _ | v, _ | _⟩ := f <;> rfl

section
variable {p : Port} {id element : Nat} {g : Staged} {s : State} (hid : id < 256) (hel : element < 256)
  (hg : (s.port p).stage = some g) (hex : fieldExists g.kind id element = true)
include hid hel hg hex

/-- R146: READ_STAGE of an element that the kind has. -/
theorem readStageBody_eq : readStageBody p [BitVec.ofNat 8 id, BitVec.ofNat 8 element] s =
    .accept s (bytes8 ((if (stagedField g id element).value = none then 1 else 0) +
      (if (stagedField g id element).edited = true then 2 else 0)) ++ bytes32 ((stagedField g id element).value.getD 0)) := by
  simp only [readStageBody, hg, byteAt_cons_ofNat hid, byteAt_snd_ofNat hel, hex, marksOf_eq]
  rfl

/-- R147: EDIT_STAGE of an element that the kind has, by whether the field is editable and the value in its range. -/
theorem editStageBody_eq {v : Nat} (hv : v < 2 ^ 32) :
    editStageBody p ([BitVec.ofNat 8 id, BitVec.ofNat 8 element] ++ bytes32 v) s =
      if editAllowed g.kind id v = false then .refuse .arg []
      else .accept (setStage p (some (editField id element v g)) s) [] := by
  have hvalue : u32At ([BitVec.ofNat 8 id, BitVec.ofNat 8 element] ++ bytes32 v) 2 = v := by
    simpa using u32At_ofNat hv [BitVec.ofNat 8 id, BitVec.ofNat 8 element] []
  have hfirst : byteAt ([BitVec.ofNat 8 id, BitVec.ofNat 8 element] ++ bytes32 v) 0 = id := byteAt_cons_ofNat hid _
  have hsecond : byteAt ([BitVec.ofNat 8 id, BitVec.ofNat 8 element] ++ bytes32 v) 1 = element := byteAt_snd_ofNat hel _ _
  simp only [editStageBody, hg, hfirst, hsecond, hvalue, hex]
  rfl

end

/-- Settles O8: the three commands by their bodies. -/
theorem stageReadAndEdited : Obligations.StageReadAndEdited := by
  have hstage {p : Port} {g : Staged} {s : State} (n : Nat) (h : (s.port p).stage = some g) :
      ((endFrame p n false s).port p).stage = some g := by rw [port_endFrame_eq]; exact h
  refine ⟨fun p id element g s hid hel hg hex => ?_, fun p id element v g s hid hel hv hg hex => ⟨fun hok hin => ?_, fun hbad => ?_⟩⟩
  · exact ⟨_, congrArg Host.Outcome.next (command_taken (mem_allPorts p) (DiscreteLines.mem_anyMode s) rfl
      (readStageBody_eq hid hel (hstage _ hg) hex)), keeps_taken (by simp) (keeps_refl _ _) (serialsKept_of_table rfl),
      accepted_ports rfl⟩
  · have hbody := (editStageBody_eq hid hel (hstage 8 hg) hex hv).trans (if_neg (by simp [hok]))
    obtain ⟨hkeeps, hports⟩ :=
      command_staged (code := 0x04) (l := [BitVec.ofNat 8 id, BitVec.ofNat 8 element] ++ bytes32 v) rfl hbody
    have hport := port_of_answered hports
    exact ⟨_, rfl, hkeeps, fun q hq => port_of_answered_ne hports hq, congrArg PortState.holder hport,
      editField id element v g, congrArg PortState.stage hport, rfl, rfl, rfl, rfl, stagedField_editField_same hin,
      fun id' e' hne => stagedField_editField_ne hne⟩
  · exact congrArg Host.Outcome.next (command_rejected (mem_allPorts p) (DiscreteLines.mem_anyMode s) rfl
      ((editStageBody_eq hid hel (hstage _ hg) hex hv).trans (if_pos hbad)))

end Sys2Proof.StationPorts
end

