-- ==== Sys2Proof/Proofs/StationPorts/Configuration.lean ====
section
/-! PROOF. What the ranges of O57 read of a state, and the operations that leave that reading alone. -/

namespace Sys2Proof.StationPorts

open Sys2Proof Sys2Proof.Machine Sys2Proof.PlatenRing

/-! ### What the ranges read -/

/-- What `ConfigurationInRange` reads of a state: the constants, the fabric classes and the stages of the ports. -/
def configView (s : State) : Constants × Tab FabricSlot 8 × (Port → Option Staged) :=
  (s.constants, s.setup.fabrics, fun p => (s.port p).stage)

theorem inRange_congr {s t : State} (h : configView t = configView s) (hs : ConfigurationInRange s) :
    ConfigurationInRange t := by
  simp only [configView, Prod.mk.injEq] at h
  obtain ⟨hconstants, hfabrics, hstages⟩ := h
  refine ⟨by rw [hconstants]; exact hs.1, by rw [hfabrics]; exact hs.2.1, fun p g hg => hs.2.2 p g ?_⟩
  rw [← hg]
  exact (congrFun hstages p).symm

/-- What no part of an index or of a RESUME touches holds the whole reading. -/
theorem configView_of_leaves {s t : State} (h : Leaves s t) : configView t = configView s := by
  have hfabrics : t.setup.fabrics = s.setup.fabrics := by rw [h.setup]
  simp [configView, h.constants, hfabrics, State.port, h.ports]

/-- A port rewritten with its stage kept. -/
theorem configView_modPort {p : Port} {f : PortState → PortState} {s : State}
    (h : (f (s.port p)).stage = (s.port p).stage) : configView (modPort p f s) = configView s := by
  have hstages : (fun q => ((modPort p f s).port q).stage) = fun q => (s.port q).stage := by
    funext q
    rw [port_modPort]
    split
    · rename_i hq
      rw [h, hq]
    · rfl
  simp only [configView, hstages]
  rfl

@[simp] theorem configView_endFrame (p : Port) (n : Nat) (b : Bool) (s : State) :
    configView (endFrame p n b s) = configView s := configView_modPort rfl

@[simp] theorem configView_respond (p : Port) (code : Byte) (st : Status) (data : List Byte) (s : State) :
    configView (respond p code st data s) = configView s := configView_modPort rfl

theorem configView_busTick (s : State) : configView (busTick s) = configView s := by
  simp only [configView, busTick_port, movedPort_stage]
  rfl

/-! ### Operations that leave the reading alone: the shared ones -/

section
variable (s : State)

@[simp] theorem configView_setRing (x : Ring) : configView (s.setRing x) = configView s := rfl
@[simp] theorem configView_setTunnel (x : Tunnel) : configView (s.setTunnel x) = configView s := rfl
@[simp] theorem configView_raise (p : Port) (x : Source) : configView (raise p x s) = configView s := rfl
@[simp] theorem configView_putOrder (k : Fin 64) (o : Option Order) : configView (putOrder k o s) = configView s := rfl
@[simp] theorem configView_putTrav (i : Fin 32) (v : Option Traveller) : configView (putTrav i v s) = configView s := rfl
@[simp] theorem configView_modEngine (e : Engine) (f : EngineRec → EngineRec) :
    configView (modEngine e f s) = configView s := rfl

@[simp] theorem configView_dropClaims : configView (dropClaims s) = configView s := rfl
@[simp] theorem configView_clearLapses : configView (clearLapses s) = configView s := rfl
@[simp] theorem configView_setMode (m : Mode) : configView (setMode m s) = configView s := rfl
@[simp] theorem configView_advanceUnchangedRing (u : State) : configView (advanceUnchangedRing u s) = configView s := rfl

@[simp] theorem configView_raiseOn (ps : List Port) (x : Source) : configView (raiseOn ps x s) = configView s :=
  foldl_keep configView (fun s p => configView_raise s p x) ps s

@[simp] theorem configView_modTrav (i : Fin 32) (f : Traveller → Traveller) : configView (modTrav i f s) = configView s := by
  unfold modTrav; split <;> rfl

@[simp] theorem configView_modPretreat (i : Fin 32) (f : Pretreat → Pretreat) :
    configView (modPretreat i f s) = configView s := configView_modTrav s i _

@[simp] theorem configView_returnToService (e : Engine) (f : EngineRec → EngineRec) :
    configView (returnToService e f s) = configView s := by rw [returnToService_eq]; rfl

@[simp] theorem configView_startEngine (e : Engine) : configView (startEngine e s) = configView s := by
  rw [startEngine_eq]; rfl

@[simp] theorem configView_attempt (e : Engine) : configView (attempt e s) = configView s :=
  configView_of_leaves (leaves_attempt e s)

end

/-! ### Orders, closures and the tunnel -/

section
variable (s : State)

theorem configView_markOrphans (k : Fin 64) : configView (markOrphans k s) = configView s :=
  foldl_keep configView (fun s i => configView_modTrav s i _) _ s

theorem configView_bindLine (k : Fin 64) (j : Fin 8) : configView (bindLine k j s) = configView s := by
  unfold bindLine; split <;> rfl

@[simp] theorem configView_freeIfCancelled (k : Fin 64) : configView (freeIfCancelled k s) = configView s := by
  unfold freeIfCancelled; split
  · rfl
  · split <;> rfl

@[simp] theorem configView_countPack (k : Fin 64) (j : Fin 8) : configView (countPack k j s) = configView s := by
  unfold countPack; split
  · rfl
  · dsimp only; split <;> rfl

@[simp] theorem configView_countBack (k : Fin 64) (j : Fin 8) : configView (countBack k j s) = configView s := by
  unfold countBack; split <;> simp

@[simp] theorem configView_countScrap (k : Fin 64) (j : Fin 8) : configView (countScrap k j s) = configView s := by
  unfold countScrap; split
  · rfl
  · dsimp only; split <;> simp

@[simp] theorem configView_countSalvaged (k : Fin 64) (j : Fin 8) : configView (countSalvaged k j s) = configView s := by
  unfold countSalvaged; split
  · rfl
  · dsimp only; split <;> rfl

@[simp] theorem configView_joinExit (x : ExitEntry) : configView (joinExit x s) = configView s := by
  unfold joinExit; split <;> rfl

@[simp] theorem configView_emptyPlaten (t : Traveller) : configView (emptyPlaten t s) = configView s := by
  unfold emptyPlaten; split <;> rfl

/-- A closure does to the reading what its counting does. -/
theorem configView_close {i : Fin 32} {t : Traveller} {d : Disposition} {b : Bool} {v : Option CureVerdict}
    {count : State → State} (h : configView (count s) = configView s) : configView (close i t d b v count s) = configView s := by
  simp [close, h]

theorem configView_closeScrap (i : Fin 32) (t : Traveller) (v : Option CureVerdict) :
    configView (closeScrap i t v s) = configView s := configView_close s (by simp)

theorem configView_closeReturn (i : Fin 32) (t : Traveller) : configView (closeReturn i t s) = configView s :=
  configView_close s (by simp)

@[simp] theorem configView_closeAllLost : configView (closeAllLost s) = configView s :=
  foldl_keep configView (fun s i => by
    split
    · exact configView_close s (by simp)
    · rfl) _ s

theorem configView_closeCuredOrphan (i : Fin 32) (t : Traveller) : configView (closeCuredOrphan i t s) = configView s := by
  unfold closeCuredOrphan; split <;> exact configView_close s (by simp)

theorem configView_closeAtExit (i : Fin 32) (t : Traveller) (v : CureVerdict) :
    configView (closeAtExit i t v s) = configView s := by
  cases v with
  | cured =>
    unfold closeAtExit; dsimp only; split
    · exact configView_closeCuredOrphan s i t
    · exact configView_close s (by simp)
  | scorched | underCured => exact configView_closeScrap s i t _

theorem configView_exitHead : configView (exitHead s) = configView s := by
  unfold exitHead; split
  · rfl
  · dsimp only; split
    · rfl
    · split
      · rfl
      · exact configView_closeAtExit _ _ _ _

theorem configView_pulse : configView (pulse s) = configView s := by
  unfold pulse; dsimp only; split
  · exact configView_exitHead _
  · rfl

theorem configView_staleExpiry : configView (staleExpiry s) = configView s := by
  unfold staleExpiry; split <;> rfl

theorem configView_sampleExpiry : configView (sampleExpiry s) = configView s := by
  unfold sampleExpiry; split
  · exact foldl_keep configView (fun s q => configView_modTrav s _ _) _ s
  · rfl

end

/-! ### Engines -/

section
variable (e : Engine) (s : State)

theorem configView_printStart (a : Awaiting) : configView (printStart e a s) = configView s := configView_modTrav _ _ _

theorem configView_claimWindowExpiry : configView (claimWindowExpiry e s) = configView s := by
  unfold claimWindowExpiry; split <;> simp [withdrawTraveller, setLapse, setAwaiting]

theorem configView_inkReported (levels : Inks) : configView (inkReported e levels s) = configView s := by
  unfold inkReported; dsimp only; split <;> rfl

theorem configView_settle (i : Fin 32) (good : Bool) (act : Inks) : configView (settle e i good act s) = configView s :=
  (configView_modTrav _ _ _).trans (configView_returnToService s e _)

theorem configView_faultPrinting (i : Fin 32) : configView (faultPrinting e i s) = configView s :=
  (configView_modTrav _ _ _).trans (configView_modTrav _ _ _)

theorem configView_faultAssigned (i : Fin 32) : configView (faultAssigned e i s) = configView s := configView_modTrav _ _ _

end

/-! ### Spray and gauge passes -/

section
variable (s : State)

theorem configView_sprayEnd (p : SprayPass) (n : Nat) : configView (sprayEnd p n s) = configView s :=
  configView_modPretreat s _ _

theorem configView_sprayCut (c : FaultCode) (p : SprayPass) : configView (sprayCut c p s) = configView s :=
  (configView_modTrav _ _ _).trans (configView_modPretreat s _ _)

theorem configView_gaugeFail (e : GaugeEnd) (c : FaultCode) (i : Fin 32) (n m : Nat) :
    configView (gaugeFail e c i n m s) = configView s := configView_modTrav s _ _

theorem configView_dryEnd (i : Fin 32) (n : Nat) : configView (dryEnd i n s) = configView s := configView_modPretreat s _ _

theorem configView_wetEnd (i : Fin 32) (m : Nat) : configView (wetEnd i m s) = configView s := by
  unfold wetEnd; split
  · rfl
  · split <;> rfl

theorem configView_strokeActivePhase : configView (strokeActivePhase s) = configView s := by
  unfold strokeActivePhase; split
  · split <;> rfl
  · rfl

theorem configView_strokeDelivered : configView (strokeDelivered s) = configView s := by
  unfold strokeDelivered; split
  · split
    · split
      · rfl
      · exact configView_sprayEnd s _ _
    · rfl
  · rfl

theorem configView_pumpFaultEdge : configView (pumpFaultEdge s) = configView s := by
  unfold pumpFaultEdge; split
  · exact configView_sprayCut s _ _
  · rfl

theorem configView_oscEdge (e : Side) : configView (oscEdge e s) = configView s := by
  unfold oscEdge; split
  · rfl
  · split
    · rfl
    · split
      · split
        · rfl
        · exact configView_dryEnd s _ _
      · split
        · rfl
        · exact configView_gaugeFail s _ _ _ _ _

theorem configView_tick : configView (tick s) = configView s := by
  unfold tick; split
  · rfl
  · split
    · split
      · rfl
      · exact configView_gaugeFail s _ _ _ _ _
    · split
      · rfl
      · exact configView_wetEnd s _ _

@[simp] theorem configView_stopPass : configView (stopPass s) = configView s := by
  unfold stopPass; split
  · exact configView_sprayCut s _ _
  · split
    · exact configView_gaugeFail s _ _ _ _ _
    · rfl

/-! ### The ring and the lines -/

theorem configView_enterHold : configView (enterHold s) = configView s := by simp [enterHold]

theorem configView_forcedHandling : configView (forcedHandling s) = configView s := by
  rw [forcedHandling_eq, configView_raiseOn, configView_dropClaims, configView_of_leaves (leaves_undoAll _ _),
    configView_stopPass, configView_of_leaves (leaves_faulted s)]

theorem configView_homeCheck : configView (homeCheck s) = configView s := by
  unfold homeCheck ringSlip; split
  · rfl
  · dsimp only; split
    · exact configView_enterHold _
    · rfl

theorem configView_takeIndex : configView (takeIndex s) = configView s := by
  have hsettled : configView (if s.permit then s else forcedHandling s) = configView s := by
    split
    · rfl
    · exact configView_forcedHandling s
  unfold takeIndex; split
  · rfl
  · rw [configView_of_leaves (leaves_countLap _), configView_of_leaves (arrivalsBase _).leaves, configView_homeCheck,
      configView_of_leaves (rotateFrame _).leaves, hsettled]

theorem configView_deliver (f : LineFunction) (level : Bool) : configView (deliver f level s) = configView s := by
  unfold deliver
  split
  · exact configView_takeIndex s
  · exact configView_pumpFaultEdge s
  · rfl
  · exact configView_pulse s
  · exact configView_oscEdge s _
  · exact configView_oscEdge s _
  all_goals rfl

theorem configView_functionEdge (f : LineFunction) (level : Bool) : configView (functionEdge f level s) = configView s := by
  unfold functionEdge; split
  · exact configView_deliver _ f level
  · rfl

theorem configView_filterElapsed (l : Fin 24) : configView (filterElapsed l s) = configView s := by
  unfold filterElapsed; split
  · rfl
  · exact configView_deliver _ _ _

theorem configView_followPin (l : Fin 24) (was : Bool) : configView (followPin l was s) = configView s := by
  unfold followPin; split
  · exact configView_deliver _ _ _
  · rfl

theorem configView_latchAfterAssign (l : Fin 24) (f : LineFunction) :
    configView (latchAfterAssign l f s) = configView s := by
  unfold latchAfterAssign; split
  · split <;> rfl
  · split <;> rfl

/-! ### Modes -/

theorem configView_started (p : Fin 12) : configView (started p s) = configView s :=
  (configView_startEngine _ _).trans (configView_startEngine _ _)

theorem configView_realign (p : Fin 12) : configView (realign p s) = configView s := by
  rw [realign_eq, configView_of_leaves (alignFrame p _).leaves]
  split
  · rfl
  · exact configView_forcedHandling s

theorem configView_resumed (p : Fin 12) : configView (resumed p s) = configView s := by
  rw [resumed, configView_advanceUnchangedRing, configView_of_leaves (arrivalsBase _).leaves, configView_realign,
    configView_setMode]

theorem configView_lineReset : configView (lineResetState s) = configView s := by simp [lineResetState]

end

end Sys2Proof.StationPorts
end

