-- ==== Sys2Proof/Proofs/StationPorts/ConfigRange.lean ====
section
/-! PROOF. The configuration stays within its ranges (O57): captures, edits and updates, then every command in turn. -/

namespace Sys2Proof.StationPorts

open Sys2Proof Sys2Proof.Machine Sys2Proof.PlatenRing Sys2Proof.Pretreatment

/-! ### The constants, field by field (Table 11-2, R147) -/

/-- Every field of the constants record holds a value that an edit may give it; the zone ends are not compared. -/
structure FieldsAllowed (c : Constants) : Prop where
  lapLimit : editAllowed .constants 0x90 c.lapLimit = true
  reprintLimit : editAllowed .constants 0x91 c.reprintLimit = true
  claimWindow : editAllowed .constants 0x92 c.claimWindow = true
  gaugeWindow : editAllowed .constants 0x93 c.gaugeWindow = true
  tickDivider : editAllowed .constants 0x94 c.tickDivider = true
  tolerance : editAllowed .constants 0x95 c.tolerance = true
  topUpLimit : editAllowed .constants 0x96 c.topUpLimit = true
  strokeMass : editAllowed .constants 0x97 c.strokeMass = true
  strokeRate : editAllowed .constants 0x98 c.strokeRate = true
  kink : c.kink.toList.all (editAllowed .constants 0x99) = true
  onset : editAllowed .constants 0x9A c.onset = true
  samplePeriod : editAllowed .constants 0x9B c.samplePeriod = true
  staleLimit : editAllowed .constants 0x9C c.staleLimit = true
  beltLength : editAllowed .constants 0x9D c.beltLength = true
  zoneEnd1 : editAllowed .constants 0x9E c.zoneEnd1 = true
  zoneEnd2 : editAllowed .constants 0x9F c.zoneEnd2 = true
  spacing : editAllowed .constants 0xA0 c.spacing = true
  kw : editAllowed .constants 0xA1 c.kw = true
  kc : editAllowed .constants 0xA2 c.kc = true
  kd : editAllowed .constants 0xA3 c.kd = true
  cleanInterval : editAllowed .constants 0xA4 c.cleanInterval = true

/-- Table 11-2: the ranges of the fields, and the zone ends in order. -/
theorem constantsInRange_iff (c : Constants) : constantsInRange c = true ↔
    FieldsAllowed c ∧ c.zoneEnd1 < c.zoneEnd2 ∧ c.zoneEnd2 < c.beltLength := by
  simp only [constantsInRange, Bool.and_eq_true, decide_eq_true_eq, and_assoc]
  exact ⟨fun ⟨lapLimit, reprintLimit, claimWindow, gaugeWindow, tickDivider, tolerance, topUpLimit, strokeMass, strokeRate,
    kink, onset, samplePeriod, staleLimit, beltLength, zoneEnd1, zoneEnd2, hz1, hz2, spacing, kw, kc, kd,
    cleanInterval⟩ => ⟨⟨lapLimit, reprintLimit, claimWindow, gaugeWindow, tickDivider, tolerance, topUpLimit,
    strokeMass, strokeRate, kink, onset, samplePeriod, staleLimit, beltLength, zoneEnd1, zoneEnd2, spacing, kw, kc,
    kd, cleanInterval⟩, hz1, hz2⟩,
    fun ⟨h, hz1, hz2⟩ => ⟨h.lapLimit, h.reprintLimit, h.claimWindow, h.gaugeWindow, h.tickDivider, h.tolerance,
    h.topUpLimit, h.strokeMass, h.strokeRate, h.kink, h.onset, h.samplePeriod, h.staleLimit, h.beltLength, h.zoneEnd1,
    h.zoneEnd2, hz1, hz2, h.spacing, h.kw, h.kc, h.kd, h.cleanInterval⟩⟩

theorem all_setInk {a : Inks} {P : Nat → Bool} (h : a.toList.all P = true) {v : Nat} (hv : P v = true) (k : Nat) :
    (setInk a k v).toList.all P = true := by
  unfold setInk
  split <;> simp_all [Inks.toList]

/-- An edit within its range keeps every field of the constants within its range. -/
theorem fieldsAllowed_editConstants {c : Constants} (h : FieldsAllowed c) {e : Nat × Nat × Nat}
    (hv : editAllowed .constants e.1 e.2.2 = true) : FieldsAllowed (editConstants c e) := by
  unfold editConstants
  split
  · exact { h with lapLimit := hv }
  · exact { h with reprintLimit := hv }
  · exact { h with claimWindow := hv }
  · exact { h with gaugeWindow := hv }
  · exact { h with tickDivider := hv }
  · exact { h with tolerance := hv }
  · exact { h with topUpLimit := hv }
  · exact { h with strokeMass := hv }
  · exact { h with strokeRate := hv }
  · exact { h with kink := all_setInk h.kink hv _ }
  · exact { h with onset := hv }
  · exact { h with samplePeriod := hv }
  · exact { h with staleLimit := hv }
  · exact { h with beltLength := hv }
  · exact { h with zoneEnd1 := hv }
  · exact { h with zoneEnd2 := hv }
  · exact { h with spacing := hv }
  · exact { h with kw := hv }
  · exact { h with kc := hv }
  · exact { h with kd := hv }
  · exact { h with cleanInterval := hv }
  · exact h

theorem fieldsAllowed_edited {c : Constants} (h : FieldsAllowed c) {es : List (Nat × Nat × Nat)}
    (hes : ∀ e ∈ es, editAllowed .constants e.1 e.2.2 = true) : FieldsAllowed (es.foldl editConstants c) := by
  induction es generalizing c with
  | nil => exact h
  | cons e es ih =>
    obtain ⟨he, hes⟩ := List.forall_mem_cons.mp hes
    exact ih (fieldsAllowed_editConstants h he) hes

/-! ### Stages (R145, R147) -/

/-- Every edited element of a stage within its ranges holds a value that may be written. -/
theorem editAllowed_of_mem_edits {g : Staged} (h : stageInRange g) {e : Nat × Nat × Nat} (he : e ∈ edits g) :
    editAllowed g.kind e.1 e.2.2 = true := by
  obtain ⟨f, hf, hfe⟩ := List.mem_filterMap.mp he
  split at hfe
  · rename_i hedited
    obtain ⟨v, hv, hallowed⟩ := h f hf hedited
    rw [hv] at hfe
    cases hfe
    exact hallowed
  · cases hfe

/-- R145: a capture bears no edit mark. -/
theorem stageInRange_stageOf {s : State} {k : Kind} {i j : Nat} {r : LiveRecord} (h : liveRecord s k i j = some r) :
    stageInRange (stageOf k i j r) := by
  have hfields : Unedited (stageOf k i j r).fields :=
    unedited_append.mpr ⟨unedited_one _ _, recordUnedited_liveRecord s k i j r h⟩
  exact fun f hf hedited => by simp [hfields f hf] at hedited

/-- R147: an edit that its kind allows. -/
theorem stageInRange_editField {g : Staged} (h : stageInRange g) {id element v : Nat}
    (hv : editAllowed g.kind id v = true) : stageInRange (editField id element v g) := by
  intro f hf hedited
  obtain ⟨x, hx, rfl⟩ := List.mem_map.mp hf
  split
  · rename_i hplace
    exact ⟨v, rfl, by rw [← hplace.1] at hv; exact hv⟩
  · rename_i hplace
    rw [if_neg hplace] at hedited
    exact h x hx hedited

/-- A stage within its ranges goes into a port. -/
theorem inRange_setStage {s : State} (hs : ConfigurationInRange s) {g : Staged} (hg : stageInRange g) (p : Port) :
    ConfigurationInRange (setStage p (some g) s) := by
  refine ⟨hs.1, hs.2.1, fun q g' hq => ?_⟩
  rw [setStage, port_modPort] at hq
  split at hq
  · cases hq
    exact hg
  · exact hs.2.2 q g' hq

/-! ### Writing back (R148, R149) -/

section
variable {s : State} {g : Staged} (hs : ConfigurationInRange s) (hg : stageInRange g)
include hs

/-- R148: a fabric class record written back is checked against its ranges when it is valid. -/
theorem inRange_setFabric {n : Fin 8} {f : FabricClass} {r : Rev} (hf : ¬ (f.valid = true ∧ fabricInRange f = false)) :
    ConfigurationInRange (s.setSetup { s.setup with fabrics := s.setup.fabrics.set n ⟨f, r⟩ }) := by
  refine ⟨hs.1, fun k hk => ?_, hs.2.2⟩
  rw [setSetup_setup, Tab.get_set] at hk ⊢
  split at hk
  · rename_i hkn
    rw [if_pos hkn]
    exact (Bool.not_eq_false _).mp fun hfalse => hf ⟨hk, hfalse⟩
  · rename_i hkn
    rw [if_neg hkn]
    exact hs.2.1 k hk

/-- R148: constants written back keep their fields in range, and the zone ends are checked. -/
theorem inRange_setConstants {c : Constants} (hc : FieldsAllowed c) (hz : zonesInOrder c = true) :
    ConfigurationInRange (s.setSetup { s.setup with constants := c, constantsRev := s.setup.constantsRev + 1 }) := by
  simp only [zonesInOrder, Bool.and_eq_true, decide_eq_true_eq] at hz
  exact ⟨(constantsInRange_iff c).mpr ⟨hc, hz.1.2, hz.2⟩, hs.2.1, hs.2.2⟩

include hg

theorem writeBack_inRange : Accepts ConfigurationInRange (writeBack g s) := by
  unfold writeBack; split
  · split
    · trivial
    · dsimp only; split
      · trivial
      · exact inRange_congr rfl hs
  · split
    · trivial
    · exact accepts_refuseIf fun hf => inRange_setFabric hs hf
  · rename_i hkind
    have hfields : FieldsAllowed ((edits g).foldl editConstants s.constants) :=
      fieldsAllowed_edited ((constantsInRange_iff _).mp hs.1).1 fun e he => hkind ▸ editAllowed_of_mem_edits hg he
    exact accepts_refuseIf fun hz => inRange_setConstants hs hfields (by simpa using hz)
  all_goals trivial

end

/-! ### The commands of the record window -/

section
variable {s : State} (hs : ConfigurationInRange s)
include hs

theorem captureBody_inRange (p : Port) (l : List Byte) : Accepts ConfigurationInRange (captureBody p l s) := by
  unfold captureBody; split
  · trivial
  · split
    · trivial
    · rename_i hr
      exact inRange_setStage hs (stageInRange_stageOf hr) p

theorem readStageBody_inRange (p : Port) (l : List Byte) : Accepts ConfigurationInRange (readStageBody p l s) := by
  unfold readStageBody; split
  · trivial
  · exact accepts_refuseIf fun _ => hs

theorem editStageBody_inRange (p : Port) (l : List Byte) : Accepts ConfigurationInRange (editStageBody p l s) := by
  unfold editStageBody; split
  · trivial
  · rename_i g hg
    refine accepts_refuseIf fun _ => accepts_refuseIf fun hallowed => ?_
    exact inRange_setStage hs (stageInRange_editField (hs.2.2 p g hg) (by simpa using hallowed)) p

theorem refreshStage_inRange (p : Port) (g : Staged) : Accepts ConfigurationInRange (refreshStage p g s) := by
  unfold refreshStage; split
  · rename_i hr
    exact inRange_setStage hs (stageInRange_stageOf hr) p
  · trivial

theorem updateBody_inRange (p : Port) : Accepts ConfigurationInRange (updateBody p s) := by
  unfold updateBody; split
  · trivial
  · rename_i g hg
    refine accepts_refuseIf fun _ => accepts_refuseIf fun _ => accepts_refuseIf fun _ => accepts_refuseIf fun _ => ?_
    have hwritten := writeBack_inRange hs (hs.2.2 p g hg)
    split
    · trivial
    · rename_i hu
      rw [hu] at hwritten
      exact refreshStage_inRange hwritten p g

end

/-! ### The commands that leave the reading alone -/

/-- The answer leaves what the ranges read as it was. -/
abbrev KeepsView (s : State) : Answer → Prop := Accepts fun t => configView t = configView s

section
variable (p : Port) (l : List Byte) (e : Engine) (s : State)

theorem clearNoticesBody_keepsView : KeepsView s (clearNoticesBody p l s) := accepts_refuseIf fun _ => rfl

theorem setEnablesBody_keepsView : KeepsView s (setEnablesBody p l s) := by
  refine accepts_refuseIf fun _ => ?_
  split <;> trivial

theorem placeOrderBody_keepsView : KeepsView s (placeOrderBody l s) := by
  unfold placeOrderBody; split
  · trivial
  · refine accepts_refuseIf fun _ => ?_
    split <;> trivial

theorem cancelOrderBody_keepsView : KeepsView s (cancelOrderBody l s) := by
  unfold cancelOrderBody; split
  · trivial
  · split
    · trivial
    · split
      · trivial
      · exact configView_putOrder s _ _
      · exact configView_putOrder s _ _
      · exact configView_markOrphans _ _

theorem releaseOrderBody_keepsView : KeepsView s (releaseOrderBody l s) := by
  unfold releaseOrderBody; split
  · trivial
  · split
    · trivial
    · exact accepts_refuseIf fun _ => rfl

theorem startBody_keepsView : KeepsView s (startBody l s) := by
  unfold startBody; split
  · trivial
  · split
    · trivial
    · exact accepts_refuseIf fun _ => configView_started s _

theorem stopBody_keepsView : KeepsView s (stopBody s) := accepts_refuseIf fun _ => rfl

theorem holdBody_keepsView : KeepsView s (holdBody s) := by
  change configView (if s.mode = .run then enterHold s else s) = configView s
  split
  · exact configView_enterHold s
  · rfl

theorem resumeBody_keepsView : KeepsView s (resumeBody l s) := by
  unfold resumeBody; split
  · trivial
  · exact configView_resumed s _

theorem lineAssignBody_keepsView : KeepsView s (lineAssignBody l s) := by
  unfold lineAssignBody; split
  · exact configView_latchAfterAssign _ _ _
  · trivial

theorem lineConfigBody_keepsView : KeepsView s (lineConfigBody l s) := by
  unfold lineConfigBody; split
  · exact accepts_refuseIf fun _ => configView_followPin _ _ _
  · trivial

theorem claimBody_keepsView : KeepsView s (claimBody p l s) := by
  unfold claimBody; split
  · refine accepts_refuseIf fun _ => accepts_refuseIf fun _ => ?_
    split
    · unfold engineClaim; split
      · split
        · exact configView_printStart _ s _
        · trivial
      · split <;> trivial
    · exact configView_setRing s _
  · trivial

theorem releaseBody_keepsView : KeepsView s (releaseBody p l s) := by
  unfold releaseBody; split
  · trivial
  · exact accepts_refuseIf fun _ => accepts_refuseIf fun _ => rfl

theorem loadGarmentBody_keepsView : KeepsView s (loadGarmentBody l s) := by
  refine accepts_refuseIf fun _ => accepts_refuseIf fun _ => ?_
  split
  · trivial
  · split
    · trivial
    · exact configView_bindLine _ _ _

theorem sprayBody_keepsView : KeepsView s (sprayBody s) := by
  refine accepts_refuseIf fun _ => ?_
  split
  · trivial
  · refine accepts_refuseIf fun _ => accepts_refuseIf fun _ => accepts_refuseIf fun _ => ?_
    split <;> exact rfl

theorem gaugeChecks_keepsView {k : Fin 32 → Traveller → Pretreat → Answer} (h : ∀ i t r, KeepsView s (k i t r)) :
    KeepsView s (gaugeChecks s k) := by
  refine accepts_refuseIf fun _ => ?_
  split
  · trivial
  · exact accepts_refuseIf fun _ => accepts_refuseIf fun _ => h _ _ _

theorem gaugeDryBody_keepsView : KeepsView s (gaugeDryBody s) :=
  gaugeChecks_keepsView s fun _ _ _ => accepts_refuseIf fun _ => rfl

theorem gaugeWetBody_keepsView : KeepsView s (gaugeWetBody s) := by
  refine gaugeChecks_keepsView s fun _ _ _ => accepts_refuseIf fun _ => ?_
  split <;> trivial

theorem gaugeAbortBody_keepsView : KeepsView s (gaugeAbortBody s) := by
  unfold gaugeAbortBody; split
  · exact configView_stopPass s
  · split
    · exact configView_stopPass s
    · trivial

theorem pressDoneBody_keepsView : KeepsView s (pressDoneBody l s) := by
  refine accepts_refuseIf fun _ => accepts_refuseIf fun _ => ?_
  split
  · trivial
  · exact accepts_refuseIf fun _ => accepts_refuseIf fun _ => configView_putTrav s _ _

theorem onEngine_keepsView {k : Engine → State → Answer} (h : ∀ e, KeepsView s (k e s)) : KeepsView s (onEngine p k s) := by
  unfold onEngine; split
  · exact h _
  · trivial

theorem engineOnlineBody_keepsView : KeepsView s (engineOnlineBody e s) :=
  accepts_refuseIf fun _ => (configView_attempt _ e).trans (configView_returnToService s e id)

theorem engineOfflineBody_keepsView : KeepsView s (engineOfflineBody e s) := accepts_refuseIf fun _ => rfl

theorem engineFaultBody_keepsView : KeepsView s (engineFaultBody e s) := by
  unfold engineFaultBody; split
  · trivial
  · rfl
  · exact configView_faultPrinting e s _
  · exact configView_faultAssigned e s _
  all_goals exact configView_modEngine s _ _

theorem inkReportBody_keepsView : KeepsView s (inkReportBody l e s) :=
  accepts_refuseIf fun _ => (configView_attempt _ e).trans (configView_inkReported e s _)

theorem printDoneBody_keepsView : KeepsView s (printDoneBody l e s) := by
  unfold printDoneBody; dsimp only; split
  · trivial
  · refine accepts_refuseIf fun _ => accepts_refuseIf fun _ => ?_
    split
    · trivial
    · exact configView_settle e s _ _ _

theorem cleanStartBody_keepsView : KeepsView s (cleanStartBody e s) := accepts_refuseIf fun _ => rfl

theorem cleanDoneBody_keepsView : KeepsView s (cleanDoneBody e s) :=
  accepts_refuseIf fun _ => configView_attempt _ e

theorem tunnelEntryBody_keepsView : KeepsView s (tunnelEntryBody s) := by
  refine accepts_refuseIf fun _ => ?_
  split
  · trivial
  · exact accepts_refuseIf fun _ => accepts_refuseIf fun _ => accepts_refuseIf fun _ => rfl

theorem unloadDoneBody_keepsView : KeepsView s (unloadDoneBody s) := by
  refine accepts_refuseIf fun _ => ?_
  split
  · trivial
  · split
    · exact configView_closeScrap s _ _ _
    · exact configView_closeReturn s _ _
    all_goals trivial

theorem zoneTempsBody_keepsView : KeepsView s (zoneTempsBody l s) := by
  change configView (if anyClamped l then raise .tunnel .tempRange (storeZones (clampedTemps l) s)
    else storeZones (clampedTemps l) s) = configView s
  split <;> rfl

theorem exitPopBody_keepsView : KeepsView s (exitPopBody s) := by
  unfold exitPopBody; split <;> exact rfl

end

/-! ### Every command in turn -/

/-- A command frame keeps the ranges when the states that its own checks lead to do. -/
theorem inRange_command {p : Port} {code : Byte} {l : List Byte} {roles : List Port} {modes : List Mode} {ok : Bool}
    {body : State → Answer} {s : State} (hs : ConfigurationInRange s)
    (hb : ∀ u : State, ConfigurationInRange u → Accepts ConfigurationInRange (body u)) :
    ConfigurationInRange (command p code l roles modes ok body s) := by
  have hu : ConfigurationInRange (endFrame p (l.length + 2) false s) := inRange_congr (configView_endFrame _ _ _ s) hs
  cases ha : checked p roles modes ok body (endFrame p (l.length + 2) false s) with
  | refuse st data =>
    rw [command_refused ha, ← respond_endFrame]
    exact inRange_congr (configView_respond _ _ _ _ _) hu
  | accept t data =>
    obtain ⟨-, -, -, hbody⟩ := checked_accept ha
    have ht := hb _ hu
    rw [hbody] at ht
    rw [command_accepted ha]
    exact inRange_congr (configView_respond _ _ _ _ _) (inRange_congr (t := commit _ t) rfl ht)

/-- The same for a command whose effects leave what the ranges read. -/
theorem inRange_keepsView {p : Port} {code : Byte} {l : List Byte} {roles : List Port} {modes : List Mode} {ok : Bool}
    {body : State → Answer} {s : State} (hs : ConfigurationInRange s) (hb : ∀ u : State, KeepsView u (body u)) :
    ConfigurationInRange (command p code l roles modes ok body s) :=
  inRange_command hs fun u hu => (hb u).imp fun _ ht => inRange_congr ht hu

/-- An event that happens under a condition, and nothing when it fails. -/
theorem inRange_eventIf {c : Prop} [Decidable c] {f : State → State} {s : State} (hs : ConfigurationInRange s)
    (hf : configView (f s) = configView s) : ConfigurationInRange (if c then event f s else s) := by
  split
  · exact inRange_congr (t := commit s (f s)) hf hs
  · exact hs

/-- R155: power-on leaves the defaults, no valid fabric class and no stage. -/
theorem inRange_powerOn (s : State) : ConfigurationInRange (powerOnState s) := by
  have hstage (p : Port) : ((powerOnState s).port p).stage = none := by
    have hport : (powerOnState s).port p = .reset := Tab.get_fill _ _
    rw [hport]; rfl
  have hfabric (k : Fin 8) : (powerOnState s).setup.fabrics.get k = ⟨.reset, 0⟩ := Tab.get_fill _ _
  have hdefault : constantsInRange .default = true := by decide
  refine ⟨hdefault, fun k hk => ?_, fun p g hg => ?_⟩
  · rw [hfabric] at hk
    cases hk
  · rw [hstage] at hg
    cases hg

/-- R143: a link reset empties the stage of its port. -/
theorem inRange_linkReset {s : State} (hs : ConfigurationInRange s) (p : Port) : ConfigurationInRange (linkResetPort p s) := by
  refine ⟨hs.1, hs.2.1, fun q g hq => ?_⟩
  rw [linkResetPort, port_modPort] at hq
  split at hq
  · cases hq
  · exact hs.2.2 q g hq

/-- The state that an outcome leads to has its configuration in range. -/
def LeadsInRange : Host.Outcome State Fault Refusal → Prop
  | .next t => ConfigurationInRange t
  | .fault _ | .refused _ => True

theorem exec_inRange (c : Instr) {s : State} (hs : ConfigurationInRange s) : LeadsInRange (exec c s) := by
  have hend (p : Port) (n : Nat) (b : Bool) : ConfigurationInRange (endFrame p n b s) :=
    inRange_congr (configView_endFrame p n b s) hs
  have hevent {f : State → State} (hf : configView (f s) = configView s) : ConfigurationInRange (event f s) :=
    inRange_congr (t := commit s (f s)) hf hs
  cases c with
  | powerOn | resetPin => exact inRange_powerOn s
  | read p rest => exact hend p _ _
  | linkReset p rest => exact inRange_linkReset (hend p _ _) p
  | emptyFrame p => exact hend p _ _
  | frameMalformed p | unknownCommand p => exact inRange_congr (configView_respond _ _ _ _ _) (hend p _ _)
  | ident p l => exact inRange_keepsView hs fun u => rfl
  | capture p l => exact inRange_command hs fun u hu => captureBody_inRange hu p l
  | readStage p l => exact inRange_command hs fun u hu => readStageBody_inRange hu p l
  | editStage p l => exact inRange_command hs fun u hu => editStageBody_inRange hu p l
  | update p l => exact inRange_command hs fun u hu => updateBody_inRange hu p
  | service p l => exact inRange_keepsView hs fun u => rfl
  | rearm p l => exact inRange_keepsView hs fun u => rfl
  | clearNotices p l => exact inRange_keepsView hs (clearNoticesBody_keepsView p l)
  | setEnables p l => exact inRange_keepsView hs (setEnablesBody_keepsView p l)
  | placeOrder p l => exact inRange_keepsView hs (placeOrderBody_keepsView l)
  | cancelOrder p l => exact inRange_keepsView hs (cancelOrderBody_keepsView l)
  | releaseOrder p l => exact inRange_keepsView hs (releaseOrderBody_keepsView l)
  | start p l => exact inRange_keepsView hs (startBody_keepsView l)
  | stop p l => exact inRange_keepsView hs stopBody_keepsView
  | hold p l => exact inRange_keepsView hs holdBody_keepsView
  | resume p l => exact inRange_keepsView hs (resumeBody_keepsView l)
  | lineReset p l => exact inRange_keepsView hs configView_lineReset
  | lineAssign p l => exact inRange_keepsView hs (lineAssignBody_keepsView l)
  | lineConfig p l => exact inRange_keepsView hs (lineConfigBody_keepsView l)
  | lineSet p l => exact inRange_keepsView hs fun u => rfl
  | lineToggle p l => exact inRange_keepsView hs fun u => rfl
  | lineRead p l => exact inRange_keepsView hs fun u => rfl
  | lineFilteredEdge k => exact hevent (configView_filterElapsed s k)
  | claim p l => exact inRange_keepsView hs (claimBody_keepsView p l)
  | release p l => exact inRange_keepsView hs (releaseBody_keepsView p l)
  | loadGarment p l => exact inRange_keepsView hs (loadGarmentBody_keepsView l)
  | index => exact hevent (configView_functionEdge s .indexPulse true)
  | claimWindowExpiry e => exact hevent (configView_claimWindowExpiry e s)
  | spray p l => exact inRange_keepsView hs sprayBody_keepsView
  | strokeActivePhase => exact hevent (configView_strokeActivePhase s)
  | strokeDelivered => exact hevent (configView_strokeDelivered s)
  | sprayPassEnd => exact inRange_eventIf hs (configView_strokeDelivered s)
  | pumpFault => exact hevent (configView_functionEdge s .pumpFault true)
  | pumpFaultClear => exact hevent (configView_functionEdge s .pumpFault false)
  | gaugeDry p l => exact inRange_keepsView hs gaugeDryBody_keepsView
  | gaugeWet p l => exact inRange_keepsView hs gaugeWetBody_keepsView
  | gaugeOscEdge e => exact hevent (configView_functionEdge s (oscFunction e) true)
  | dryPassEnd | gaugeWetOverflow =>
    exact inRange_eventIf hs (configView_functionEdge s (oscFunction s.gauge.electrode) true)
  | gaugeDryTimeout | wetPassEnd => exact inRange_eventIf hs (configView_tick s)
  | gaugeAbort p l => exact inRange_keepsView hs gaugeAbortBody_keepsView
  | pressDone p l => exact inRange_keepsView hs (pressDoneBody_keepsView l)
  | engineOnline p l => exact inRange_keepsView hs fun u => onEngine_keepsView p u fun e => engineOnlineBody_keepsView e u
  | engineOffline p l => exact inRange_keepsView hs fun u => onEngine_keepsView p u fun e => engineOfflineBody_keepsView e u
  | engineFault p l => exact inRange_keepsView hs fun u => onEngine_keepsView p u fun e => engineFaultBody_keepsView e u
  | inkReport p l => exact inRange_keepsView hs fun u => onEngine_keepsView p u fun e => inkReportBody_keepsView l e u
  | printDone p l => exact inRange_keepsView hs fun u => onEngine_keepsView p u fun e => printDoneBody_keepsView l e u
  | cleanStart p l => exact inRange_keepsView hs fun u => onEngine_keepsView p u fun e => cleanStartBody_keepsView e u
  | cleanDone p l => exact inRange_keepsView hs fun u => onEngine_keepsView p u fun e => cleanDoneBody_keepsView e u
  | tunnelEntry p l => exact inRange_keepsView hs tunnelEntryBody_keepsView
  | unloadDone p l => exact inRange_keepsView hs unloadDoneBody_keepsView
  | zoneTemps p l => exact inRange_keepsView hs (zoneTempsBody_keepsView l)
  | staleTimerExpiry => exact hevent (configView_staleExpiry s)
  | sampleTimerExpiry => exact hevent (configView_sampleExpiry s)
  | encoderPulse => exact hevent (configView_functionEdge s .beltEnc true)
  | tunnelExit => exact inRange_eventIf hs (configView_functionEdge s .beltEnc true)
  | exitPop p l => exact inRange_keepsView hs exitPopBody_keepsView
  | timebaseTick => exact hevent (configView_tick s)
  | pinChange k level => exact hevent (configView_followPin _ k _)

/-- Settles O57: the front command keeps the ranges, and so does a moment of the receivers. -/
theorem stepKeepsConfigurationInRange : Obligations.StepKeepsConfigurationInRange := by
  intro s t hs ht
  have hstep : LeadsInRange (step s) := by
    unfold step
    split
    · exact inRange_congr (configView_busTick s) hs
    · exact exec_inRange _ (inRange_congr rfl hs)
  rw [ht] at hstep
  exact hstep

end Sys2Proof.StationPorts
end

