-- ==== Sys2Proof/Proofs/NoticeUnit/Flags.lean ====
section
/-! PROOF. The notice flags of one port bit by bit, and the raise of a source (O10). -/

namespace Sys2Proof.NoticeUnit

open Sys2Proof Sys2Proof.Machine Sys2Proof.PlatenRing

/-! ### One flag of a word set or cleared -/

theorem getLsbD_one_shiftLeft {w k : Nat} (h : k < w) (n : Nat) : (1#w <<< k).getLsbD n = decide (n = k) :=
  (BitVec.getLsbD_twoPow k n).trans (by simp [h, eq_comm])

theorem getLsbD_or_one_shiftLeft {w k : Nat} (h : k < w) (m : BitVec w) (n : Nat) :
    (m ||| (1#w <<< k)).getLsbD n = (m.getLsbD n || decide (n = k)) := by
  rw [BitVec.getLsbD_or, getLsbD_one_shiftLeft h]

theorem getLsbD_and_not_one_shiftLeft {w k : Nat} (h : k < w) (m : BitVec w) (n : Nat) :
    (m &&& ~~~(1#w <<< k)).getLsbD n = (m.getLsbD n && decide (n ≠ k)) := by
  rw [BitVec.getLsbD_and, BitVec.getLsbD_not, getLsbD_one_shiftLeft h]
  by_cases hn : n < w
  · simp [hn]
  · simp [BitVec.getLsbD_of_ge m n (by omega)]

/-! ### Sources and groups of a port (R150, Table 12-6) -/

theorem sourceCount_le (p : Port) : sourceCount p ≤ 16 := by cases p <;> decide

theorem sourceNo_lt {p : Port} {x : Source} {k : Nat} (h : sourceNo p x = some k) : k < sourceCount p := by
  obtain ⟨hlt, -⟩ := List.findIdx?_eq_some_iff_getElem.mp h
  exact hlt

/-- Every source belongs to one of the three group flags a port can have. -/
theorem groupOf_lt (p : Port) (k : Nat) : groupOf p k < 3 := by
  have hall : ∀ g ∈ sourceGroups p, g < 3 := by cases p <;> decide
  by_cases hk : k < (sourceGroups p).length
  · rw [groupOf, List.getD_eq_getElem _ _ hk]
    exact hall _ (List.getElem_mem hk)
  · rw [groupOf, List.getD_eq_default _ _ (by omega)]
    decide

/-! ### The group flag of a source -/

section
variable (p : Port) (k : Nat) (n : NoticeState)

@[simp] theorem setGroup_pending : (setGroup p k n).pending = n.pending := rfl
@[simp] theorem setGroup_enabled : (setGroup p k n).enabled = n.enabled := rfl
@[simp] theorem setGroup_armed : (setGroup p k n).armed = n.armed := rfl

theorem getLsbD_setGroup_groups (g : Nat) :
    (setGroup p k n).groups.getLsbD g = (n.groups.getLsbD g || decide (g = groupOf p k)) :=
  getLsbD_or_one_shiftLeft (groupOf_lt p k) n.groups g

/-! ### A source raised (R151) -/

@[simp] theorem raiseNo_pending : (raiseNo p k n).pending = n.pending ||| (1#16 <<< k) := by
  unfold raiseNo
  split <;> rfl

@[simp] theorem raiseNo_enabled : (raiseNo p k n).enabled = n.enabled := by
  unfold raiseNo
  split <;> rfl

@[simp] theorem raiseNo_armed : (raiseNo p k n).armed = n.armed := by
  unfold raiseNo
  split <;> rfl

theorem getLsbD_raiseNo_groups (g : Nat) :
    (raiseNo p k n).groups.getLsbD g =
      (n.groups.getLsbD g || (n.enabled.getLsbD k && decide (g = groupOf p k))) := by
  unfold raiseNo
  split
  · rename_i hen
    simp [getLsbD_setGroup_groups, hen]
  · rename_i hen
    simp [hen]

/-! ### An enable switched (R154) -/

@[simp] theorem enableSource_pending : (enableSource p k n).pending = n.pending := by
  unfold enableSource
  split <;> rfl

@[simp] theorem enableSource_enabled : (enableSource p k n).enabled = n.enabled ||| (1#16 <<< k) := by
  unfold enableSource
  split <;> rfl

@[simp] theorem enableSource_armed : (enableSource p k n).armed = n.armed := by
  unfold enableSource
  split <;> rfl

theorem getLsbD_enableSource_groups (g : Nat) :
    (enableSource p k n).groups.getLsbD g =
      (n.groups.getLsbD g || (n.pending.getLsbD k && decide (g = groupOf p k))) := by
  unfold enableSource
  split
  · rename_i hpend
    simp [getLsbD_setGroup_groups, hpend]
  · rename_i hpend
    simp [hpend]

@[simp] theorem disableSource_pending : (disableSource k n).pending = n.pending := rfl
@[simp] theorem disableSource_groups : (disableSource k n).groups = n.groups := rfl
@[simp] theorem disableSource_armed : (disableSource k n).armed = n.armed := rfl
@[simp] theorem disableSource_enabled : (disableSource k n).enabled = n.enabled &&& ~~~(1#16 <<< k) := rfl

end

/-- Settles O10: the raise of a source is the raise of its number in the notice state of its port. -/
theorem raiseSetsFlags : Obligations.RaiseSetsFlags := by
  intro p x k s hx
  have hk : k < 16 := (sourceNo_lt hx).trans_le (sourceCount_le p)
  have hown : (raise p x s).notice p = raiseNo p k (s.notice p) := by simp [notice_raise, raiseSource, hx]
  rw [hown]
  refine ⟨?_, fun n hn => ?_, raiseNo_enabled p k _, raiseNo_armed p k _, getLsbD_raiseNo_groups p k _, fun q hq => ?_⟩
  · simp [getLsbD_or_one_shiftLeft hk]
  · simp [getLsbD_or_one_shiftLeft hk, hn]
  · rw [notice_raise, if_neg hq]

end Sys2Proof.NoticeUnit
end

