-- ==== Sys2Proof/Proofs/NoticeUnit/Commands.lean ====
section
/-! PROOF. The commands of the notice unit: SERVICE, CLEAR_NOTICES and SET_ENABLES (O11), and REARM (O12). -/

namespace Sys2Proof.NoticeUnit

open Sys2Proof Sys2Proof.Machine Sys2Proof.PlatenRing Sys2Proof.StationPorts

/-! ### Commands of every port in every mode that write the notice state of their own port (Table 9-2) -/

/-- What such a command leaves: OK with `data` on port `p`, whose notice state is `n`, and nothing else. -/
structure Noticed (p : Port) (code : Byte) (l data : List Byte) (n : NoticeState) (s t : State) : Prop where
  keeps : Keeps [.notices, .ports] s t
  ports : t.ports = answered p code l .ok data s
  own : t.notice p = n
  others : ∀ q : Port, q ≠ p → t.notice q = s.notice q

theorem notice_modNotice (p q : Port) (f : NoticeState → NoticeState) (s : State) :
    (modNotice p f s).notice q = if q = p then f (s.notice p) else s.notice q := by
  simp only [State.notice, modNotice, setNotices_notices, Tab.get_set, portNo_inj]

theorem keeps_modNotice {changed : List Block} (h : Block.notices ∈ changed) (p : Port) (f : NoticeState → NoticeState)
    (s : State) : Keeps changed s (modNotice p f s) := by
  refine ⟨rfl, rfl, fun b hb => ?_⟩
  cases b with
  | notices => exact absurd h hb
  | _ => rfl

/-- R144: a command that its checks take and whose effect is `f` on its port's notice state. -/
theorem command_noticed {p : Port} {code : Byte} {l data : List Byte} {ok : Bool} {body : State → Answer}
    {f : NoticeState → NoticeState} {s : State} (hl : ok = true)
    (hb : body (endFrame p (l.length + 2) false s) =
      .accept (modNotice p f (endFrame p (l.length + 2) false s)) data) :
    Noticed p code l data (f (s.notice p)) s (command p code l allPorts anyMode ok body s) := by
  rw [command_taken (mem_allPorts p) (DiscreteLines.mem_anyMode s) hl hb]
  exact {
    keeps := keeps_taken (by simp) (keeps_modNotice (by simp) _ _ _) (serialsKept_of_table rfl)
    ports := accepted_ports rfl
    own := by
      rw [notice_respond, notice_commit, notice_modNotice, if_pos rfl]
      rfl
    others := fun q hq => by
      rw [notice_respond, notice_commit, notice_modNotice, if_neg hq]
      rfl }

/-! ### SERVICE (R152) -/

/-- The flags of every group that the port has are cleared. -/
theorem getLsbD_serviced_groups {p : Port} {g : Nat} (h : g < (portGroups p).length) (n : NoticeState) :
    (serviced p n).groups.getLsbD g = false := by
  simp [serviced, BitVec.getLsbD_ofNat, Nat.testBit_two_pow_sub_one, h]

theorem exec_service (p : Port) (s : State) :
    ∃ t : State, exec (.service p []) s = .next t ∧
      Noticed p 0x06 [] (serviceReport p (s.notice p)) (serviced p (s.notice p)) s t :=
  ⟨_, rfl, command_noticed rfl rfl⟩

/-! ### CLEAR_NOTICES (R154) -/

theorem clearedSources_toNat (sel : BitVec 16) (n : NoticeState) :
    clearedSources sel.toNat n = { n with pending := n.pending &&& ~~~sel } := by simp [clearedSources]

/-- R163: the two bytes of a selection carry it whole. -/
theorem clearNoticesBody_eq (p : Port) (sel : BitVec 16) (s : State) :
    clearNoticesBody p (bytes16 sel.toNat) s =
      if sel.toNat < 2 ^ sourceCount p then .accept (modNotice p (clearedSources sel.toNat) s) []
      else .refuse .arg [] := by
  have hsel : u16At (bytes16 sel.toNat) 0 = sel.toNat := by
    simpa using Pretreatment.u16At_bytes16 sel.isLt []
  by_cases hin : sel.toNat < 2 ^ sourceCount p <;> simp [clearNoticesBody, selectionInPort, hsel, hin]

theorem exec_clearNotices {p : Port} {sel : BitVec 16} (h : sel.toNat < 2 ^ sourceCount p) (s : State) :
    ∃ t : State, exec (.clearNotices p (bytes16 sel.toNat)) s = .next t ∧
      Noticed p 0x08 (bytes16 sel.toNat) [] { s.notice p with pending := (s.notice p).pending &&& ~~~sel } s t := by
  rw [← clearedSources_toNat]
  exact ⟨_, rfl, command_noticed rfl ((clearNoticesBody_eq _ _ _).trans (if_pos h))⟩

theorem exec_clearNotices_refused {p : Port} {sel : BitVec 16} (h : ¬ sel.toNat < 2 ^ sourceCount p) (s : State) :
    exec (.clearNotices p (bytes16 sel.toNat)) s = .next (refused p 0x08 (bytes16 sel.toNat) .arg [] s) :=
  congrArg Host.Outcome.next (command_rejected (mem_allPorts p) (DiscreteLines.mem_anyMode s) rfl
    ((clearNoticesBody_eq _ _ _).trans (if_neg h)))

/-! ### SET_ENABLES (R154) -/

/-- R154: the notice state after the enable of source `k` is switched to `on`. -/
def switched (p : Port) (k : Nat) (on : Bool) (n : NoticeState) : NoticeState :=
  if on then enableSource p k n else disableSource k n

section
variable (p : Port) (k : Nat) (on : Bool) (n : NoticeState)

theorem switched_pending : (switched p k on n).pending = n.pending := by cases on <;> simp [switched]

theorem switched_armed : (switched p k on n).armed = n.armed := by cases on <;> simp [switched]

theorem getLsbD_switched_groups (g : Nat) :
    (switched p k on n).groups.getLsbD g =
      (n.groups.getLsbD g || (on && n.pending.getLsbD k && decide (g = groupOf p k))) := by
  cases on with
  | false => simp [switched]
  | true => simp [switched, getLsbD_enableSource_groups]

end

theorem getLsbD_switched_enabled {k : Nat} (h : k < 16) (p : Port) (on : Bool) (n : NoticeState) (m : Nat) :
    (switched p k on n).enabled.getLsbD m = if m = k then on else n.enabled.getLsbD m := by
  cases on with
  | false =>
    rw [switched, if_neg (by decide), disableSource_enabled, getLsbD_and_not_one_shiftLeft h]
    by_cases hm : m = k <;> simp [hm]
  | true =>
    rw [switched, if_pos rfl, enableSource_enabled, getLsbD_or_one_shiftLeft h]
    by_cases hm : m = k <;> simp [hm]

section
variable {k : Nat} (hk : k < 256)
include hk

/-- The source number and the setting are read from their bytes. -/
theorem setEnablesBody_eq (p : Port) (on : Bool) (s : State) :
    setEnablesBody p [BitVec.ofNat 8 k, if on then 1 else 0] s =
      if k < sourceCount p then .accept (modNotice p (switched p k on) s) [] else .refuse .arg [] := by
  unfold setEnablesBody
  rw [byteAt_cons_ofNat hk]
  by_cases hin : k < sourceCount p
  · rw [refuseIf_neg (by omega), if_pos hin]
    cases on <;> rfl
  · rw [refuseIf_pos (by omega), if_neg hin]

theorem exec_setEnables {p : Port} (h : k < sourceCount p) (on : Bool) (s : State) :
    ∃ t : State, exec (.setEnables p [BitVec.ofNat 8 k, if on then 1 else 0]) s = .next t ∧
      Noticed p 0x09 [BitVec.ofNat 8 k, if on then 1 else 0] [] (switched p k on (s.notice p)) s t :=
  ⟨_, rfl, command_noticed rfl ((setEnablesBody_eq hk _ _ _).trans (if_pos h))⟩

theorem exec_setEnables_refused {p : Port} (h : ¬ k < sourceCount p) (on : Bool) (s : State) :
    exec (.setEnables p [BitVec.ofNat 8 k, if on then 1 else 0]) s =
      .next (refused p 0x09 [BitVec.ofNat 8 k, if on then 1 else 0] .arg [] s) :=
  congrArg Host.Outcome.next (command_rejected (mem_allPorts p) (DiscreteLines.mem_anyMode s) rfl
    ((setEnablesBody_eq hk _ _ _).trans (if_neg h)))

end

/-- Settles O11: each command is taken as its effect on the notice state of its port, or refused. -/
theorem serviceClearEnable : Obligations.ServiceClearEnable := by
  refine ⟨fun p s => ?_, fun p s => ⟨fun sel => ?_, fun k on hk => ?_⟩⟩
  · obtain ⟨t, hexec, hkeeps, hports, hown, hothers⟩ := exec_service p s
    refine ⟨t, hexec, hkeeps, hports, ?_, ?_, ?_, fun g hg => ?_, ?_, hothers⟩ <;> rw [hown]
    · rfl
    · rfl
    · rfl
    · exact getLsbD_serviced_groups hg _
    · rfl
  · split
    · rename_i hin
      obtain ⟨t, hexec, hkeeps, -, hown, hothers⟩ := exec_clearNotices hin s
      exact ⟨t, hexec, hkeeps, hown, hothers⟩
    · rename_i hout
      exact exec_clearNotices_refused hout s
  · split
    · rename_i hin
      have hk16 : k < 16 := hin.trans_le (sourceCount_le p)
      obtain ⟨t, hexec, hkeeps, -, hown, hothers⟩ := exec_setEnables hk hin on s
      refine ⟨t, hexec, hkeeps, ?_, ?_, fun n => ?_, fun g => ?_, hothers⟩ <;> rw [hown]
      · exact switched_pending p k on _
      · exact switched_armed p k on _
      · exact getLsbD_switched_enabled hk16 p on _ n
      · exact getLsbD_switched_groups p k on _ g
    · rename_i hout
      exact exec_setEnables_refused hk hout on s

/-! ### REARM (R153) -/

/-- R150: on an armed port the attention line follows the group flags. -/
theorem attention_rearmed (n : NoticeState) : attention (rearmed n) = true ↔ n.groups ≠ 0 := by
  rw [attention, rearmed, Bool.true_and, decide_eq_true_iff]

theorem exec_rearm (p : Port) (s : State) :
    ∃ t : State, exec (.rearm p []) s = .next t ∧ Noticed p 0x07 [] [] (rearmed (s.notice p)) s t :=
  ⟨_, rfl, command_noticed rfl rfl⟩

/-- Settles O12: REARM is taken as `rearmed` on the notice state of its port. -/
theorem rearmArmsPort : Obligations.RearmArmsPort := by
  intro p s
  obtain ⟨t, hexec, hkeeps, hports, hown, hothers⟩ := exec_rearm p s
  have hport := port_of_answered hports
  refine ⟨t, hexec, hkeeps, ?_, ?_, fun q hq => port_of_answered_ne hports hq, hown, ?_, hothers⟩
  · rw [hport]
  · rw [hport]
  · rw [hown]
    exact attention_rearmed _

end Sys2Proof.NoticeUnit
end

