-- ==== Sys2Proof/Proofs/Modes/PowerOn.lean ====
section
/-! PROOF. What power-on and the RESET pin leave in every block, and the conditions that hold there (O1, O54). -/

namespace Sys2Proof.Modes

open Sys2Proof Sys2Proof.Machine

/-! ### What each accessor reads after power-on (R155) -/

section
variable (s : State)

theorem exec_powerOn : exec .powerOn s = .next (powerOnState s) := by rfl
theorem exec_resetPin : exec .resetPin s = .next (powerOnState s) := by rfl

@[simp] theorem powerOnState_exits : (powerOnState s).exits = [] := rfl
@[simp] theorem powerOnState_pre : (powerOnState s).pre = ⟨none, 0, false⟩ := rfl
@[simp] theorem powerOnState_gauge : (powerOnState s).gauge = .reset := rfl
@[simp] theorem powerOnState_tunnel : (powerOnState s).tunnel = .reset := rfl

theorem powerOnState_passInFlight : (powerOnState s).passInFlight = false := rfl

theorem powerOnState_orderSlot (k : Fin 64) : (powerOnState s).book.slots.get k = ⟨0, none⟩ := Tab.get_fill _ _

theorem powerOnState_travSlot (i : Fin 32) : (powerOnState s).table.slots.get i = ⟨0, none⟩ := Tab.get_fill _ _

@[simp] theorem powerOnState_order? (k : Fin 64) : (powerOnState s).order? k = none :=
  congrArg OrderSlot.order (powerOnState_orderSlot s k)

@[simp] theorem powerOnState_trav? (i : Fin 32) : (powerOnState s).trav? i = none :=
  congrArg TravSlot.trav (powerOnState_travSlot s i)

@[simp] theorem powerOnState_line? (k : Fin 64) (j : Fin 8) : (powerOnState s).line? k j = none := by
  simp [State.line?]

@[simp] theorem powerOnState_carried (p : Fin 12) : (powerOnState s).ring.carried.get p = none := Tab.get_fill _ _

@[simp] theorem powerOnState_claimAt (st : Station) : (powerOnState s).claimAt st = none := Tab.get_fill _ _

@[simp] theorem powerOnState_awaitingAt (e : Engine) : (powerOnState s).awaitingAt e = none := Tab.get_fill _ _

@[simp] theorem powerOnState_lapseAt (e : Engine) : (powerOnState s).lapseAt e = none := Tab.get_fill _ _

@[simp] theorem powerOnState_ringRev (k : Fin 12) : (powerOnState s).ring.revs.get k = 0 := Tab.get_fill _ _

@[simp] theorem powerOnState_engine (e : Engine) : (powerOnState s).engine e = .reset := Tab.get_fill _ _

theorem powerOnState_zone (z : Fin 3) : (powerOnState s).tunnel.zones.get z = none := Tab.get_fill _ _

@[simp] theorem powerOnState_port (p : Port) : (powerOnState s).port p = .reset := Tab.get_fill _ _

@[simp] theorem powerOnState_notice (p : Port) : (powerOnState s).notice p = .reset := Tab.get_fill _ _

@[simp] theorem powerOnState_fabric (k : Fin 8) : (powerOnState s).setup.fabrics.get k = ⟨.reset, 0⟩ := Tab.get_fill _ _

/-- Table 8-2 with log entry 9: no line drives its pin, and the filtered level is the pin's. -/
@[simp] theorem powerOnState_line (l : Fin 24) :
    (powerOnState s).lines.get l = .reset (s.lines.get l).outside := Tab.get_ofFn _ _

end

/-- Settles O1: both events lead to `powerOnState`, read block by block. -/
theorem powerOnClearsEveryBlock : Obligations.PowerOnClearsEveryBlock := by
  intro s
  refine ⟨powerOnState s, exec_powerOn s, exec_resetPin s, ?mode, ?constants, ?fabrics, ?orders, ?seq, ?travellers, ?serial,
    ?exits, ?load, ?synced, ?carried, ?claims, ?waiting, ?ringRevs, ?pre, ?gauge, ?engines, ?queue, ?encoder, ?zones, ?stale,
    ?sample, ?sampled, ?tunnelRev, ?constantsRev, ?fabricRevs, ?ports, ?lines, ?bus, ?pending⟩
  case fabrics => exact fun k => congrArg FabricSlot.cls (powerOnState_fabric s k)
  case orders => exact powerOnState_orderSlot s
  case travellers => exact powerOnState_travSlot s
  case carried => exact powerOnState_carried s
  case claims => exact powerOnState_claimAt s
  case waiting => exact fun e => ⟨powerOnState_awaitingAt s e, powerOnState_lapseAt s e⟩
  case ringRevs => exact powerOnState_ringRev s
  case engines => exact powerOnState_engine s
  case zones => exact powerOnState_zone s
  case fabricRevs => exact fun k => congrArg FabricSlot.rev (powerOnState_fabric s k)
  case ports => exact fun p => ⟨powerOnState_port s p, powerOnState_notice s p⟩
  case lines => exact powerOnState_line s
  all_goals rfl

/-! ### The conditions that hold after power-on -/

section
variable (s : State)

/-- R155: no pass survives power-on. -/
theorem passGuarded_powerOn : PassGuarded (powerOnState s) :=
  Pretreatment.passGuarded_of_idle (powerOnState_passInFlight s)

/-- Table 9-1: the empty lists, and in each holder the command byte and status alone. -/
theorem listsBounded_powerOn : ListsBounded (powerOnState s) := by
  refine ⟨Nat.zero_le _, Nat.zero_le _, fun p => ?_, fun i t ht => ?_⟩
  · rw [powerOnState_port]
    decide
  · simp at ht

/-- No traveller is open and the exit list is empty, so there is no serial. -/
theorem serialsDistinct_powerOn : SerialsDistinct (powerOnState s) := by
  simp [SerialsDistinct]

/-- No order is live and no traveller is open. -/
theorem bookConsistent_powerOn : BookConsistent (powerOnState s) := by
  refine ⟨fun k j l hl => ?_, fun i t ht => ?_, fun k o ho => ?_⟩
  · simp at hl
  · simp at ht
  · simp at ho

/-- Table 6-2: an OFFLINE engine holds no traveller, no reservation and no place on the ring. -/
theorem engineConsistent_powerOn (e : Engine) : EngineConsistent (powerOnState s) e := by
  simp [EngineConsistent, EngineRec.reset]

/-- R155, R157: an empty ring, which nothing holds, and an empty tunnel. -/
theorem floorConsistent_powerOn : FloorConsistent (powerOnState s) where
  guarded := passGuarded_powerOn s
  carried := fun p i => by simp
  claims := fun st c hc => by simp at hc
  booth := fun i hi => by simp [Gauge.reset] at hi
  engines := engineConsistent_powerOn s
  held := fun i t ht => by simp at ht
  tunnel := by simp [TunnelConsistent, Tunnel.reset]
  quiet := fun _ => ⟨powerOnState_trav? s, rfl, rfl⟩

end

/-- R155: the part right after power-on is where a power-on of it leads again. -/
theorem powerOnState_reset : powerOnState .reset = .reset := by
  have hlines : (Tab.ofFn fun l => Line.reset (State.reset.lines.get l).outside) = State.reset.lines :=
    Tab.ext_get fun l => by simp [State.reset, Line.reset]
  rw [powerOnState, hlines]
  rfl

/-- Settles O54: the conditions hold after a power-on in any state, and the reset state is one of those it leads to. -/
theorem resetMeetsInvariants : Obligations.ResetMeetsInvariants := by
  unfold Obligations.ResetMeetsInvariants
  rw [← powerOnState_reset]
  exact ⟨passGuarded_powerOn _, listsBounded_powerOn _, StationPorts.inRange_powerOn _, serialsDistinct_powerOn _,
    bookConsistent_powerOn _, floorConsistent_powerOn _⟩

end Sys2Proof.Modes
end
